-- ==== Sys2Proof/Word.lean ====
section
/-! DEFINITION. The widths of the part's values: bytes, station numbers, station sets, chunk masks and signatures. -/

namespace Sys2Proof

/-- A byte on the peer line, the store port or the host port; bit 7 is the most significant (00_scope §7). -/
abbrev Byte := BitVec 8

/-- A segment number as frames and host commands carry it: two bytes (R188, R191). -/
abbrev SegNum := BitVec 16

/-- The 32-bit signature of a copy, and the 32-bit bank digest (R4, R18). -/
abbrev Signature := BitVec 32

/-- A station number 1 to 15; 0 names "all stations" in a target field and is no station (00_scope §6). -/
abbrev Station := BitVec 4

/-- A set of stations in the form of R192: station `s` is a member when bit `s` is 1. -/
abbrev StationSet := BitVec 16

/-- A set of chunks in the form of R188: chunk `c` is a member when bit `c` is 1. -/
abbrev ChunkMask := BitVec 8

/-- A chunk number 0 to 7. -/
abbrev Chunk := BitVec 3

end Sys2Proof
end

