-- ==== Sys2Proof/Config.lean ====
section
/-! DEFINITION. The fixed numbers of the part: capacities, polynomials, markers and intervals, each with its rule.
The one value the spec leaves open, an order of two deliveries, is the opaque constant at the end. -/

namespace Sys2Proof.Config

/-- R34: the outbox holds at most 12 descriptors. -/
def outboxCapacity : Nat := 12

/-- R69: the repair queue never holds more than 32 entries. -/
def repairCapacity : Nat := 32

/-- R85: the suspend stack holds at most 2 entries. -/
def stackCapacity : Nat := 2

/-- R77: the pin list holds 0 to 8 segment numbers. -/
def pinCapacity : Nat := 8

/-- R108: the serve queue holds up to 4 entries. -/
def serveCapacity : Nat := 4

/-- R120: the dispute table has up to 4 entries. -/
def disputeCapacity : Nat := 4

/-- R184: ordinary records fill the event queue up to 15; the 16th place is for LOST. -/
def eventRoom : Nat := 15

/-- R93, R94, R96: a job whose attempts reach 4 ends exhausted. -/
def attemptLimit : Nat := 4

/-- R12: write failures rise up to 2, where the record is held. -/
def failureLimit : Nat := 2

/-- R29: the clash count holds 0 to 3; at 3 the clash limit is reported. -/
def clashLimit : Nat := 3

/-- R113: at most two DATA descriptors of the head are outstanding. -/
def paceLimit : Nat := 2

/-- R131: the round in which a vote is abandoned. -/
def lastRound : Nat := 3

/-- R4: the polynomial of the signature register. -/
def signaturePoly : Signature := 0x8D2E47B3#32

/-- R4: the starting value of the signature register. -/
def signatureStart : Signature := 0xFFFFFFFF#32

/-- R25: the polynomial of the frame check. -/
def checkPoly : BitVec 16 := 0x5935#16

/-- R25: the starting value of the frame check. -/
def checkStart : BitVec 16 := 0xFFFF#16

/-- R139: the magic bytes of a prepared store. -/
def magic : BitVec 32 := 0xC3A55A3C#32

/-- R139: the layout number. -/
def layout : Byte := 1#8

/-- R140: the marker byte of a written slot's trailer. -/
def marker : Byte := 0x5A#8

/-- R137: the byte an absent store device is read as. -/
def absentByte : Byte := 0xFF#8

/-- A segment's data bytes (00_scope §6). -/
def segmentBytes : Nat := 256

/-- R140: a slot is 256 data bytes and an eight-byte trailer. -/
def slotBytes : Nat := 264

/-- R138: the header is 12 bytes. -/
def headerBytes : Nat := 12

/-- R138: the address of slot 0. -/
def slotBase : Nat := 512

/-- Segments of one bank (00_scope §6). -/
def bankSize : Nat := 64

/-- R142, R145, R146: the bound of each status poll, in milliseconds. -/
def pollMs : Nat := 20

/-- Fuel of the fetch engine's pick loop (R86): more than the number of jobs one pick can run through. -/
def pickFuel : Nat := 2048

/-- Fuel of the Serve Unit's loop (R111, R113): more than the offers and notices one happening can cause. -/
def serveFuel : Nat := 512

/-- Fuel of the taking-up of waiting disputes (R123): more than the number of records. -/
def takeUpFuel : Nat := 2048

/-- R33, R126: whether, the n-th time the spec leaves that order free, a POLL body reaches the Segment Table before the
Dispute Unit. A free value: nothing is known of it (assumption log 18). -/
opaque tableFirst (n : Nat) : Bool

end Sys2Proof.Config
end

