-- ==== Sys2Proof/Syntax.lean ====
section
/-! DEFINITION. The commands of the part: one constructor per row of spec/opcode_table.json, with the values that
come from outside with it (bytes clocked in from the store device, the fields of a received frame, a host command's
arguments, the number of the timer that ran out); and the frames of the peer line. -/

namespace Sys2Proof

/-- A stamp version/origin in the three bytes of the formats (R1, chapter 11). -/
structure Stamp where
  version : BitVec 16
  origin : Byte
  deriving DecidableEq, Repr

/-- What a station declares about its copy in a signature list (R19, R188). -/
inductive Standing where
  | none
  | holds
  | doubt
  deriving DecidableEq, Repr

/-- One entry of a SIGLIST body (R188). -/
structure SigEntry where
  stamp : Stamp
  standing : Standing
  signature : Signature
  deriving DecidableEq, Repr

/-- The body of a frame, by kind (R24, R188). -/
inductive Body where
  | news (segment : SegNum) (stamp : Stamp) (signature : Signature)
  | poll (segment : SegNum) (stamp : Stamp) (signature : Signature)
  | ballot (segment : SegNum) (stamp : Stamp) (signature : Signature)
  | request (segment : SegNum) (stamp : Stamp) (mask : ChunkMask)
  | nohave (segment : SegNum) (stamp : Stamp)
  | busy (segment : SegNum)
  | data (segment : SegNum) (stamp : Stamp) (chunk : Chunk) (bytes : List Byte)
  | sigquery (bank : Byte)
  | siglist (bank : Byte) (part : BitVec 2) (entries : List SigEntry)
  | digest (bank : Byte) (value : Signature)
  deriving DecidableEq, Repr

/-- A frame of the peer line without its check and fillers (R24): sender, target, image tag and body. -/
structure Frame where
  sender : Station
  target : Station
  tag : Byte
  body : Body
  deriving DecidableEq, Repr

/-- The tests a received frame can fail, in the order of R31. -/
inductive Discard where
  /-- 1. a filler violation (R22) -/
  | filler
  /-- 2. a kind code outside 1 to 10 -/
  | kind
  /-- 3. a sender of 0 -/
  | sender
  /-- 4. a bad frame check (R25) -/
  | check
  /-- 5. another image tag -/
  | tag
  /-- 6. a lower nibble of byte 1 other than 0 -/
  | nibble
  /-- 7. a target that does not suit the kind -/
  | target
  /-- 8. a malformed body -/
  | body
  deriving DecidableEq, Repr

/-- The commands: the happenings of spec/opcode_table.json, one constructor per row. -/
inductive Instr where
  /-- COLD_START (R155): power-up or assertion of RESET_N. -/
  | coldStart
  /-- STRAP_SAMPLING (R155): the levels read on STN3–STN0 and RATE1–RATE0 (R194). -/
  | strapSampling (stn : BitVec 4) (rate : BitVec 2)
  /-- STORE_STATUS_READ_END (R146): the status byte clocked in. -/
  | storeStatusReadEnd (value : Byte)
  /-- STORE_POLL_TIMEOUT (R146): 20 ms pass with the device still busy. -/
  | storePollTimeout
  /-- HEADER_READ_END (R143): the 12 bytes clocked in from address 0. -/
  | headerReadEnd (bytes : List Byte)
  /-- WRITE_SEQUENCE_END (R145): the last byte of the write sequence has been sent. -/
  | writeSequenceEnd
  /-- READBACK_END (R147): the 264 bytes read back from the slot. -/
  | readbackEnd (bytes : List Byte)
  /-- SLOT_READ_END (R144): the 264 bytes read from the slot. -/
  | slotReadEnd (bytes : List Byte)
  /-- RESTART_STORE_WAIT_END (R151): the store operation a warm restart waits for has ended. -/
  | restartStoreWaitEnd
  /-- LINE_IDLE (R23): twelve recessive bit times in a row have passed. -/
  | lineIdle
  /-- TRANSMISSION_START (R26). -/
  | transmissionStart
  /-- ARBITRATION_LOSS (R27). -/
  | arbitrationLoss
  /-- CLASH (R28). -/
  | clash
  /-- CLEAN_END (R30). -/
  | cleanEnd
  /-- FRAME_DISCARDED (R31): the frame in reception fails a test. -/
  | frameDiscarded (reason : Discard)
  /-- OWN_NUMBER_FRAME (R32): a good frame bearing self's number that self did not send. -/
  | ownNumberFrame
  /-- NEWS received (R61). -/
  | news (sender : Station) (segment : SegNum) (stamp : Stamp) (signature : Signature)
  /-- POLL received (R124). -/
  | poll (sender : Station) (segment : SegNum) (stamp : Stamp) (signature : Signature)
  /-- BALLOT received (R125). -/
  | ballot (sender : Station) (segment : SegNum) (stamp : Stamp) (signature : Signature)
  /-- REQUEST received (R110). -/
  | request (sender target : Station) (segment : SegNum) (stamp : Stamp) (mask : ChunkMask)
  /-- NOHAVE received (R95, R66). -/
  | nohave (sender target : Station) (segment : SegNum) (stamp : Stamp)
  /-- BUSY received (R96). -/
  | busy (sender target : Station) (segment : SegNum)
  /-- DATA received (R92). -/
  | data (sender target : Station) (segment : SegNum) (stamp : Stamp) (chunk : Chunk) (bytes : List Byte)
  /-- SIGQUERY received (R55). -/
  | sigquery (sender target : Station) (bank : Byte)
  /-- SIGLIST received (R57). -/
  | siglist (sender : Station) (bank : Byte) (part : BitVec 2) (entries : List SigEntry)
  /-- DIGEST received (R52). -/
  | digest (sender : Station) (bank : Byte) (value : Signature)
  /-- SILENCE_TIMER_EXPIRY (R43) of one station's timer. -/
  | silenceTimerExpiry (station : Station)
  /-- BEACON_TIMER_EXPIRY (R49). -/
  | beaconTimerExpiry
  /-- QUERY_HOLDOFF_EXPIRY (R53) of one bank's holdoff. -/
  | queryHoldoffExpiry (bank : Byte)
  /-- PATIENCE_TIMER_EXPIRY (R94). -/
  | patienceTimerExpiry
  /-- DISPUTE_DEADLINE_EXPIRY (R131) of the dispute entry of one segment. -/
  | disputeDeadlineExpiry (segment : SegNum)
  /-- TRANSACTION_CUT_SHORT (R169). -/
  | transactionCutShort
  /-- UNKNOWN_COMMAND (R192): a command byte that is none of the fifteen codes. -/
  | unknownCommand (code : Byte)
  /-- STATUS (R172). -/
  | status
  /-- SEGINFO (R173). -/
  | seginfo (segment : SegNum)
  /-- ROSTER (R172). -/
  | roster
  /-- READ (R174). -/
  | read (segment : SegNum)
  /-- TAKE (R176). -/
  | take
  /-- STAGE (R177). -/
  | stage (offset length : Byte) (bytes : List Byte)
  /-- PUBLISH (R178). -/
  | publish (segment : SegNum)
  /-- FRESHEN (R80). -/
  | freshen (segment : SegNum)
  /-- PIN (R78). -/
  | pin (segment : SegNum)
  /-- UNPIN (R79). -/
  | unpin (segment : SegNum)
  /-- ACCEPT (R135). -/
  | accept (segment : SegNum)
  /-- EVENTS (R185). -/
  | events (count : Byte)
  /-- DETACH (R163). -/
  | detach
  /-- ATTACH (R166). -/
  | attach
  /-- RESTART (R167). -/
  | restart
  /-- START_BIT (R23): another station's start bit. -/
  | startBit
  deriving DecidableEq, Repr

end Sys2Proof
end

