-- ==== Sys2Proof/Machine/Bytes.lean ====
section
/-! DEFINITION. Byte order, bit order, station sets and chunk masks. -/

namespace Sys2Proof.Machine

/-- Two bytes as a big-endian 16-bit value (00_scope §7). -/
def be16 (hi lo : Byte) : BitVec 16 := hi ++ lo

/-- Four bytes as a big-endian 32-bit value. -/
def be32 (a b c d : Byte) : BitVec 32 := be16 a b ++ be16 c d

/-- A 16-bit value as its two bytes, most significant first. -/
def bytes16 (x : BitVec 16) : List Byte := [x.extractLsb' 8 8, x.extractLsb' 0 8]

/-- A 32-bit value as its four bytes, most significant first. -/
def bytes32 (x : BitVec 32) : List Byte := bytes16 (x.extractLsb' 16 16) ++ bytes16 (x.extractLsb' 0 16)

/-- A stamp as its three bytes: the version in two, then the origin (chapter 11). -/
def stampBytes (t : Stamp) : List Byte := bytes16 t.version ++ [t.origin]

/-- The bits of a byte, most significant first (R20). -/
def byteBits (b : Byte) : List Bool :=
  [b.getLsbD 7, b.getLsbD 6, b.getLsbD 5, b.getLsbD 4, b.getLsbD 3, b.getLsbD 2, b.getLsbD 1, b.getLsbD 0]

/-- Eight bits, most significant first, as a byte. -/
def bitsByte (l : List Bool) : Byte := l.foldl (fun acc b => (acc <<< 1) ||| (if b then 1#8 else 0#8)) 0#8

/-- The bits of a list of bytes, in order. -/
def bytesBits (l : List Byte) : List Bool := l.flatMap byteBits

/-- The first `n` bytes spelled by a list of bits. -/
def bitsBytes : Nat → List Bool → List Byte
  | 0, _ => []
  | n + 1, l => bitsByte (l.take 8) :: bitsBytes n (l.drop 8)

/-- A bit set or clear as 1 or 0. -/
def flag (b : Bool) (place : Nat) : Byte := if b then 1#8 <<< place else 0#8

/-- Membership of a station in a set (R192). -/
def hasStation (set : StationSet) (p : Station) : Bool := set.getLsbD p.toNat

/-- The set of one station. -/
def oneStation (p : Station) : StationSet := 1#16 <<< p.toNat

/-- The set with `p` added. -/
def addStation (set : StationSet) (p : Station) : StationSet := set ||| oneStation p

/-- The set with `p` removed. -/
def dropStation (set : StationSet) (p : Station) : StationSet := set &&& ~~~ oneStation p

/-- The station numbers 1 to 15 in rising order. -/
def stations : List Station := [1, 2, 3, 4, 5, 6, 7, 8, 9, 10, 11, 12, 13, 14, 15]

/-- Membership of a chunk in a mask (R188). -/
def hasChunk (mask : ChunkMask) (c : Chunk) : Bool := mask.getLsbD c.toNat

/-- The mask of one chunk. -/
def oneChunk (c : Chunk) : ChunkMask := 1#8 <<< c.toNat

/-- The mask with chunk `c` added. -/
def addChunk (mask : ChunkMask) (c : Chunk) : ChunkMask := mask ||| oneChunk c

/-- The mask with chunk `c` removed. -/
def dropChunk (mask : ChunkMask) (c : Chunk) : ChunkMask := mask &&& ~~~ oneChunk c

/-- The chunks 0 to 7 in rising order. -/
def chunks : List Chunk := [0, 1, 2, 3, 4, 5, 6, 7]

/-- All eight chunks (R188: 0xFF asks for all eight). -/
def allChunks : ChunkMask := 0xFF#8

/-- How many chunks a mask holds. -/
def chunkCount (mask : ChunkMask) : Nat := (chunks.filter (hasChunk mask)).length

/-- Chunk `c` of a segment's data: bytes 32c to 32c+31 (00_scope §6). -/
def chunkOf (data : List Byte) (c : Chunk) : List Byte := (data.drop (32 * c.toNat)).take 32

/-- `data` with the bytes from `at'` on replaced by `bytes` (R92, R177). -/
def overwrite (data : List Byte) (at' : Nat) (bytes : List Byte) : List Byte :=
  data.take at' ++ bytes ++ data.drop (at' + bytes.length)

/-- A buffer of 256 bytes of 0x00. -/
def blankSegment : List Byte := List.replicate Config.segmentBytes 0#8

/-- The last element of a list that meets `p` is taken out; the others keep their order. -/
def removeLast {α : Type} (p : α → Bool) (l : List α) : List α := (l.reverse.eraseP p).reverse

end Sys2Proof.Machine
end

