-- ==== Sys2Proof/Machine/Stamps.lean ====
section
/-! DEFINITION. Stamps and their order (R1 to R3), and the signature of a copy (R4, R5). -/

namespace Sys2Proof.Machine

/-- The null stamp 0/0 of a vacant slot (R1). -/
def nullStamp : Stamp := ⟨0#16, 0#8⟩

/-- R1: the null stamp, or version 1 to 65535 with origin a station number 1 to 15. -/
def stampOk (t : Stamp) : Bool :=
  t == nullStamp || (t.version != 0#16 && t.origin != 0#8 && t.origin.toNat ≤ 15)

/-- R2: `a` is newer than `b`. -/
def newer (a b : Stamp) : Bool :=
  if a = b then false
  else if a = nullStamp then false
  else if b = nullStamp then true
  else
    let d := (a.version - b.version).toNat
    if d = 0 then b.origin.toNat < a.origin.toNat
    else if d < 32768 then true
    else if 32768 < d then false
    else if a.origin = b.origin then b.version.toNat < a.version.toNat
    else b.origin.toNat < a.origin.toNat

/-- R2: `a` is not older than `b`: newer, or the same stamp. -/
def notOlder (a b : Stamp) : Bool := a == b || newer a b

/-- One step of R3: the running choice gives way to a later, newer stamp; an absent entry is skipped. -/
def newestStep (choice : Option Stamp) (entry : Option Stamp) : Option Stamp :=
  match choice, entry with
  | c, none => c
  | none, some t => some t
  | some c, some t => if newer t c then some t else some c

/-- R3: the newest of a list of stamps, in the list's order; the null stamp when every entry is absent. -/
def newest (l : List (Option Stamp)) : Stamp := (l.foldl newestStep none).getD nullStamp

/-- R1, R178: the stamp a publish builds on `t`: the version plus one (65535 is followed by 1), self as origin. -/
def nextStamp (t : Stamp) (self : Station) : Stamp :=
  ⟨if t.version = 0xFFFF#16 then 1#16 else t.version + 1#16, self.setWidth 8⟩

/-- One word fed to the signature register (R4). -/
def signatureFeed (reg : Signature) (w : BitVec 16) : Signature :=
  let shifted := reg <<< 1
  let folded := if reg.getLsbD 31 then shifted ^^^ Config.signaturePoly else shifted
  folded ^^^ w.setWidth 32

/-- The pairs of data bytes as 16-bit words (R4). -/
def dataWords : List Byte → List (BitVec 16)
  | hi :: lo :: rest => be16 hi lo :: dataWords rest
  | _ => []

/-- R4: the signature of the copy with stamp `t` and the given data bytes; 0 for the null stamp. -/
def signatureOf (t : Stamp) (data : List Byte) : Signature :=
  if t = nullStamp then 0#32
  else (t.version :: t.origin.setWidth 16 :: dataWords data).foldl signatureFeed Config.signatureStart

end Sys2Proof.Machine
end

