-- ==== Sys2Proof/Machine/Codes.lean ====
section
/-! DEFINITION. The command codes of the host port (R191) and the kind codes of frames (R24). -/

namespace Sys2Proof.Machine

/-- R191: the fifteen command codes. -/
def commandCodes : List Byte :=
  [0x01#8, 0x02#8, 0x03#8, 0x10#8, 0x11#8, 0x20#8, 0x21#8, 0x30#8, 0x31#8, 0x32#8, 0x33#8, 0x40#8, 0x50#8,
   0x51#8, 0x52#8]

/-- R177: the lengths a STAGE can carry. -/
def stageLengthOk (length : Byte) : Bool := 1 ≤ length.toNat && length.toNat ≤ 32

/-- R24: the kind code of a body. -/
def kindCode : Body → BitVec 4
  | .news .. => 1
  | .poll .. => 2
  | .ballot .. => 3
  | .request .. => 4
  | .nohave .. => 5
  | .busy .. => 6
  | .data .. => 7
  | .sigquery .. => 8
  | .siglist .. => 9
  | .digest .. => 10

/-- R24: the kinds meant for one station; the others are meant for all. -/
def targeted (code : BitVec 4) : Bool := code = 4 || code = 5 || code = 6 || code = 7 || code = 8

/-- R24: the body length of each kind; none for a code outside 1 to 10. -/
def bodyLength (code : BitVec 4) : Option Nat :=
  match code.toNat with
  | 1 => some 9
  | 2 => some 9
  | 3 => some 9
  | 4 => some 6
  | 5 => some 5
  | 6 => some 2
  | 7 => some 38
  | 8 => some 1
  | 9 => some 130
  | 10 => some 5
  | _ => none

end Sys2Proof.Machine
end

