-- ==== Sys2Proof/WellFormed.lean ====
section
/-! DEFINITION. Which commands are well formed: the values that come with a command have the number of bytes, the
range and the form the spec gives them. What depends on the state (a segment below N, a bank below N/64) is judged by
the meanings. -/

namespace Sys2Proof

open Machine

/-- The fields of a received body lie in the ranges of R31 that do not depend on the store header. -/
def Body.wellFormed : Body → Bool
  | .news _ t _ => stampOk t
  | .poll _ t _ => stampOk t
  | .ballot _ t _ => stampOk t
  | .request _ t m => stampOk t && m != 0#8
  | .nohave _ t => stampOk t
  | .busy _ => true
  | .data _ t _ bytes => stampOk t && bytes.length == 32
  | .sigquery _ => true
  | .siglist _ _ entries => entries.length == 16 && entries.all (fun e => stampOk e.stamp)
  | .digest _ _ => true

/-- R31: a sender other than 0, a target that suits the kind, and a body in range. -/
def Frame.wellFormed (f : Frame) : Bool :=
  f.sender != 0#4 && (targeted (kindCode f.body) == (f.target != 0#4)) && f.body.wellFormed

/-- The well-formed commands. -/
def Instr.wellFormed : Instr → Bool
  | .coldStart => true
  | .strapSampling _ _ => true
  | .storeStatusReadEnd _ => true
  | .storePollTimeout => true
  | .headerReadEnd bytes => bytes.length == Config.headerBytes
  | .writeSequenceEnd => true
  | .readbackEnd bytes => bytes.length == Config.slotBytes
  | .slotReadEnd bytes => bytes.length == Config.slotBytes
  | .restartStoreWaitEnd => true
  | .lineIdle => true
  | .transmissionStart => true
  | .arbitrationLoss => true
  | .clash => true
  | .cleanEnd => true
  | .frameDiscarded _ => true
  | .ownNumberFrame => true
  | .news p i t x => Frame.wellFormed ⟨p, 0, 0, .news i t x⟩
  | .poll p i t x => Frame.wellFormed ⟨p, 0, 0, .poll i t x⟩
  | .ballot p i t x => Frame.wellFormed ⟨p, 0, 0, .ballot i t x⟩
  | .request p q i t m => Frame.wellFormed ⟨p, q, 0, .request i t m⟩
  | .nohave p q i t => Frame.wellFormed ⟨p, q, 0, .nohave i t⟩
  | .busy p q i => Frame.wellFormed ⟨p, q, 0, .busy i⟩
  | .data p q i t c bytes => Frame.wellFormed ⟨p, q, 0, .data i t c bytes⟩
  | .sigquery p q b => Frame.wellFormed ⟨p, q, 0, .sigquery b⟩
  | .siglist p b k entries => Frame.wellFormed ⟨p, 0, 0, .siglist b k entries⟩
  | .digest p b x => Frame.wellFormed ⟨p, 0, 0, .digest b x⟩
  | .silenceTimerExpiry p => p != 0#4
  | .beaconTimerExpiry => true
  | .queryHoldoffExpiry _ => true
  | .patienceTimerExpiry => true
  | .disputeDeadlineExpiry _ => true
  | .transactionCutShort => true
  | .unknownCommand code => !commandCodes.contains code
  | .status => true
  | .seginfo _ => true
  | .roster => true
  | .read _ => true
  | .take => true
  | .stage _ length bytes => if stageLengthOk length then bytes.length == length.toNat else bytes.isEmpty
  | .publish _ => true
  | .freshen _ => true
  | .pin _ => true
  | .unpin _ => true
  | .accept _ => true
  | .events _ => true
  | .detach => true
  | .attach => true
  | .restart => true
  | .startBit => true

end Sys2Proof
end

