-- ==== Sys2Proof/Decode.lean ====
section
/-! DEFINITION. Reading commands from words and from host transactions. The opcode table gives no row any bits, so
`decodeTableWord` answers none for every word. The bytes of a host transaction (R169, R191, R192) spell the fifteen
host commands, the unknown command and the transaction cut short; `encodeTransaction` writes them. -/

namespace Sys2Proof

open Machine

/-- The command a word of the opcode table spells: no row of spec/opcode_table.json has bits, so none. -/
def decodeTableWord (_nbits _w : Nat) : Option Instr := none

/-- A command with one two-byte segment argument (R191): cut short before its second byte is in (R169). -/
def segmentArgument (f : SegNum → Instr) : List Byte → Instr
  | hi :: lo :: _ => f (be16 hi lo)
  | _ => .transactionCutShort

/-- R192: STAGE is taken at its length byte when the top state does not take it or the length is bad, and otherwise
when its last data byte is in. -/
def stageArguments (takesStage : Bool) : List Byte → Instr
  | offset :: length :: rest =>
    if !takesStage || !stageLengthOk length then .stage offset length []
    else if rest.length < length.toNat then .transactionCutShort
    else .stage offset length (rest.take length.toNat)
  | _ => .transactionCutShort

/-- R191: the argument count of EVENTS. -/
def countArgument : List Byte → Instr
  | n :: _ => .events n
  | _ => .transactionCutShort

/-- The command spelled by the bytes the processor sends between the fall and the rise of chip select (R169, R191,
R192); `takesStage` says whether the top state takes STAGE (R171). -/
def decodeTransaction (takesStage : Bool) : List Byte → Instr
  | [] => .transactionCutShort
  | code :: args =>
    if code = 0x01#8 then .status
    else if code = 0x02#8 then segmentArgument .seginfo args
    else if code = 0x03#8 then .roster
    else if code = 0x10#8 then segmentArgument .read args
    else if code = 0x11#8 then .take
    else if code = 0x20#8 then stageArguments takesStage args
    else if code = 0x21#8 then segmentArgument .publish args
    else if code = 0x30#8 then segmentArgument .freshen args
    else if code = 0x31#8 then segmentArgument .pin args
    else if code = 0x32#8 then segmentArgument .unpin args
    else if code = 0x33#8 then segmentArgument .accept args
    else if code = 0x40#8 then countArgument args
    else if code = 0x50#8 then .detach
    else if code = 0x51#8 then .attach
    else if code = 0x52#8 then .restart
    else .unknownCommand code

/-- The bytes the processor sends for a host command (R191); none for a happening that is no host command. -/
def encodeTransaction : Instr → Option (List Byte)
  | .status => some [0x01#8]
  | .seginfo i => some (0x02#8 :: bytes16 i)
  | .roster => some [0x03#8]
  | .read i => some (0x10#8 :: bytes16 i)
  | .take => some [0x11#8]
  | .stage offset length bytes => some (0x20#8 :: offset :: length :: bytes)
  | .publish i => some (0x21#8 :: bytes16 i)
  | .freshen i => some (0x30#8 :: bytes16 i)
  | .pin i => some (0x31#8 :: bytes16 i)
  | .unpin i => some (0x32#8 :: bytes16 i)
  | .accept i => some (0x33#8 :: bytes16 i)
  | .events n => some [0x40#8, n]
  | .detach => some [0x50#8]
  | .attach => some [0x51#8]
  | .restart => some [0x52#8]
  | .unknownCommand code => some [code]
  | .transactionCutShort => some []
  | .coldStart | .strapSampling .. | .storeStatusReadEnd .. | .storePollTimeout | .headerReadEnd ..
  | .writeSequenceEnd | .readbackEnd .. | .slotReadEnd .. | .restartStoreWaitEnd | .lineIdle | .transmissionStart
  | .arbitrationLoss | .clash | .cleanEnd | .frameDiscarded .. | .ownNumberFrame | .news .. | .poll .. | .ballot ..
  | .request .. | .nohave .. | .busy .. | .data .. | .sigquery .. | .siglist .. | .digest .. | .silenceTimerExpiry ..
  | .beaconTimerExpiry | .queryHoldoffExpiry .. | .patienceTimerExpiry | .disputeDeadlineExpiry .. | .startBit => none

/-- The command that the reception of a good frame is to the part: the row of its kind (R33). -/
def Frame.command (f : Frame) : Instr :=
  match f.body with
  | .news i t x => .news f.sender i t x
  | .poll i t x => .poll f.sender i t x
  | .ballot i t x => .ballot f.sender i t x
  | .request i t m => .request f.sender f.target i t m
  | .nohave i t => .nohave f.sender f.target i t
  | .busy i => .busy f.sender f.target i
  | .data i t c bytes => .data f.sender f.target i t c bytes
  | .sigquery b => .sigquery f.sender f.target b
  | .siglist b k entries => .siglist f.sender b k entries
  | .digest b x => .digest f.sender b x

end Sys2Proof
end

