-- ==== Sys2Proof/Machine/State.lean ====
section
/-! DEFINITION. The state of the part, block by block (00_scope §3), the queue of commands that are waiting, and the
state right after reset. -/

namespace Sys2Proof.Machine

/-! ### Why a step could stop -/

/-- The reasons a step can end in a fault: none. The spec gives every happening an effect and names no condition in
which the part stops, so no meaning of this model faults. -/
inductive Fault where
  deriving DecidableEq, Repr

/-- The reasons a step can be refused. -/
inductive Refusal where
  /-- Raised by an arm of `exec` whose row has no meaning yet; safe: the model stops. No arm raises it now. -/
  | notModelled (mnemonic : String)
  deriving DecidableEq, Repr

/-! ### Start-up Controller (R154) -/

/-- The top state (R154). -/
inductive TopState where
  | starting
  | census
  | active
  | detached
  | halted
  deriving DecidableEq, Repr

/-- The reason of the top state (R154). -/
inductive Reason where
  | none
  | host
  | clash
  | badStation
  | noStore
  | badHeader
  deriving DecidableEq, Repr

/-- The bit rate of the peer line in kbit/s (R20). -/
inductive Rate where
  | kbit125
  | kbit250
  | kbit500
  | kbit1000
  deriving DecidableEq, Repr

/-- The four header fields that are kept (R154, R156). -/
structure Header where
  /-- byte 2 of every frame -/
  tag : Byte
  /-- N -/
  count : Nat
  /-- the beacon byte: B is ten times it, in milliseconds -/
  beacon : Byte
  /-- the patience byte: P in milliseconds -/
  patience : Byte
  deriving DecidableEq, Repr

/-- What the Start-up Controller holds (R154, R155, R167). -/
structure StartUp where
  top : TopState
  reason : Reason
  /-- 0 before the straps are sampled -/
  station : Station
  rate : Rate
  /-- the cold start has begun and the straps have not been sampled (R155) -/
  strapsDue : Bool
  header : Option Header
  cursor : Nat
  /-- a warm restart has not gone on to step 5: it waits for the store operation in progress (R167, R151), or for the
  answer of its RESTART to go out before a halt (R183) -/
  storeWait : Bool
  deriving DecidableEq, Repr

/-! ### Line Interface (R26 to R40) -/

/-- The identity of a descriptor: kind, target and subject (R34). A broadcast kind has target 0. -/
inductive FrameId where
  | news (segment : Nat)
  | poll (segment : Nat)
  | ballot (segment : Nat)
  | request (target : Station) (segment : Nat)
  | nohave (target : Station) (segment : Nat)
  | busy (target : Station) (segment : Nat)
  | data (target : Station) (segment : Nat) (chunk : Chunk)
  | sigquery (target : Station) (bank : Nat)
  | siglist (bank : Nat) (part : BitVec 2)
  | digest (bank : Nat)
  deriving DecidableEq, Repr

/-- A descriptor of the outbox (R34). Its age is its place among the descriptors of its code in `Line.outbox`. -/
structure Desc where
  ident : FrameId
  /-- for BALLOT, the stamp the ballot is for; absent for other kinds -/
  ballotStamp : Option Stamp
  inTransmission : Bool
  renewed : Bool
  deriving DecidableEq, Repr

/-- What the end of the frame in transmission does (R39). -/
inductive Flight where
  /-- its descriptor stands in the outbox -/
  | attached
  /-- it is being finished after DETACH: no descriptor, no notice; its end changes the clash count as usual -/
  | afterDetach
  /-- it is being finished after a warm restart: its end leaves the clash count as it is -/
  | afterRestart
  deriving DecidableEq, Repr

/-- The bit engine (R23, R26). -/
inductive Engine where
  /-- counting toward idle, discarding what it reads, or off -/
  | quiet
  /-- the line is idle -/
  | idle
  /-- a start bit of another station has been taken -/
  | receiving
  /-- the frame image being sent, and the descriptor it was built from -/
  | sending (frame : Frame) (ident : FrameId) (flight : Flight)
  deriving DecidableEq, Repr

/-- What the Line Interface holds. -/
structure Line where
  receiver : Bool
  transmitter : Bool
  engine : Engine
  clashes : Nat
  /-- in order of kind code, lowest first, and within one code oldest first (R34) -/
  outbox : List Desc
  deriving DecidableEq, Repr

/-! ### Roster Unit (R41 to R59) -/

/-- One roster entry (R41); the timer holds the milliseconds it was last started with, none when stopped. -/
structure RosterEntry where
  isPresent : Bool
  silence : Option Nat
  deriving DecidableEq, Repr

/-- One entry of the bank table (R51); the holdoff holds the milliseconds it was started with, none when 0. -/
structure BankEntry where
  holdoff : Option Nat
  copy : Option Signature
  deriving DecidableEq, Repr

/-- What the Roster Unit holds. -/
structure RosterUnit where
  /-- station `p` at place `p - 1` -/
  entries : List RosterEntry
  beacon : Option Nat
  pointer : Nat
  banks : List BankEntry
  deriving DecidableEq, Repr

/-! ### Segment Table (R6 to R19) -/

/-- The eight segment states (R14). -/
inductive SegState where
  | unknown
  | good
  | stale
  | fetching
  | committing
  | orphan
  | disputed
  | damaged
  deriving DecidableEq, Repr

/-- The evidence of a record (R6). -/
structure Evidence where
  stamp : Stamp
  signature : Signature
  holders : StationSet
  fromNews : Bool
  deriving DecidableEq, Repr

/-- A segment record (R6); its index is its place in the table. -/
structure SegRec where
  state : SegState
  /-- copy is USABLE -/
  usable : Bool
  stamp : Stamp
  signature : Signature
  evidence : Option Evidence
  exhausted : Bool
  mark : Bool
  rounds : Nat
  pendingWrites : Nat
  failures : Nat
  deriving DecidableEq, Repr

/-- What the Segment Table holds: records 0 to N−1 and digests of banks 0 to N/64−1; empty until a header is read. -/
structure SegTable where
  recs : List SegRec
  digests : List Signature
  deriving DecidableEq, Repr

/-! ### Repair Unit (R69 to R107) -/

/-- The level of a repair entry (R69). -/
inductive Level where
  | sweep
  | news
  | demand
  deriving DecidableEq, Repr

/-- The state of a repair entry (R69). -/
inductive EntryState where
  | waiting
  | active
  | suspended
  deriving DecidableEq, Repr

/-- The three landing slots (R83). -/
inductive SlotName where
  | a
  | b
  | c
  deriving DecidableEq, Repr

/-- A repair entry (R69); its admission order is its place among the entries of its level in `RepairUnit.queue`. -/
structure Entry where
  segment : Nat
  level : Level
  state : EntryState
  slot : Option SlotName
  tried : StationSet
  attempts : Nat
  source : Option Station
  verified : Bool
  deriving DecidableEq, Repr

/-- The condition of the active job (R82). -/
inductive JobCond where
  | asking
  | backoff
  | ready
  deriving DecidableEq, Repr

/-- A landing slot that is taken (R83); the owner is the repair entry of its segment. -/
structure Slot where
  segment : Nat
  stamp : Stamp
  signature : Signature
  mask : ChunkMask
  data : List Byte
  supplier : Option Station
  computed : Option Signature
  deriving DecidableEq, Repr

/-- The commit buffer when occupied (R84). -/
structure CommitBuffer where
  segment : Nat
  stamp : Stamp
  signature : Signature
  data : List Byte
  supplier : Option Station
  deriving DecidableEq, Repr

/-- What the Repair Unit holds. The active job is the entry whose state is ACTIVE (R82). -/
structure RepairUnit where
  /-- in order of level, DEMAND first, and within one level oldest first (R70) -/
  queue : List Entry
  /-- the segments of the suspended entries, top of the stack first (R85) -/
  stack : List Nat
  pins : List Nat
  slotA : Option Slot
  slotB : Option Slot
  slotC : Option Slot
  commit : Option CommitBuffer
  cond : Option JobCond
  /-- the milliseconds the patience timer was started with, none when stopped -/
  patience : Option Nat
  deriving DecidableEq, Repr

/-! ### Serve Unit (R108 to R119) -/

/-- A serve entry (R108). -/
structure ServeEntry where
  requester : Station
  segment : Nat
  stamp : Stamp
  remaining : ChunkMask
  deriving DecidableEq, Repr

/-- The phase of the head (R108). -/
inductive HeadPhase where
  | waiting
  | read
  | send
  deriving DecidableEq, Repr

/-- The serve buffer when it holds a copy (R109). -/
structure ServeBuffer where
  segment : Nat
  stamp : Stamp
  data : List Byte
  deriving DecidableEq, Repr

/-- What the Serve Unit holds. -/
structure ServeUnit where
  /-- oldest first; the first is the head -/
  queue : List ServeEntry
  phase : HeadPhase
  outstanding : ChunkMask
  buffer : Option ServeBuffer
  /-- a serve read is outstanding (R109) -/
  reading : Bool
  deriving DecidableEq, Repr

/-! ### Dispute Unit (R120 to R136) -/

/-- An entry of the dispute table (R120). The ballots stand in station order; the deadline holds the milliseconds it
was last started with. -/
structure Dispute where
  segment : Nat
  stamp : Stamp
  ballots : List (Station × Signature)
  round : Nat
  deadline : Nat
  deriving DecidableEq, Repr

/-! ### Store Controller (R141 to R153) -/

/-- The clients of slot writes (R149). -/
inductive WriteClient where
  | commit
  | publish
  deriving DecidableEq, Repr

/-- A pending write request (R149): for a commit the stamp is the commit buffer's. -/
structure WriteReq where
  client : WriteClient
  segment : Nat
  stamp : Stamp
  deriving DecidableEq, Repr

/-- The clients of slot reads (R149). -/
inductive ReadClient where
  | serve
  | host
  | census
  deriving DecidableEq, Repr

/-- A slot write in progress (R141). -/
structure WriteOp where
  client : WriteClient
  segment : Nat
  stamp : Stamp
  /-- the signature of the trailer; none for a publish write until its data bytes have passed (R145) -/
  signature : Option Signature
  /-- the milliseconds its status polling was started with, none while no polling is timed (R145, R146) -/
  timer : Option Nat
  deriving DecidableEq, Repr

/-- The failures of a slot write (chapter 8, section 8.6). -/
inductive WriteFailure where
  | timeout
  | error
  | verify
  deriving DecidableEq, Repr

/-- The operation in progress with the controller's condition (R141). -/
inductive StoreOp where
  | idle
  /-- PROBING; the milliseconds the polling was started with, none until the first status value has shown the store
  present and busy (R142) -/
  | probing (timer : Option Nat)
  | header
  | reading (client : ReadClient) (segment : Nat)
  /-- WRITING; `enabled` once write-enable and the write sequence are being sent (R145) -/
  | writing (w : WriteOp) (enabled : Bool)
  | polling (w : WriteOp)
  | verifying (w : WriteOp)
  /-- RECOVERING with the failure noted (R146) -/
  | recovering (w : WriteOp) (failure : WriteFailure)
  deriving DecidableEq, Repr

/-- What the Store Controller holds: the operation in progress, the transfer buffer, the signature computed (R141) and
the arbiter's pending places (R149). -/
structure Store where
  op : StoreOp
  /-- the transfer buffer of the slot reads, 264 bytes (R141, R144) -/
  transfer : List Byte
  /-- the signature computed so far by the operation in progress (R141): by a slot read when its trailer is known, in
  the happening that ends it, by a publish write when its data bytes have passed -/
  computed : Option Signature
  /-- the pending commit and publish writes, the older first -/
  writes : List WriteReq
  serveReq : Option Nat
  hostReq : Option Nat
  censusReq : Option Nat
  deriving DecidableEq, Repr

/-! ### Host Port (R169 to R187) -/

/-- The kinds of event records (R184, R193). -/
inductive EventKind where
  | censusDone
  | peerJoined
  | peerLost
  | committed
  | orphaned
  | damaged
  | published
  | publishFailed
  | readDone
  | disputeOpened
  | disputeKept
  | disputeLost
  | disputeAbandoned
  | disputeDropped
  | detached
  | halted
  | restarted
  | lost
  deriving DecidableEq, Repr

/-- An event record (R184). -/
structure Event where
  kind : EventKind
  segment : Option Nat
  station : Option Station
  stamp : Option Stamp
  deriving DecidableEq, Repr

/-- The read buffer (R174). -/
inductive ReadBuffer where
  | empty
  | reading (segment : Nat)
  | complete (segment : Nat) (ok : Bool) (stamp : Stamp) (state : SegState) (data : List Byte)
  deriving DecidableEq, Repr

/-- The result codes (R170). -/
inductive ResultCode where
  | done
  | accepted
  | busy
  | refused
  | noEvidence
  | badArg
  | notReady
  | noData
  deriving DecidableEq, Repr

/-- The result byte and result data fixed when a command is taken (R169). -/
structure Answer where
  result : ResultCode
  data : List Byte
  deriving DecidableEq, Repr

/-- What the Host Port holds. ATTN_N is computed from the event queue (R186, `attnLow`). -/
structure HostPort where
  staging : List Byte
  /-- set from the acceptance of a PUBLISH to the end of its write (R177) -/
  locked : Bool
  readBuffer : ReadBuffer
  /-- oldest first -/
  events : List Event
  /-- the answer of the last command taken; none before the first after a cold start -/
  answer : Option Answer
  deriving DecidableEq, Repr

/-! ### The whole part -/

/-- The state of the part: its blocks, the commands that are waiting, first in, first out, and
the model's own count of free orders. -/
structure State where
  start : StartUp
  line : Line
  roster : RosterUnit
  segs : SegTable
  repair : RepairUnit
  serve : ServeUnit
  disputes : List Dispute
  store : Store
  host : HostPort
  pending : List Instr
  /-- The model's own count of the free orders taken so far (assumption log 18). -/
  freeOrders : Nat
  deriving DecidableEq, Repr

/-- The machine right after reset: a cold start has begun and the straps are not yet sampled (R155). Every block has
its cold start values (R40, R47, R59, R13, R18, R76, R77, R107, R119, R136, R152, R187). -/
def State.reset : State where
  start := {
    top := .starting, reason := .none, station := 0, rate := .kbit125, strapsDue := true, header := none,
    cursor := 0, storeWait := false }
  line := { receiver := false, transmitter := false, engine := .quiet, clashes := 0, outbox := [] }
  roster := { entries := List.replicate 15 ⟨false, none⟩, beacon := none, pointer := 0, banks := [] }
  segs := { recs := [], digests := [] }
  repair := {
    queue := [], stack := [], pins := [], slotA := none, slotB := none, slotC := none, commit := none,
    cond := none, patience := none }
  serve := { queue := [], phase := .waiting, outstanding := 0, buffer := none, reading := false }
  disputes := []
  store := {
    op := .idle, transfer := List.replicate Config.slotBytes 0, computed := none, writes := [], serveReq := none,
    hostReq := none, censusReq := none }
  host := {
    staging := List.replicate Config.segmentBytes 0, locked := false, readBuffer := .empty, events := [],
    answer := none }
  pending := []
  freeOrders := 0

end Sys2Proof.Machine
end

