-- ==== Sys2Proof/Machine/Flags.lean ====
section
/-! DEFINITION. What is computed from a record: the settle rule (R15), the offer of R16, the contributed signature
(R17), the standing (R19), the hold (R10), the admission level (R71); and Q, T and the timer lengths. -/

namespace Sys2Proof.Machine

/-! ### Records -/

/-- R13: an UNKNOWN record. -/
def unknownRec : SegRec where
  state := .unknown
  usable := false
  stamp := nullStamp
  signature := 0
  evidence := none
  exhausted := false
  mark := false
  rounds := 0
  pendingWrites := 0
  failures := 0

/-- R10: a record is held while write failures is 2. -/
def held (r : SegRec) : Bool := Config.failureLimit ≤ r.failures

/-- R10: clears the exhausted flag, unless the record is held. -/
def clearExhausted (r : SegRec) : SegRec := if held r then r else { r with exhausted := false }

/-- R15: the state a settle gives; `slotHeld` says that a repair entry for the segment holds a landing slot. -/
def settledState (slotHeld : Bool) (r : SegRec) : SegState :=
  if r.state = .unknown then .unknown
  else if slotHeld then .fetching
  else if 0 < r.pendingWrites then .committing
  else if !r.usable then .damaged
  else if r.evidence.isSome && r.exhausted then .orphan
  else if r.evidence.isSome then .stale
  else if r.mark then .disputed
  else .good

/-- R16: a settle into this record makes an offer. -/
def settleOffers (r : SegRec) : Bool :=
  r.state = .stale || (r.state = .damaged && r.evidence.isSome && !r.exhausted)

/-- R17: the contributed signature. -/
def contributed (r : SegRec) : Signature := if r.state ≠ .unknown ∧ r.usable then r.signature else 0

/-- R18: the rotation of segment `i`: its offset mod 32. -/
def rotated (i : Nat) (x : Signature) : Signature := x.rotateLeft (i % Config.bankSize % 32)

/-- R19: the standing of a record. -/
def standing (r : SegRec) : Standing :=
  if r.state = .disputed then .doubt
  else if r.usable && r.stamp != nullStamp &&
      (r.state = .good || r.state = .stale || r.state = .orphan || r.state = .fetching || r.state = .committing) then
    .holds
  else .none

/-- R19: the entry a SIGLIST carries for a record. -/
def sigEntry (r : SegRec) : SigEntry :=
  match standing r with
  | .none => ⟨nullStamp, .none, 0⟩
  | st => ⟨r.stamp, st, r.signature⟩

/-- R110: self can serve stamp `t` from this record. -/
def serves (r : SegRec) (t : Stamp) : Bool := standing r = .holds && r.stamp = t

/-- R71, R75: the record's state and flags allow an entry. -/
def fetchable (r : SegRec) : Bool :=
  (r.state = .stale || r.state = .fetching || (r.state = .damaged && r.evidence.isSome)) && !r.exhausted

/-- R75: backfill takes STALE records and DAMAGED records with evidence, exhausted clear. -/
def backfillable (r : SegRec) : Bool :=
  (r.state = .stale || (r.state = .damaged && r.evidence.isSome)) && !r.exhausted

/-- R71: the admission level of a record. -/
def admissionLevel (r : SegRec) : Level :=
  if !r.usable then .news
  else match r.evidence with
    | some e => if e.fromNews then .news else .sweep
    | none => .sweep

/-- The levels in rising order (R69). -/
def levelRank : Level → Nat
  | .sweep => 1
  | .news => 2
  | .demand => 3

/-- R9, R105, R180: the evidence that a write of stamp `t` leaves. -/
def evidenceAfter (t : Stamp) : Option Evidence → Option Evidence
  | some e => if notOlder t e.stamp then none else some e
  | none => none

/-! ### Roster and timers -/

/-- N as the Segment Table holds it (R156): the number of records; 0 before a valid header. -/
def segCount (s : State) : Nat := s.segs.recs.length

/-- R154: the image tag, 0 before a valid header. -/
def imageTag (s : State) : Byte := (s.start.header.map (·.tag)).getD 0

/-- B in milliseconds (00_scope §6). -/
def beaconMs (s : State) : Nat := ((s.start.header.map (·.beacon.toNat)).getD 0) * 10

/-- P in milliseconds (00_scope §6). -/
def patienceMs (s : State) : Nat := (s.start.header.map (·.patience.toNat)).getD 0

/-- The roster entry of a station (R41); number 0 has none and reads ABSENT. -/
def rosterEntry (s : State) (p : Station) : RosterEntry :=
  if p = 0 then ⟨false, none⟩ else s.roster.entries.getD (p.toNat - 1) ⟨false, none⟩

/-- R41: the station is PRESENT. -/
def isPresent (s : State) (p : Station) : Bool := (rosterEntry s p).isPresent

/-- R46: Q, the number of PRESENT roster entries. -/
def quorum (s : State) : Nat := (s.roster.entries.filter (·.isPresent)).length

/-- R46, R128: T = floor(Q/2) + 1. -/
def threshold (s : State) : Nat := quorum s / 2 + 1

/-! ### Events and pins -/

/-- R186: ATTN_N is driven low while the event queue holds a record. -/
def attnLow (s : State) : Bool := !s.host.events.isEmpty

/-- R20: the bit time in microseconds. -/
def bitTimeUs : Rate → Nat
  | .kbit125 => 8
  | .kbit250 => 4
  | .kbit500 => 2
  | .kbit1000 => 1

/-- R20, R23: the idle interval of 12 bit times in microseconds. -/
def idleUs (r : Rate) : Nat := 12 * bitTimeUs r

/-- R194: the RATE straps. -/
def rateOf (straps : BitVec 2) : Rate :=
  match straps.toNat with
  | 0 => .kbit125
  | 1 => .kbit250
  | 2 => .kbit500
  | _ => .kbit1000

end Sys2Proof.Machine
end

