-- ==== Sys2Proof/Machine/Frames.lean ====
section
/-! DEFINITION. Frames at the level of bytes and bits: the layouts of R24 and R188, the frame check of R25, the filler
bits of R21 and R22, the reception tests of R31, and the wired-AND line with its arbitration (R20, R27). -/

namespace Sys2Proof.Machine

/-! ### The frame check -/

/-- One covered bit fed to the check register (R25). -/
def checkBit (reg : BitVec 16) (b : Bool) : BitVec 16 :=
  if (reg.getLsbD 15).xor b then (reg <<< 1) ^^^ Config.checkPoly else reg <<< 1

/-- R25: the 16-bit check over bytes in order, each most significant bit first. -/
def checkOf (bytes : List Byte) : BitVec 16 := (bytesBits bytes).foldl checkBit Config.checkStart

/-! ### Bytes of a frame -/

/-- R188: the code of a standing. -/
def standingByte : Standing → Byte
  | .none => 0
  | .holds => 1
  | .doubt => 2

/-- R188: the eight bytes of a SIGLIST entry. -/
def entryBytes (e : SigEntry) : List Byte := stampBytes e.stamp ++ [standingByte e.standing] ++ bytes32 e.signature

/-- R188: the body bytes of each kind. -/
def bodyBytes : Body → List Byte
  | .news i t x => bytes16 i ++ stampBytes t ++ bytes32 x
  | .poll i t x => bytes16 i ++ stampBytes t ++ bytes32 x
  | .ballot i t x => bytes16 i ++ stampBytes t ++ bytes32 x
  | .request i t m => bytes16 i ++ stampBytes t ++ [m]
  | .nohave i t => bytes16 i ++ stampBytes t
  | .busy i => bytes16 i
  | .data i t c bytes => bytes16 i ++ stampBytes t ++ [c.setWidth 8] ++ bytes
  | .sigquery b => [b]
  | .siglist b k entries => b :: k.setWidth 8 :: entries.flatMap entryBytes
  | .digest b x => b :: bytes32 x

/-- R188: bytes 0 to 2 and the body. -/
def coveredBytes (f : Frame) : List Byte :=
  (kindCode f.body ++ f.sender) :: (f.target ++ 0#4) :: f.tag :: bodyBytes f.body

/-- R24: the bytes of a frame, check included, upper byte first. -/
def frameBytes (f : Frame) : List Byte := coveredBytes f ++ bytes16 (checkOf (coveredBytes f))

/-! ### Filler bits -/

/-- R21: the bits after the start bit with the fillers put in; `last` and `run` are the run of equal bits so far. -/
def addFillers : Bool → Nat → List Bool → List Bool
  | _, _, [] => []
  | last, run, b :: rest =>
    if run = 6 then
      (!last) :: b :: addFillers b (if b = !last then 2 else 1) rest
    else b :: addFillers b (if b = last then run + 1 else 1) rest

/-- The bits a station puts on the line for a frame: the start bit, then the frame bits with fillers. A 0 is
dominant (R20). -/
def lineBits (f : Frame) : List Bool := false :: addFillers false 1 (bytesBits (frameBytes f))

/-- What the receiver has while it removes fillers: the bits taken, the run, and the bits not yet read. -/
structure Taken where
  bits : List Bool
  last : Bool
  run : Nat
  rest : List Bool
  deriving DecidableEq, Repr

/-- R22: takes `n` frame bits from the line, removing fillers; none on a filler violation. A line that has ended is
read as recessive. -/
def takeBits : Nat → Bool → Nat → List Bool → Option Taken
  | 0, last, run, rest => some ⟨[], last, run, rest⟩
  | n + 1, last, run, rest =>
    let step (last : Bool) (run : Nat) (rest : List Bool) : Option Taken :=
      let b := rest.headD true
      (takeBits n b (if b = last then run + 1 else 1) rest.tail).map (fun t => { t with bits := b :: t.bits })
    if run = 6 then
      if rest.headD true = last then none else step (!last) 1 rest.tail
    else step last run rest

/-! ### Reception -/

/-- R188: the standing of a code; none for a code greater than 2. -/
def standingOf (b : Byte) : Option Standing :=
  if b = 0 then some .none else if b = 1 then some .holds else if b = 2 then some .doubt else none

/-- R188: a stamp at the front of a list of bytes; none when it is not well formed (R1). -/
def stampOf (v1 v0 o : Byte) : Option Stamp :=
  let t : Stamp := ⟨be16 v1 v0, o⟩
  if stampOk t then some t else none

/-- R188: the SIGLIST entries; none when any is malformed. -/
def entriesOf : List Byte → Option (List SigEntry)
  | v1 :: v0 :: o :: st :: a :: b :: c :: d :: rest =>
    match stampOf v1 v0 o, standingOf st, entriesOf rest with
    | some t, some s, some es => some (⟨t, s, be32 a b c d⟩ :: es)
    | _, _, _ => none
  | [] => some []
  | _ => none

/-- R31: a segment number below N. -/
def segmentInRange (n : Nat) (i : SegNum) : Bool := i.toNat < n

/-- R31: a bank number below N/64. -/
def bankInRange (n : Nat) (b : Byte) : Bool := b.toNat < n / Config.bankSize

/-- R31, item 8: the ranges of a body against N. -/
def bodyInRange (n : Nat) : Body → Bool
  | .news i _ _ => segmentInRange n i
  | .poll i _ _ => segmentInRange n i
  | .ballot i _ _ => segmentInRange n i
  | .request i _ _ => segmentInRange n i
  | .nohave i _ => segmentInRange n i
  | .busy i => segmentInRange n i
  | .data i _ _ _ => segmentInRange n i
  | .sigquery b => bankInRange n b
  | .siglist b _ _ => bankInRange n b
  | .digest b _ => bankInRange n b

/-- A body of segment, stamp and signature. -/
def segmentStampSignature (mk : SegNum → Stamp → Signature → Body) : List Byte → Option Body
  | [i1, i0, v1, v0, o, a, b, c, d] => (stampOf v1 v0 o).map fun t => mk (be16 i1 i0) t (be32 a b c d)
  | _ => none

/-- R188, R31: the body of a kind from its bytes; none when it is malformed whatever N is. -/
def bodyOf (code : BitVec 4) (bytes : List Byte) : Option Body :=
  match code.toNat with
  | 1 => segmentStampSignature .news bytes
  | 2 => segmentStampSignature .poll bytes
  | 3 => segmentStampSignature .ballot bytes
  | 4 =>
    match bytes with
    | [i1, i0, v1, v0, o, m] =>
      if m = 0 then none else (stampOf v1 v0 o).map fun t => .request (be16 i1 i0) t m
    | _ => none
  | 5 =>
    match bytes with
    | [i1, i0, v1, v0, o] => (stampOf v1 v0 o).map fun t => .nohave (be16 i1 i0) t
    | _ => none
  | 6 =>
    match bytes with
    | [i1, i0] => some (.busy (be16 i1 i0))
    | _ => none
  | 7 =>
    match bytes with
    | i1 :: i0 :: v1 :: v0 :: o :: c :: data =>
      if c.toNat ≤ 7 && data.length == 32 then
        (stampOf v1 v0 o).map fun t => .data (be16 i1 i0) t (c.setWidth 3) data
      else none
    | _ => none
  | 8 =>
    match bytes with
    | [b] => some (.sigquery b)
    | _ => none
  | 9 =>
    match bytes with
    | b :: k :: rest =>
      if k.toNat ≤ 3 then
        (entriesOf rest).bind fun es => if es.length = 16 then some (.siglist b (k.setWidth 2) es) else none
      else none
    | _ => none
  | 10 =>
    match bytes with
    | [b, a, a', a'', a'''] => some (.digest b (be32 a a' a'' a'''))
    | _ => none
  | _ => none

/-- R31: the tests on the bytes of a frame, in their order, for a station with image tag `tag` and `n` segments. -/
def judgeBytes (tag : Byte) (n : Nat) (bytes : List Byte) : Except Discard Frame :=
  match bytes with
  | b0 :: b1 :: b2 :: rest =>
    let code : BitVec 4 := b0.extractLsb' 4 4
    let sender : Station := b0.extractLsb' 0 4
    let target : Station := b1.extractLsb' 4 4
    let size := (bodyLength code).getD 0
    let body := rest.take size
    if sender = 0 then .error .sender
    else if bytes16 (checkOf (b0 :: b1 :: b2 :: body)) ≠ rest.drop size then .error .check
    else if b2 ≠ tag then .error .tag
    else if b1.extractLsb' 0 4 ≠ 0#4 then .error .nibble
    else if targeted code ≠ (target != 0) then .error .target
    else
      match bodyOf code body with
      | none => .error .body
      | some bd => if bodyInRange n bd then .ok ⟨sender, target, b2, bd⟩ else .error .body
  | _ => .error .filler

/-- R22, R23, R24, R31: the reception of the bits that follow a start bit. -/
def receiveBits (tag : Byte) (n : Nat) (bits : List Bool) : Except Discard Frame :=
  match takeBits 8 false 1 bits with
  | none => .error .filler
  | some first =>
    let b0 := bitsByte first.bits
    match bodyLength (b0.extractLsb' 4 4) with
    | none => .error .kind
    | some size =>
      match takeBits (8 * (size + 4)) first.last first.run first.rest with
      | none => .error .filler
      | some others => judgeBytes tag n (b0 :: bitsBytes (size + 4) others.bits)

/-- R22: what the line from the start bit on brings to a station: the frame taken or the reason it is discarded. -/
def receiveLine (tag : Byte) (n : Nat) : List Bool → Except Discard Frame
  | false :: bits => receiveBits tag n bits
  | _ => .error .filler

/-! ### The line -/

/-- R20: the level of a bit time is recessive (true) only when no station drives it. -/
def lineLevel (sent : List Bool) : Bool := sent.all id

/-- R27: a station that sends `mine` against the line has lost when it sent recessive and read dominant. -/
def losesBit (mine line : Bool) : Bool := mine && !line

/-- R27: the station that goes on after one bit of byte 0: those that sent what the line carries. -/
def arbitrateBit (k : Nat) (contenders : List Byte) : List Byte :=
  let line := lineLevel (contenders.map (fun b => b.getLsbD k))
  contenders.filter (fun b => !losesBit (b.getLsbD k) line)

/-- R27: the byte 0 values still contending after the eight bits, most significant first. -/
def arbitrateByte0 (contenders : List Byte) : List Byte :=
  [7, 6, 5, 4, 3, 2, 1, 0].foldl (fun cs k => arbitrateBit k cs) contenders

end Sys2Proof.Machine
end

