-- ==== Sys2Proof/Machine/Operands.lean ====
section
/-! DEFINITION. The forms in which values come from outside, and how they are judged: the store header (R139), the
class of a slot (R140), the slot image (R145), the status byte (R190), the frames of the line (R31, R32) and the
arguments and top states of host commands (R170, R171). -/

namespace Sys2Proof.Machine

/-! ### The store header -/

/-- R139: the fields a header can fail in, in the order they are judged. -/
inductive HeaderField where
  | magic
  | layout
  | tag
  | count
  | beacon
  | patience
  | check
  deriving DecidableEq, Repr

/-- R139: N is 64 to 1024 and a multiple of 64. -/
def countOk (n : BitVec 16) : Bool := 64 ≤ n.toNat && n.toNat ≤ 1024 && n.toNat % 64 == 0

/-- R139, R143: the judgement of the 12 header bytes: the fields, or the first field that fails. Bytes that did not
arrive are read as 0xFF (R137). -/
def judgeHeader (bytes : List Byte) : Except HeaderField Header :=
  let b (k : Nat) : Byte := bytes.getD k Config.absentByte
  let n := be16 (b 6) (b 7)
  if be32 (b 0) (b 1) (b 2) (b 3) ≠ Config.magic then .error .magic
  else if b 4 ≠ Config.layout then .error .layout
  else if b 5 = 0 then .error .tag
  else if !countOk n then .error .count
  else if (b 8).toNat < 2 then .error .beacon
  else if (b 9).toNat < 5 then .error .patience
  else if be16 (b 10) (b 11) ≠ checkOf (bytes.take 10) then .error .check
  else .ok { tag := b 5, count := n.toNat, beacon := b 8, patience := b 9 }

/-! ### Slots -/

/-- R140: what a slot read reports. -/
inductive SlotResult where
  | vacant
  | written (stamp : Stamp) (recorded computed : Signature)
  | damaged
  deriving DecidableEq, Repr

/-- R140: the signature computed over a slot; none for a slot that is not written. -/
def SlotResult.computed? : SlotResult → Option Signature
  | .written _ _ computed => some computed
  | .vacant => none
  | .damaged => none

/-- R140, R144: the class of the 264 bytes of a slot, with both signatures for a written one. -/
def classSlot (bytes : List Byte) : SlotResult :=
  let trailer := bytes.drop Config.segmentBytes
  let b (k : Nat) : Byte := trailer.getD k Config.absentByte
  let t : Stamp := ⟨be16 (b 0) (b 1), b 2⟩
  if trailer.all (· = Config.absentByte) then .vacant
  else if b 3 = Config.marker ∧ stampOk t ∧ t ≠ nullStamp then
    .written t (be32 (b 4) (b 5) (b 6) (b 7)) (signatureOf t (bytes.take Config.segmentBytes))
  else .damaged

/-- R145: the eight trailer bytes: version, origin, marker, signature. -/
def trailerBytes (t : Stamp) (x : Signature) : List Byte := stampBytes t ++ [Config.marker] ++ bytes32 x

/-- R145: the 264 bytes of a slot write. -/
def slotImage (data : List Byte) (t : Stamp) (x : Signature) : List Byte := data ++ trailerBytes t x

/-- R189: the address of slot `i`. -/
def slotAddress (i : Nat) : Nat := Config.slotBase + Config.slotBytes * i

/-! ### The status byte -/

/-- R190: bit 0 is the busy indication. -/
def statusBusy (v : Byte) : Bool := v.getLsbD 0

/-- R190: bit 5 is the error indication. -/
def statusError (v : Byte) : Bool := v.getLsbD 5

/-! ### Frames taken by the part -/

/-- R31: the tests on the fields of a received frame, against N as self holds it. -/
def goodFrame (s : State) (sender target : Station) (body : Body) : Bool :=
  Frame.wellFormed ⟨sender, target, imageTag s, body⟩ && bodyInRange (segCount s) body

/-- R32: the body is delivered: the target is 0 or self. -/
def forSelf (s : State) (target : Station) : Bool := target = 0 || target = s.start.station

/-! ### Host commands -/

/-- R170: a segment argument is below N. -/
def segmentArgOk (s : State) (i : SegNum) : Bool := i.toNat < segCount s

/-- R171: STATUS is taken in every top state. -/
def inEvery (_ : TopState) : Bool := true

/-- R171: ROSTER, SEGINFO and STAGE are taken in CENSUS, ACTIVE and DETACHED. -/
def inCensusOn (t : TopState) : Bool := t = .census || t = .active || t = .detached

/-- R171: EVENTS and RESTART are taken in every top state but STARTING. -/
def inHaltedOn (t : TopState) : Bool := t = .halted || inCensusOn t

/-- R171: the other commands are taken in ACTIVE and DETACHED. -/
def inRunning (t : TopState) : Bool := t = .active || t = .detached

end Sys2Proof.Machine
end

