-- ==== Sys2Proof/Machine/Ops.lean ====
section
/-! DEFINITION. The named operations every block uses: the event queue (R184), the segment records with the bank
digests (R18, R54), and the store arbiter's places (R149). -/

namespace Sys2Proof.Machine

/-! ### The event queue -/

/-- A LOST record (R184). -/
def lostEvent : Event := ⟨.lost, none, none, none⟩

/-- The queue holds a LOST record. -/
def holdsLost (q : List Event) : Bool := q.any (·.kind = .lost)

/-- R184: what becomes of a record offered for the queue. -/
def offerEvent (e : Event) (q : List Event) : List Event :=
  if holdsLost q then q
  else if q.length < Config.eventRoom then q ++ [e]
  else if q.length = Config.eventRoom then q ++ [lostEvent]
  else q

/-- R184: a block places a record in the event queue. -/
def raise (kind : EventKind) (segment : Option Nat) (station : Option Station) (stamp : Option Stamp) (s : State) :
    State :=
  { s with host.events := offerEvent ⟨kind, segment, station, stamp⟩ s.host.events }

/-! ### Segment records and digests -/

/-- The record of segment `i`; outside the table, an UNKNOWN record. -/
def getRec (s : State) (i : Nat) : SegRec := s.segs.recs.getD i unknownRec

/-- R54: a changed digest equal to the digest copy of a running holdoff stops the holdoff. -/
def stopHoldoff (b : Nat) (digest : Signature) (banks : List BankEntry) : List BankEntry :=
  match banks[b]? with
  | some e => if e.holdoff.isSome ∧ e.copy = some digest then banks.set b ⟨none, none⟩ else banks
  | none => banks

/-- R18, R54: the digest of bank `b` changes by `delta`, and the Roster Unit compares the new digest. -/
def changeDigest (b : Nat) (delta : Signature) (s : State) : State :=
  if delta = 0 then s
  else
    let d := s.segs.digests.getD b 0 ^^^ delta
    { s with
      segs.digests := s.segs.digests.set b d
      roster.banks := stopHoldoff b d s.roster.banks }

/-- The record of segment `i` becomes `r`; a change of its contributed signature updates the bank digest in place
with the old and the new rotated values (R18). -/
def putRec (i : Nat) (r : SegRec) (s : State) : State :=
  if i < segCount s then
    changeDigest (i / Config.bankSize) (rotated i (contributed (getRec s i)) ^^^ rotated i (contributed r))
      { s with segs.recs := s.segs.recs.set i r }
  else s

/-- The record of segment `i` is changed by `f`. -/
def modifyRec (i : Nat) (f : SegRec → SegRec) (s : State) : State := putRec i (f (getRec s i)) s

/-- R18: the digest of bank `b` by its definition, recounted from the records. -/
def recountDigest (recs : List SegRec) (b : Nat) : Signature :=
  (List.range Config.bankSize).foldl
    (fun acc o =>
      acc ^^^ rotated (Config.bankSize * b + o) (contributed (recs.getD (Config.bankSize * b + o) unknownRec))) 0

/-! ### The store arbiter -/

/-- R145: a write request taken becomes the operation in progress, beginning with its status read. -/
def beginWrite (q : WriteReq) (s : State) : State :=
  { s with
    store.op := .writing
      { client := q.client, segment := q.segment, stamp := q.stamp,
        signature := match q.client with
          | .commit => s.repair.commit.map (·.signature)
          | .publish => none
        timer := none } false }

/-- R149: while the store is free the arbiter takes the first pending request: the older write, the younger write, the
serve read, the host read, the census read. -/
def arbitrate (s : State) : State :=
  if s.store.op ≠ .idle then s
  else
    match s.store.writes with
    | q :: rest => beginWrite q { s with store.writes := rest }
    | [] =>
      match s.store.serveReq with
      | some i => { s with store.op := .reading .serve i, store.serveReq := none }
      | none =>
        match s.store.hostReq with
        | some i => { s with store.op := .reading .host i, store.hostReq := none }
        | none =>
          match s.store.censusReq with
          | some i => { s with store.op := .reading .census i, store.censusReq := none }
          | none => s

/-- The slot write in progress, as the request it came from. -/
def writeOf : StoreOp → Option WriteOp
  | .writing w _ => some w
  | .polling w => some w
  | .verifying w => some w
  | .recovering w _ => some w
  | _ => none

/-- R149: a write is requested, younger than any pending one. -/
def requestWrite (q : WriteReq) (s : State) : State := arbitrate { s with store.writes := s.store.writes ++ [q] }

/-- R111: the serve read of segment `i` is requested. -/
def requestServeRead (i : Nat) (s : State) : State :=
  arbitrate { s with store.serveReq := some i, serve.reading := true }

/-- R174: the host read of segment `i` is requested. -/
def requestHostRead (i : Nat) (s : State) : State := arbitrate { s with store.hostReq := some i }

/-- R158: the census read of segment `i` is requested. -/
def requestCensusRead (i : Nat) (s : State) : State := arbitrate { s with store.censusReq := some i }

/-- R149: the operation has ended, its result is handed over and applied, and the controller returns to IDLE. -/
def endOp (s : State) : State := arbitrate { s with store.op := .idle, store.computed := none }

end Sys2Proof.Machine
end

