-- ==== Sys2Proof/Machine/Outbox.lean ====
section
/-! DEFINITION. The outbox (R34 to R36), the Serve Unit's work on the head of its queue (R111, R113 to R115) with the
end notices of DATA descriptors (R38), and the assembly of frame bodies (R37). An offer by any block can evict a DATA
descriptor, whose end the Serve Unit is then told; so the two stand together. -/

namespace Sys2Proof.Machine

/-! ### Descriptors -/

/-- R34, R24: the kind code of a descriptor. -/
def codeOf : FrameId → Nat
  | .news _ => 1
  | .poll _ => 2
  | .ballot _ => 3
  | .request _ _ => 4
  | .nohave _ _ => 5
  | .busy _ _ => 6
  | .data _ _ _ => 7
  | .sigquery _ _ => 8
  | .siglist _ _ => 9
  | .digest _ => 10

/-- R34: the target of a descriptor; 0 for a broadcast kind. -/
def targetOf : FrameId → Station
  | .news _ => 0
  | .poll _ => 0
  | .ballot _ => 0
  | .request p _ => p
  | .nohave p _ => p
  | .busy p _ => p
  | .data p _ _ => p
  | .sigquery p _ => p
  | .siglist _ _ => 0
  | .digest _ => 0

/-- A DATA descriptor, whose end is told to the Serve Unit (R38). -/
def isData : FrameId → Bool
  | .data _ _ _ => true
  | _ => false

/-- A descriptor that is told: itself for DATA, none for another kind (R38). -/
def notice (id : FrameId) : Option FrameId := if isData id then some id else none

/-- R34, R35: a new descriptor joins as the youngest of its code. -/
def insertDesc (d : Desc) : List Desc → List Desc
  | [] => [d]
  | x :: rest => if codeOf x.ident ≤ codeOf d.ident then x :: insertDesc d rest else d :: x :: rest

/-- R35: an offer is merged into a descriptor of the same identity. -/
def mergeDesc (ballotStamp : Option Stamp) (d : Desc) : Desc :=
  { d with
    ballotStamp := match ballotStamp with
      | some t => some t
      | none => d.ballotStamp
    renewed := if d.inTransmission then true else d.renewed }

/-- R36: G, the greatest kind code among the waiting descriptors. -/
def greatestCode (box : List Desc) : Nat :=
  (box.filter (fun d => !d.inTransmission)).foldl (fun g d => max g (codeOf d.ident)) 0

/-- R36: the youngest waiting descriptor whose code is `g`. -/
def youngestWaiting (g : Nat) (box : List Desc) : Option Desc :=
  box.reverse.find? (fun d => !d.inTransmission && codeOf d.ident == g)

/-- R35, R36: the outbox after an offer in ACTIVE, and the DATA descriptor dropped or evicted by it. -/
def offerBox (id : FrameId) (ballotStamp : Option Stamp) (box : List Desc) : List Desc × Option FrameId :=
  if box.any (fun d => d.ident = id) then
    (box.map (fun d => if d.ident = id then mergeDesc ballotStamp d else d), none)
  else
    let fresh : Desc := { ident := id, ballotStamp := ballotStamp, inTransmission := false, renewed := false }
    if box.length < Config.outboxCapacity then (insertDesc fresh box, none)
    else if greatestCode box ≤ codeOf id then (box, notice id)
    else
      (insertDesc fresh (removeLast (fun d => !d.inTransmission && codeOf d.ident == greatestCode box) box),
        (youngestWaiting (greatestCode box) box).bind (fun d => notice d.ident))

/-- R35: an offer to the outbox with the DATA descriptor it drops or evicts; outside ACTIVE it is dropped. -/
def offerRaw (id : FrameId) (ballotStamp : Option Stamp) (s : State) : State × Option FrameId :=
  if s.start.top ≠ .active then (s, notice id)
  else
    let after := offerBox id ballotStamp s.line.outbox
    ({ s with line.outbox := after.1 }, after.2)

/-! ### The Serve Unit -/

/-- R114: the notice ends a chunk: the head is in SEND, the notice names it, and the chunk is outstanding. -/
def endsChunk (id : FrameId) (s : State) : Bool :=
  match id, s.serve.queue with
  | .data p i c, head :: _ =>
    s.serve.phase = .send && head.requester = p && head.segment = i && hasChunk s.serve.outstanding c
  | _, _ => false

/-- R114: the chunk leaves the outstanding set and the remaining mask; any other notice is ignored. -/
def endChunk (id : FrameId) (s : State) : State :=
  if endsChunk id s then
    match id, s.serve.queue with
    | .data _ _ c, head :: rest =>
      { s with
        serve.queue := { head with remaining := dropChunk head.remaining c } :: rest
        serve.outstanding := dropChunk s.serve.outstanding c }
    | _, _ => s
  else s

/-- R115: the head leaves the serve queue. -/
def leaveHead (s : State) : State :=
  { s with serve.queue := s.serve.queue.tail, serve.phase := .waiting, serve.outstanding := 0 }

/-- R113: the lowest chunk in the remaining mask and not in the outstanding set. -/
def nextChunk (remaining outstanding : ChunkMask) : Option Chunk :=
  chunks.find? (fun c => hasChunk remaining c && !hasChunk outstanding c)

/-- One action of the Serve Unit, with the DATA end notice it meets; none when it is at rest. A complete head leaves
(R115), the pacing offers a chunk (R113), and a waiting head is tested and taken into service or answered NOHAVE
(R111). -/
def serveStep (s : State) : Option (State × Option FrameId) :=
  match s.serve.queue with
  | [] => none
  | head :: _ =>
    match s.serve.phase with
    | .read => none
    | .send =>
      if head.remaining = 0 then some (leaveHead s, none)
      else if chunkCount s.serve.outstanding < Config.paceLimit then
        (nextChunk head.remaining s.serve.outstanding).map fun c =>
          offerRaw (.data head.requester head.segment c) none
            { s with serve.outstanding := addChunk s.serve.outstanding c }
      else none
    | .waiting =>
      if s.start.top ≠ .active ∨ s.serve.reading then none
      else if serves (getRec s head.segment) head.stamp then
        some (requestServeRead head.segment { s with serve.phase := .read }, none)
      else
        let answered := offerRaw (.nohave head.requester head.segment) none s
        some (leaveHead answered.1, answered.2)

/-- The Serve Unit works, end notice by end notice, until it is at rest. -/
def serveRun : Nat → Option FrameId → State → State
  | 0, _, s => s
  | n + 1, some id, s => serveRun n none (endChunk id s)
  | n + 1, none, s =>
    match serveStep s with
    | none => s
    | some (s', told) => serveRun n told s'

/-- The Serve Unit is set to work. -/
def serveWork (s : State) : State := serveRun Config.serveFuel none s

/-- R38: the Serve Unit is told the end of a descriptor; a notice of no outstanding chunk is ignored (R114). -/
def tellServe (id : FrameId) (s : State) : State :=
  if endsChunk id s then serveRun Config.serveFuel (some id) s else s

/-- R35: a block offers a descriptor; a DATA descriptor dropped or evicted by it is told to the Serve Unit. -/
def offerWith (id : FrameId) (ballotStamp : Option Stamp) (s : State) : State :=
  match offerRaw id ballotStamp s with
  | (s', some told) => tellServe told s'
  | (s', none) => s'

/-- R35: an offer of a kind without a ballot stamp. -/
def offer (id : FrameId) (s : State) : State := offerWith id none s

/-! ### The landing slots and the repair queue, as the REQUEST body reads them -/

/-- The repair entry of segment `i`. -/
def findEntry (s : State) (i : Nat) : Option Entry := s.repair.queue.find? (fun e => e.segment = i)

/-- A landing slot by name (R83). -/
def RepairUnit.slot (r : RepairUnit) : SlotName → Option Slot
  | .a => r.slotA
  | .b => r.slotB
  | .c => r.slotC

/-- A landing slot of the part by name (R83). -/
def getSlot (s : State) (n : SlotName) : Option Slot := s.repair.slot n

/-- The landing slot held by the entry of segment `i`. -/
def slotOf (s : State) (i : Nat) : Option Slot :=
  match findEntry s i with
  | some e =>
    match e.slot with
    | some n => getSlot s n
    | none => none
  | none => none

/-- The dispute entry of segment `i`. -/
def findDispute (s : State) (i : Nat) : Option Dispute := s.disputes.find? (fun d => d.segment = i)

/-! ### Body assembly -/

/-- R37: the body of a descriptor from the state of the moment, or none when its subject is gone. -/
def assemble (id : FrameId) (ballotStamp : Option Stamp) (s : State) : Option Body :=
  match id with
  | .news i =>
    let r := getRec s i
    if r.usable ∧ r.stamp ≠ nullStamp then some (.news (.ofNat 16 i) r.stamp r.signature) else none
  | .poll i => (findDispute s i).map fun d => .poll (.ofNat 16 i) d.stamp (getRec s i).signature
  | .ballot i =>
    let r := getRec s i
    if (r.state = .good ∨ r.state = .disputed) ∧ r.usable ∧ some r.stamp = ballotStamp then
      some (.ballot (.ofNat 16 i) r.stamp r.signature)
    else none
  | .request p i =>
    match findEntry s i, slotOf s i with
    | some e, some slot =>
      if slot.mask = allChunks ∨ e.source ≠ some p then none
      else some (.request (.ofNat 16 i) slot.stamp (~~~ slot.mask))
    | _, _ => none
  | .nohave _ i =>
    let r := getRec s i
    some (.nohave (.ofNat 16 i) (if r.state ≠ .unknown ∧ r.usable then r.stamp else nullStamp))
  | .busy _ i => some (.busy (.ofNat 16 i))
  | .data p i c =>
    match s.serve.queue.find? (fun e => e.requester = p && e.segment = i), s.serve.buffer with
    | some e, some b =>
      if b.segment = i ∧ b.stamp = e.stamp then some (.data (.ofNat 16 i) b.stamp c (chunkOf b.data c)) else none
    | _, _ => none
  | .sigquery _ b => some (.sigquery (.ofNat 8 b))
  | .siglist b k =>
    some (.siglist (.ofNat 8 b) k
      ((List.range 16).map fun j => sigEntry (getRec s (Config.bankSize * b + 16 * k.toNat + j))))
  | .digest b => some (.digest (.ofNat 8 b) (s.segs.digests.getD b 0))

end Sys2Proof.Machine
end

