-- ==== Sys2Proof/Machine/Repair.lean ====
section
/-! DEFINITION. The Repair Unit: the fetch engine (R86 to R103), the repair queue with admission, rise, eviction and
backfill (R69 to R75), and the settle with its offer (R15, R16). -/

namespace Sys2Proof.Machine

/-! ### Entries, slots and the active job -/

/-- R82: the active job. -/
def activeEntry (s : State) : Option Entry := s.repair.queue.find? (fun e => e.state = .active)

/-- The entry of segment `i` is changed by `f`. -/
def setEntry (i : Nat) (f : Entry → Entry) (s : State) : State :=
  { s with repair.queue := s.repair.queue.map (fun e => if e.segment = i then f e else e) }

/-- A landing slot takes a value; none frees it (R83). -/
def setSlot (n : SlotName) (v : Option Slot) (s : State) : State :=
  match n with
  | .a => { s with repair.slotA := v }
  | .b => { s with repair.slotB := v }
  | .c => { s with repair.slotC := v }

/-- R83: the free slot that comes first in the order A, B, C. -/
def freeSlot (s : State) : Option SlotName :=
  if s.repair.slotA.isNone then some .a
  else if s.repair.slotB.isNone then some .b
  else if s.repair.slotC.isNone then some .c
  else none

/-- The landing slot of the entry of segment `i` is changed by `f`. -/
def modifySlot (i : Nat) (f : Slot → Slot) (s : State) : State :=
  match findEntry s i with
  | some e =>
    match e.slot with
    | some n => setSlot n ((getSlot s n).map f) s
    | none => s
  | none => s

/-- R83: a repair entry for segment `i` holds a landing slot. -/
def holdsSlot (s : State) (i : Nat) : Bool := (findEntry s i).any (fun e => e.slot.isSome)

/-- The patience timer is stopped (R82). -/
def stopPatience (s : State) : State := { s with repair.patience := none }

/-- R83, R93, R99: the chunks of a slot are discarded. The bytes of missing chunks mean nothing (R83); that they are
0x00 is the model's. DESIGN CHOICE (assumption log 36). -/
def clearChunks (slot : Slot) : Slot :=
  { slot with mask := 0, data := blankSegment, supplier := none, computed := none }

/-- R74, R83, R100: the entry of segment `i` leaves the queue and the suspend stack, its slot is freed, and an active
job's condition and timer end with it. -/
def dropEntry (i : Nat) (s : State) : State :=
  match findEntry s i with
  | none => s
  | some e =>
    let s1 := { s with
      repair.queue := s.repair.queue.filter (fun e => e.segment ≠ i)
      repair.stack := s.repair.stack.filter (fun j => j ≠ i) }
    let s2 := match e.slot with
      | some n => setSlot n none s1
      | none => s1
    if e.state = .active then { s2 with repair.cond := none, repair.patience := none } else s2

/-- R15: the record of segment `i` is settled, without the offer of R16. -/
def settleQuiet (i : Nat) (s : State) : State :=
  modifyRec i (fun r => { r with state := settledState (holdsSlot s i) r }) s

/-! ### The order of the queue -/

/-- R70: an entry joins as the youngest of its level. -/
def insertEntry (e : Entry) : List Entry → List Entry
  | [] => [e]
  | x :: rest => if levelRank e.level ≤ levelRank x.level then x :: insertEntry e rest else e :: x :: rest

/-- R69: an entry as it is at admission. -/
def freshEntry (i : Nat) (level : Level) : Entry where
  segment := i
  level := level
  state := .waiting
  slot := none
  tried := 0
  attempts := 0
  source := none
  verified := false

/-- R71: an entry for segment `i` is added at a level. -/
def addEntry (level : Level) (i : Nat) (s : State) : State :=
  { s with repair.queue := insertEntry (freshEntry i level) s.repair.queue }

/-- R69: the queue has room. -/
def queueRoom (s : State) : Bool := s.repair.queue.length < Config.repairCapacity

/-- R77: segment `i` is on the pin list. -/
def pinned (s : State) (i : Nat) : Bool := s.repair.pins.contains i

/-! ### Backfill while there is no active job -/

/-- R75: segment `i` qualifies for backfill. -/
def qualifies (s : State) (i : Nat) : Bool :=
  backfillable (getRec s i) && !pinned s i && (findEntry s i).isNone

/-- R75: one segment of the search: admitted at its admission level when it qualifies and there is room. -/
def backfillOne (i : Nat) (s : State) : State :=
  if queueRoom s && qualifies s i then addEntry (admissionLevel (getRec s i)) i s else s

/-- R75, R86: the backfill that follows a departure while the engine has no active job: it admits and makes no pick. -/
def backfillQuiet (s : State) : State :=
  if s.start.top ≠ .active then s else (List.range (segCount s)).foldl (fun s i => backfillOne i s) s

/-! ### Sources -/

/-- R88: the station qualifies as a source of the entry. -/
def eligible (s : State) (e : Entry) (p : Station) : Bool :=
  ((getRec s e.segment).evidence.any fun ev => hasStation ev.holders p) &&
    !hasStation e.tried p && isPresent s p && p != s.start.station

/-- R88, R96: the lowest-numbered station that qualifies, one station left out if the BUSY rule asks it. -/
def bestSource (s : State) (e : Entry) (leaveOut : Option Station) : Option Station :=
  stations.find? fun p => eligible s e p && leaveOut != some p

/-- R89: the current source becomes `p`, a REQUEST is offered to it, and the patience timer starts at P. -/
def askSource (p : Station) (i : Nat) (s : State) : State :=
  let s1 := setEntry i (fun e => { e with source := some p }) s
  let s2 := offer (.request p i) s1
  { s2 with repair.cond := some .asking, repair.patience := some (patienceMs s2) }

/-- The station joins the tried set of the entry. -/
def markTried (p : Station) (i : Nat) (s : State) : State :=
  setEntry i (fun e => { e with tried := addStation e.tried p }) s

/-- R98, without the pick that follows it: the job of segment `i` ends exhausted. -/
def exhaustJob (i : Nat) (s : State) : State :=
  let wanted := (slotOf s i).map (·.stamp)
  backfillQuiet <| settleQuiet i <| dropEntry i <| raise .orphaned (some i) none wanted <|
    modifyRec i (fun r => { r with exhausted := true }) <| stopPatience s

/-- R88: a source is chosen for the active job, or the job ends exhausted. -/
def chooseSource (leaveOut : Option Station) (s : State) : State :=
  match activeEntry s with
  | none => s
  | some e =>
    match bestSource s e leaveOut with
    | some p => askSource p e.segment s
    | none => exhaustJob e.segment s

/-- R93, R96, R94: an attempt is counted for segment `i`. -/
def countAttempt (i : Nat) (s : State) : State := setEntry i (fun e => { e with attempts := e.attempts + 1 }) s

/-- R93, R94: the job ends exhausted when its attempts are 4; otherwise a source is chosen. -/
def chooseOrEnd (i : Nat) (s : State) : State :=
  if (findEntry s i).any (fun e => Config.attemptLimit ≤ e.attempts) then exhaustJob i s else chooseSource none s

/-! ### Hand-off and verification -/

/-- R102, without the pick that follows it: the verified copy of segment `i` goes to the commit buffer; with the
buffer occupied the job waits in READY (R103). -/
def handOff (i : Nat) (s : State) : State :=
  match slotOf s i with
  | none => s
  | some slot =>
    if s.repair.commit.isSome then { s with repair.cond := some .ready, repair.patience := none }
    else
      let s1 := { s with
        repair.commit := some {
          segment := i, stamp := slot.stamp, signature := slot.signature, data := slot.data,
          supplier := slot.supplier } }
      let s2 := modifyRec i (fun r => { r with pendingWrites := r.pendingWrites + 1 }) s1
      backfillQuiet <| requestWrite ⟨.commit, i, slot.stamp⟩ <| settleQuiet i <| dropEntry i s2

/-- R93: the active job's complete slot is verified. -/
def verifyJob (e : Entry) (s : State) : State :=
  let s1 := stopPatience s
  match slotOf s1 e.segment with
  | none => s1
  | some slot =>
    if slot.computed = some slot.signature then
      handOff e.segment (setEntry e.segment (fun e => { e with verified := true }) s1)
    else
      let s2 := match e.source with
        | some p => markTried p e.segment s1
        | none => s1
      chooseOrEnd e.segment <| modifySlot e.segment clearChunks <| countAttempt e.segment s2

/-! ### Starting, resuming, picking -/

/-- R87: a fresh start of the entry of segment `i`. The rule names no data bytes for the slot it takes; that they are
0x00 until their chunks come is the model's. DESIGN CHOICE (assumption log 36). -/
def freshStart (i : Nat) (s : State) : State :=
  match (getRec s i).evidence, freeSlot s with
  | some ev, some n =>
    let s1 := setSlot n (some {
      segment := i, stamp := ev.stamp, signature := ev.signature, mask := 0, data := blankSegment,
      supplier := none, computed := none }) s
    let s2 := setEntry i (fun e => { e with state := .active, slot := some n }) s1
    chooseSource none (modifyRec i (fun r => { r with state := .fetching }) s2)
  | _, _ => s

/-- R91: the resume of an entry that holds a slot. -/
def resume (e : Entry) (s : State) : State :=
  let i := e.segment
  let s1 := setEntry i (fun e => { e with state := .active }) s
  if e.verified then handOff i s1
  else if (slotOf s i).any (fun slot => slot.mask = allChunks) then verifyJob e s1
  else
    match e.source with
    | some p => if eligible s e p then askSource p i s1 else chooseSource none (markTried p i s1)
    | none => chooseSource none s1

/-- R87, R91: the entry of segment `i` is taken up: started fresh when it holds no slot, resumed when it holds one. -/
def takeUp (i : Nat) (s : State) : State :=
  match findEntry s i with
  | none => s
  | some e => if e.slot.isNone then freshStart i s else resume e s

/-- R70: the first WAITING entry. -/
def firstWaiting (s : State) : Option Entry := s.repair.queue.find? (fun e => e.state = .waiting)

/-- R86: the segment a pick takes, and the stack it leaves. -/
def pickChoice (s : State) : Option (Nat × List Nat) :=
  match s.repair.stack, firstWaiting s with
  | [], some w => some (w.segment, [])
  | [], none => none
  | top :: rest, some w =>
    if (findEntry s top).any (fun e => levelRank e.level < levelRank w.level) then some (w.segment, top :: rest)
    else some (top, rest)
  | top :: rest, none => some (top, rest)

/-- R86: while the engine in ACTIVE has no active job, it picks one; a job that ends at once is followed by the next
pick (R98, R102). -/
def pickLoop : Nat → State → State
  | 0, s => s
  | n + 1, s =>
    if s.start.top ≠ .active ∨ (activeEntry s).isSome then s
    else
      match pickChoice s with
      | none => s
      | some (i, stack) => pickLoop n (takeUp i { s with repair.stack := stack })

/-- R86: the pick that follows each point at which the engine has no active job. -/
def pick (s : State) : State := pickLoop Config.pickFuel s

/-- R90: the active job is suspended onto the stack, its timer discarded. -/
def preempt (s : State) : State :=
  match activeEntry s with
  | none => s
  | some a =>
    let s1 := setEntry a.segment (fun e => { e with state := .suspended }) s
    { s1 with repair.stack := a.segment :: s1.repair.stack, repair.cond := none, repair.patience := none }

/-- R71, R72, R90: the entry of segment `i` stands above the active job's level: it preempts and is taken up. -/
def preemptFor (i : Nat) (s : State) : State :=
  match activeEntry s, findEntry s i with
  | some a, some e => if levelRank a.level < levelRank e.level then pick (takeUp i (preempt s)) else s
  | _, _ => s

/-- R71, R86: what follows an admission or a rise in ACTIVE: a preemption, or a pick when there is no active job. -/
def afterAdmission (i : Nat) (s : State) : State :=
  if s.start.top ≠ .active then s else if (activeEntry s).isNone then pick s else preemptFor i s

/-! ### Admission -/

/-- R71: an offer of segment `i` passes. -/
def admissible (s : State) (i : Nat) : Bool :=
  (s.start.top = .census || s.start.top = .active) && fetchable (getRec s i) && !pinned s i

/-- R72: the entry of segment `i` rises to a level, if that is higher; a suspended entry becomes WAITING. -/
def raiseEntry (level : Level) (e : Entry) (s : State) : State :=
  if levelRank level ≤ levelRank e.level then s
  else
    let i := e.segment
    let risen : Entry := { e with level := level, state := if e.state = .suspended then .waiting else e.state }
    let s1 := { s with
      repair.queue := insertEntry risen (s.repair.queue.filter (fun x => x.segment ≠ i))
      repair.stack := if e.state = .suspended then s.repair.stack.filter (fun j => j ≠ i) else s.repair.stack }
    if e.state = .active then s1 else afterAdmission i s1

/-- A WAITING entry at SWEEP (R73). -/
def waitingSweep (e : Entry) : Bool := e.state = .waiting && e.level = .sweep

/-- R73: the queue can take a new entry of this level. -/
def hasPlace (level : Level) (s : State) : Bool :=
  queueRoom s || (level != .sweep && s.repair.queue.any waitingSweep)

/-- R71, R73: an entry is added, the youngest WAITING SWEEP entry giving way when the queue is full. -/
def admitEntry (level : Level) (i : Nat) (s : State) : State :=
  if queueRoom s then afterAdmission i (addEntry level i s)
  else if level != .sweep && s.repair.queue.any waitingSweep then
    afterAdmission i (addEntry level i { s with repair.queue := removeLast waitingSweep s.repair.queue })
  else s

/-- R71, R72: an offer that has passed, at a level. -/
def enterQueue (level : Level) (i : Nat) (s : State) : State :=
  match findEntry s i with
  | some e => raiseEntry level e s
  | none => admitEntry level i s

/-- R71: the offer of segment `i` to the repair queue. -/
def offerRepair (i : Nat) (s : State) : State :=
  if admissible s i then enterQueue (admissionLevel (getRec s i)) i s else s

/-- R75: backfill; a segment admitted above the active job's level preempts it. -/
def backfill (s : State) : State :=
  if s.start.top ≠ .active then s
  else
    (List.range (segCount s)).foldl
      (fun s i => if queueRoom s && qualifies s i then preemptFor i (backfillOne i s) else s) s

/-- R15, R16: the record of segment `i` is settled, and offered when the settle leaves it STALE or DAMAGED with
evidence and the exhausted flag clear. -/
def settle (i : Nat) (s : State) : State :=
  let s1 := settleQuiet i s
  if settleOffers (getRec s1 i) then offerRepair i s1 else s1

/-- R103: with the commit buffer free, a READY active job hands off, and a pick follows. -/
def readyHandOff (s : State) : State :=
  match activeEntry s with
  | some a => if s.repair.cond = some .ready then pick (handOff a.segment s) else s
  | none => s

/-- R74, R100: the entry of segment `i` leaves by PIN or PUBLISH, its job cancelled. -/
def cancelEntry (i : Nat) (s : State) : State := dropEntry i s

end Sys2Proof.Machine
end

