-- ==== Sys2Proof/Machine/Disputes.lean ====
section
/-! DEFINITION. The Dispute Unit (R120 to R133) and the copy that becomes UNUSABLE (R7). -/

namespace Sys2Proof.Machine

/-! ### Ballots -/

/-- R121: a station's ballot is set in a list of ballots in station order, replacing its earlier one. -/
def setBallot (p : Station) (x : Signature) : List (Station × Signature) → List (Station × Signature)
  | [] => [(p, x)]
  | (q, y) :: rest =>
    if q = p then (p, x) :: rest
    else if p.toNat < q.toNat then (p, x) :: (q, y) :: rest
    else (q, y) :: setBallot p x rest

/-- R128: the ballots for a signature. -/
def ballotsFor (x : Signature) (ballots : List (Station × Signature)) : List (Station × Signature) :=
  ballots.filter (fun b => b.2 = x)

/-- R128: the signature that at least `t` ballots are for. -/
def winner (t : Nat) (ballots : List (Station × Signature)) : Option Signature :=
  (ballots.find? (fun b => t ≤ (ballotsFor b.2 ballots).length)).map (·.2)

/-- R130: the stations whose ballots are for a signature. -/
def votersFor (x : Signature) (ballots : List (Station × Signature)) : StationSet :=
  (ballotsFor x ballots).foldl (fun set b => addStation set b.1) 0

/-- R131: the length of a round, 3B, in milliseconds. -/
def roundMs (s : State) : Nat := 3 * beaconMs s

/-! ### Entries -/

/-- The dispute entry of segment `i` is changed by `f`. -/
def setDispute (i : Nat) (f : Dispute → Dispute) (s : State) : State :=
  { s with disputes := s.disputes.map (fun d => if d.segment = i then f d else d) }

/-- R120: the dispute entry of segment `i` is freed. -/
def freeDispute (i : Nat) (s : State) : State := { s with disputes := s.disputes.filter (fun d => d.segment ≠ i) }

/-- R120: the table has a free entry. -/
def disputeRoom (s : State) : Bool := s.disputes.length < Config.disputeCapacity

/-- R11: the dispute mark is cleared and dispute rounds set to 0. -/
def clearMark (r : SegRec) : SegRec := { r with mark := false, rounds := 0 }

/-- R122, R123, R161: the record is marked and becomes DISPUTED, dispute rounds 0. -/
def markDisputed (i : Nat) (s : State) : State :=
  modifyRec i (fun r => { r with mark := true, rounds := 0, state := .disputed }) s

/-- R122, R123: an entry is made at round 1 with its deadline at 3B. -/
def makeEntry (i : Nat) (ballots : List (Station × Signature)) (s : State) : State :=
  { s with
    disputes := s.disputes ++ [{
      segment := i, stamp := (getRec s i).stamp, ballots := ballots, round := 1, deadline := roundMs s }] }

/-- The own ballot: self with the record's local signature (R121). -/
def ownBallot (i : Nat) (s : State) : Station × Signature := (s.start.station, (getRec s i).signature)

/-! ### Deciding and taking up -/

/-- R129, steps 1 to 3: the dispute is decided for self's own signature. -/
def keepDispute (d : Dispute) (s : State) : State :=
  raise .disputeKept (some d.segment) none (some d.stamp) <|
    settle d.segment <| modifyRec d.segment clearMark <| freeDispute d.segment s

/-- R123: segment `i` waits for a dispute entry. -/
def waitsForEntry (s : State) (i : Nat) : Bool :=
  (getRec s i).state = .disputed && (getRec s i).rounds == 0 && (findDispute s i).isNone

/-- R123: the lowest-numbered waiting dispute. -/
def nextWaiting (s : State) : Option Nat := (List.range (segCount s)).find? (waitsForEntry s)

/-- R123: one waiting dispute is taken up; its evaluation with the own ballot alone can only keep it. -/
def takeUpOne (i : Nat) (s : State) : State :=
  let t := (getRec s i).stamp
  let s1 := makeEntry i [ownBallot i s] s
  let s2 := raise .disputeOpened (some i) none (some t) (offer (.poll i) s1)
  match findDispute s2 i with
  | some d => if threshold s2 ≤ 1 then keepDispute d s2 else s2
  | none => s2

/-- R123: waiting disputes are taken up while a free entry remains. -/
def takeUpLoop : Nat → State → State
  | 0, s => s
  | n + 1, s =>
    if s.start.top ≠ .active ∨ !disputeRoom s then s
    else
      match nextWaiting s with
      | none => s
      | some i => takeUpLoop n (takeUpOne i s)

/-- R123: the taking up of waiting disputes in ACTIVE. -/
def takeUpDisputes (s : State) : State := takeUpLoop Config.takeUpFuel s

/-- R133: the taking up that follows an entry freed; with no entry freed, nothing. -/
def takeUpIf (freed : Bool) (s : State) : State := if freed then takeUpDisputes s else s

/-- R7: the copy of segment `i` changes from USABLE to UNUSABLE; a copy already UNUSABLE stays as it is. -/
def copyUnusable (i : Nat) (s : State) : State :=
  if !(getRec s i).usable then s
  else
    let freed := (findDispute s i).isSome
    takeUpIf freed <| settle i <| modifyRec i (fun r => clearMark { r with usable := false }) <| freeDispute i s

/-- R130: the dispute is decided for another signature `w`. -/
def loseDispute (d : Dispute) (w : Signature) (s : State) : State :=
  let s1 := raise .disputeLost (some d.segment) none (some d.stamp) (freeDispute d.segment s)
  let s2 := modifyRec d.segment
    (fun r => clearExhausted { r with evidence := some {
      stamp := d.stamp, signature := w, holders := votersFor w d.ballots, fromNews := true } }) s1
  takeUpDisputes (copyUnusable d.segment s2)

/-- R128: the entry of segment `i` is evaluated with Q as it stands. -/
def evaluate (i : Nat) (s : State) : State :=
  match findDispute s i with
  | none => s
  | some d =>
    match winner (threshold s) d.ballots with
    | none => s
    | some w =>
      if w = (getRec s i).signature then takeUpDisputes (keepDispute d s) else loseDispute d w s

/-- R122, R123: a mismatch on the GOOD record of segment `i` from station `p` with signature `x` opens a dispute, or
leaves it waiting when the table is full. -/
def openDispute (p : Station) (i : Nat) (x : Signature) (s : State) : State :=
  if disputeRoom s then
    let t := (getRec s i).stamp
    let own := ownBallot i s
    evaluate i <| raise .disputeOpened (some i) (some p) (some t) <| offer (.poll i) <| markDisputed i <|
      makeEntry i (setBallot p x [own]) s
  else markDisputed i s

/-- R121, R128: a ballot is recorded in the entry of segment `i`. -/
def recordBallot (p : Station) (i : Nat) (x : Signature) (s : State) : State :=
  setDispute i (fun d => { d with ballots := setBallot p x d.ballots }) s

/-- R112, R175: a signature failure found by a serve or host read. -/
def signatureFailure (i : Nat) (s : State) : State :=
  if (getRec s i).usable then
    let t := (getRec s i).stamp
    raise .damaged (some i) none (some t) (copyUnusable i s)
  else s

/-- R124, R125: a GOOD record with a usable copy at stamp `t`. -/
def goodAt (r : SegRec) (t : Stamp) : Bool := r.state = .good && r.usable && r.stamp = t

/-- R124: a POLL at the Dispute Unit. One that carries the null stamp has no effect. -/
def disputePoll (p : Station) (i : Nat) (t : Stamp) (x : Signature) (s : State) : State :=
  let r := getRec s i
  let answer := offerWith (.ballot i) (some t)
  if t = nullStamp then s
  else if (findDispute s i).any (fun d => d.stamp = t) then evaluate i (answer (recordBallot p i x s))
  else if goodAt r t && r.signature = x then answer s
  else if goodAt r t then openDispute p i x s
  else if r.state = .disputed && (findDispute s i).isNone && r.stamp = t then answer s
  else s

/-- R125: a BALLOT at the Dispute Unit. One that carries the null stamp has no effect: no entry has that stamp (R120).
DEDUCED (assumption log 30). -/
def disputeBallot (p : Station) (i : Nat) (t : Stamp) (x : Signature) (s : State) : State :=
  let r := getRec s i
  if t = nullStamp then s
  else if (findDispute s i).any (fun d => d.stamp = t) then evaluate i (recordBallot p i x s)
  else if goodAt r t && r.signature ≠ x then openDispute p i x s
  else s

/-- R131, R132: the deadline of the entry of segment `i` runs out. -/
def deadlineExpiry (i : Nat) (s : State) : State :=
  match findDispute s i with
  | none => s
  | some d =>
    if d.round < Config.lastRound then
      let s1 := setDispute i (fun e => { e with round := d.round + 1 }) s
      let s2 := offer (.poll i) s1
      setDispute i (fun d => { d with deadline := roundMs s2 }) s2
    else
      takeUpDisputes <| raise .disputeAbandoned (some i) none (some d.stamp) <|
        modifyRec i (fun r => { r with rounds := 3 }) (freeDispute i s)

/-- R128: the lost station's ballot is removed from every entry, and every entry is evaluated. -/
def disputeStationLost (p : Station) (s : State) : State :=
  let s1 : State := { s with
    disputes := s.disputes.map (fun d => { d with ballots := d.ballots.filter (fun b => b.1 ≠ p) }) }
  (s1.disputes.map (·.segment)).foldl (fun s i => evaluate i s) s1

end Sys2Proof.Machine
end

