-- ==== Sys2Proof/Machine/Evidence.lean ====
section
/-! DEFINITION. Reports and evidence (R60 to R67, R99, R161): what the Segment Table does with what is heard. -/

namespace Sys2Proof.Machine

/-- R99: evidence raised for a segment whose entry holds a slot resets the job to the new copy; an active job chooses
a source anew, and a pick follows should it end. -/
def resetJob (i : Nat) (ev : Evidence) (s : State) : State :=
  match findEntry s i with
  | none => s
  | some e =>
    if e.slot.isNone then s
    else
      let s1 := modifySlot i
        (fun slot => clearChunks { slot with stamp := ev.stamp, signature := ev.signature }) s
      let s2 := setEntry i (fun e => { e with tried := 0, attempts := 0, source := none, verified := false }) s1
      if e.state = .active then pick (chooseSource none (stopPatience s2)) else s2

/-- The record of segment `i` takes a state directly (R64, R65). -/
def setRecState (i : Nat) (st : SegState) (s : State) : State := modifyRec i (fun r => { r with state := st }) s

/-- R64, R133: raised evidence drops the dispute of segment `i`: the record becomes STALE and is offered, and waiting
disputes are taken up when an entry was freed. -/
def dropDispute (i : Nat) (s : State) : State :=
  let freed := (findDispute s i).isSome
  let s1 := raise .disputeDropped (some i) none (some (getRec s i).stamp) (freeDispute i (modifyRec i clearMark s))
  takeUpIf freed (offerRepair i (setRecState i .stale s1))

/-- R63, R64: a report raises evidence. -/
def raiseEvidence (p : Station) (i : Nat) (t : Stamp) (x : Signature) (fromNews : Bool) (s : State) : State :=
  let before := getRec s i
  let ev : Evidence := { stamp := t, signature := x, holders := oneStation p, fromNews := fromNews }
  let s1 := modifyRec i (fun r => clearExhausted { r with evidence := some ev }) s
  match before.state with
  | .unknown => s1
  | .good => offerRepair i (setRecState i .stale s1)
  | .stale => offerRepair i s1
  | .orphan => offerRepair i (setRecState i .stale s1)
  | .fetching => offerRepair i (resetJob i ev s1)
  | .committing => s1
  | .disputed => dropDispute i s1
  | .damaged => if held before then s1 else offerRepair i s1

/-- R65: a report adds a holder to the evidence, in any state, while a publish of the segment is in flight too. That the
"Nothing" of R179's line for other reports, which refers to R61, means nothing beyond what R61 and R65 give is DEDUCED
(assumption log 33). -/
def addHolder (p : Station) (i : Nat) (ev : Evidence) (s : State) : State :=
  let before := getRec s i
  if hasStation ev.holders p then s
  else
    let s1 := modifyRec i
      (fun r => clearExhausted { r with evidence := some { ev with holders := addStation ev.holders p } }) s
    match before.state with
    | .orphan => if held before then s1 else offerRepair i (setRecState i .stale s1)
    | .damaged => if before.exhausted && !held before then offerRepair i s1 else s1
    | _ => s1

/-- R62, R161: the dispute branch: to the Dispute Unit in ACTIVE; in CENSUS the record is marked and waits. -/
def mismatch (p : Station) (i : Nat) (x : Signature) (s : State) : State :=
  if s.start.top = .active then openDispute p i x s
  else if s.start.top = .census then markDisputed i s
  else s

/-- R61, step 1: a GOOD record with a usable copy at the report's stamp and another signature. -/
def reportMismatches (r : SegRec) (t : Stamp) (x : Signature) : Bool := goodAt r t && r.signature ≠ x

/-- R61: a report of station `p` for segment `i` at stamp `t` with signature `x` on the evidence path. -/
def report (p : Station) (i : Nat) (t : Stamp) (x : Signature) (fromNews : Bool) (s : State) : State :=
  let r := getRec s i
  if reportMismatches r t x then mismatch p i x s
  else if r.usable && !newer t r.stamp then s
  else if !r.usable && newer r.stamp t then s
  else
    match r.evidence with
    | none => raiseEvidence p i t x fromNews s
    | some ev =>
      if newer t ev.stamp then raiseEvidence p i t x fromNews s
      else if t = ev.stamp ∧ x = ev.signature then addHolder p i ev s
      else s

/-- R60: a report on the dispute path: step 1 of R61 alone. -/
def disputePathReport (p : Station) (i : Nat) (t : Stamp) (x : Signature) (s : State) : State :=
  if t ≠ nullStamp ∧ reportMismatches (getRec s i) t x then mismatch p i x s else s

/-- R57, R58: one entry of a SIGLIST; only HOLDS with a non-null stamp becomes a report. -/
def listEntry (p : Station) (i : Nat) (e : SigEntry) (s : State) : State :=
  if e.standing = .holds ∧ e.stamp ≠ nullStamp then report p i e.stamp e.signature false s else s

/-- R57: the entries of a SIGLIST part in offset order, from segment `i` on. -/
def listEntries (p : Station) : Nat → List SigEntry → State → State
  | _, [], s => s
  | i, e :: rest, s => listEntries p (i + 1) rest (listEntry p i e s)

/-- R66, R67: a station leaves the holders of a record's evidence. -/
def dropHolder (p : Station) (r : SegRec) : SegRec :=
  { r with evidence := r.evidence.map fun ev => { ev with holders := dropStation ev.holders p } }

end Sys2Proof.Machine
end

