-- ==== Sys2Proof/Machine/Serve.lean ====
section
/-! DEFINITION. The Serve Unit: REQUESTs taken (R110, R116), the end of a serve read (R112), a lost requester (R118). -/

namespace Sys2Proof.Machine

/-- R108: the serve entry of a requester–segment pair. -/
def isEntryOf (p : Station) (i : Nat) (e : ServeEntry) : Bool := e.requester = p && e.segment = i

/-- R110: merge for the same stamp, replace for another. -/
def joinRequest (t : Stamp) (m : ChunkMask) (e : ServeEntry) : ServeEntry :=
  if e.stamp = t then { e with remaining := e.remaining ||| m } else { e with stamp := t, remaining := m }

/-- R110, R116: a REQUEST for an entry that exists; a replacement of the head in SEND takes it out of SEND. -/
def joinEntry (p : Station) (i : Nat) (t : Stamp) (m : ChunkMask) (s : State) : State :=
  let headReplaced := s.serve.phase = .send && (s.serve.queue.head?.any fun e => isEntryOf p i e && e.stamp != t)
  let s1 := { s with
    serve.queue := s.serve.queue.map (fun e => if isEntryOf p i e then joinRequest t m e else e) }
  serveWork (if headReplaced then { s1 with serve.phase := .waiting, serve.outstanding := 0 } else s1)

/-- R110: a REQUEST of station `p` for the chunks `m` of segment `i` at stamp `t`. -/
def takeRequest (p : Station) (i : Nat) (t : Stamp) (m : ChunkMask) (s : State) : State :=
  if !serves (getRec s i) t then offer (.nohave p i) s
  else if s.serve.queue.any (isEntryOf p i) then joinEntry p i t m s
  else if s.serve.queue.length < Config.serveCapacity then
    serveWork { s with
      serve.queue := s.serve.queue ++ [{ requester := p, segment := i, stamp := t, remaining := m }] }
  else offer (.busy p i) s

/-- R112: the head is answered NOHAVE and leaves. -/
def refuseHead (head : ServeEntry) (s : State) : State := leaveHead (offer (.nohave head.requester head.segment) s)

/-- R112: the end of the serve read for the head. -/
def serveReadForHead (head : ServeEntry) (result : SlotResult) (data : List Byte) (s : State) : State :=
  match result with
  | .damaged => refuseHead head (signatureFailure head.segment s)
  | .vacant => refuseHead head s
  | .written t recorded computed =>
    if t ≠ head.stamp then refuseHead head s
    else if computed ≠ recorded then refuseHead head (signatureFailure head.segment s)
    else
      { s with
        serve.buffer := some { segment := head.segment, stamp := head.stamp, data := data }
        serve.phase := .send
        serve.outstanding := 0 }

/-- R112: the end of a read without entry: only a signature failure has an effect. -/
def serveReadWithoutEntry (i : Nat) (result : SlotResult) (s : State) : State :=
  match result with
  | .damaged => signatureFailure i s
  | .vacant => s
  | .written t recorded computed =>
    if t = (getRec s i).stamp ∧ computed ≠ recorded then signatureFailure i s else s

/-- R112: a serve read of segment `i` ends; once it has ended, a waiting head is taken into service (R111). -/
def serveReadEnd (i : Nat) (result : SlotResult) (data : List Byte) (s : State) : State :=
  let s1 : State := { s with serve.reading := false }
  match s1.serve.queue, s1.serve.phase with
  | head :: _, .read => serveWork (serveReadForHead head result data s1)
  | _, _ => serveWork (serveReadWithoutEntry i result s1)

/-- R118: every serve entry of a lost requester is removed; a head among them leaves its phase, and the next head is
taken into service. -/
def serveStationLost (p : Station) (s : State) : State :=
  let headLost := s.serve.queue.head?.any (fun e => e.requester = p)
  let s1 := { s with serve.queue := s.serve.queue.filter (fun e => e.requester ≠ p) }
  serveWork (if headLost then { s1 with serve.phase := .waiting, serve.outstanding := 0 } else s1)

end Sys2Proof.Machine
end

