-- ==== Sys2Proof/Machine/Stations.lean ====
section
/-! DEFINITION. The life of the station as a whole: entry to CENSUS and to ACTIVE, DETACH, ATTACH, the halts and the
two starts (chapter 9), with the Line Interface turned on and off (R39, R40) and the roster and bank table cleared
(R47, R59). -/

namespace Sys2Proof.Machine

/-! ### The Line Interface by top state -/

/-- The frame in transmission goes on under another flight; any other bit engine falls back to waiting for idle. -/
def engineOff (flight : Flight) : Engine → Engine
  | .sending f id _ => .sending f id flight
  | _ => .quiet

/-- The bit engine is sending. -/
def isSending : Engine → Bool
  | .sending _ _ _ => true
  | _ => false

/-- R39: the Line Interface is turned off: the frame in transmission is finished, a frame in reception discarded, the
outbox emptied; the transmitter stays on until the finishing frame ends. -/
def lineOff (flight : Flight) (s : State) : State :=
  { s with
    line.receiver := false
    line.transmitter := isSending s.line.engine
    line.engine := engineOff flight s.line.engine
    line.outbox := [] }

/-- R39, R23: the receiver is turned on and first waits for idle; a frame being finished goes on. -/
def receiverOn (s : State) : State :=
  { s with
    line.receiver := true
    line.engine := match s.line.engine with
      | .sending f id flight => .sending f id flight
      | _ => .quiet }

/-! ### Roster, beacon and bank table -/

/-- R41: the roster entry of station `p` is set; number 0 has none. -/
def setRoster (p : Station) (e : RosterEntry) (s : State) : State :=
  if p = 0 then s else { s with roster.entries := s.roster.entries.set (p.toNat - 1) e }

/-- R47, R59: every roster entry ABSENT with its timer stopped, the beacon stopped, the pointer 0. -/
def clearRoster (s : State) : State :=
  { s with
    roster.entries := List.replicate 15 ⟨false, none⟩
    roster.beacon := none
    roster.pointer := 0 }

/-- R59: every holdoff 0, every digest copy none. -/
def clearBanks (s : State) : State := { s with roster.banks := s.roster.banks.map (fun _ => ⟨none, none⟩) }

/-- The number of banks in the bank table (R51). -/
def bankCount (s : State) : Nat := s.roster.banks.length

/-- R48: the beacon on entry to ACTIVE: the DIGEST of bank 0, the pointer to 1 mod N/64, the timer at B. -/
def startBeacon (s : State) : State :=
  let s1 := offer (.digest 0) s
  { s1 with roster.pointer := 1 % bankCount s1, roster.beacon := some (beaconMs s1) }

/-! ### Entry to ACTIVE -/

/-- R162 from step 4, R166 from step 4: self PRESENT, the beacon, backfill, waiting disputes, the pick. -/
def joinLine (s : State) : State :=
  pick <| takeUpDisputes <| backfill <| startBeacon <| setRoster s.start.station ⟨true, none⟩ s

/-- R162: the census ends and the station enters ACTIVE. -/
def enterActive (s : State) : State :=
  let s1 : State := { s with start.top := .active, start.reason := .none }
  let s2 := raise .censusDone none none none s1
  joinLine { s2 with line.transmitter := true }

/-- R166: ATTACH in DETACHED. -/
def attachSequence (s : State) : State :=
  let s1 : State := { s with start.top := .active, start.reason := .none, line.clashes := 0 }
  joinLine { receiverOn s1 with line.transmitter := true }

/-! ### DETACH -/

/-- R119, R150: the Serve Unit is emptied and a pending serve read withdrawn; one in progress stays outstanding. -/
def serveOff (s : State) : State :=
  { s with
    serve := {
      queue := [], phase := .waiting, outstanding := 0, buffer := none,
      reading := match s.store.op with
        | .reading .serve _ => true
        | _ => false }
    store.serveReq := none }

/-- R76, R101: the repair queue and the engine are emptied; the pin list and the commit buffer are kept. -/
def repairOff (s : State) : State :=
  { s with
    repair := {
      queue := [], stack := [], pins := s.repair.pins, slotA := none, slotB := none, slotC := none,
      commit := s.repair.commit, cond := none, patience := none } }

/-- R136, R11: every dispute entry is freed; an open record keeps its mark with rounds 0. -/
def disputesOff (s : State) : State :=
  let s1 := s.disputes.foldl (fun s d => modifyRec d.segment (fun r => { r with rounds := 0 }) s) s
  { s1 with disputes := [] }

/-- R164, step 7: a record without its evidence, its exhausted flag cleared unless held, and settled. -/
def forgetEvidence (r : SegRec) : SegRec :=
  let r1 := clearExhausted { r with evidence := none }
  { r1 with state := settledState false r1 }

/-- R164, step 7, over every record; no contributed signature changes. -/
def forgetAll (s : State) : State := { s with segs.recs := s.segs.recs.map forgetEvidence }

/-- R164: the DETACH sequence. -/
def detachSequence (reason : Reason) (s : State) : State :=
  let s1 : State := { s with start.top := .detached, start.reason := reason }
  let self := if reason = .clash then some s.start.station else none
  raise .detached none self none <| forgetAll <| disputesOff <| repairOff <| serveOff <| clearBanks <|
    clearRoster <| lineOff .afterDetach s1

/-! ### Starts -/

/-- R155, R156: the station halts with a reason and a HALTED event. -/
def halt (reason : Reason) (s : State) : State :=
  raise .halted none none none { s with start.top := .halted, start.reason := reason }

/-- R142: the probe begins. -/
def probe (s : State) : State := { s with store.op := .probing none }

/-- R155, R167: what follows the straps: a halt for station number 0, the probe otherwise. -/
def afterStraps (s : State) : State := if s.start.station = 0 then halt .badStation s else probe s

/-- R156, R157: the header is valid: its fields are kept, records, digests and bank table are built, and CENSUS is
entered with the census read of segment 0. -/
def enterCensus (h : Header) (s : State) : State :=
  let s1 : State := { s with
    start.header := some h
    start.top := .census
    start.reason := .none
    start.cursor := 0
    segs := {
      recs := List.replicate h.count unknownRec, digests := List.replicate (h.count / Config.bankSize) 0 }
    roster.banks := List.replicate (h.count / Config.bankSize) ⟨none, none⟩ }
  requestCensusRead 0 (receiverOn s1)

/-- R155: the cold start: every block takes its cold start values at once. Only the commands that are waiting stay. -/
def coldStart (s : State) : State := { State.reset with pending := s.pending, freeOrders := s.freeOrders }

/-- R167, step 4, once the store operation has ended: the buffers are freed. -/
def freeBuffers (s : State) : State :=
  { s with
    store.op := .idle
    store.computed := none
    repair.commit := none
    host.staging := blankSegment
    host.locked := false }

/-- R167, steps 4 and 5, once the store operation has ended: the buffers are freed, and the start goes on as after
the straps. -/
def restartGoesOn (s : State) : State := afterStraps { freeBuffers s with start.storeWait := false }

/-- R167, steps 1 to 3, and the withdrawal of every pending request of step 4. R151 and step 4 tell that withdrawal
beside the end of the operation in progress and give it no moment; that it falls at the acceptance of the RESTART is the
model's. DESIGN CHOICE (assumption log 40). The census cursor becomes 0 here: the rules set it at a cold start and at
entry to CENSUS, and leave it open between. DESIGN CHOICE (assumption log 32). -/
def restartClears (s : State) : State :=
  let s1 := lineOff .afterRestart s
  { s1 with
    start.top := .starting
    start.reason := .none
    start.header := none
    start.cursor := 0
    line.clashes := 0
    roster := State.reset.roster
    segs := State.reset.segs
    repair := { State.reset.repair with commit := s.repair.commit }
    serve := State.reset.serve
    disputes := []
    store := { s.store with writes := [], serveReq := none, hostReq := none, censusReq := none }
    host := {
      staging := s.host.staging, locked := s.host.locked, readBuffer := .empty,
      events := [⟨.restarted, none, none, none⟩], answer := s.host.answer } }

/-- R151, R167, R183: the warm restart: it waits for the store operation in progress, or, with the store IDLE, goes on at
once. The RESTART is answered in STARTING with RESTARTED alone in the event queue, so the halt for the station number 0
is not part of it but what the part does next of its own accord (`haltsNext`). DEDUCED (assumption log 34). -/
def restartSequence (s : State) : State :=
  let s1 := restartClears s
  if s1.store.op ≠ .idle then { s1 with start.storeWait := true }
  else if s1.start.station = 0 then { freeBuffers s1 with start.storeWait := false }
  else restartGoesOn s1

/-- R167, step 5: a warm restart with station number 0 has nothing to wait for any more and halts next. -/
def haltsNext (s : State) : Bool :=
  s.start.top = .starting && s.start.station = 0 && !s.start.strapsDue && !s.start.storeWait && s.store.op = .idle

/-- R167, step 5: what the part does of its own accord: the halt of a warm restart with station number 0. -/
def startGoesOn (s : State) : State := if haltsNext s then halt .badStation s else s

/-! ### The clash count -/

/-- R29, R163: the clash count rises by 1; reaching 3 in ACTIVE detaches the station with reason CLASH. -/
def countClash (s : State) : State :=
  let s1 : State := { s with line.clashes := min Config.clashLimit (s.line.clashes + 1) }
  if s1.line.clashes = Config.clashLimit ∧ s1.start.top = .active then detachSequence .clash s1 else s1

end Sys2Proof.Machine
end

