-- ==== Sys2Proof/Machine/LineEvents.lean ====
section
/-! DEFINITION. The meanings of the bit engine's happenings: LINE_IDLE, START_BIT, TRANSMISSION_START,
ARBITRATION_LOSS, CLASH, CLEAN_END, FRAME_DISCARDED and OWN_NUMBER_FRAME (R23, R26 to R32). A happening that cannot
occur in the state it finds (no frame in reception, none in transmission) leaves the state as it is. -/

namespace Sys2Proof.Machine

/-- The outcome of every step: this part never faults and never refuses. -/
abbrev Result := Host.Outcome State Fault Refusal

/-! ### Idle and start bits -/

/-- R23: the line is idle for a receiver that is on. -/
def lineIdle (s : State) : State :=
  if s.line.receiver ∧ s.line.engine = .quiet then { s with line.engine := .idle } else s

/-- LINE_IDLE (R23). -/
def execLineIdle (s : State) : Result := .next (lineIdle s)

/-- START_BIT (R23): after idle, a start bit of another station is taken. -/
def execStartBit (s : State) : Result :=
  .next (if s.line.receiver ∧ s.line.engine = .idle then { s with line.engine := .receiving } else s)

/-! ### Transmission -/

/-- R26: descriptors from the head on, those whose subject is gone taken out, until one gives a body; it is marked as
in transmission. -/
def selectHead (s : State) : List Desc → List Desc × Option (FrameId × Body)
  | [] => ([], none)
  | d :: rest =>
    if d.inTransmission then
      let later := selectHead s rest
      (d :: later.1, later.2)
    else
      match assemble d.ident d.ballotStamp s with
      | some body => ({ d with inTransmission := true, renewed := false } :: rest, some (d.ident, body))
      | none => selectHead s rest

/-- R26: with the transmitter on, the line idle and the bit engine at rest, the head is taken, its frame built with
self as sender and the image tag of the store header, and the start bit driven. -/
def startTransmission (s : State) : State :=
  if s.line.transmitter ∧ s.line.engine = .idle then
    match selectHead s s.line.outbox with
    | (box, some (id, body)) =>
      { s with
        line.outbox := box
        line.engine := .sending
          { sender := s.start.station, target := targetOf id, tag := imageTag s, body := body } id .attached }
    | (box, none) => { s with line.outbox := box }
  else s

/-- TRANSMISSION_START (R26). -/
def execTransmissionStart (s : State) : Result := .next (startTransmission s)

/-- The descriptor in transmission becomes a waiting one, its age unchanged and its renewed mark cleared (R27, R28,
R30). -/
def returnDesc (d : Desc) : Desc := { d with inTransmission := false, renewed := false }

/-- R28, R30: at the end of its transmission a descriptor leaves the outbox, or returns when it was renewed. -/
def endDesc (box : List Desc) : List Desc :=
  box.filterMap fun d =>
    if d.inTransmission then (if d.renewed then some (returnDesc d) else none) else some d

/-- R38: the end of a DATA descriptor is told to the Serve Unit. -/
def tellEnd (id : FrameId) (s : State) : State :=
  match notice id with
  | some told => tellServe told s
  | none => s

/-- R39, R166: a frame finished outside its descriptor's life has ended: the line is released, and the transmitter is
on only in ACTIVE. -/
def finishedFrame (s : State) : State :=
  { s with line.engine := .quiet, line.transmitter := s.start.top == .active }

/-- R27: arbitration is lost: the descriptor waits again and the winning frame is received; a frame being finished is
given up with nothing received. -/
def loseArbitration (s : State) : State :=
  match s.line.engine with
  | .sending _ _ .attached =>
    { s with
      line.engine := .receiving
      line.outbox := s.line.outbox.map (fun d => if d.inTransmission then returnDesc d else d) }
  | .sending _ _ _ => finishedFrame s
  | _ => s

/-- ARBITRATION_LOSS (R27). -/
def execArbitrationLoss (s : State) : Result := .next (loseArbitration s)

/-- R28: a clash: the frame is abandoned, its descriptor removed or returned, the clash counted, a DATA chunk told. -/
def clashed (s : State) : State :=
  match s.line.engine with
  | .sending _ id .attached =>
    countClash (tellEnd id { s with line.engine := .quiet, line.outbox := endDesc s.line.outbox })
  | .sending _ _ .afterDetach => countClash (finishedFrame s)
  | .sending _ _ .afterRestart => finishedFrame s
  | _ => s

/-- CLASH (R28). -/
def execClash (s : State) : Result := .next (clashed s)

/-- R30: a frame has ended cleanly. -/
def endedCleanly (s : State) : State :=
  match s.line.engine with
  | .sending _ id .attached =>
    tellEnd id { s with line.engine := .quiet, line.clashes := 0, line.outbox := endDesc s.line.outbox }
  | .sending _ _ .afterDetach =>
    let s1 := finishedFrame s
    { s1 with line.clashes := 0 }
  | .sending _ _ .afterRestart => finishedFrame s
  | _ => s

/-- CLEAN_END (R30). -/
def execCleanEnd (s : State) : Result := .next (endedCleanly s)

/-! ### Reception -/

/-- A frame is in reception: a start bit was taken and the receiver is on (R23, R39). -/
def receiving (s : State) : Bool := s.line.receiver && s.line.engine == .receiving

/-- The end of a frame in reception: the idle count begins (R23). -/
def endReception (s : State) : State := { s with line.engine := .quiet }

/-- FRAME_DISCARDED (R31): the frame is discarded with no effect beyond the discard, whichever test it failed. -/
def execFrameDiscarded (_reason : Discard) (s : State) : Result :=
  .next (if receiving s then endReception s else s)

/-- R32: a good frame bearing self's number that self did not send: counted in ACTIVE, and no further. -/
def ownNumber (s : State) : State := if s.start.top = .active then countClash s else s

/-- OWN_NUMBER_FRAME (R32). -/
def execOwnNumberFrame (s : State) : Result :=
  .next (if receiving s then ownNumber (endReception s) else s)

/-- R42: a presence notice names the sender of a good frame. -/
def presence (p : Station) (s : State) : State :=
  let s1 := setRoster p ⟨true, some (4 * beaconMs s)⟩ s
  if isPresent s p then s1 else raise .peerJoined none (some p) none s1

/-- R31, R32: a frame received whole: discarded when it is not good, counted when it bears self's number, and
otherwise its sender is noted and its body delivered when the target is 0 or self. -/
def receiveFrame (sender target : Station) (body : Body) (deliver : State → State) (s : State) : State :=
  if !receiving s then s
  else
    let s1 := endReception s
    if !goodFrame s sender target body then s1
    else if sender = s.start.station then ownNumber s1
    else
      let s2 := presence sender s1
      if forSelf s target then deliver s2 else s2

/-- R32: bodies acted on in ACTIVE alone. -/
def inActive (f : State → State) (s : State) : State := if s.start.top = .active then f s else s

end Sys2Proof.Machine
end

