-- ==== Sys2Proof/Machine/PeerFrames.lean ====
section
/-! DEFINITION. The meanings of the ten frame kinds received (R33): NEWS, POLL, BALLOT, REQUEST, NOHAVE, BUSY, DATA,
SIGQUERY, SIGLIST and DIGEST. NEWS and SIGLIST bodies are delivered in CENSUS and in ACTIVE, the others acted on in
ACTIVE alone (R32). -/

namespace Sys2Proof.Machine

/-! ### NEWS, POLL, BALLOT -/

/-- R60, R61: a NEWS body is a report marked as from NEWS; the null stamp is ignored. -/
def deliverNews (p : Station) (i : Nat) (t : Stamp) (x : Signature) (s : State) : State :=
  if t = nullStamp then s else report p i t x true s

/-- NEWS (R61). -/
def execNews (sender : Station) (segment : SegNum) (stamp : Stamp) (signature : Signature) (s : State) : Result :=
  .next (receiveFrame sender 0 (.news segment stamp signature)
    (deliverNews sender segment.toNat stamp signature) s)

/-- R33, R124, R126: a POLL body goes to the Segment Table and to the Dispute Unit. When it opens a dispute, or leaves
one waiting, the two orders leave the same entry and record (R126), but the BALLOT is offered only when the Dispute Unit
is the second of the two. The spec gives no order, so that order is a free value (assumption log 18). -/
def deliverPoll (p : Station) (i : Nat) (t : Stamp) (x : Signature) (s : State) : State :=
  let tableFirst (s : State) : State := disputePoll p i t x (disputePathReport p i t x s)
  if t ≠ nullStamp ∧ reportMismatches (getRec s i) t x then
    { (if Config.tableFirst s.freeOrders then tableFirst s else disputePathReport p i t x (disputePoll p i t x s)) with
      freeOrders := s.freeOrders + 1 }
  else tableFirst s

/-- POLL (R124). -/
def execPoll (sender : Station) (segment : SegNum) (stamp : Stamp) (signature : Signature) (s : State) : Result :=
  .next (receiveFrame sender 0 (.poll segment stamp signature)
    (inActive (deliverPoll sender segment.toNat stamp signature)) s)

/-- R33, R125, R126: a BALLOT body goes to the Segment Table and to the Dispute Unit. -/
def deliverBallot (p : Station) (i : Nat) (t : Stamp) (x : Signature) (s : State) : State :=
  disputeBallot p i t x (disputePathReport p i t x s)

/-- BALLOT (R125). -/
def execBallot (sender : Station) (segment : SegNum) (stamp : Stamp) (signature : Signature) (s : State) : Result :=
  .next (receiveFrame sender 0 (.ballot segment stamp signature)
    (inActive (deliverBallot sender segment.toNat stamp signature)) s)

/-! ### REQUEST -/

/-- REQUEST (R110). -/
def execRequest (sender target : Station) (segment : SegNum) (stamp : Stamp) (mask : ChunkMask) (s : State) :
    Result :=
  .next (receiveFrame sender target (.request segment stamp mask)
    (inActive (takeRequest sender segment.toNat stamp mask)) s)

/-! ### NOHAVE, BUSY, DATA -/

/-- R94, R95, R96, R97: the active job is for segment `i`, its current source is `p`, and its condition is one of
`conds`. -/
def activeFrom (p : Station) (i : Nat) (conds : List JobCond) (s : State) : Bool :=
  (activeEntry s).any fun e =>
    e.segment = i && e.source = some p && (s.repair.cond.any fun c => conds.contains c)

/-- R95, R97: the source `p` of the active job of segment `i` is given up without an attempt. -/
def giveUpSource (p : Station) (i : Nat) (s : State) : State :=
  pick (chooseSource none (markTried p i (stopPatience s)))

/-- R66: the sender of a NOHAVE leaves the holders of the segment's evidence. -/
def holderRefuses (p : Station) (i : Nat) (s : State) : State := modifyRec i (dropHolder p) s

/-- R66, R95: a NOHAVE body goes to the Segment Table and to the Repair Unit. -/
def deliverNohave (p : Station) (i : Nat) (s : State) : State :=
  let s1 := holderRefuses p i s
  if activeFrom p i [.asking, .backoff] s1 then giveUpSource p i s1 else s1

/-- NOHAVE (R95, R66); its stamp is not compared. -/
def execNohave (sender target : Station) (segment : SegNum) (stamp : Stamp) (s : State) : Result :=
  .next (receiveFrame sender target (.nohave segment stamp) (inActive (deliverNohave sender segment.toNat)) s)

/-- R96: the current source of the active job is busy. -/
def sourceBusy (p : Station) (i : Nat) (s : State) : State :=
  let s1 := countAttempt i (stopPatience s)
  match findEntry s1 i with
  | none => s1
  | some e =>
    if Config.attemptLimit ≤ e.attempts then pick (exhaustJob i s1)
    else
      match bestSource s1 e (some p) with
      | some q => askSource q i s1
      | none =>
        if eligible s1 e p then
          { s1 with repair.cond := some .backoff, repair.patience := some (patienceMs s1) }
        else pick (exhaustJob i s1)

/-- R96: a BUSY body at the Repair Unit. -/
def deliverBusy (p : Station) (i : Nat) (s : State) : State :=
  if activeFrom p i [.asking] s then sourceBusy p i s else s

/-- BUSY (R96). -/
def execBusy (sender target : Station) (segment : SegNum) (s : State) : Result :=
  .next (receiveFrame sender target (.busy segment) (inActive (deliverBusy sender segment.toNat)) s)

/-- R92: chunk `c` from station `p` is stored in a slot; when the mask becomes complete the signature is computed. -/
def storeChunk (p : Station) (c : Chunk) (bytes : List Byte) (slot : Slot) : Slot :=
  let data := overwrite slot.data (32 * c.toNat) bytes
  let mask := addChunk slot.mask c
  { slot with
    data := data
    mask := mask
    supplier := some p
    computed := if mask = allChunks then some (signatureOf slot.stamp data) else slot.computed }

/-- R92: the landing slot whose segment is `i` and whose wanted stamp is `t`. -/
def slotNamed (s : State) (i : Nat) (t : Stamp) : Option SlotName :=
  [SlotName.a, SlotName.b, SlotName.c].find? fun n =>
    (getSlot s n).any fun slot => slot.segment = i && slot.stamp = t

/-- R92: what a chunk stored does to the active job it belongs to: the timer restarts, and a complete slot is
verified. -/
def afterChunk (i : Nat) (complete : Bool) (s : State) : State :=
  match activeEntry s with
  | some e =>
    if e.segment = i ∧ (s.repair.cond = some .asking ∨ s.repair.cond = some .backoff) then
      let s1 := { s with repair.patience := some (patienceMs s) }
      if complete then pick (verifyJob e s1) else s1
    else s
  | none => s

/-- R92: a DATA body at the Repair Unit. -/
def deliverData (p : Station) (i : Nat) (t : Stamp) (c : Chunk) (bytes : List Byte) (s : State) : State :=
  match slotNamed s i t with
  | none => s
  | some n =>
    match getSlot s n with
    | none => s
    | some slot =>
      if hasChunk slot.mask c then s
      else
        let filled := storeChunk p c bytes slot
        afterChunk i (filled.mask = allChunks) (setSlot n (some filled) s)

/-- DATA (R92). -/
def execData (sender target : Station) (segment : SegNum) (stamp : Stamp) (chunk : Chunk) (bytes : List Byte)
    (s : State) : Result :=
  .next (receiveFrame sender target (.data segment stamp chunk bytes)
    (inActive (deliverData sender segment.toNat stamp chunk bytes)) s)

/-! ### SIGQUERY, SIGLIST, DIGEST -/

/-- R55: the four SIGLIST parts of a bank are offered in order. -/
def deliverSigquery (b : Nat) (s : State) : State :=
  offer (.siglist b 3) <| offer (.siglist b 2) <| offer (.siglist b 1) <| offer (.siglist b 0) s

/-- SIGQUERY (R55). -/
def execSigquery (sender target : Station) (bank : Byte) (s : State) : Result :=
  .next (receiveFrame sender target (.sigquery bank) (inActive (deliverSigquery bank.toNat)) s)

/-- R57: a SIGLIST body: its entries describe the segments from 64b + 16k on. -/
def deliverSiglist (p : Station) (b k : Nat) (entries : List SigEntry) (s : State) : State :=
  listEntries p (Config.bankSize * b + 16 * k) entries s

/-- SIGLIST (R57). -/
def execSiglist (sender : Station) (bank : Byte) (part : BitVec 2) (entries : List SigEntry) (s : State) : Result :=
  .next (receiveFrame sender 0 (.siglist bank part entries)
    (deliverSiglist sender bank.toNat part.toNat entries) s)

/-- R52: a DIGEST of bank `b` with digest `x` from station `p`. -/
def deliverDigest (p : Station) (b : Nat) (x : Signature) (s : State) : State :=
  match s.roster.banks[b]? with
  | none => s
  | some e =>
    if x = s.segs.digests.getD b 0 ∨ e.holdoff.isSome then s
    else
      let s1 := offer (.sigquery p b) s
      { s1 with roster.banks := s1.roster.banks.set b ⟨some (2 * beaconMs s1), some x⟩ }

/-- DIGEST (R52). -/
def execDigest (sender : Station) (bank : Byte) (value : Signature) (s : State) : Result :=
  .next (receiveFrame sender 0 (.digest bank value) (inActive (deliverDigest sender bank.toNat value)) s)

end Sys2Proof.Machine
end

