-- ==== Sys2Proof/Machine/Timers.lean ====
section
/-! DEFINITION. The meanings of the timers that run out: SILENCE_TIMER_EXPIRY, BEACON_TIMER_EXPIRY,
QUERY_HOLDOFF_EXPIRY, PATIENCE_TIMER_EXPIRY and DISPUTE_DEADLINE_EXPIRY. A timer that is not running does not run
out: its expiry leaves the state as it is. -/

namespace Sys2Proof.Machine

/-- R67: a lost station leaves the holders of every record's evidence; no contributed signature changes. -/
def dropHolders (p : Station) (s : State) : State := { s with segs.recs := s.segs.recs.map (dropHolder p) }

/-- R97: a lost station at the fetch engine. -/
def engineStationLost (p : Station) (s : State) : State :=
  match activeEntry s with
  | some e => if activeFrom p e.segment [.asking, .backoff] s then giveUpSource p e.segment s else s
  | none => s

/-- R44: the station-lost notice, to the Segment Table, the Repair Unit, the Serve Unit and the Dispute Unit. -/
def stationLost (p : Station) (s : State) : State :=
  disputeStationLost p <| serveStationLost p <| engineStationLost p <| dropHolders p s

/-- R43: the silence timer of a PRESENT peer runs out. -/
def silenceExpiry (p : Station) (s : State) : State :=
  if isPresent s p ∧ (rosterEntry s p).silence.isSome then
    stationLost p <| raise .peerLost none (some p) none <| setRoster p ⟨false, none⟩ s
  else s

/-- SILENCE_TIMER_EXPIRY (R43). -/
def execSilenceTimerExpiry (station : Station) (s : State) : Result := .next (silenceExpiry station s)

/-- R49: the beacon timer runs out in ACTIVE. -/
def beaconExpiry (s : State) : State :=
  if s.roster.beacon.isSome ∧ s.start.top = .active then
    let b := s.roster.pointer
    let s1 := offer (.digest b) s
    { s1 with roster.pointer := (b + 1) % bankCount s1, roster.beacon := some (beaconMs s1) }
  else s

/-- BEACON_TIMER_EXPIRY (R49). -/
def execBeaconTimerExpiry (s : State) : Result := .next (beaconExpiry s)

/-- R53: the query holdoff of bank `b` runs out. -/
def holdoffExpiry (b : Nat) (s : State) : State :=
  match s.roster.banks[b]? with
  | none => s
  | some e => if e.holdoff.isSome then { s with roster.banks := s.roster.banks.set b ⟨none, none⟩ } else s

/-- QUERY_HOLDOFF_EXPIRY (R53). -/
def execQueryHoldoffExpiry (bank : Byte) (s : State) : Result := .next (holdoffExpiry bank.toNat s)

/-- R94, ASKING: the source has not answered in time. -/
def sourceSilent (e : Entry) (s : State) : State :=
  let s1 := match e.source with
    | some p => markTried p e.segment s
    | none => s
  pick (chooseOrEnd e.segment (countAttempt e.segment s1))

/-- R94: the patience timer of the active job runs out. -/
def patienceExpiry (s : State) : State :=
  match activeEntry s, s.repair.patience with
  | some e, some _ =>
    match s.repair.cond, e.source with
    | some .asking, _ => sourceSilent e (stopPatience s)
    | some .backoff, some p => askSource p e.segment s
    | _, _ => s
  | _, _ => s

/-- PATIENCE_TIMER_EXPIRY (R94). -/
def execPatienceTimerExpiry (s : State) : Result := .next (patienceExpiry s)

/-- DISPUTE_DEADLINE_EXPIRY (R131, R132). -/
def execDisputeDeadlineExpiry (segment : SegNum) (s : State) : Result := .next (deadlineExpiry segment.toNat s)

end Sys2Proof.Machine
end

