-- ==== Sys2Proof/Machine/StoreEvents.lean ====
section
/-! DEFINITION. The meanings of the starts and of the store port's happenings: COLD_START, STRAP_SAMPLING,
STORE_STATUS_READ_END, STORE_POLL_TIMEOUT, HEADER_READ_END, WRITE_SEQUENCE_END, READBACK_END, SLOT_READ_END and
RESTART_STORE_WAIT_END (chapters 8 and 9), with the ends of the commit and publish writes (R105, R106, R180, R181),
of the host read (R175) and of the census read (R159). A happening of an operation that is not in progress leaves the
state as it is. -/

namespace Sys2Proof.Machine

/-! ### The starts -/

/-- COLD_START (R155). -/
def execColdStart (s : State) : Result := .next (coldStart s)

/-- R155: the straps are sampled once, when RESET_N is released or at once after power-up. -/
def sampleStraps (stn : BitVec 4) (rate : BitVec 2) (s : State) : State :=
  if s.start.strapsDue then
    afterStraps { s with start.strapsDue := false, start.station := stn, start.rate := rateOf rate }
  else s

/-- STRAP_SAMPLING (R155). -/
def execStrapSampling (stn : BitVec 4) (rate : BitVec 2) (s : State) : Result := .next (sampleStraps stn rate s)

/-! ### Ends of writes -/

/-- R145, R147: the data bytes of a write: the commit buffer's or the staging buffer's. A commit write finds its buffer
occupied (R84); for a state that no run reaches see assumption log 39. -/
def writeData (w : WriteOp) (s : State) : List Byte :=
  match w.client with
  | .commit => (s.repair.commit.map (·.data)).getD blankSegment
  | .publish => s.host.staging

/-- R145: the signature a write puts in the trailer: the commit buffer's, or the one computed over the new stamp and
the staged data. -/
def writeSignature (w : WriteOp) (s : State) : Signature :=
  match w.client with
  | .commit => (s.repair.commit.map (·.signature)).getD 0
  | .publish => signatureOf w.stamp s.host.staging

/-- R145: the 264 bytes of the write sequence, and what the readback is compared with (R147). -/
def writeImage (w : WriteOp) (s : State) : List Byte :=
  slotImage (writeData w s) w.stamp (w.signature.getD (writeSignature w s))

/-- R105, R180: a record after a successful write of stamp `t` and signature `x`. -/
def writtenRec (t : Stamp) (x : Signature) (r : SegRec) : SegRec :=
  clearMark { r with
    stamp := t
    signature := x
    usable := true
    failures := 0
    evidence := evidenceAfter t r.evidence
    pendingWrites := r.pendingWrites - 1 }

/-- R106, R181, step 1: a record after a failed write, its copy not yet judged. -/
def failedRec (r : SegRec) : SegRec :=
  let failures := min Config.failureLimit (r.failures + 1)
  { r with
    pendingWrites := r.pendingWrites - 1
    failures := failures
    exhausted := if failures = Config.failureLimit then true else r.exhausted }

/-- R106, R181: the copy becomes UNUSABLE with the effects of R7, or, already UNUSABLE, the record is settled. -/
def loseCopy (i : Nat) (s : State) : State := if (getRec s i).usable then copyUnusable i s else settle i s

/-- R105, R106: the commit buffer becomes free and a READY active job hands off. -/
def freeCommit (s : State) : State := readyHandOff { s with repair.commit := none }

/-- R105: a commit write has ended with success. -/
def commitSucceeded (s : State) : State :=
  match s.repair.commit with
  | none => s
  | some b =>
    freeCommit <| settle b.segment <| raise .committed (some b.segment) b.supplier (some b.stamp) <|
      modifyRec b.segment (writtenRec b.stamp b.signature) s

/-- R106: a commit write has ended with failure. -/
def commitFailed (w : WriteOp) (s : State) : State :=
  freeCommit <| raise .damaged (some w.segment) none (some w.stamp) <| loseCopy w.segment <|
    modifyRec w.segment failedRec s

/-- R180: a publish write has ended with success. -/
def publishSucceeded (w : WriteOp) (s : State) : State :=
  let x := w.signature.getD (writeSignature w s)
  let s1 := modifyRec w.segment (fun r => { writtenRec w.stamp x r with exhausted := false }) s
  raise .published (some w.segment) none (some w.stamp) <| offer (.news w.segment) <| settle w.segment
    { s1 with host.locked := false }

/-- R181: a publish write has ended with failure. -/
def publishFailed (w : WriteOp) (s : State) : State :=
  let s1 := modifyRec w.segment failedRec s
  raise .publishFailed (some w.segment) none (some w.stamp) <| loseCopy w.segment { s1 with host.locked := false }

/-- R148: a slot write has ended, with no failure or with one; the client applies the result. -/
def applyWrite (w : WriteOp) (failure : Option WriteFailure) (s : State) : State :=
  match w.client, failure with
  | .commit, none => commitSucceeded s
  | .commit, some _ => commitFailed w s
  | .publish, none => publishSucceeded w s
  | .publish, some _ => publishFailed w s

/-- R148, R151: the end of a slot write; under a warm restart its result is discarded and the restart goes on. -/
def endWrite (w : WriteOp) (failure : Option WriteFailure) (s : State) : State :=
  if s.start.storeWait then restartGoesOn s else endOp (applyWrite w failure s)

/-! ### Status reads -/

/-- R145, R146: the 20 ms of a write's status polling start. -/
def timed (w : WriteOp) : WriteOp := { w with timer := some Config.pollMs }

/-- R146: a status value read in POLLING. -/
def judgePolling (w : WriteOp) (v : Byte) (s : State) : State :=
  if v = Config.absentByte then endWrite w (some .error) s
  else if statusError v then
    if statusBusy v then { s with store.op := .recovering (timed w) .error } else endWrite w (some .error) s
  else if statusBusy v then s
  else { s with store.op := .verifying { w with timer := none } }

/-- R142, R145, R146: a status read sequence ends. A value 0xFF is judged before its bits by the probe's first read
(for a later one see assumption log 6), in the wait before a write and in POLLING. In RECOVERING it is judged by its
busy bit alone, as R146 says of that condition; R190 takes 0xFF as ERROR during a write whatever its bits. DEDUCED
(assumption log 31). -/
def statusRead (v : Byte) (s : State) : State :=
  match s.store.op with
  | .probing timer =>
    if timer.isNone ∧ v = Config.absentByte then halt .noStore { s with store.op := .idle }
    else if statusBusy v then { s with store.op := .probing (some Config.pollMs) }
    else { s with store.op := .header }
  | .writing w false =>
    if v = Config.absentByte then endWrite w (some .error) s
    else if statusBusy v then { s with store.op := .writing (timed w) false }
    else { s with store.op := .writing { w with timer := none } true }
  | .polling w => judgePolling w v s
  | .recovering w failure => if statusBusy v then s else endWrite w (some failure) s
  | _ => s

/-- STORE_STATUS_READ_END (R146). -/
def execStoreStatusReadEnd (value : Byte) (s : State) : Result := .next (statusRead value s)

/-- R142, R145, R146: the 20 ms of a status polling run. -/
def pollTimed : StoreOp → Bool
  | .probing timer => timer.isSome
  | .writing w false => w.timer.isSome
  | .polling w => w.timer.isSome
  | .recovering w _ => w.timer.isSome
  | _ => false

/-- R142, R145, R146: 20 ms pass with the device still busy. -/
def pollTimeout (s : State) : State :=
  if pollTimed s.store.op then
    match s.store.op with
    | .probing _ => { s with store.op := .header }
    | .writing w false => endWrite w (some .timeout) s
    | .polling w => { s with store.op := .recovering (timed w) .timeout }
    | .recovering w failure => endWrite w (some failure) s
    | _ => s
  else s

/-- STORE_POLL_TIMEOUT (R146). -/
def execStorePollTimeout (s : State) : Result := .next (pollTimeout s)

/-! ### The header read -/

/-- R143, R156: the header read ends. -/
def headerRead (bytes : List Byte) (s : State) : State :=
  if s.store.op = .header ∧ bytes.length = Config.headerBytes then
    match judgeHeader bytes with
    | .ok h => enterCensus h { s with store.op := .idle }
    | .error _ => halt .badHeader { s with store.op := .idle }
  else s

/-- HEADER_READ_END (R143). -/
def execHeaderReadEnd (bytes : List Byte) (s : State) : Result := .next (headerRead bytes s)

/-! ### The write sequence and the readback -/

/-- R145: the last byte of the write sequence has been sent. -/
def writeSequenceEnd (s : State) : State :=
  match s.store.op with
  | .writing w true =>
    let x := writeSignature w s
    { s with
      store.op := .polling (timed { w with signature := some x })
      store.computed := match w.client with
        | .commit => s.store.computed
        | .publish => some x }
  | _ => s

/-- WRITE_SEQUENCE_END (R145). -/
def execWriteSequenceEnd (s : State) : Result := .next (writeSequenceEnd s)

/-- R147: the readback ends. -/
def readback (bytes : List Byte) (s : State) : State :=
  match s.store.op with
  | .verifying w =>
    if bytes.length = Config.slotBytes then
      endWrite w (if bytes = writeImage w s then none else some .verify) s
    else s
  | _ => s

/-- READBACK_END (R147). -/
def execReadbackEnd (bytes : List Byte) (s : State) : Result := .next (readback bytes s)

/-! ### Slot reads -/

/-- R159, step 1: the record takes the copy, local stamp and local signature of the slot found, and leaves UNKNOWN. -/
def foundRec (result : SlotResult) (r : SegRec) : SegRec :=
  let lost : SegRec := { r with usable := false, stamp := nullStamp, signature := 0, state := .damaged }
  match result with
  | .vacant => { r with usable := true, stamp := nullStamp, signature := 0, state := .damaged }
  | .written t recorded computed =>
    if computed = recorded then { r with usable := true, stamp := t, signature := recorded, state := .damaged }
    else lost
  | .damaged => lost

/-- R159, step 3: evidence not newer than the found stamp is cleared for a USABLE copy. -/
def keepNewer (r : SegRec) : SegRec :=
  if r.usable then { r with evidence := evidenceAfter r.stamp r.evidence } else r

/-- R159, step 2: the DAMAGED event of an untrusted slot: the trailer stamp of a written slot, none of a damaged
one. -/
def censusEvent (i : Nat) (result : SlotResult) (s : State) : State :=
  match result with
  | .vacant => s
  | .written t recorded computed => if computed = recorded then s else raise .damaged (some i) none (some t) s
  | .damaged => raise .damaged (some i) none none s

/-- R159: the result of the census read of segment `i` is applied to its record. -/
def applyCensus (i : Nat) (result : SlotResult) (s : State) : State :=
  settle i <| modifyRec i (fun r => keepNewer (foundRec result r)) <| censusEvent i result s

/-- R158, R162: the next census read is requested, or the census ends. -/
def censusReadEnd (i : Nat) (result : SlotResult) (s : State) : State :=
  let s1 := applyCensus i result s
  if i + 1 < segCount s1 then requestCensusRead (i + 1) { s1 with start.cursor := i + 1 }
  else enterActive { s1 with start.cursor := segCount s1 }

/-- R175: the ok flag and the stamp of a host read's result. -/
def hostVerdict : SlotResult → Bool × Stamp
  | .vacant => (true, nullStamp)
  | .written t recorded computed => (computed == recorded, t)
  | .damaged => (false, nullStamp)

/-- R175: the host read of segment `i` ends. -/
def hostReadEnd (i : Nat) (result : SlotResult) (data : List Byte) (s : State) : State :=
  let verdict := hostVerdict result
  let s1 := if verdict.1 then s else signatureFailure i s
  raise .readDone (some i) none (if verdict.1 then some verdict.2 else none)
    { s1 with host.readBuffer := .complete i verdict.1 verdict.2 (getRec s1 i).state data }

/-- R144: the bytes of a slot stand in the transfer buffer, and the signature of a written slot is computed. -/
def fillTransfer (bytes : List Byte) (s : State) : State :=
  { s with store.transfer := bytes, store.computed := (classSlot bytes).computed? }

/-- R144: the result of a slot read is handed to its client. -/
def handRead (client : ReadClient) (i : Nat) (s : State) : State :=
  let result := classSlot s.store.transfer
  let data := s.store.transfer.take Config.segmentBytes
  match client with
  | .serve => serveReadEnd i result data s
  | .host => hostReadEnd i result data s
  | .census => censusReadEnd i result s

/-- R144, R151: a slot read ends, the slot is classed and the result handed to its client; under a warm restart the
result is discarded and the restart goes on. -/
def slotRead (bytes : List Byte) (s : State) : State :=
  match s.store.op with
  | .reading client i =>
    if bytes.length = Config.slotBytes then
      let s1 := fillTransfer bytes s
      if s.start.storeWait then restartGoesOn s1 else endOp (handRead client i s1)
    else s
  | _ => s

/-- SLOT_READ_END (R144). -/
def execSlotReadEnd (bytes : List Byte) (s : State) : Result := .next (slotRead bytes s)

/-! ### The wait of a warm restart -/

/-- RESTART_STORE_WAIT_END (R151, R167): the store operation a warm restart waits for has ended. Where there is nothing
to wait for, the restart goes on all the same (assumption log 34). -/
def execRestartStoreWaitEnd (s : State) : Result :=
  .next (if s.start.storeWait then restartGoesOn s else startGoesOn s)

/-! ### The store port -/

/-- R190: the four sequences of the store port. -/
inductive PortSequence where
  | readBytes (address count : Nat)
  | writeEnable
  | writeBytes (address : Nat) (bytes : List Byte)
  | readStatus
  deriving DecidableEq, Repr

/-- R142 to R147, R190: the sequences the part sends in the controller's present condition. -/
def portSequences (s : State) : List PortSequence :=
  match s.store.op with
  | .idle => []
  | .probing _ => [.readStatus]
  | .header => [.readBytes 0 Config.headerBytes]
  | .reading _ i => [.readBytes (slotAddress i) Config.slotBytes]
  | .writing _ false => [.readStatus]
  | .writing w true => [.writeEnable, .writeBytes (slotAddress w.segment) (writeImage w s)]
  | .polling _ => [.readStatus]
  | .verifying w => [.readBytes (slotAddress w.segment) Config.slotBytes]
  | .recovering _ _ => [.readStatus]

/-- A 24-bit address, upper byte first (R190). -/
def addressBytes (a : Nat) : List Byte := [.ofNat 8 (a / 65536), .ofNat 8 (a / 256), .ofNat 8 a]

/-- R190: the bytes the part sends for a sequence: the command byte, then the address and the bytes of a write. -/
def portBytes : PortSequence → List Byte
  | .readBytes a _ => 0x03#8 :: addressBytes a
  | .writeEnable => [0x06#8]
  | .writeBytes a bytes => 0x02#8 :: addressBytes a ++ bytes
  | .readStatus => [0x05#8]

end Sys2Proof.Machine
end

