-- ==== Sys2Proof/Machine/Answers.lean ====
section
/-! DEFINITION. The codes and byte layouts of the host port (R172, R173, R191 to R193): what the answers carry. -/

namespace Sys2Proof.Machine

/-- R191: the result codes. -/
def resultByte : ResultCode → Byte
  | .done => 0x00
  | .accepted => 0x01
  | .busy => 0x02
  | .refused => 0x03
  | .noEvidence => 0x04
  | .badArg => 0x05
  | .notReady => 0x06
  | .noData => 0x07

/-- R169: what the part clocks out after the last argument byte: the result byte, then the result data. -/
def answerBytes (a : Answer) : List Byte := resultByte a.result :: a.data

/-- R169: byte `k` clocked out after the last argument byte; past the last byte of the result data, 0x00. -/
def clockedOut (a : Answer) (k : Nat) : Byte := (answerBytes a).getD k 0x00

/-- R192: the codes of the top states. -/
def topByte : TopState → Byte
  | .starting => 0
  | .census => 1
  | .active => 2
  | .detached => 3
  | .halted => 4

/-- R192: the codes of the reasons. -/
def reasonByte : Reason → Byte
  | .none => 0
  | .host => 1
  | .clash => 2
  | .badStation => 3
  | .noStore => 4
  | .badHeader => 5

/-- R192: the codes of the segment states. -/
def segStateByte : SegState → Byte
  | .unknown => 0
  | .good => 1
  | .stale => 2
  | .fetching => 3
  | .committing => 4
  | .orphan => 5
  | .disputed => 6
  | .damaged => 7

/-- R192: the codes of the levels; none is 0. -/
def levelByte : Level → Byte
  | .sweep => 1
  | .news => 2
  | .demand => 3

/-- R192: the codes of the entry states; none is 0. -/
def entryStateByte : EntryState → Byte
  | .waiting => 1
  | .active => 2
  | .suspended => 3

/-- R193: the codes of the event kinds. -/
def eventByte : EventKind → Byte
  | .censusDone => 1
  | .peerJoined => 2
  | .peerLost => 3
  | .committed => 4
  | .orphaned => 5
  | .damaged => 6
  | .published => 7
  | .publishFailed => 8
  | .readDone => 9
  | .disputeOpened => 10
  | .disputeKept => 11
  | .disputeLost => 12
  | .disputeAbandoned => 13
  | .disputeDropped => 14
  | .detached => 15
  | .halted => 16
  | .restarted => 17
  | .lost => 18

/-- A count as one byte. -/
def countByte (n : Nat) : Byte := .ofNat 8 n

/-- A segment number as two bytes. -/
def segmentField (i : Nat) : List Byte := bytes16 (.ofNat 16 i)

/-- R193: the eight bytes of an event record; an absent field is sent as 0x00 bytes (R192). The rule names bits 0 to 2
of the flags byte; that bits 3 to 7 are 0 is the model's. DESIGN CHOICE (assumption log 38). -/
def eventBytes (e : Event) : List Byte :=
  [eventByte e.kind, flag e.segment.isSome 0 ||| flag e.station.isSome 1 ||| flag e.stamp.isSome 2] ++
    segmentField (e.segment.getD 0) ++ [(e.station.getD 0).setWidth 8] ++ stampBytes (e.stamp.getD nullStamp)

/-- R172, R192: the 12 bytes of STATUS. -/
def statusData (s : State) : List Byte :=
  [topByte s.start.top, reasonByte s.start.reason, s.start.station.setWidth 8, imageTag s] ++
    segmentField ((s.start.header.map (·.count)).getD 0) ++
    [countByte s.repair.queue.length] ++
    (match activeEntry s with
      | some e => segmentField e.segment
      | none => [0xFF#8, 0xFF#8]) ++
    [countByte s.disputes.length, countByte s.host.events.length, countByte s.line.clashes]

/-- R172, R191: the station set of the PRESENT roster entries. -/
def rosterSet (s : State) : StationSet :=
  stations.foldl (fun set p => if isPresent s p then addStation set p else set) 0

/-- R173, R192: the flags byte of SEGINFO. The rule names bits 0 to 6; that bit 7 is 0 is the model's. DESIGN CHOICE
(assumption log 37). -/
def infoFlags (s : State) (i : Nat) : Byte :=
  let r := getRec s i
  flag r.exhausted 0 ||| flag r.mark 1 ||| flag r.evidence.isSome 2 |||
    flag (r.evidence.any (·.fromNews)) 3 ||| flag (pinned s i) 4 ||| flag (findEntry s i).isSome 5 |||
    flag (findDispute s i).isSome 6

/-- R173, R192: the evidence part of SEGINFO, 0x00 when absent. -/
def infoEvidence : Option Evidence → List Byte
  | some ev => stampBytes ev.stamp ++ bytes32 ev.signature ++ bytes16 ev.holders
  | none => List.replicate 9 0

/-- R173, R192: the repair entry part of SEGINFO, 0x00 when absent. -/
def infoEntry : Option Entry → List Byte
  | some e => [levelByte e.level, entryStateByte e.state, countByte e.attempts] ++ bytes16 e.tried
  | none => List.replicate 5 0

/-- R173, R192: the dispute entry part of SEGINFO, 0x00 when absent. -/
def infoDispute : Option Dispute → List Byte
  | some d => [countByte d.round, countByte d.ballots.length]
  | none => List.replicate 2 0

/-- R173, R192: the 29 bytes of SEGINFO. -/
def segInfoData (s : State) (i : Nat) : List Byte :=
  let r := getRec s i
  [segStateByte r.state, if r.usable then 1 else 0] ++ stampBytes r.stamp ++ bytes32 r.signature ++
    [infoFlags s i, countByte r.rounds, countByte r.pendingWrites, countByte r.failures] ++
    infoEvidence r.evidence ++ infoEntry (findEntry s i) ++ infoDispute (findDispute s i)

/-- R176, R191: the 263 bytes of TAKE. -/
def takeData (i : Nat) (ok : Bool) (t : Stamp) (st : SegState) (data : List Byte) : List Byte :=
  segmentField i ++ [if ok then 1 else 0] ++ stampBytes t ++ [segStateByte st] ++ data

/-- R185, R191: the result data of EVENTS. -/
def eventsData (popped : List Event) : List Byte := countByte popped.length :: popped.flatMap eventBytes

end Sys2Proof.Machine
end

