-- ==== Sys2Proof/Machine/HostPort.lean ====
section
/-! DEFINITION. The meanings of the host port's happenings (chapter 10): the fifteen commands, the unknown command and
the transaction cut short. A command is checked in the order of R170 and its answer is fixed when it is taken. -/

namespace Sys2Proof.Machine

/-! ### Taking a command -/

/-- The result byte and result data of the transaction are fixed (R169). -/
def answer (code : ResultCode) (data : List Byte) (s : State) : State :=
  { s with host.answer := some { result := code, data := data } }

/-- R170: the checks of a command in their order: the top state, the arguments, then the command's own rule. -/
def takeCommand (taken : TopState → Bool) (argsOk : State → Bool) (rule : State → State) (s : State) : State :=
  if !taken s.start.top then answer .notReady [] s
  else if !argsOk s then answer .badArg [] s
  else rule s

/-- A command without arguments. -/
def noArgs (_ : State) : Bool := true

/-- TRANSACTION_CUT_SHORT (R169): no effect at all. -/
def execTransactionCutShort (s : State) : Result := .next s

/-- UNKNOWN_COMMAND (R192): answered BAD_ARG in every top state. A code that is one of the fifteen is no such
happening. -/
def execUnknownCommand (code : Byte) (s : State) : Result :=
  .next (if commandCodes.contains code then s else answer .badArg [] s)

/-! ### STATUS, SEGINFO, ROSTER -/

/-- STATUS (R172). -/
def execStatus (s : State) : Result :=
  .next (takeCommand inEvery noArgs (fun s => answer .done (statusData s) s) s)

/-- SEGINFO (R173). -/
def execSeginfo (segment : SegNum) (s : State) : Result :=
  .next (takeCommand inCensusOn (segmentArgOk · segment)
    (fun s => answer .done (segInfoData s segment.toNat) s) s)

/-- ROSTER (R172). -/
def execRoster (s : State) : Result :=
  .next (takeCommand inCensusOn noArgs (fun s => answer .done (bytes16 (rosterSet s)) s) s)

/-! ### READ and TAKE -/

/-- R174: READ of segment `i`. -/
def readRule (i : Nat) (s : State) : State :=
  if !(getRec s i).usable then answer .refused [] s
  else if s.host.readBuffer ≠ .empty then answer .busy [] s
  else answer .accepted [] (requestHostRead i { s with host.readBuffer := .reading i })

/-- READ (R174). -/
def execRead (segment : SegNum) (s : State) : Result :=
  .next (takeCommand inRunning (segmentArgOk · segment) (readRule segment.toNat) s)

/-- R176: TAKE. -/
def takeRule (s : State) : State :=
  match s.host.readBuffer with
  | .complete i ok t st data => answer .done (takeData i ok t st data) { s with host.readBuffer := .empty }
  | _ => answer .noData [] s

/-- TAKE (R176). -/
def execTake (s : State) : Result := .next (takeCommand inRunning noArgs takeRule s)

/-! ### STAGE and PUBLISH -/

/-- R177: the offset and length of a STAGE are in range. -/
def stageArgsOk (offset length : Byte) : Bool := stageLengthOk length && offset.toNat + length.toNat ≤ 256

/-- R177: a STAGE whose arguments are in range. -/
def stageRule (offset : Nat) (bytes : List Byte) (s : State) : State :=
  if s.host.locked then answer .busy [] s
  else answer .done [] { s with host.staging := overwrite s.host.staging offset bytes }

/-- R169, R192: a STAGE that waits for its data bytes has not got them all: the transaction is cut short. -/
def stageCut (length : Byte) (bytes : List Byte) (s : State) : Bool :=
  inCensusOn s.start.top && stageLengthOk length && bytes.length < length.toNat

/-- STAGE (R177, R192); data bytes past the length are ignored (R169). -/
def execStage (offset length : Byte) (bytes : List Byte) (s : State) : Result :=
  .next (if stageCut length bytes s then s
    else takeCommand inCensusOn (fun _ => stageArgsOk offset length)
      (stageRule offset.toNat (bytes.take length.toNat)) s)

/-- R178, step 1: the stamps a publish of segment `i` builds on, in order. -/
def publishList (i : Nat) (s : State) : List (Option Stamp) :=
  let r := getRec s i
  [some r.stamp, r.evidence.map (·.stamp), (findDispute s i).map (·.stamp),
    s.repair.commit.bind (fun b => if b.segment = i then some b.stamp else none)]

/-- R178, step 1: the new stamp. -/
def publishStamp (i : Nat) (s : State) : Stamp := nextStamp (newest (publishList i s)) s.start.station

/-- R178, step 3: the repair entry of the published segment leaves, its job cancelled; backfill and a pick follow. -/
def publishCancel (i : Nat) (s : State) : State :=
  if (findEntry s i).isSome then pick (backfill (settle i (cancelEntry i s))) else s

/-- R178, step 4: the dispute of the published segment is closed without a decision and without an event. -/
def publishClose (i : Nat) (s : State) : State :=
  takeUpIf (findDispute s i).isSome (modifyRec i clearMark (freeDispute i s))

/-- R178: a PUBLISH accepted, with its new stamp. -/
def publishAccept (i : Nat) (s : State) : State :=
  let t := publishStamp i s
  let s1 := modifyRec i (fun r => { r with pendingWrites := r.pendingWrites + 1, state := .committing }) s
  let s2 := publishClose i (publishCancel i s1)
  answer .accepted (stampBytes t) (requestWrite ⟨.publish, i, t⟩ { s2 with host.locked := true })

/-- R178: PUBLISH of segment `i`. -/
def publishRule (i : Nat) (s : State) : State :=
  if s.host.locked ∨ 2 ≤ (getRec s i).pendingWrites then answer .busy [] s else publishAccept i s

/-- PUBLISH (R178). -/
def execPublish (segment : SegNum) (s : State) : Result :=
  .next (takeCommand inRunning (segmentArgOk · segment) (publishRule segment.toNat) s)

/-! ### FRESHEN, PIN, UNPIN, ACCEPT -/

/-- R81: the lowest-numbered PRESENT station other than self. -/
def lowestPeer (s : State) : Option Station := stations.find? fun p => isPresent s p && p != s.start.station

/-- R81: a FRESHEN without evidence asks a peer for the bank's signature list. -/
def askBank (i : Nat) (s : State) : State :=
  match lowestPeer s with
  | some p => offer (.sigquery p (i / Config.bankSize)) s
  | none => s

/-- R80, R10: the exhausted flag is cleared; an ORPHAN record becomes STALE. -/
def freshenRec (r : SegRec) : SegRec :=
  let r1 := clearExhausted r
  { r1 with state := if r.state = .orphan then .stale else r.state }

/-- R80: STALE, ORPHAN, or DAMAGED with evidence. -/
def freshenable (r : SegRec) : Bool :=
  r.state = .stale || r.state = .orphan || (r.state = .damaged && r.evidence.isSome)

/-- R80: FRESHEN of segment `i` in ACTIVE, by the first line of the table that applies. -/
def freshenActive (i : Nat) (s : State) : State :=
  let r := getRec s i
  if r.state = .good then answer .done [] s
  else if pinned s i ∨ r.state = .disputed ∨ r.state = .committing ∨ held r then answer .refused [] s
  else if r.state = .damaged ∧ r.evidence.isNone then answer .noEvidence [] (askBank i s)
  else if r.state = .fetching then answer .accepted [] (enterQueue .demand i s)
  else if freshenable r ∧ ((findEntry s i).isSome ∨ hasPlace .demand s) then
    answer .accepted [] (enterQueue .demand i (modifyRec i freshenRec s))
  else answer .refused [] s

/-- R182: FRESHEN is refused in DETACHED. -/
def freshenRule (i : Nat) (s : State) : State :=
  if s.start.top = .detached then answer .refused [] s else freshenActive i s

/-- FRESHEN (R80). -/
def execFreshen (segment : SegNum) (s : State) : Result :=
  .next (takeCommand inRunning (segmentArgOk · segment) (freshenRule segment.toNat) s)

/-- R78: the repair entry of a pinned segment leaves, its job cancelled, and its record settles; in ACTIVE backfill
and a pick follow. -/
def pinCancel (i : Nat) (s : State) : State :=
  if (findEntry s i).isSome then pick (backfill (settle i (cancelEntry i s))) else s

/-- R182, R78: PIN of segment `i`. -/
def pinRule (i : Nat) (s : State) : State :=
  if pinned s i then answer .done [] s
  else if Config.pinCapacity ≤ s.repair.pins.length then answer .refused [] s
  else answer .done [] (pinCancel i { s with repair.pins := s.repair.pins ++ [i] })

/-- PIN (R78). -/
def execPin (segment : SegNum) (s : State) : Result :=
  .next (takeCommand inRunning (segmentArgOk · segment) (pinRule segment.toNat) s)

/-- R182, R79: UNPIN of segment `i`. -/
def unpinRule (i : Nat) (s : State) : State :=
  if pinned s i then
    answer .done [] (offerRepair i { s with repair.pins := s.repair.pins.filter (fun j => j ≠ i) })
  else answer .done [] s

/-- UNPIN (R79). -/
def execUnpin (segment : SegNum) (s : State) : Result :=
  .next (takeCommand inRunning (segmentArgOk · segment) (unpinRule segment.toNat) s)

/-- R135: ACCEPT of segment `i`. -/
def acceptRule (i : Nat) (s : State) : State :=
  if (getRec s i).state = .disputed then
    let freed := (findDispute s i).isSome
    answer .done [] (takeUpIf freed (settle i (modifyRec i clearMark (freeDispute i s))))
  else answer .refused [] s

/-- ACCEPT (R135). -/
def execAccept (segment : SegNum) (s : State) : Result :=
  .next (takeCommand inRunning (segmentArgOk · segment) (acceptRule segment.toNat) s)

/-! ### EVENTS -/

/-- R170: the count of EVENTS is 1 to 4. -/
def eventCountOk (n : Byte) : Bool := 1 ≤ n.toNat && n.toNat ≤ 4

/-- R185: up to `n` records are popped from the head of the event queue. -/
def eventsRule (n : Nat) (s : State) : State :=
  answer .done (eventsData (s.host.events.take n)) { s with host.events := s.host.events.drop n }

/-- EVENTS (R185). -/
def execEvents (count : Byte) (s : State) : Result :=
  .next (takeCommand inHaltedOn (fun _ => eventCountOk count) (eventsRule count.toNat) s)

/-! ### DETACH, ATTACH, RESTART -/

/-- R183: DETACH. -/
def detachRule (s : State) : State :=
  answer .done [] (if s.start.top = .active then detachSequence .host s else s)

/-- DETACH (R163). -/
def execDetach (s : State) : Result := .next (takeCommand inRunning noArgs detachRule s)

/-- R183: ATTACH. -/
def attachRule (s : State) : State :=
  answer .done [] (if s.start.top = .detached then attachSequence s else s)

/-- ATTACH (R166). -/
def execAttach (s : State) : Result := .next (takeCommand inRunning noArgs attachRule s)

/-- RESTART (R167). -/
def execRestart (s : State) : Result :=
  .next (takeCommand inHaltedOn noArgs (fun s => answer .done [] (restartSequence s)) s)

end Sys2Proof.Machine
end

