-- ==== Sys2Proof/Machine/Dispatch.lean ====
section
/-! DEFINITION. One arm per constructor of Instr. -/

namespace Sys2Proof.Machine

def exec (i : Instr) (s : State) : Host.Outcome State Fault Refusal :=
  match i with
  | .coldStart => Sys2Proof.Machine.execColdStart s
  | .strapSampling stn rate => Sys2Proof.Machine.execStrapSampling stn rate s
  | .storeStatusReadEnd value => Sys2Proof.Machine.execStoreStatusReadEnd value s
  | .storePollTimeout => Sys2Proof.Machine.execStorePollTimeout s
  | .headerReadEnd bytes => Sys2Proof.Machine.execHeaderReadEnd bytes s
  | .writeSequenceEnd => Sys2Proof.Machine.execWriteSequenceEnd s
  | .readbackEnd bytes => Sys2Proof.Machine.execReadbackEnd bytes s
  | .slotReadEnd bytes => Sys2Proof.Machine.execSlotReadEnd bytes s
  | .restartStoreWaitEnd => Sys2Proof.Machine.execRestartStoreWaitEnd s
  | .lineIdle => Sys2Proof.Machine.execLineIdle s
  | .transmissionStart => Sys2Proof.Machine.execTransmissionStart s
  | .arbitrationLoss => Sys2Proof.Machine.execArbitrationLoss s
  | .clash => Sys2Proof.Machine.execClash s
  | .cleanEnd => Sys2Proof.Machine.execCleanEnd s
  | .frameDiscarded reason => Sys2Proof.Machine.execFrameDiscarded reason s
  | .ownNumberFrame => Sys2Proof.Machine.execOwnNumberFrame s
  | .news sender segment stamp signature => Sys2Proof.Machine.execNews sender segment stamp signature s
  | .poll sender segment stamp signature => Sys2Proof.Machine.execPoll sender segment stamp signature s
  | .ballot sender segment stamp signature => Sys2Proof.Machine.execBallot sender segment stamp signature s
  | .request sender target segment stamp mask => Sys2Proof.Machine.execRequest sender target segment stamp mask s
  | .nohave sender target segment stamp => Sys2Proof.Machine.execNohave sender target segment stamp s
  | .busy sender target segment => Sys2Proof.Machine.execBusy sender target segment s
  | .data sender target segment stamp chunk bytes => Sys2Proof.Machine.execData sender target segment stamp chunk bytes s
  | .sigquery sender target bank => Sys2Proof.Machine.execSigquery sender target bank s
  | .siglist sender bank part entries => Sys2Proof.Machine.execSiglist sender bank part entries s
  | .digest sender bank value => Sys2Proof.Machine.execDigest sender bank value s
  | .silenceTimerExpiry station => Sys2Proof.Machine.execSilenceTimerExpiry station s
  | .beaconTimerExpiry => Sys2Proof.Machine.execBeaconTimerExpiry s
  | .queryHoldoffExpiry bank => Sys2Proof.Machine.execQueryHoldoffExpiry bank s
  | .patienceTimerExpiry => Sys2Proof.Machine.execPatienceTimerExpiry s
  | .disputeDeadlineExpiry segment => Sys2Proof.Machine.execDisputeDeadlineExpiry segment s
  | .transactionCutShort => Sys2Proof.Machine.execTransactionCutShort s
  | .unknownCommand code => Sys2Proof.Machine.execUnknownCommand code s
  | .status => Sys2Proof.Machine.execStatus s
  | .seginfo segment => Sys2Proof.Machine.execSeginfo segment s
  | .roster => Sys2Proof.Machine.execRoster s
  | .read segment => Sys2Proof.Machine.execRead segment s
  | .take => Sys2Proof.Machine.execTake s
  | .stage offset length bytes => Sys2Proof.Machine.execStage offset length bytes s
  | .publish segment => Sys2Proof.Machine.execPublish segment s
  | .freshen segment => Sys2Proof.Machine.execFreshen segment s
  | .pin segment => Sys2Proof.Machine.execPin segment s
  | .unpin segment => Sys2Proof.Machine.execUnpin segment s
  | .accept segment => Sys2Proof.Machine.execAccept segment s
  | .events count => Sys2Proof.Machine.execEvents count s
  | .detach => Sys2Proof.Machine.execDetach s
  | .attach => Sys2Proof.Machine.execAttach s
  | .restart => Sys2Proof.Machine.execRestart s
  | .startBit => Sys2Proof.Machine.execStartBit s

end Sys2Proof.Machine
end

