-- ==== Sys2Proof/Machine/Step.lean ====
section
/-! DEFINITION. One step of the part: the command at the front of the queue is taken. -/

namespace Sys2Proof.Machine

/-- The command at the front of the queue is run on the state with the queue's rest. With no command waiting the part
does what it does of its own accord, the halt of R167, step 5, and otherwise idles. DESIGN CHOICE (assumption logs 3 and
34). -/
def step (s : State) : Host.Outcome State Fault Refusal :=
  match s.pending with
  | [] => .next (startGoesOn s)
  | c :: rest => exec c { s with pending := rest }

/-- The command a word of the opcode table spells, put at the front of the queue; the state unchanged where the word
spells none. -/
def State.withFetchWord (s : State) (nbits w : Nat) : State :=
  match decodeTableWord nbits w with
  | some c => { s with pending := c :: s.pending }
  | none => s

end Sys2Proof.Machine
end

