-- ==== Sys2Proof/Safety.lean ====
section
/-! DEFINITION. What the rules say always holds of a state, in the terms the claims use: the form of the event queue
(R184), the digests (R18), the outbox (R34), the repair queue with the pin list (R69, R70, R77, R82), the serve queue
(R108), the dispute table (R120, R121), and how the top state governs every block (R39, R40, R45, R48, R76, R119, R136,
R153, R154). -/

namespace Sys2Proof.Machine

/-- R184: at most 16 records, and a LOST record only in the last place. -/
def EventsOk (q : List Event) : Prop := q.length ≤ 16 ∧ holdsLost q.dropLast = false

/-- R18: one digest for each bank, equal to the exclusive-OR of the rotated contributed signatures of its segments. -/
def DigestsOk (g : SegTable) : Prop :=
  g.recs.length = Config.bankSize * g.digests.length ∧
    ∀ b, b < g.digests.length → g.digests.getD b 0 = recountDigest g.recs b

/-- R34: at most 12 descriptors, no two of one identity, in order of kind code. -/
def OutboxOk (box : List Desc) : Prop :=
  box.length ≤ Config.outboxCapacity ∧ (box.map (·.ident)).Nodup ∧
    box.Pairwise (fun d e => codeOf d.ident ≤ codeOf e.ident)

/-- The identities of the descriptors in transmission. -/
def inFlight (box : List Desc) : List FrameId := (box.filter (·.inTransmission)).map (·.ident)

/-- The identity of the descriptor whose frame the bit engine is sending (R26); none for a frame being finished. -/
def sentIdent : Engine → List FrameId
  | .sending _ id .attached => [id]
  | _ => []

/-- R85: the suspend stack, top first, beside the repair queue. -/
structure StackOk (queue : List Entry) (stack : List Nat) : Prop where
  room : stack.length ≤ Config.stackCapacity
  /-- the stack holds the SUSPENDED entries -/
  suspended : ∀ i, i ∈ stack ↔ ∃ e ∈ queue, e.segment = i ∧ e.state = .suspended
  /-- the levels rise strictly from the bottom to the top -/
  rising : stack.Pairwise fun i j => ∀ d ∈ queue, ∀ e ∈ queue, d.state = .suspended → e.state = .suspended →
    d.segment = i → e.segment = j → levelRank e.level < levelRank d.level
  /-- and are all lower than the active entry's level -/
  below : ∀ a ∈ queue, ∀ d ∈ queue, a.state = .active → d.state = .suspended → levelRank d.level < levelRank a.level
  /-- a DEMAND job is never set aside -/
  lower : ∀ d ∈ queue, d.state = .suspended → d.level ≠ .demand

/-- R72, R83, R87: the landing slots and the entries that own them. -/
structure SlotsOk (r : RepairUnit) : Prop where
  /-- an entry's slot is taken for its segment, so no two entries share one -/
  held : ∀ e ∈ r.queue, ∀ n, e.slot = some n → ∃ v, r.slot n = some v ∧ v.segment = e.segment
  /-- a slot that is taken belongs to the entry of its segment -/
  owned : ∀ n v, r.slot n = some v → ∃ e ∈ r.queue, e.segment = v.segment ∧ e.slot = some n
  /-- an ACTIVE and a SUSPENDED entry hold a slot -/
  started : ∀ e ∈ r.queue, e.state ≠ .waiting → e.slot.isSome = true
  /-- R72: a WAITING entry at SWEEP holds none -/
  sweep : ∀ e ∈ r.queue, e.state = .waiting → e.level = .sweep → e.slot = none

/-- R69, R70, R77, R82, R83, R85: the repair queue with the pin list, the suspend stack and the landing slots. -/
structure RepairOk (r : RepairUnit) : Prop where
  room : r.queue.length ≤ Config.repairCapacity
  once : (r.queue.map (·.segment)).Nodup
  order : r.queue.Pairwise fun d e => levelRank e.level ≤ levelRank d.level
  oneActive : ∀ d ∈ r.queue, ∀ e ∈ r.queue, d.state = .active → e.state = .active → d = e
  pinRoom : r.pins.length ≤ Config.pinCapacity
  pinsOnce : r.pins.Nodup
  unpinned : ∀ e ∈ r.queue, e.segment ∉ r.pins
  stack : StackOk r.queue r.stack
  slots : SlotsOk r

/-- R108, R113: at most four serve entries, one per requester and segment; at most two chunks outstanding, and only in
SEND; an empty queue has no head in service. -/
def ServeOk (u : ServeUnit) : Prop :=
  u.queue.length ≤ Config.serveCapacity ∧ (u.queue.map (fun e => (e.requester, e.segment))).Nodup ∧
    chunkCount u.outstanding ≤ Config.paceLimit ∧ (u.phase ≠ .send → u.outstanding = 0) ∧
    (u.queue = [] → u.phase = .waiting)

/-- R120, R121: at most four entries, one for a segment, with a stamp that is not the null stamp, rounds 1 to 3, and at
most one ballot for each station. -/
structure DisputesOk (ds : List Dispute) : Prop where
  room : ds.length ≤ Config.disputeCapacity
  once : (ds.map (·.segment)).Nodup
  stamps : ∀ d ∈ ds, d.stamp ≠ nullStamp
  rounds : ∀ d ∈ ds, 1 ≤ d.round ∧ d.round ≤ Config.lastRound
  ballots : ∀ d ∈ ds, d.ballots.Pairwise fun a b => a.1.toNat < b.1.toNat

/-! ### What the blocks say of one segment -/

/-- R14: what each state of a record says of its copy, its evidence, its flags and its pending writes; and no mark
stands on an UNKNOWN record or at the null stamp (R11, R13, R122). -/
structure RecOk (r : SegRec) : Prop where
  unknown : r.state = .unknown → r.usable = false
  good : r.state = .good → r.usable = true ∧ r.evidence = none ∧ r.mark = false
  stale : r.state = .stale → r.usable = true ∧ r.evidence.isSome = true
  fetching : r.state = .fetching → r.evidence.isSome = true
  committing : r.state = .committing ↔ 0 < r.pendingWrites
  orphan : r.state = .orphan → r.usable = true ∧ r.evidence.isSome = true ∧ r.exhausted = true
  disputed : r.state = .disputed → r.usable = true ∧ r.evidence = none ∧ r.mark = true
  damaged : r.state = .damaged → r.usable = false
  count : r.pendingWrites ≤ 2
  mark : r.mark = true → r.stamp ≠ nullStamp ∧ r.state ≠ .unknown

/-- R71, R75: the states of a record that has a repair entry; it has evidence. -/
structure InRepair (r : SegRec) : Prop where
  state : r.state = .stale ∨ r.state = .orphan ∨ r.state = .fetching ∨ r.state = .damaged
  evidence : r.evidence.isSome = true

/-- R120, R121: a dispute entry fits its record: the record is DISPUTED, the entry has its stamp, and the own ballot is
for its signature. -/
structure DisputeFits (station : Station) (r : SegRec) (d : Dispute) : Prop where
  state : r.state = .disputed
  stamp : d.stamp = r.stamp
  own : (station, r.signature) ∈ d.ballots

/-- The point inside a happening: the operation in progress has ended and its result is being applied; a rule is on
its way to request some writes more, or the next census read; a commit write that has ended still holds the commit
buffer. -/
structure Due where
  ended : Bool
  asked : List (WriteClient × Nat)
  next : Option Nat
  held : List (WriteClient × Nat)

/-- Between happenings. -/
def Due.now : Due := ⟨false, [], none, []⟩

/-- R149, R151: the writes whose results are still to be applied, the one in progress before those that wait; under a
warm restart the result of the one in progress is discarded. -/
def writesDue (due : Due) (s : State) : List (WriteClient × Nat) :=
  due.asked ++
    (if due.ended || s.start.storeWait then [] else (writeOf s.store.op).toList.map fun w => (w.client, w.segment)) ++
    s.store.writes.map fun q => (q.client, q.segment)

/-- R158: the census read of segment `i` is in progress, pending, or about to be requested. -/
def censusAt (due : Due) (u : Store) (i : Nat) : Prop :=
  (due.ended = false ∧ u.op = .reading .census i) ∨ u.censusReq = some i ∨ due.next = some i

/-- What the blocks say of segment `i`. -/
structure SegLinked (due : Due) (s : State) (i : Nat) : Prop where
  record : RecOk (getRec s i)
  /-- R8: each write under way or pending is counted in pending writes -/
  writes : (writesDue due s).countP (·.2 = i) ≤ (getRec s i).pendingWrites
  /-- R71, R75 -/
  repair : ∀ e ∈ s.repair.queue, e.segment = i → InRepair (getRec s i)
  /-- R120 -/
  dispute : ∀ d ∈ s.disputes, d.segment = i → DisputeFits s.start.station (getRec s i) d
  /-- R158: the records the census has not reached are UNKNOWN -/
  census : s.start.top = .census → ∀ j, censusAt due s.store j → j ≤ i → (getRec s i).state = .unknown

/-- The commit writes whose results are still to be applied, and the one that still holds the commit buffer. -/
def commitsDue (due : Due) (s : State) : List (WriteClient × Nat) :=
  due.held ++ (writesDue due s).filter (·.1 = .commit)

/-- R84, R104: there is one commit write at most, and the commit buffer holds its segment. -/
def HoldsCommit (c : Option CommitBuffer) (l : List (WriteClient × Nat)) : Prop :=
  l = [] ∨ ∃ b, c = some b ∧ l = [(.commit, b.segment)]

/-- What the blocks say of every segment, and of the commit buffer. -/
structure Linked (due : Due) (s : State) : Prop where
  segment : ∀ i, SegLinked due s i
  commit : HoldsCommit s.repair.commit (commitsDue due s)

/-- R101, R107: no active job, no job condition, no patience timer. -/
def engineAtRest (r : RepairUnit) : Prop :=
  (∀ e ∈ r.queue, e.state ≠ .active) ∧ r.cond = none ∧ r.patience = none

/-- The top states in which the part listens to the line (R39). -/
def listening (t : TopState) : Bool := t = .census || t = .active

/-- The top states that stand behind a valid header (R153, R154). -/
def started (t : TopState) : Bool := t = .census || t = .active || t = .detached

/-- R154: the reasons each top state can have. -/
def reasonFits : TopState → Reason → Bool
  | .detached, r => r = .host || r = .clash
  | .halted, r => r = .badStation || r = .noStore || r = .badHeader
  | _, r => r = .none

/-- The top state governs every block. -/
structure Governed (s : State) : Prop where
  /-- R154 -/
  reason : reasonFits s.start.top s.start.reason = true
  /-- R155: a station past its straps check has a number 1 to 15 -/
  station : started s.start.top = true → s.start.station ≠ 0
  /-- R153, R156: the header fields stand from the header read to the next start -/
  header : s.start.header.isSome = started s.start.top
  /-- R156: N records, and the bank table with N/64 entries -/
  tables : ∀ h, s.start.header = some h →
    s.segs.recs.length = h.count ∧ s.roster.banks.length = h.count / Config.bankSize
  /-- R13, R156: there is no record before a header is read -/
  noTable : s.start.header = none → s.segs.recs = []
  /-- R39 -/
  receiver : s.line.receiver = listening s.start.top
  /-- R39: on in ACTIVE, and until the frame being finished has ended -/
  transmitter : s.line.transmitter = (s.start.top == .active || isSending s.line.engine)
  /-- R39: a receiver that is off takes in no frame -/
  engine : s.line.receiver = false → s.line.engine = .quiet ∨ isSending s.line.engine = true
  /-- R34, R40: no descriptors outside ACTIVE -/
  outbox : s.start.top ≠ .active → s.line.outbox = []
  /-- R26, R34: the descriptor in transmission is the one whose frame is being sent -/
  flight : inFlight s.line.outbox = sentIdent s.line.engine
  /-- R29 -/
  clashes : s.line.clashes ≤ Config.clashLimit
  /-- R41 -/
  rosterSize : s.roster.entries.length = 15
  /-- R47: no peer is present while the part does not listen -/
  absent : listening s.start.top = false → ∀ e ∈ s.roster.entries, e = ⟨false, none⟩
  /-- R45: self is PRESENT in ACTIVE alone, and has no silence timer -/
  selfEntry : started s.start.top = true → rosterEntry s s.start.station = ⟨s.start.top == .active, none⟩
  /-- R48: the beacon runs in ACTIVE alone -/
  beacon : s.roster.beacon.isSome = (s.start.top == .active)
  /-- R48, R59 -/
  pointer : s.start.top ≠ .active → s.roster.pointer = 0
  /-- R76: the repair queue is empty outside CENSUS and ACTIVE -/
  queue : listening s.start.top = false → s.repair.queue = []
  /-- R82, R107: the fetch engine works in ACTIVE alone -/
  fetching : s.start.top ≠ .active → engineAtRest s.repair
  /-- R119 -/
  serve : s.start.top ≠ .active → s.serve.queue = []
  /-- R136 -/
  disputes : s.start.top ≠ .active → s.disputes = []
  /-- R142, R143: the probe and the header read belong to STARTING -/
  probing : ((∃ p, s.store.op = .probing p) ∨ s.store.op = .header) →
    s.start.top = .starting ∧ s.start.storeWait = false ∧ s.start.station ≠ 0
  /-- R158: one census read at a time, in CENSUS, or left to end under a warm restart -/
  census : ∀ i, s.store.op = .reading .census i →
    (s.start.top = .census ∨ s.start.storeWait = true) ∧ s.store.censusReq = none
  /-- R149: census reads are requested in CENSUS -/
  censusReq : s.store.censusReq.isSome = true → s.start.top = .census
  /-- R167: the wait for the store falls in STARTING -/
  waiting : s.start.storeWait = true → s.start.top = .starting
  /-- R155: the straps are due at the beginning of a cold start, before the probe -/
  straps : s.start.strapsDue = true →
    s.start.top = .starting ∧ s.start.storeWait = false ∧ (∀ p, s.store.op ≠ .probing p) ∧ s.store.op ≠ .header

/-- The capacities and orders of the queues, lists and tables, and what they say of each segment. -/
structure SoundAt (due : Due) (s : State) : Prop where
  repair : RepairOk s.repair
  serve : ServeOk s.serve
  disputes : DisputesOk s.disputes
  linked : Linked due s

/-- `SoundAt` between happenings. -/
abbrev Sound (s : State) : Prop := SoundAt .now s

/-- The invariant of the whole part. -/
structure Inv (s : State) : Prop where
  events : EventsOk s.host.events
  digests : DigestsOk s.segs
  outbox : OutboxOk s.line.outbox
  sound : Sound s
  governed : Governed s

/-! ### Terms of the claims about commands -/

/-- R31, R32: a good frame of another station with this target and body is in reception. -/
structure Hears (s : State) (p q : Station) (body : Body) : Prop where
  reception : s.line.receiver = true ∧ s.line.engine = .receiving
  good : (⟨p, q, imageTag s, body⟩ : Frame).wellFormed = true ∧ bodyInRange (segCount s) body = true
  other : p ≠ s.start.station

/-- R42: the state in which a body from station `p` is delivered: the sender PRESENT with its silence timer at 4B, and
PEER_JOINED for one that was ABSENT. -/
def heard (p : Station) (s : State) : State :=
  { s with
    line.engine := .quiet
    roster.entries := s.roster.entries.set (p.toNat - 1) ⟨true, some (4 * beaconMs s)⟩
    host.events :=
      if isPresent s p then s.host.events else offerEvent ⟨.peerJoined, none, some p, none⟩ s.host.events }

/-- R35: in ACTIVE an outbox with a place, or with the same descriptor, takes the offer and loses no other. -/
structure Takes (s : State) (id : FrameId) : Prop where
  active : s.start.top = .active
  place : s.line.outbox.any (fun d => d.ident = id) = true ∨ s.line.outbox.length < Config.outboxCapacity

/-- R35: the outbox after an offer of a kind other than BALLOT. -/
def boxWith (id : FrameId) (box : List Desc) : List Desc := (offerBox id none box).1

/-- R88: `q` is the lowest-numbered station that is a holder, untried, PRESENT, other than self, and not left out. -/
structure LowestSource (s : State) (holders tried : StationSet) (leftOut : Option Station) (q : Station) : Prop where
  qualifies : q ≠ 0 ∧ hasStation holders q = true ∧ hasStation tried q = false ∧ isPresent s q = true ∧
    q ≠ s.start.station ∧ leftOut ≠ some q
  lowest : ∀ q', q'.toNat < q.toNat →
    hasStation holders q' = false ∨ hasStation tried q' = true ∨ isPresent s q' = false ∨ q' = s.start.station ∨
      leftOut = some q'

/-- R75, R86: nothing is left for backfill and for a pick, whatever happens to segment `i`. -/
structure NothingElse (s : State) (i : Nat) : Prop where
  records : ∀ j, j < segCount s → j ≠ i → backfillable (getRec s j) = false
  stack : s.repair.stack = []

/-- R123: no record waits for a dispute entry. -/
def NoneWaiting (s : State) : Prop := ∀ j, j < segCount s → waitsForEntry s j = false

/-- R149: the store is free and nothing is pending. -/
def StoreFree (u : Store) : Prop :=
  u.op = .idle ∧ u.writes = [] ∧ u.serveReq = none ∧ u.hostReq = none ∧ u.censusReq = none

/-- R149: an operation is in progress and nothing is pending behind it. -/
def NonePending (u : Store) : Prop := u.writes = [] ∧ u.serveReq = none ∧ u.hostReq = none ∧ u.censusReq = none

/-- R110: self can serve stamp `t` of this record. -/
def Servable (r : SegRec) (t : Stamp) : Prop :=
  t ≠ nullStamp ∧ r.stamp = t ∧ r.usable = true ∧ r.state ≠ .unknown ∧ r.state ≠ .disputed ∧ r.state ≠ .damaged

/-- R111, R113: the serve queue's head is in service with nothing to do at once, or waits for a read to end. -/
def Occupied (u : ServeUnit) : Prop :=
  u.phase = .read ∨ (u.phase = .waiting ∧ u.reading = true) ∨
    (u.phase = .send ∧ chunkCount u.outstanding = Config.paceLimit ∧ ∀ h ∈ u.queue.head?, h.remaining ≠ 0)

/-- R61, R9: a stamp that a report must have to tell the record anything new. -/
def OutdoesCopy (r : SegRec) (t : Stamp) : Prop :=
  if r.usable = true then newer t r.stamp = true else newer r.stamp t = false

/-- R15, R164: the state of a record that has left the line. -/
def offLineState (r : SegRec) : SegState :=
  if r.state = .unknown then .unknown
  else if 0 < r.pendingWrites then .committing
  else if r.usable then (if r.mark then .disputed else .good)
  else .damaged

/-- R164: what the DETACH sequence makes of a state, block by block. -/
structure LeftTheLine (reason : Reason) (s t : State) : Prop where
  start : t.start = { s.start with top := .detached, reason := reason }
  line : t.line = { s.line with
    receiver := false, transmitter := isSending s.line.engine, engine := engineOff .afterDetach s.line.engine,
    outbox := [] }
  roster : t.roster = {
    entries := List.replicate 15 ⟨false, none⟩, beacon := none, pointer := 0,
    banks := List.replicate s.roster.banks.length ⟨none, none⟩ }
  serve : t.serve.queue = [] ∧ t.serve.phase = .waiting ∧ t.serve.outstanding = 0 ∧ t.serve.buffer = none
  /-- R119, R150: a serve read in progress stays outstanding -/
  serveRead : t.serve.reading = true ↔ ∃ i, s.store.op = .reading .serve i
  repair : t.repair = {
    queue := [], stack := [], pins := s.repair.pins, slotA := none, slotB := none, slotC := none,
    commit := s.repair.commit, cond := none, patience := none }
  disputes : t.disputes = []
  digests : t.segs.digests = s.segs.digests
  count : segCount t = segCount s
  records : ∀ i, i < segCount s →
    getRec t i =
      let r := getRec s i
      { r with
        evidence := none
        exhausted := if held r then r.exhausted else false
        rounds := if (findDispute s i).isSome then 0 else r.rounds
        state := offLineState r }
  store : t.store = { s.store with serveReq := none }
  host : t.host = { s.host with
    events := offerEvent
      ⟨.detached, none, if reason = .clash then some s.start.station else none, none⟩ s.host.events }
  pending : t.pending = s.pending

/-- R154: the moves of the top state a command can make, with the reason they leave. -/
def topMoves : Instr → List (TopState × TopState × Reason)
  | .coldStart =>
    [TopState.starting, .census, .active, .detached, .halted].map fun a => (a, TopState.starting, Reason.none)
  | .restart =>
    [(.census, .starting, .none), (.active, .starting, .none), (.detached, .starting, .none),
      (.halted, .starting, .none)]
  | .strapSampling .. | .storePollTimeout | .readbackEnd .. | .restartStoreWaitEnd =>
    [(.starting, .halted, .badStation)]
  | .storeStatusReadEnd .. => [(.starting, .halted, .noStore), (.starting, .halted, .badStation)]
  | .headerReadEnd .. => [(.starting, .census, .none), (.starting, .halted, .badHeader)]
  | .slotReadEnd .. => [(.census, .active, .none), (.starting, .halted, .badStation)]
  | .detach => [(.active, .detached, .host)]
  | .attach => [(.detached, .active, .none)]
  | .clash | .ownNumberFrame | .news .. | .poll .. | .ballot .. | .request .. | .nohave .. | .busy .. | .data ..
  | .sigquery .. | .siglist .. | .digest .. => [(.active, .detached, .clash)]
  | .writeSequenceEnd | .lineIdle | .transmissionStart | .arbitrationLoss | .cleanEnd | .frameDiscarded ..
  | .silenceTimerExpiry .. | .beaconTimerExpiry | .queryHoldoffExpiry .. | .patienceTimerExpiry
  | .disputeDeadlineExpiry .. | .transactionCutShort | .unknownCommand .. | .status | .seginfo .. | .roster | .read ..
  | .take | .stage .. | .publish .. | .freshen .. | .pin .. | .unpin .. | .accept .. | .events .. | .startBit => []

/-- R171: the top states in which a host command is taken; none for a happening that is no host command, and for the
unknown command, which is answered alike in all. -/
def takenIn : Instr → Option (List TopState)
  | .status => some [.starting, .census, .active, .detached, .halted]
  | .events _ | .restart => some [.census, .active, .detached, .halted]
  | .roster | .seginfo _ | .stage .. => some [.census, .active, .detached]
  | .read _ | .take | .publish _ | .freshen _ | .pin _ | .unpin _ | .accept _ | .detach | .attach =>
    some [.active, .detached]
  | .coldStart | .strapSampling .. | .storeStatusReadEnd .. | .storePollTimeout | .headerReadEnd ..
  | .writeSequenceEnd | .readbackEnd .. | .slotReadEnd .. | .restartStoreWaitEnd | .lineIdle | .transmissionStart
  | .arbitrationLoss | .clash | .cleanEnd | .frameDiscarded .. | .ownNumberFrame | .news .. | .poll .. | .ballot ..
  | .request .. | .nohave .. | .busy .. | .data .. | .sigquery .. | .siglist .. | .digest .. | .silenceTimerExpiry ..
  | .beaconTimerExpiry | .queryHoldoffExpiry .. | .patienceTimerExpiry | .disputeDeadlineExpiry ..
  | .transactionCutShort | .unknownCommand .. | .startBit => none

/-- The state with the answer of a host command fixed (R169). -/
def answered (code : ResultCode) (data : List Byte) (s : State) : State :=
  { s with host.answer := some ⟨code, data⟩ }

/-- The segment argument of a host command (R170). -/
def segmentArgument? : Instr → Option SegNum
  | .seginfo i | .read i | .publish i | .freshen i | .pin i | .unpin i | .accept i => some i
  | _ => none

end Sys2Proof.Machine
end

