-- ==== Sys2Proof/Certificates/Slice0/Obligations.lean ====
section
/-! DEFINITION. The statements for the provers. -/

open Sys2Proof Sys2Proof.Machine

/-! ### The whole part -/

/-- Every command that waits is run as it came: a step takes the command at the front of the queue and is `exec` of it
on the queue's rest. On an empty queue the part halts where R167, step 5, has it halt next, in a warm restart with
station number 0 that waits for nothing, and otherwise idles (the model's choices, logs 3 and 34). -/
def Obligations.StepRunsFrontCommand : Prop :=
  (∀ (c : Instr) (s : State), step { s with pending := c :: s.pending } = exec c s) ∧
    ∀ s : State, s.pending = [] →
      let halts := s.start.top = .starting ∧ s.start.station = 0 ∧ s.start.strapsDue = false ∧
        s.start.storeWait = false ∧ s.store.op = .idle
      (halts → step s = .next (raise .halted none none none { s with
        start := { s.start with top := .halted, reason := .badStation } })) ∧
      (¬ halts → step s = .next s)

/-- Every command completes in every state, and leaves the commands that wait as they are. That a happening which cannot
occur in the state it finds completes with no effect, and the queue itself, are the model's choices (logs 2, 3 and 9). -/
def Obligations.EveryCommandCompletes : Prop :=
  ∀ (c : Instr) (s : State), ∃ t, exec c s = .next t ∧ t.pending = s.pending

/-- The invariant holds at reset. -/
def Obligations.ResetMeetsInvariant : Prop := Inv State.reset

/-- Every step keeps the invariant: the capacities and orders of every queue and table (R18, R34, R69, R70, R77, R82,
R108, R120, R121, R184), the suspend stack and the owners of the landing slots (R72, R83, R85, R87), what each state of
a record says of it and of its repair entry, its dispute entry and its writes (R8, R14, R71, R120, R158), the commit
buffer of a commit write (R84, R104), and what the top state says of every block (R39, R40, R41, R45, R47, R48, R76,
R119, R136, R153, R154). -/
def Obligations.EveryStepKeepsInvariant : Prop :=
  ∀ s t : State, Inv s → step s = .next t → Inv t

/-- R18: "the digest always equals the value defined in the first sentence of this rule". -/
def Obligations.DigestsFollowRecords : Prop :=
  ∀ (c : Instr) (s t : State), DigestsOk s.segs → exec c s = .next t → DigestsOk t.segs

/-- R8: the local stamp and local signature change by the census, a commit write, a publish write and the starts alone:
first the commands that can bring none of these, then the end of a readback, which touches the record written alone,
then the end of a slot read, which touches the record read, and that for the census alone. -/
def Obligations.LocalCopyChanges : Prop :=
  (∀ (c : Instr) (s t : State), exec c s = .next t →
    (match c with
      | .coldStart | .restart | .headerReadEnd _ | .readbackEnd _ | .slotReadEnd _ => False
      | _ => True) →
    segCount t = segCount s ∧
      ∀ i, (getRec t i).stamp = (getRec s i).stamp ∧ (getRec t i).signature = (getRec s i).signature) ∧
  (∀ (bytes : List Byte) (s t : State) (w : WriteOp), exec (.readbackEnd bytes) s = .next t →
    s.store.op = .verifying w →
    (w.client = .commit → ∀ b, s.repair.commit = some b → b.segment = w.segment) →
    ∀ i, i ≠ w.segment →
      (getRec t i).stamp = (getRec s i).stamp ∧ (getRec t i).signature = (getRec s i).signature) ∧
  (∀ (bytes : List Byte) (s t : State) (k : ReadClient) (j : Nat), exec (.slotReadEnd bytes) s = .next t →
    s.store.op = .reading k j →
    ∀ i, (i ≠ j ∨ k ≠ .census) →
      (getRec t i).stamp = (getRec s i).stamp ∧ (getRec t i).signature = (getRec s i).signature)

/-- R154: "The top state changes only on the happenings in this table", each leaving the reason the table gives; with no
command waiting, by the halt of a warm restart alone (log 34). -/
def Obligations.TopStateMovesByTable : Prop :=
  (∀ (c : Instr) (s t : State), Inv s → exec c s = .next t →
    (t.start.top = s.start.top ∧ t.start.reason = s.start.reason) ∨
      (s.start.top, t.start.top, t.start.reason) ∈ topMoves c) ∧
  ∀ s t : State, Inv s → s.pending = [] → step s = .next t →
    (t.start.top = s.start.top ∧ t.start.reason = s.start.reason) ∨
      (s.start.top = .starting ∧ t.start.top = .halted ∧ t.start.reason = .badStation)

/-- R77, R84, R174, R177: what holds still: the pin list but for PIN, UNPIN and the starts; an occupied commit buffer
until its write ends; the staging buffer but for STAGE and the starts; the read buffer but for READ, its end, TAKE and
the starts. A warm restart waiting for the store is left out, for its end frees the buffers (R167). -/
def Obligations.BuffersAndPinsKept : Prop :=
  ∀ (c : Instr) (s t : State), exec c s = .next t → s.start.storeWait = false → c ≠ .coldStart → c ≠ .restart →
    ((∀ i, c ≠ .pin i) → (∀ i, c ≠ .unpin i) → t.repair.pins = s.repair.pins) ∧
    (∀ b, s.repair.commit = some b → (∀ l, c ≠ .readbackEnd l) → (∀ v, c ≠ .storeStatusReadEnd v) →
      c ≠ .storePollTimeout → t.repair.commit = some b) ∧
    ((∀ o n l, c ≠ .stage o n l) → t.host.staging = s.host.staging) ∧
    ((∀ i, c ≠ .read i) → c ≠ .take → (∀ l, c ≠ .slotReadEnd l) → t.host.readBuffer = s.host.readBuffer)

/-- R25: the check register starts at 0xFFFF; for each covered bit, most significant first, it shifts left and, when its
old bit 15 differs from the bit, takes the exclusive-OR with 0x5935. R24: the check over the bytes before it ends the
frame, upper byte first.
R21: the run of equal bits starts at 1 with the dominant start bit; after a run of 6, while a frame bit is still to be
sent, one filler of the opposite value goes first and starts a run of 1; after the last bit none follows. No seven equal
bits then stand together on the line. -/
def Obligations.CheckAndFillers : Prop :=
  (∀ bytes : List Byte,
    checkOf bytes = (bytes.flatMap fun b => [7, 6, 5, 4, 3, 2, 1, 0].map fun (k : Nat) => b.getLsbD k).foldl
      (fun (reg : BitVec 16) bit => (reg <<< 1) ^^^ (if reg.getLsbD 15 = bit then 0#16 else 0x5935#16)) 0xFFFF#16) ∧
  (∀ f : Frame, ∃ covered : List Byte,
    covered = (kindCode f.body ++ f.sender) :: (f.target ++ 0#4) :: f.tag :: bodyBytes f.body ∧
    frameBytes f = covered ++ [(checkOf covered).extractLsb' 8 8, (checkOf covered).extractLsb' 0 8] ∧
    lineBits f = false :: addFillers false 1 (bytesBits (frameBytes f))) ∧
  (∀ (last b : Bool) (run : Nat) (rest : List Bool),
    addFillers last run [] = [] ∧
    (run ≠ 6 → addFillers last run (b :: rest) = b :: addFillers b (if b = last then run + 1 else 1) rest) ∧
    addFillers last 6 (b :: rest) = (!last) :: addFillers (!last) 1 (b :: rest)) ∧
  ∀ (f : Frame) (before after : List Bool) (b : Bool), lineBits f ≠ before ++ List.replicate 7 b ++ after

/-! ### Stamps, signatures and records -/

/-- R2: exactly one of two different stamps is newer, by the table. -/
def Obligations.StampOrder : Prop :=
  ∀ a b : Stamp, a ≠ b →
    (newer a b = !newer b a) ∧
    (b = nullStamp → newer a b = true) ∧
    (a ≠ nullStamp → b ≠ nullStamp →
      let d := (a.version.toNat + 65536 - b.version.toNat) % 65536
      (1 ≤ d ∧ d ≤ 32767 → newer a b = true) ∧
      (32769 ≤ d → newer b a = true) ∧
      (d = 0 ∨ (d = 32768 ∧ a.origin ≠ b.origin) → (newer a b = true ↔ b.origin.toNat < a.origin.toNat)) ∧
      (d = 32768 ∧ a.origin = b.origin → (newer a b = true ↔ b.version.toNat < a.version.toNat)))

/-- R3: the newest of a list: absent entries are skipped; the first stamp is the running choice; a later stamp that is
newer replaces it; the null stamp when every entry is absent. -/
def Obligations.NewestOfList : Prop :=
  (∀ l : List (Option Stamp), newest l = newest ((l.filterMap id).map some)) ∧
    newest [] = nullStamp ∧
    (∀ t : Stamp, newest [some t] = t) ∧
    ∀ (t u : Stamp) (l : List Stamp),
      newest ((t :: u :: l).map some) = newest (((if newer u t then u else t) :: l).map some)

/-- R4: the register starts at 0xFFFFFFFF and takes one step for the version, the origin and each of the 128 pairs of
data bytes; a step shifts left by one, folds the polynomial in when the old bit 31 was 1, and then the word. The null
stamp's signature is 0. -/
def Obligations.SignatureByRegister : Prop :=
  (∀ (reg : Signature) (w : BitVec 16),
    signatureFeed reg w =
      (reg <<< 1) ^^^ (if reg.getLsbD 31 then 0x8D2E47B3#32 else 0#32) ^^^ (0#16 ++ w)) ∧
  (∀ (t : Stamp) (data : List Byte), t ≠ nullStamp → data.length = 256 →
    signatureOf t data =
      ([t.version, 0#8 ++ t.origin] ++
        (List.range 128).map fun k => data.getD (2 * k) 0 ++ data.getD (2 * k + 1) 0).foldl
          signatureFeed 0xFFFFFFFF#32) ∧
  ∀ data : List Byte, signatureOf nullStamp data = 0

/-- R15: the first line that applies gives the state of a record that is settled; an UNKNOWN record stays UNKNOWN. -/
def Obligations.SettleTakesFirstLine : Prop :=
  ∀ (slotHeld : Bool) (r : SegRec),
    (r.state = .unknown → settledState slotHeld r = .unknown) ∧
    (r.state ≠ .unknown →
      (settledState slotHeld r = .fetching ↔ slotHeld = true) ∧
      (settledState slotHeld r = .committing ↔ slotHeld = false ∧ 0 < r.pendingWrites) ∧
      (settledState slotHeld r = .damaged ↔ slotHeld = false ∧ r.pendingWrites = 0 ∧ r.usable = false) ∧
      (settledState slotHeld r = .orphan ↔
        slotHeld = false ∧ r.pendingWrites = 0 ∧ r.usable = true ∧ r.evidence.isSome = true ∧ r.exhausted = true) ∧
      (settledState slotHeld r = .stale ↔
        slotHeld = false ∧ r.pendingWrites = 0 ∧ r.usable = true ∧ r.evidence.isSome = true ∧ r.exhausted = false) ∧
      (settledState slotHeld r = .disputed ↔
        slotHeld = false ∧ r.pendingWrites = 0 ∧ r.usable = true ∧ r.evidence = none ∧ r.mark = true) ∧
      (settledState slotHeld r = .good ↔
        slotHeld = false ∧ r.pendingWrites = 0 ∧ r.usable = true ∧ r.evidence = none ∧ r.mark = false))

/-- R17, R18, R54: the change of one record changes the digest of its bank by the old and the new contributed signature,
rotated by the segment's offset mod 32, and no other digest; a digest that reaches the digest copy of a running holdoff
stops it. -/
def Obligations.RecordChangeUpdatesDigest : Prop :=
  ∀ (s : State) (i : Nat) (r : SegRec), i < segCount s → i / 64 < s.segs.digests.length →
    let t := putRec i r s
    let old := getRec s i
    let part (r : SegRec) : Signature := if r.state ≠ .unknown ∧ r.usable = true then r.signature else 0
    let d := s.segs.digests.getD (i / 64) 0 ^^^ (part old).rotateLeft (i % 64 % 32) ^^^
      (part r).rotateLeft (i % 64 % 32)
    t = { s with segs := t.segs, roster.banks := t.roster.banks } ∧
    t.segs.recs = s.segs.recs.set i r ∧
    t.segs.digests = s.segs.digests.set (i / 64) d ∧
    (∀ b, b ≠ i / 64 → t.roster.banks[b]? = s.roster.banks[b]?) ∧
    (part r = part old → t.roster.banks[i / 64]? = s.roster.banks[i / 64]?) ∧
    (∀ e, s.roster.banks[i / 64]? = some e → part r ≠ part old →
      t.roster.banks[i / 64]? =
        some (if e.holdoff.isSome = true ∧ e.copy = some d then ⟨none, none⟩ else e))

/-! ### Formats -/

/-- R20 to R25, R31, R188: the bits a station puts on the line for a well-formed frame, fillers and check included, are
received as that frame, whatever follows on the line. -/
def Obligations.FrameRoundTrip : Prop :=
  ∀ (f : Frame) (n : Nat) (rest : List Bool), f.wellFormed = true → bodyInRange n f.body = true →
    receiveLine f.tag n (lineBits f ++ rest) = .ok f

/-- R27: among the bytes 0 that start together, the lowest goes on: the wired-AND line keeps exactly the least. -/
def Obligations.ArbitrationLowestWins : Prop :=
  ∀ l : List Byte, l ≠ [] →
    arbitrateByte0 l = l.filter (fun b => l.all fun c => b.toNat ≤ c.toNat) ∧ arbitrateByte0 l ≠ []

/-- R139: a header is valid when every line of the table holds, and gives its four fields; otherwise the first field
that fails is reported. -/
def Obligations.HeaderByTable : Prop :=
  ∀ bytes : List Byte, bytes.length = 12 →
    let b (k : Nat) : Byte := bytes.getD k 0
    let n : BitVec 16 := b 6 ++ b 7
    let good : HeaderField → Prop
      | .magic => b 0 = 0xC3 ∧ b 1 = 0xA5 ∧ b 2 = 0x5A ∧ b 3 = 0x3C
      | .layout => b 4 = 1
      | .tag => 1 ≤ (b 5).toNat
      | .count => 64 ≤ n.toNat ∧ n.toNat ≤ 1024 ∧ n.toNat % 64 = 0
      | .beacon => 2 ≤ (b 8).toNat
      | .patience => 5 ≤ (b 9).toNat
      | .check => b 10 ++ b 11 = checkOf (bytes.take 10)
    let order : List HeaderField := [.magic, .layout, .tag, .count, .beacon, .patience, .check]
    (∀ h : Header, judgeHeader bytes = .ok h ↔
      (∀ f ∈ order, good f) ∧ h = { tag := b 5, count := n.toNat, beacon := b 8, patience := b 9 }) ∧
    ∀ f : HeaderField, judgeHeader bytes = .error f ↔
      ∃ before after, order = before ++ f :: after ∧ (∀ g ∈ before, good g) ∧ ¬ good f

/-- R140: the class of a slot by its eight trailer bytes, and what is reported with it. -/
def Obligations.SlotByTrailer : Prop :=
  ∀ (data : List Byte) (v1 v0 o m x3 x2 x1 x0 : Byte), data.length = 256 →
    let bytes := data ++ [v1, v0, o, m, x3, x2, x1, x0]
    let t : Stamp := ⟨v1 ++ v0, o⟩
    let vacant := ∀ x ∈ [v1, v0, o, m, x3, x2, x1, x0], x = 0xFF#8
    let written := m = 0x5A#8 ∧ 1 ≤ t.version.toNat ∧ 1 ≤ o.toNat ∧ o.toNat ≤ 15
    (vacant → classSlot bytes = .vacant) ∧
    (¬ vacant → written → classSlot bytes = .written t (x3 ++ x2 ++ x1 ++ x0) (signatureOf t data)) ∧
    (¬ vacant → ¬ written → classSlot bytes = .damaged)

/-! ### The outbox and the event queue -/

/-- R35: an offer outside ACTIVE is dropped; an offer whose identity stands in the outbox is merged into it, keeps every
place, marks it renewed when it is in transmission, and leaves a BALLOT with the offered stamp; otherwise, with fewer
than 12 held, it is added as the youngest of its code. No other descriptor changes and none is lost. -/
def Obligations.OfferMergesOrJoins : Prop :=
  (∀ (id : FrameId) (b : Option Stamp) (s : State), s.start.top ≠ .active → (offerRaw id b s).1 = s) ∧
  (∀ (id : FrameId) (b : Option Stamp) (pre post : List Desc) (d : Desc),
    ((pre ++ d :: post).map (·.ident)).Nodup → d.ident = id →
      offerBox id b (pre ++ d :: post) =
        (pre ++ { d with
          ballotStamp := if b.isSome then b else d.ballotStamp
          renewed := d.renewed || d.inTransmission } :: post, none)) ∧
  ∀ (id : FrameId) (b : Option Stamp) (box : List Desc),
    box.Pairwise (fun d e => codeOf d.ident ≤ codeOf e.ident) → (∀ d ∈ box, d.ident ≠ id) → box.length < 12 →
      offerBox id b box =
        (box.filter (fun d => codeOf d.ident ≤ codeOf id) ++ ⟨id, b, false, false⟩ ::
          box.filter (fun d => codeOf id < codeOf d.ident), none)

/-- R36: the full-outbox rule: with G the greatest code among the waiting descriptors, an offer of code G or greater is
dropped, and any other evicts the youngest waiting descriptor of code G; a DATA descriptor dropped or evicted is the one
told to the Serve Unit, and no other. -/
def Obligations.FullOutboxGivesWay : Prop :=
  ∀ (id : FrameId) (b : Option Stamp) (box : List Desc), OutboxOk box → box.length = 12 →
    (box.filter (·.inTransmission)).length ≤ 1 → (∀ d ∈ box, d.ident ≠ id) →
    ∃ g, (∃ d ∈ box, d.inTransmission = false ∧ codeOf d.ident = g) ∧
      (∀ d ∈ box, d.inTransmission = false → codeOf d.ident ≤ g) ∧
      (g ≤ codeOf id → offerBox id b box = (box, if isData id then some id else none)) ∧
      (codeOf id < g → ∃ pre d post, box = pre ++ d :: post ∧ d.inTransmission = false ∧ codeOf d.ident = g ∧
        (∀ e ∈ post, e.inTransmission = true ∨ codeOf e.ident ≠ g) ∧
        offerBox id b box =
          ((pre ++ post).filter (fun e => codeOf e.ident ≤ codeOf id) ++ ⟨id, b, false, false⟩ ::
            (pre ++ post).filter (fun e => codeOf id < codeOf e.ident),
          if isData d.ident then some d.ident else none))

/-- R184, R186: what becomes of a record offered for the event queue, by the first line that applies; ATTN_N is low
while the queue holds a record.
R185, R193: EVENTS(n) pops up to n records from the head, oldest first, and carries their number and the eight bytes
of each. That bits 3 to 7 of a record's flags byte are 0 is the model's choice (log 38). -/
def Obligations.EventQueueFillsAndEmpties : Prop :=
  (∀ (e : Event) (q : List Event),
    ((∃ l ∈ q, l.kind = .lost) → offerEvent e q = q) ∧
    ((∀ l ∈ q, l.kind ≠ .lost) →
      (q.length < 15 → offerEvent e q = q ++ [e]) ∧
      (q.length = 15 → offerEvent e q = q ++ [⟨.lost, none, none, none⟩])) ∧
    ∀ s : State, attnLow s = true ↔ s.host.events ≠ []) ∧
  (∀ (s : State) (n : Byte) (popped rest : List Event), s.start.top ≠ .starting → 1 ≤ n.toNat → n.toNat ≤ 4 →
    s.host.events = popped ++ rest → (popped.length = n.toNat ∨ (popped.length < n.toNat ∧ rest = [])) →
      exec (.events n) s = .next (answered .done
        (.ofNat 8 popped.length :: popped.flatMap fun e =>
          [eventByte e.kind,
            (if e.segment.isSome then 1#8 else 0#8) + (if e.station.isSome then 2#8 else 0#8) +
              (if e.stamp.isSome then 4#8 else 0#8)] ++
            bytes16 (.ofNat 16 (e.segment.getD 0)) ++ [0#4 ++ e.station.getD 0] ++
            stampBytes (e.stamp.getD nullStamp))
        { s with host.events := rest }))

/-! ### The bit engine -/

/-- R39: a receiver that is off takes in no frame, and a transmitter that is off drives nothing.
R23: LINE_IDLE makes the line idle for a receiver that is on; a START_BIT is taken only after idle.
R27: the loser's descriptor waits again at its place, and the winning frame is received; nothing else changes, the
clash count least of all. That its renewed mark is then clear is the model's reading (log 14), and so is it that a frame
being finished after DETACH or a warm restart is then given up with nothing received (logs 15 and 16). -/
def Obligations.LineTaken : Prop :=
  (∀ s : State, s.line.receiver = false →
    exec .lineIdle s = .next s ∧ exec .startBit s = .next s ∧ exec .ownNumberFrame s = .next s ∧
      (∀ d, exec (.frameDiscarded d) s = .next s) ∧ ∀ f : Frame, exec f.command s = .next s) ∧
  (∀ s : State, s.line.transmitter = false → exec .transmissionStart s = .next s) ∧
  (∀ s : State, s.line.receiver = true →
    (s.line.engine = .quiet → exec .lineIdle s = .next { s with line.engine := .idle }) ∧
    (s.line.engine = .idle → exec .startBit s = .next { s with line.engine := .receiving }) ∧
    (s.line.engine ≠ .idle → exec .startBit s = .next s)) ∧
  (∀ (s : State) (f : Frame) (pre post : List Desc) (d : Desc),
    s.line.engine = .sending f d.ident .attached → s.line.outbox = pre ++ d :: post → d.inTransmission = true →
    (∀ e ∈ pre ++ post, e.inTransmission = false) →
      exec .arbitrationLoss s = .next { s with
        line.engine := .receiving
        line.outbox := pre ++ { d with inTransmission := false, renewed := false } :: post }) ∧
  ∀ (s : State) (f : Frame) (id : FrameId) (flight : Flight), s.line.engine = .sending f id flight →
    flight ≠ .attached →
      exec .arbitrationLoss s = .next { s with
        line.engine := .quiet, line.transmitter := decide (s.start.top = .active) }

/-- R26, R34: with the transmitter on and the line idle, TRANSMISSION_START takes the first waiting descriptor that has
a body; those before it, whose subject is gone, leave the outbox; with none left nothing is sent. Nothing else
changes. -/
def Obligations.TransmissionTakesHead : Prop :=
  ∀ s : State, s.line.transmitter = true → s.line.engine = .idle →
    (∀ (gone : List Desc) (d : Desc) (rest : List Desc) (body : Body), s.line.outbox = gone ++ d :: rest →
      (∀ e ∈ gone, e.inTransmission = false ∧ assemble e.ident e.ballotStamp s = none) →
      d.inTransmission = false → assemble d.ident d.ballotStamp s = some body →
      exec .transmissionStart s = .next { s with
        line.outbox := { d with inTransmission := true, renewed := false } :: rest
        line.engine := .sending
          { sender := s.start.station, target := targetOf d.ident, tag := imageTag s, body := body } d.ident
          .attached }) ∧
    ((∀ e ∈ s.line.outbox, e.inTransmission = false ∧ assemble e.ident e.ballotStamp s = none) →
      exec .transmissionStart s = .next { s with line.outbox := [] })

/-- R37: when a descriptor's subject is gone, and the body of one that is not, for each kind; R19: each entry of a
SIGLIST carries the standing of its record. -/
def Obligations.BodiesOfTheMoment : Prop :=
  ∀ (s : State) (i b : Nat) (p : Station) (c : Chunk) (k : BitVec 2) (t : Stamp) (bt : Option Stamp),
    let r := getRec s i
    let n : SegNum := .ofNat 16 i
    assemble (.news i) bt s =
      (if r.usable = true ∧ r.stamp ≠ nullStamp then some (.news n r.stamp r.signature) else none) ∧
    (findDispute s i = none → assemble (.poll i) bt s = none) ∧
    (∀ d, findDispute s i = some d → assemble (.poll i) bt s = some (.poll n d.stamp r.signature)) ∧
    assemble (.ballot i) (some t) s =
      (if (r.state = .good ∨ r.state = .disputed) ∧ r.usable = true ∧ r.stamp = t then
        some (.ballot n t r.signature) else none) ∧
    (slotOf s i = none → assemble (.request p i) bt s = none) ∧
    (∀ e slot, findEntry s i = some e → slotOf s i = some slot →
      assemble (.request p i) bt s =
        if slot.mask = 0xFF#8 ∨ e.source ≠ some p then none
        else some (.request n slot.stamp (slot.mask ^^^ 0xFF#8))) ∧
    assemble (.nohave p i) bt s =
      some (.nohave n (if r.state ≠ .unknown ∧ r.usable = true then r.stamp else nullStamp)) ∧
    assemble (.busy p i) bt s = some (.busy n) ∧
    ((∀ e ∈ s.serve.queue, e.requester = p → e.segment ≠ i) → assemble (.data p i c) bt s = none) ∧
    (∀ e u, s.serve.queue.find? (fun e => e.requester = p && e.segment = i) = some e → s.serve.buffer = some u →
      assemble (.data p i c) bt s =
        if u.segment = i ∧ u.stamp = e.stamp then some (.data n u.stamp c ((u.data.drop (32 * c.toNat)).take 32))
        else none) ∧
    assemble (.sigquery p b) bt s = some (.sigquery (.ofNat 8 b)) ∧
    assemble (.digest b) bt s = some (.digest (.ofNat 8 b) (s.segs.digests.getD b 0)) ∧
    ∃ es, assemble (.siglist b k) bt s = some (.siglist (.ofNat 8 b) k es) ∧ es.length = 16 ∧
      ∀ j, j < 16 →
        let q := getRec s (64 * b + 16 * k.toNat + j)
        es[j]? = some (
          if q.state = .disputed then ⟨q.stamp, .doubt, q.signature⟩
          else if (q.state = .good ∨ q.state = .stale ∨ q.state = .orphan ∨ q.state = .fetching ∨
              q.state = .committing) ∧ q.usable = true ∧ q.stamp ≠ nullStamp then
            ⟨q.stamp, .holds, q.signature⟩
          else ⟨nullStamp, .none, 0⟩)

/-- R28, R29, R30: what the end of a frame of self's does to its descriptor and to the clash count, for a descriptor
other than DATA: a clash below the limit and a clean end alike take it out, or return it to its place when it was
renewed; a clash adds 1 to the count and a clean end sets it to 0. Nothing else changes.
R39: a frame finished after DETACH has no descriptor left, and its end changes the clash count as usual; one finished
after a warm restart leaves the count as it is. The transmitter then goes off, but stays on in a station that is ACTIVE
again (log 16). -/
def Obligations.FrameEndsForDescriptor : Prop :=
  (∀ (s : State) (f : Frame) (pre post : List Desc) (d : Desc),
    s.line.engine = .sending f d.ident .attached → s.line.outbox = pre ++ d :: post → d.inTransmission = true →
    (∀ e ∈ pre ++ post, e.inTransmission = false) → isData d.ident = false →
      let box :=
        if d.renewed then pre ++ { d with inTransmission := false, renewed := false } :: post else pre ++ post
      (s.line.clashes < 2 → exec .clash s = .next { s with
        line.engine := .quiet, line.outbox := box, line.clashes := s.line.clashes + 1 }) ∧
      exec .cleanEnd s = .next { s with line.engine := .quiet, line.outbox := box, line.clashes := 0 }) ∧
  ∀ (s : State) (f : Frame) (id : FrameId),
    let off : State := { s with line.engine := .quiet, line.transmitter := decide (s.start.top = .active) }
    (s.line.engine = .sending f id .afterDetach →
      exec .cleanEnd s = .next { off with line.clashes := 0 } ∧
      (s.start.top ≠ .active ∨ s.line.clashes < 2 →
        exec .clash s = .next { off with line.clashes := min 3 (s.line.clashes + 1) })) ∧
    (s.line.engine = .sending f id .afterRestart → exec .cleanEnd s = .next off ∧ exec .clash s = .next off)

/-- R38, R113, R114, R115: the end of a DATA frame ends its chunk, by a clean end and by a clash below the limit alike:
the chunk leaves the outstanding set and the mask. With more chunks to send the next is offered (here one stays
outstanding); with none left the head leaves the serve queue. -/
def Obligations.DataEndServesNextChunk : Prop :=
  ∀ (s : State) (f : Frame) (pre post : List Desc) (d : Desc) (head : ServeEntry) (c : Chunk),
    s.start.top = .active → s.line.outbox.length ≤ 12 →
    s.line.engine = .sending f d.ident .attached → s.line.outbox = pre ++ d :: post → d.inTransmission = true →
    d.renewed = false → (∀ e ∈ pre ++ post, e.inTransmission = false) →
    d.ident = .data head.requester head.segment c → s.serve.phase = .send →
    hasChunk s.serve.outstanding c = true →
    (∀ k rest, s.serve.queue = head :: rest → chunkCount s.serve.outstanding = 2 →
      nextChunk (dropChunk head.remaining c) (dropChunk s.serve.outstanding c) = some k →
      let serve := { s.serve with
        queue := { head with remaining := dropChunk head.remaining c } :: rest
        outstanding := addChunk (dropChunk s.serve.outstanding c) k }
      let box := boxWith (.data head.requester head.segment k) (pre ++ post)
      exec .cleanEnd s = .next { s with
        line.engine := .quiet, line.outbox := box, line.clashes := 0, serve := serve } ∧
      (s.line.clashes < 2 → exec .clash s = .next { s with
        line.engine := .quiet, line.outbox := box, line.clashes := s.line.clashes + 1, serve := serve })) ∧
    (s.serve.queue = [head] → head.remaining = oneChunk c →
      let serve := { s.serve with queue := [], phase := .waiting, outstanding := 0 }
      exec .cleanEnd s = .next { s with
        line.engine := .quiet, line.outbox := pre ++ post, line.clashes := 0, serve := serve } ∧
      (s.line.clashes < 2 → exec .clash s = .next { s with
        line.engine := .quiet, line.outbox := pre ++ post, line.clashes := s.line.clashes + 1, serve := serve }))

/-- R28, R29, R32, R163, R164, R183: the third clash in ACTIVE, the third frame with self's number in ACTIVE, and the
host's DETACH each run the DETACH sequence whole, with reason CLASH, CLASH and HOST. -/
def Obligations.DetachRunsWhole : Prop :=
  ∀ s : State, s.start.top = .active →
    (∃ t, LeftTheLine .host s t ∧ exec .detach s = .next (answered .done [] t)) ∧
    (∀ f id flight, s.line.engine = .sending f id flight → flight ≠ .afterRestart →
      (flight = .attached → isData id = false) → s.line.clashes = 2 →
      ∃ t, LeftTheLine .clash { s with line.engine := .quiet, line.clashes := 3 } t ∧ exec .clash s = .next t) ∧
    (s.line.receiver = true → s.line.engine = .receiving → s.line.clashes = 2 →
      ∃ t, LeftTheLine .clash { s with line.engine := .quiet, line.clashes := 3 } t ∧
        exec .ownNumberFrame s = .next t)

/-! ### Frames received -/

/-- R31: "A received frame is discarded at the first of the following that it meets, with no effect beyond the
discard": whichever test fails, and for a frame of each kind that is not good.
R29, R32: a good frame that bears self's number and that self did not send: counted in ACTIVE, discarded without a
count in CENSUS, and the same when it arrives as a frame of its kind. -/
def Obligations.BadAndOwnFramesGoNoFurther : Prop :=
  (∀ s : State, s.line.receiver = true → s.line.engine = .receiving →
    (∀ d : Discard, exec (.frameDiscarded d) s = .next { s with line.engine := .quiet }) ∧
    ∀ f : Frame, (targeted (kindCode f.body) = false → f.target = 0) →
      (f.wellFormed = false ∨ bodyInRange (segCount s) f.body = false) →
      exec f.command s = .next { s with line.engine := .quiet }) ∧
  (∀ s : State, s.line.receiver = true → s.line.engine = .receiving →
    (s.start.top = .active → s.line.clashes < 2 →
      exec .ownNumberFrame s = .next { s with line.engine := .quiet, line.clashes := s.line.clashes + 1 }) ∧
    (s.start.top = .census → exec .ownNumberFrame s = .next { s with line.engine := .quiet }) ∧
    ∀ f : Frame, f.wellFormed = true → bodyInRange (segCount s) f.body = true → f.sender = s.start.station →
      exec f.command s = exec .ownNumberFrame s)

/-- R32, R42: a good frame of another station gives its presence notice, whatever its kind and target; with a target
that is another station, and in CENSUS for every kind but NEWS and SIGLIST, it does nothing more. -/
def Obligations.PresenceNotice : Prop :=
  ∀ (s : State) (f : Frame), Hears s f.sender f.target f.body →
    (f.target ≠ 0 ∧ f.target ≠ s.start.station) ∨
      (s.start.top = .census ∧ kindCode f.body ≠ 1 ∧ kindCode f.body ≠ 9) →
    exec f.command s = .next (heard f.sender s)

/-! ### Reports -/

/-- R61 to R64, R71, R86 to R89: in ACTIVE with the fetch engine at rest, a NEWS of a newer copy of a GOOD record makes
the sender's copy its evidence and starts the fetch at once: the record FETCHING, an ACTIVE entry at NEWS level with
landing slot A, and a REQUEST to the sender with the patience timer at P.
R71, R83, R85, R90: while a SWEEP job runs in slot A, that job is suspended instead, its slot kept and its timer
discarded, its segment goes on the suspend stack, and the new job starts in slot B in the same way. That the data of a
slot just taken are bytes 0x00 is the model's choice (log 36). -/
def Obligations.NewsStartsFetch : Prop :=
  ∀ (s : State) (p : Station) (i : SegNum) (t : Stamp) (x : Signature), Hears s p 0 (.news i t x) →
    s.roster.entries.length = 15 → Takes s (.request p i.toNat) →
    let r := getRec s i.toNat
    t ≠ nullStamp → r.state = .good → r.usable = true → r.evidence = none → r.failures < 2 →
    newer t r.stamp = true → i.toNat ∉ s.repair.pins → s.repair.stack = [] →
    let entry (n : SlotName) : Entry := {
      segment := i.toNat, level := .news, state := .active, slot := some n, tried := 0, attempts := 0,
      source := some p, verified := false }
    let slot : Slot := {
      segment := i.toNat, stamp := t, signature := x, mask := 0, data := List.replicate 256 0,
      supplier := none, computed := none }
    let started (repair : RepairUnit) : State := { heard p s with
      segs.recs := s.segs.recs.set i.toNat { r with
        evidence := some ⟨t, x, oneStation p, true⟩, exhausted := false, state := .fetching }
      repair := { repair with cond := some .asking, patience := some (patienceMs s) }
      line := { (heard p s).line with outbox := boxWith (.request p i.toNat) s.line.outbox } }
    (s.repair.queue = [] → s.repair.slotA = none →
      exec (.news p i t x) s = .next (started { s.repair with queue := [entry .a], slotA := some slot })) ∧
    ∀ a, s.repair.queue = [a] → a.state = .active → a.level = .sweep → a.segment ≠ i.toNat →
      s.repair.slotA.isSome = true → s.repair.slotB = none →
      exec (.news p i t x) s = .next (started { s.repair with
        queue := [entry .b, { a with state := .suspended }], stack := [a.segment], slotB := some slot })

/-- R60, R61, R63 to R65, R161: what a NEWS does to a record, by the steps of the report table. A report that is ignored
gives the presence notice alone. A newer copy raises the record's evidence: an UNKNOWN or COMMITTING record keeps its
state; a GOOD or ORPHAN one becomes STALE, and that, a STALE or a DAMAGED one joins the repair queue at NEWS level, or
its waiting SWEEP entry rises (R72), unless it is pinned; the dispute of a DISPUTED one is dropped with its event
(R133); and the job of a FETCHING one is reset to the new copy, an active job asking the sender at once (R99).
A report equal to the evidence adds its sender to the holders and lets an ORPHAN, or an exhausted DAMAGED, record be
fetched again; that it does so while a publish of the segment is in flight too is the model's reading of R179 (log 33).
In CENSUS another signature at the own stamp makes a GOOD record DISPUTED.
Where the record is offered, no job runs (in CENSUS), or one of NEWS level or above. That the data of the slot of a job
reset are bytes 0x00 is the model's choice (log 36). -/
def Obligations.NewsByTable : Prop :=
  ∀ (s : State) (p : Station) (i : SegNum) (t : Stamp) (x : Signature), Hears s p 0 (.news i t x) →
    let after := exec (.news p i t x) s
    let r := getRec s i.toNat
    let u := heard p s
    let withRec (q : SegRec) (v : State) : State := { v with segs.recs := s.segs.recs.set i.toNat q }
    let exhausted := if 2 ≤ r.failures then r.exhausted else false
    let raised : SegRec := { r with evidence := some ⟨t, x, oneStation p, true⟩, exhausted := exhausted }
    let others := s.repair.queue.filter fun e => e.segment ≠ i.toNat
    let joined (e : Entry) (v : State) : State := { v with
      repair.queue := others.filter (fun d => levelRank e.level ≤ levelRank d.level) ++ e ::
        others.filter (fun d => levelRank d.level < levelRank e.level) }
    let entry (l : Level) : Entry := {
      segment := i.toNat, level := l, state := .waiting, slot := none, tried := 0, attempts := 0, source := none,
      verified := false }
    let pinned := i.toNat ∈ s.repair.pins
    let offered := ¬ pinned ∧ r.failures < 2 ∧
      s.repair.queue.Pairwise (fun d e => levelRank e.level ≤ levelRank d.level) ∧
      (s.start.top = .census ∨ s.start.top = .active ∧
        ∃ a, s.repair.queue.find? (fun e => e.state = .active) = some a ∧ 2 ≤ levelRank a.level ∧
          a.segment ≠ i.toNat)
    let room := (∀ e ∈ s.repair.queue, e.segment ≠ i.toNat) ∧ s.repair.queue.length < 32
    (t = nullStamp → after = .next u) ∧
    (r.usable = true → newer t r.stamp = false → (r.state ≠ .good ∨ t ≠ r.stamp ∨ x = r.signature) →
      after = .next u) ∧
    (r.usable = false → newer r.stamp t = true → after = .next u) ∧
    (∀ ev, r.evidence = some ev → (r.state ≠ .good ∨ t ≠ r.stamp) → newer t ev.stamp = false →
      (t ≠ ev.stamp ∨ x ≠ ev.signature ∨ hasStation ev.holders p = true) → after = .next u) ∧
    (t ≠ nullStamp → OutdoesCopy r t → (∀ ev, r.evidence = some ev → newer t ev.stamp = true) →
      (r.state = .unknown ∨ r.state = .committing → after = .next (withRec raised u)) ∧
      (r.state = .good ∨ r.state = .stale ∨ r.state = .orphan ∨ r.state = .damaged →
        let told := withRec { raised with state := if r.state = .damaged then .damaged else .stale } u
        (pinned → after = .next told) ∧
        (offered → room → after = .next (joined (entry .news) told)) ∧
        ∀ e, offered → r.state = .stale → findEntry s i.toNat = some e → e.state = .waiting → e.level = .sweep →
          after = .next (joined { e with level := .news } told)) ∧
      (r.state = .disputed → (∀ j, j < segCount s → j ≠ i.toNat → waitsForEntry s j = false) →
        let dropped := raise .disputeDropped (some i.toNat) none (some r.stamp)
          { withRec { raised with mark := false, rounds := 0, state := .stale } u with
            disputes := s.disputes.filter fun d => d.segment ≠ i.toNat }
        (pinned → after = .next dropped) ∧ (offered → room → after = .next (joined (entry .news) dropped))) ∧
      (r.state = .fetching → ∀ pre post e slot, s.repair.queue = pre ++ e :: post → e.segment = i.toNat →
        (∀ e' ∈ pre ++ post, e'.segment ≠ i.toNat) → e.level ≠ .sweep → e.slot = some .a →
        s.repair.slotA = some slot →
        let reset : Entry := { e with tried := 0, attempts := 0, source := none, verified := false }
        let empty : Slot := { slot with
          stamp := t, signature := x, mask := 0, data := List.replicate 256 0, supplier := none, computed := none }
        (e.state ≠ .active → after = .next { withRec raised u with
          repair := { s.repair with queue := pre ++ reset :: post, slotA := some empty } }) ∧
        (e.state = .active → (∀ e' ∈ pre ++ post, e'.state ≠ .active) → s.roster.entries.length = 15 →
          Takes s (.request p i.toNat) → after = .next { withRec raised u with
            repair := { s.repair with
              queue := pre ++ { reset with source := some p } :: post, slotA := some empty
              cond := some .asking, patience := some (patienceMs s) }
            line := { u.line with outbox := boxWith (.request p i.toNat) s.line.outbox } }))) ∧
    (∀ ev, t ≠ nullStamp → OutdoesCopy r t → r.evidence = some ev → t = ev.stamp → x = ev.signature →
      hasStation ev.holders p = false →
      let again := r.failures < 2 ∧ (r.state = .orphan ∨ r.state = .damaged ∧ r.exhausted = true)
      let known := withRec { r with
        evidence := some { ev with holders := addStation ev.holders p }, exhausted := exhausted
        state := if again ∧ r.state = .orphan then .stale else r.state } u
      (pinned ∨ ¬ again → after = .next known) ∧
      (again → offered → room →
        after = .next (joined (entry (if r.usable = true ∧ ev.fromNews = false then .sweep else .news)) known))) ∧
    (s.start.top = .census → t ≠ nullStamp → r.state = .good → r.usable = true → t = r.stamp → x ≠ r.signature →
      after = .next (withRec { r with mark := true, rounds := 0, state := .disputed } u))

/-- R57, R58: the 16 entries of a SIGLIST are taken in offset order from segment 64b + 16k on, and only HOLDS with a
non-null stamp is a report, not marked as from NEWS; a list without such an entry gives the presence notice alone, and
one with a single one, at place `j` and for an UNKNOWN record as it stands at a start, sets that record's evidence. -/
def Obligations.SiglistReportsHolds : Prop :=
  ∀ (s : State) (p : Station) (b : Byte) (k : BitVec 2) (es : List SigEntry), Hears s p 0 (.siglist b k es) →
    (exec (.siglist p b k es) s = .next ((List.range 16).foldl (fun u j =>
      match es[j]? with
      | some e =>
        if e.standing = .holds ∧ e.stamp ≠ nullStamp then
          report p (64 * b.toNat + 16 * k.toNat + j) e.stamp e.signature false u
        else u
      | none => u) (heard p s))) ∧
    ((∀ e ∈ es, e.standing ≠ .holds ∨ e.stamp = nullStamp) →
      exec (.siglist p b k es) s = .next (heard p s)) ∧
    ∀ (j : Nat) (e : SigEntry),
      let i := 64 * b.toNat + 16 * k.toNat + j
      es[j]? = some e → e.standing = .holds → e.stamp ≠ nullStamp → (getRec s i) = unknownRec →
      (∀ l e', es[l]? = some e' → l ≠ j → e'.standing ≠ .holds ∨ e'.stamp = nullStamp) →
      i < segCount s →
      exec (.siglist p b k es) s = .next { heard p s with
        segs.recs := s.segs.recs.set i
          { unknownRec with evidence := some ⟨e.stamp, e.signature, oneStation p, false⟩ } }

/-! ### Disputes -/

/-- R122, R124 to R126: in ACTIVE, with a free entry, a report of another signature at the own stamp of a GOOD record,
heard as NEWS, POLL or BALLOT, opens a dispute: the own ballot and the sender's, round 1, the deadline at 3B, the record
DISPUTED, a POLL offered and DISPUTE_OPENED raised. No signature has its T ballots yet. With no free entry the dispute
waits. For a POLL a BALLOT follows when the body reaches the Segment Table first, an order the spec leaves free (log 18).
R124, R125: in ACTIVE a POLL that agrees with a GOOD record, or that meets a waiting or abandoned dispute at its
stamp, is answered with a BALLOT for that stamp; a POLL or BALLOT of any other stamp, or of the null stamp, for a record
without an entry does nothing (for a BALLOT of the null stamp see log 30), and neither does a BALLOT that agrees. -/
def Obligations.MismatchAndPoll : Prop :=
  (∀ (s : State) (p : Station) (i : SegNum) (x : Signature), s.start.top = .active →
    let r := getRec s i.toNat
    let t := r.stamp
    let marked : State := { heard p s with
      segs.recs := s.segs.recs.set i.toNat { r with mark := true, rounds := 0, state := .disputed } }
    let opened : State := raise .disputeOpened (some i.toNat) (some p) (some t) { marked with
      disputes := s.disputes ++ [{
        segment := i.toNat, stamp := t
        ballots :=
          if p.toNat < s.start.station.toNat then [(p, x), (s.start.station, r.signature)]
          else [(s.start.station, r.signature), (p, x)]
        round := 1, deadline := 3 * beaconMs s }]
      line := { (heard p s).line with outbox := boxWith (.poll i.toNat) s.line.outbox } }
    t ≠ nullStamp → r.state = .good → r.usable = true → x ≠ r.signature →
    (∀ d ∈ s.disputes, d.segment ≠ i.toNat) →
    (s.disputes.length < 4 → 2 ≤ threshold (heard p s) → s.line.outbox.length < 11 →
      (Hears s p 0 (.news i t x) → exec (.news p i t x) s = .next opened) ∧
      (Hears s p 0 (.ballot i t x) → exec (.ballot p i t x) s = .next opened) ∧
      (Hears s p 0 (.poll i t x) → exec (.poll p i t x) s = .next { opened with
        freeOrders := s.freeOrders + 1
        line := { opened.line with outbox :=
          if (Config.tableFirst s.freeOrders) then (offerBox (.ballot i.toNat) (some t) opened.line.outbox).1
          else opened.line.outbox } })) ∧
    (s.disputes.length = 4 →
      (Hears s p 0 (.news i t x) → exec (.news p i t x) s = .next marked) ∧
      (Hears s p 0 (.ballot i t x) → exec (.ballot p i t x) s = .next marked) ∧
      (Hears s p 0 (.poll i t x) → Takes s (.ballot i.toNat) → exec (.poll p i t x) s = .next { marked with
        freeOrders := s.freeOrders + 1
        line := { marked.line with outbox :=
          if (Config.tableFirst s.freeOrders) then (offerBox (.ballot i.toNat) (some t) s.line.outbox).1
          else s.line.outbox } }))) ∧
  (∀ (s : State) (p : Station) (i : SegNum) (t : Stamp) (x : Signature), s.start.top = .active →
    let r := getRec s i.toNat
    (∀ d ∈ s.disputes, d.segment ≠ i.toNat) →
    (Hears s p 0 (.poll i t x) → r.usable = true → r.stamp = t → t ≠ nullStamp →
      (r.state = .good ∧ r.signature = x) ∨ r.state = .disputed → Takes s (.ballot i.toNat) →
      exec (.poll p i t x) s = .next { heard p s with
        line := { (heard p s).line with outbox := (offerBox (.ballot i.toNat) (some t) s.line.outbox).1 } }) ∧
    (Hears s p 0 (.poll i t x) → (t = nullStamp ∨ r.stamp ≠ t ∨ (r.state ≠ .good ∧ r.state ≠ .disputed)) →
      exec (.poll p i t x) s = .next (heard p s)) ∧
    (Hears s p 0 (.ballot i t x) → (t = nullStamp ∨ r.stamp ≠ t ∨ r.state ≠ .good ∨ r.signature = x) →
      exec (.ballot p i t x) s = .next (heard p s)))

/-- R121, R128 to R130: in ACTIVE a BALLOT for an open entry at its stamp is recorded; it decides the vote when a
signature then has T = floor(Q/2) + 1 ballots. For self's own signature the entry is freed, the record settles GOOD and
DISPUTE_KEPT is raised. For another, `w`, DISPUTE_LOST is raised, the record's copy is lost with the voters for `w` as
holders of `w`, and the record, here while a job of NEWS level or above runs, joins the repair queue at NEWS level. -/
def Obligations.BallotDecidesVote : Prop :=
  ∀ (s : State) (p : Station) (i : SegNum) (x : Signature) (pre post : List Dispute) (d : Dispute),
    s.start.top = .active → Hears s p 0 (.ballot i d.stamp x) → s.disputes = pre ++ d :: post →
    d.segment = i.toNat → d.stamp ≠ nullStamp → (∀ e ∈ pre ++ post, e.segment ≠ i.toNat) →
    let r := getRec s i.toNat
    let votes := setBallot p x d.ballots
    let count (y : Signature) : Nat := (votes.filter (fun b => b.2 = y)).length
    let enough := quorum (heard p s) / 2 + 1
    r.state = .disputed → r.usable = true → r.evidence = none → r.pendingWrites = 0 → r.failures < 2 →
    ((∀ b ∈ votes, count b.2 < enough) →
      exec (.ballot p i d.stamp x) s =
        .next { heard p s with disputes := pre ++ { d with ballots := votes } :: post }) ∧
    ((∀ j, j < segCount s → j ≠ i.toNat → waitsForEntry s j = false) →
      ∀ w, (∃ b ∈ votes, b.2 = w) → enough ≤ count w → (∀ b ∈ votes, b.2 ≠ w → count b.2 < enough) →
      (∀ e ∈ s.repair.queue, e.segment ≠ i.toNat) →
      (w = r.signature →
        exec (.ballot p i d.stamp x) s = .next (raise .disputeKept (some i.toNat) none (some d.stamp) { heard p s with
          segs.recs := s.segs.recs.set i.toNat { r with mark := false, rounds := 0, state := .good }
          disputes := pre ++ post })) ∧
      (w ≠ r.signature → ∀ a, s.repair.queue.find? (fun e => e.state = .active) = some a →
        2 ≤ levelRank a.level → s.repair.queue.length < 32 → i.toNat ∉ s.repair.pins →
        let lost : State := putRec i.toNat { r with
          usable := false, mark := false, rounds := 0, exhausted := false, state := .damaged
          evidence := some ⟨d.stamp, w, votersFor w votes, true⟩ }
          (raise .disputeLost (some i.toNat) none (some d.stamp) { heard p s with disputes := pre ++ post })
        exec (.ballot p i d.stamp x) s = .next { lost with
          repair.queue := insertEntry (freshEntry i.toNat .news) s.repair.queue }))

/-! ### Serving -/

/-- R110, R111: a REQUEST in ACTIVE. A stamp self cannot serve, for the record's standing or its stamp, is answered
NOHAVE; a fifth entry is answered BUSY; a first REQUEST is an entry that goes into service at once, with its serve read
the operation in progress when the store is free. Behind a head in READ, behind one in SEND with two chunks
outstanding, and while a serve read of before a DETACH is still to end, an entry joins, and a REQUEST of the same
requester, segment and stamp adds its chunks to the mask, one of another stamp replaces stamp and mask.
R116: a REQUEST of another stamp for a head in SEND takes it out of SEND and back into service. -/
def Obligations.RequestByTable : Prop :=
  ∀ (s : State) (p : Station) (i : SegNum) (t : Stamp) (m : ChunkMask),
    Hears s p s.start.station (.request i t m) → s.start.top = .active →
    let exec' := exec (.request p s.start.station i t m) s
    let u := heard p s
    let boxed (id : FrameId) : State := { u with line := { u.line with outbox := boxWith id s.line.outbox } }
    let servable := Servable (getRec s i.toNat) t
    let fresh : ServeEntry := { requester := p, segment := i.toNat, stamp := t, remaining := m }
    let asked (e : ServeEntry) : ServeEntry := { e with
      stamp := t, remaining := if e.stamp = t then e.remaining ||| m else m }
    (¬ servable → Takes s (.nohave p i.toNat) → exec' = .next (boxed (.nohave p i.toNat))) ∧
    (servable → s.serve.queue.length = 4 → (∀ e ∈ s.serve.queue, e.requester = p → e.segment ≠ i.toNat) →
      Takes s (.busy p i.toNat) → exec' = .next (boxed (.busy p i.toNat))) ∧
    (servable → s.serve.queue = [] → s.serve.phase = .waiting → s.serve.reading = false → StoreFree s.store →
      exec' = .next { u with
        serve := { s.serve with queue := [fresh], phase := .read, reading := true }
        store := { s.store with op := .reading .serve i.toNat } }) ∧
    (servable → Occupied s.serve → s.serve.queue.length < 4 →
      (∀ e ∈ s.serve.queue, e.requester = p → e.segment ≠ i.toNat) →
      exec' = .next { u with serve := { s.serve with queue := s.serve.queue ++ [fresh] } }) ∧
    ∀ pre post e, servable → s.serve.queue = pre ++ e :: post → e.requester = p → e.segment = i.toNat →
      (∀ e' ∈ pre ++ post, e'.requester = p → e'.segment ≠ i.toNat) →
      (Occupied s.serve → (s.serve.phase = .send → pre = [] → e.stamp = t) →
        exec' = .next { u with serve := { s.serve with queue := pre ++ asked e :: post } }) ∧
      (s.serve.phase = .send → pre = [] → e.stamp ≠ t → s.serve.reading = false →
        let again : ServeUnit := { s.serve with
          queue := asked e :: post, phase := .read, outstanding := 0, reading := true }
        (StoreFree s.store → exec' = .next { u with
          serve := again, store := { s.store with op := .reading .serve i.toNat } }) ∧
        (s.store.op ≠ .idle → exec' = .next { u with
          serve := again, store := { s.store with serveReq := some i.toNat } }))

/-- R112, R113, R144: the serve read of the head ends with its stamp and a signature that matches: the copy stands in
the serve buffer, the head is in SEND, and its two lowest chunks are offered, or the one there is. A slot that is vacant
or bears another stamp is answered NOHAVE and the head leaves, and so is one that is damaged or whose signature does not
match, which first makes the record's copy UNUSABLE and DAMAGED (here a GOOD record with no evidence); the next head is
taken into service. The end of a read whose head is gone does no more than let the next begin. -/
def Obligations.ServeReadSendsChunks : Prop :=
  ∀ (s : State) (bytes : List Byte) (i : Nat),
    s.store.op = .reading .serve i → s.start.storeWait = false → NonePending s.store → bytes.length = 264 →
    s.start.top = .active →
    let after := exec (.slotReadEnd bytes) s
    let ended (u : State) : State := { u with store := { s.store with
      op := .idle, transfer := bytes, computed := none } }
    (∀ (head : ServeEntry) (rest : List ServeEntry), s.serve.queue = head :: rest → s.serve.phase = .read →
      head.segment = i →
      (∀ (x : Signature) (c : Chunk), classSlot bytes = .written head.stamp x x → nextChunk head.remaining 0 = some c →
        let sending (out : ChunkMask) (box : List Desc) : State := ended { s with
          serve := { s.serve with
            phase := .send, reading := false, outstanding := out
            buffer := some { segment := i, stamp := head.stamp, data := bytes.take 256 } }
          line.outbox := box }
        (∀ d, nextChunk head.remaining (oneChunk c) = some d → s.line.outbox.length ≤ 10 →
          after = .next (sending (oneChunk c ||| oneChunk d) (boxWith (.data head.requester i d)
            (boxWith (.data head.requester i c) s.line.outbox)))) ∧
        (nextChunk head.remaining (oneChunk c) = none → s.line.outbox.length ≤ 11 →
          after = .next (sending (oneChunk c) (boxWith (.data head.requester i c) s.line.outbox)))) ∧
      (Takes s (.nohave head.requester i) →
        let refused (u : State) : State := { u with
          line.outbox := boxWith (.nohave head.requester i) s.line.outbox
          serve := { s.serve with queue := rest, phase := .waiting, outstanding := 0, reading := false } }
        (classSlot bytes = .vacant ∨ (∃ t x y, classSlot bytes = .written t x y ∧ t ≠ head.stamp) →
          (rest = [] → after = .next (ended (refused s))) ∧
          ∀ next others, rest = next :: others → Servable (getRec s next.segment) next.stamp →
            after = .next { refused s with
              serve := { s.serve with queue := rest, phase := .read, outstanding := 0, reading := true }
              store := { s.store with op := .reading .serve next.segment, transfer := bytes, computed := none } }) ∧
        (classSlot bytes = .damaged ∨ (∃ x y, classSlot bytes = .written head.stamp x y ∧ y ≠ x) → rest = [] →
          let r := getRec s i
          i < segCount s → r.usable = true → r.state = .good → r.pendingWrites = 0 → r.evidence = none →
          (∀ e ∈ s.repair.queue, e.segment ≠ i) → (∀ d ∈ s.disputes, d.segment ≠ i) →
          after = .next (ended (refused (raise .damaged (some i) none (some r.stamp) (putRec i { r with
            usable := false, mark := false, rounds := 0, state := .damaged } s))))))) ∧
    (s.serve.phase = .waiting →
      classSlot bytes = .vacant ∨ (∃ t x y, classSlot bytes = .written t x y ∧ (t = (getRec s i).stamp → y = x)) →
      (s.serve.queue = [] → after = .next (ended { s with serve := { s.serve with reading := false } })) ∧
      ∀ next others, s.serve.queue = next :: others → Servable (getRec s next.segment) next.stamp →
        after = .next { s with
          serve := { s.serve with phase := .read, reading := true }
          store := { s.store with op := .reading .serve next.segment, transfer := bytes, computed := none } })

/-! ### The fetch engine -/

/-- R66, R95: a NOHAVE in ACTIVE takes its sender out of the holders of the segment's evidence; from the current source
of the active job it also marks the source tried, counts no attempt, and asks the next source. From any other sender, or
in READY, the job goes on.
R96: a BUSY from the current source of the active job in ASKING counts an attempt and leaves the source untried:
another source is asked when one qualifies, and otherwise the job backs off for P. In any other case it is ignored. -/
def Obligations.RefusedSourceMovesOn : Prop :=
  (∀ (s : State) (p : Station) (i : SegNum) (t : Stamp), Hears s p s.start.station (.nohave i t) →
    s.start.top = .active →
    let r := getRec s i.toNat
    let u : State := { heard p s with
      segs.recs := s.segs.recs.set i.toNat { r with
        evidence := r.evidence.map fun ev => { ev with holders := dropStation ev.holders p } } }
    ((∀ e ∈ s.repair.queue, e.state = .active → e.segment ≠ i.toNat ∨ e.source ≠ some p) ∨
        s.repair.cond = some .ready →
      exec (.nohave p s.start.station i t) s = .next u) ∧
    ∀ (pre post : List Entry) (e : Entry) (ev : Evidence) (q : Station),
      s.repair.queue = pre ++ e :: post → e.segment = i.toNat → e.state = .active → e.source = some p →
      (∀ e' ∈ pre ++ post, e'.segment ≠ i.toNat ∧ e'.state ≠ .active) →
      s.repair.cond = some .asking ∨ s.repair.cond = some .backoff → r.evidence = some ev →
      LowestSource (heard p s) ev.holders e.tried (some p) q → Takes s (.request q i.toNat) →
        exec (.nohave p s.start.station i t) s = .next { u with
          repair := { s.repair with
            queue := pre ++ { e with tried := addStation e.tried p, source := some q } :: post
            cond := some .asking, patience := some (patienceMs s) }
          line := { u.line with outbox := boxWith (.request q i.toNat) s.line.outbox } }) ∧
  (∀ (s : State) (p : Station) (i : SegNum), Hears s p s.start.station (.busy i) → s.start.top = .active →
    let u := heard p s
    ((∀ e ∈ s.repair.queue, e.state = .active → e.segment ≠ i.toNat ∨ e.source ≠ some p) ∨
        s.repair.cond ≠ some .asking →
      exec (.busy p s.start.station i) s = .next u) ∧
    ∀ (pre post : List Entry) (e : Entry) (ev : Evidence),
      s.repair.queue = pre ++ e :: post → e.segment = i.toNat → e.state = .active → e.source = some p →
      (∀ e' ∈ pre ++ post, e'.segment ≠ i.toNat ∧ e'.state ≠ .active) →
      s.repair.cond = some .asking → (getRec s i.toNat).evidence = some ev → e.attempts < 3 →
      (∀ q, LowestSource u ev.holders e.tried (some p) q → Takes s (.request q i.toNat) →
        exec (.busy p s.start.station i) s = .next { u with
          repair := { s.repair with
            queue := pre ++ { e with attempts := e.attempts + 1, source := some q } :: post
            cond := some .asking, patience := some (patienceMs s) }
          line := { u.line with outbox := boxWith (.request q i.toNat) s.line.outbox } }) ∧
      ((∀ q, ¬ LowestSource u ev.holders e.tried (some p) q) → LowestSource u ev.holders e.tried none p →
        exec (.busy p s.start.station i) s = .next { u with
          repair := { s.repair with
            queue := pre ++ { e with attempts := e.attempts + 1 } :: post
            cond := some .backoff, patience := some (patienceMs s) } }))

/-- R92: a DATA in ACTIVE. Under a stamp no landing slot wants, or for a chunk already held, it is ignored. A new chunk
is stored with its sender as supplier, whoever the sender is; the patience timer of the active job's own slot restarts,
and a slot set aside does no more. A slot made complete has its signature computed. -/
def Obligations.DataStoresChunk : Prop :=
  ∀ (s : State) (p : Station) (i : SegNum) (t : Stamp) (c : Chunk) (bytes : List Byte),
    Hears s p s.start.station (.data i t c bytes) → s.start.top = .active →
    let exec' := exec (.data p s.start.station i t c bytes) s
    ((∀ n slot, getSlot s n = some slot → slot.segment ≠ i.toNat ∨ slot.stamp ≠ t) →
      exec' = .next (heard p s)) ∧
    ∀ (n : SlotName) (slot : Slot), getSlot s n = some slot → slot.segment = i.toNat → slot.stamp = t →
      (∀ n' slot', n' ≠ n → getSlot s n' = some slot' → slot'.segment ≠ i.toNat) →
      (hasChunk slot.mask c = true → exec' = .next (heard p s)) ∧
      (hasChunk slot.mask c = false →
        let data := slot.data.take (32 * c.toNat) ++ bytes ++ slot.data.drop (32 * c.toNat + 32)
        let mask := slot.mask ||| (1#8 <<< c.toNat)
        let stored := setSlot n (some { slot with
          data := data, mask := mask, supplier := some p
          computed := if mask = 0xFF#8 then some (signatureOf t data) else slot.computed }) (heard p s)
        ((∀ e ∈ s.repair.queue, e.state = .active → e.segment ≠ i.toNat) → exec' = .next stored) ∧
        (mask ≠ 0xFF#8 → (∃ e, s.repair.queue.find? (fun e => e.state = .active) = some e ∧ e.segment = i.toNat) →
          s.repair.cond = some .asking ∨ s.repair.cond = some .backoff →
          exec' = .next { stored with repair.patience := some (patienceMs s) }))

/-- R92, R93, R102, R145, R149: the chunk that completes the active job's slot with a matching signature hands the copy
to the free commit buffer: the entry leaves, its slot is freed, the record has one more write pending and is COMMITTING,
and the commit write begins in the free store. Here the job is the only entry and backfill finds nothing.
R103: with the commit buffer occupied the job waits in READY, verified, its slot kept and its timer stopped.
R93: with another signature the chunks are discarded, the current source is tried, an attempt is counted, and the next
source is asked. That the discarded data are bytes 0x00 is the model's choice (log 36). -/
def Obligations.LastChunkHandsOff : Prop :=
  ∀ (s : State) (p : Station) (i : SegNum) (t : Stamp) (c : Chunk) (bytes : List Byte) (e : Entry) (slot : Slot),
    Hears s p s.start.station (.data i t c bytes) → s.start.top = .active →
    s.repair.queue = [e] → e.segment = i.toNat → e.state = .active → e.slot = some .a →
    s.repair.slotA = some slot → slot.segment = i.toNat → slot.stamp = t →
    s.repair.slotB = none → s.repair.slotC = none →
    s.repair.cond = some .asking ∨ s.repair.cond = some .backoff →
    hasChunk slot.mask c = false → slot.mask ||| oneChunk c = 0xFF#8 →
    let data := slot.data.take (32 * c.toNat) ++ bytes ++ slot.data.drop (32 * c.toNat + 32)
    let r := getRec s i.toNat
    let after := exec (.data p s.start.station i t c bytes) s
    (signatureOf t data = slot.signature →
      (s.repair.commit = none → StoreFree s.store → NothingElse s i.toNat → r.state ≠ .unknown →
        after = .next { heard p s with
          segs.recs := s.segs.recs.set i.toNat { r with
            pendingWrites := r.pendingWrites + 1, state := .committing }
          repair := { s.repair with
            queue := [], slotA := none, cond := none, patience := none
            commit := some {
              segment := i.toNat, stamp := t, signature := slot.signature, data := data, supplier := some p } }
          store := { s.store with
            op := .writing {
              client := .commit, segment := i.toNat, stamp := t, signature := some slot.signature
              timer := none } false } }) ∧
      (s.repair.commit.isSome = true →
        after = .next { heard p s with repair := { s.repair with
          queue := [{ e with verified := true }]
          slotA := some { slot with
            data := data, mask := 0xFF#8, supplier := some p, computed := some slot.signature }
          cond := some .ready, patience := none } })) ∧
    (signatureOf t data ≠ slot.signature → ∀ (p0 q : Station) (ev : Evidence), e.source = some p0 → e.attempts < 3 →
      r.evidence = some ev → LowestSource (heard p s) ev.holders (addStation e.tried p0) none q →
      Takes s (.request q i.toNat) →
        after = .next { heard p s with
          repair := { s.repair with
            queue := [{ e with
              tried := addStation e.tried p0, attempts := e.attempts + 1, source := some q }]
            slotA := some { slot with
              mask := 0, data := List.replicate 256 0, supplier := none, computed := none }
            cond := some .asking, patience := some (patienceMs s) }
          line := { (heard p s).line with outbox := boxWith (.request q i.toNat) s.line.outbox } })

/-- R97, R43, R44, R67, R128: a PRESENT peer whose silence timer runs out is ABSENT, PEER_LOST is raised, the station
leaves every holders set, and every open dispute loses its ballot; the job whose current source it was marks it tried
and asks the next source without counting an attempt. Here no vote is decided.
R118: the serve entries of the lost station leave; with the head among them its phase and outstanding set end, and the
next head is taken into service, once no serve read is outstanding (here no job asks the lost station). -/
def Obligations.SilenceLosesPeer : Prop :=
  ∀ (s : State) (p : Station) (n : Nat), p ≠ 0 → rosterEntry s p = ⟨true, some n⟩ →
    let after := exec (.silenceTimerExpiry p) s
    let lost (serve : ServeUnit) : State := raise .peerLost none (some p) none { s with
      roster.entries := s.roster.entries.set (p.toNat - 1) ⟨false, none⟩
      segs.recs := s.segs.recs.map fun r => { r with
        evidence := r.evidence.map fun ev => { ev with holders := dropStation ev.holders p } }
      serve := serve
      disputes := s.disputes.map fun d => { d with ballots := d.ballots.filter fun b => b.1 ≠ p } }
    let u := lost s.serve
    let rest := s.serve.queue.filter fun e => e.requester ≠ p
    (∀ d ∈ u.disputes, ∀ b ∈ d.ballots, (d.ballots.filter (fun b' => b'.2 = b.2)).length < quorum u / 2 + 1) →
    ((∀ e ∈ s.repair.queue, e.state = .active → e.source ≠ some p) →
      ((∀ h ∈ s.serve.queue.head?, h.requester ≠ p) → s.serve.queue = [] ∨ Occupied s.serve →
        after = .next (lost { s.serve with queue := rest })) ∧
      ((∃ h ∈ s.serve.queue.head?, h.requester = p) →
        let headless : ServeUnit := { s.serve with queue := rest, phase := .waiting, outstanding := 0 }
        (rest = [] ∨ s.serve.reading = true → after = .next (lost headless)) ∧
        ∀ next others, rest = next :: others → s.serve.reading = false → s.start.top = .active →
          Servable (getRec s next.segment) next.stamp →
          (s.store.op ≠ .idle → after = .next { lost { headless with phase := .read, reading := true } with
            store := { s.store with serveReq := some next.segment } }) ∧
          (StoreFree s.store → after = .next { lost { headless with phase := .read, reading := true } with
            store := { s.store with op := .reading .serve next.segment } }))) ∧
    ∀ (pre post : List Entry) (e : Entry) (ev : Evidence) (q : Station), s.serve.queue = [] →
      s.repair.queue = pre ++ e :: post → e.state = .active → e.source = some p →
      (∀ e' ∈ pre ++ post, e'.segment ≠ e.segment ∧ e'.state ≠ .active) →
      s.repair.cond = some .asking ∨ s.repair.cond = some .backoff →
      (getRec s e.segment).evidence = some ev → LowestSource u ev.holders e.tried none q →
      Takes s (.request q e.segment) →
        after = .next { u with
          repair := { s.repair with
            queue := pre ++ { e with tried := addStation e.tried p, source := some q } :: post
            cond := some .asking, patience := some (patienceMs s) }
          line.outbox := boxWith (.request q e.segment) s.line.outbox }

/-- R94, R98: the patience timer of the active job. In ASKING the source is marked tried, an attempt is counted and the
next source is asked, or with no source left, or at the fourth attempt, the job ends exhausted: the flag set, ORPHANED
raised, the entry gone and its slot free, the record ORPHAN or DAMAGED (here with nothing to backfill). In BACKOFF the
source is asked again and no attempt is counted.
R85, R86, R91: the suspended job on the top of the stack, the only other entry, then resumes with its slot, its attempts
and its tried set as they were, and asks the source it had. -/
def Obligations.PatienceTriesOrEnds : Prop :=
  ∀ (s : State) (n : Nat) (pre post : List Entry) (e : Entry) (ev : Evidence) (p : Station),
    s.start.top = .active → s.repair.patience = some n → s.repair.queue = pre ++ e :: post → e.state = .active →
    e.source = some p → (∀ e' ∈ pre ++ post, e'.segment ≠ e.segment ∧ e'.state ≠ .active) →
    (getRec s e.segment).evidence = some ev →
    let ask (q : Station) (e' : Entry) : State := { s with
      repair := { s.repair with
        queue := pre ++ { e' with source := some q } :: post
        cond := some .asking, patience := some (patienceMs s) }
      line.outbox := boxWith (.request q e.segment) s.line.outbox }
    (s.repair.cond = some .backoff → Takes s (.request p e.segment) →
      exec .patienceTimerExpiry s = .next (ask p e)) ∧
    (s.repair.cond = some .asking → e.attempts < 3 →
      ∀ q, LowestSource s ev.holders (addStation e.tried p) none q → Takes s (.request q e.segment) →
        exec .patienceTimerExpiry s =
          .next (ask q { e with tried := addStation e.tried p, attempts := e.attempts + 1 })) ∧
    (s.repair.cond = some .asking → 3 ≤ e.attempts ∨ (∀ q, ¬ LowestSource s ev.holders (addStation e.tried p) none q) →
      ∀ slot, e.slot = some .a → s.repair.slotA = some slot →
      (∀ j, j < segCount s → j ≠ e.segment → backfillable (getRec s j) = false) →
      let r := getRec s e.segment
      e.segment < segCount s → r.state = .fetching → r.pendingWrites = 0 →
        let ended (repair : RepairUnit) : State := raise .orphaned (some e.segment) none (some slot.stamp) { s with
          segs.recs := s.segs.recs.set e.segment { r with
            exhausted := true, state := if r.usable then .orphan else .damaged }
          repair := { repair with slotA := none } }
        (pre ++ post = [] → s.repair.stack = [] → exec .patienceTimerExpiry s =
          .next (ended { s.repair with queue := [], cond := none, patience := none })) ∧
        ∀ d slotD evD q, pre ++ post = [d] → d.state = .suspended → s.repair.stack = [d.segment] →
          d.slot = some .b → s.repair.slotB = some slotD → slotD.mask ≠ 0xFF#8 → d.verified = false →
          d.source = some q → (getRec s d.segment).evidence = some evD → q ≠ 0 → q ≠ s.start.station →
          hasStation evD.holders q = true → hasStation d.tried q = false → isPresent s q = true →
          Takes s (.request q d.segment) →
          exec .patienceTimerExpiry s = .next { ended { s.repair with
            queue := [{ d with state := .active }], stack := []
            cond := some .asking, patience := some (patienceMs s) } with
            line.outbox := boxWith (.request q d.segment) s.line.outbox })

/-! ### Roster and bank exchange, and the dispute deadline -/

/-- R52: a DIGEST in ACTIVE that differs from self's own digest of a bank without a holdoff asks its sender for the
bank's list, starts the holdoff at 2B and keeps the digest as the digest copy; one that is equal, or that comes while
the holdoff runs, has no effect. The holdoff starts whatever the outbox answers.
R55: a SIGQUERY in ACTIVE offers the four SIGLIST parts of its bank in order.
R49: the beacon timer runs out in ACTIVE: a DIGEST of the bank the pointer names is offered, the pointer moves on by
1 mod N/64 and the timer starts again at B; both whatever the outbox answers to the offer. -/
def Obligations.BankExchange : Prop :=
  ((∀ (s : State) (p : Station) (b : Byte) (x : Signature) (e : BankEntry), Hears s p 0 (.digest b x) →
    s.start.top = .active → s.roster.banks[b.toNat]? = some e →
    (x = s.segs.digests.getD b.toNat 0 ∨ e.holdoff.isSome = true → exec (.digest p b x) s = .next (heard p s)) ∧
    (x ≠ s.segs.digests.getD b.toNat 0 → e.holdoff = none →
      let asked : State := { heard p s with
        roster := { (heard p s).roster with banks := s.roster.banks.set b.toNat ⟨some (2 * beaconMs s), some x⟩ } }
      (Takes s (.sigquery p b.toNat) → exec (.digest p b x) s = .next { asked with
        line := { asked.line with outbox := boxWith (.sigquery p b.toNat) s.line.outbox } }) ∧
      (s.line.outbox.length = 12 → (∀ d ∈ s.line.outbox, codeOf d.ident < 8) →
        exec (.digest p b x) s = .next asked))) ∧
  (∀ (s : State) (p : Station) (b : Byte), Hears s p s.start.station (.sigquery b) → s.start.top = .active →
    s.line.outbox.length ≤ 8 →
      exec (.sigquery p s.start.station b) s = .next { heard p s with
        line := { (heard p s).line with
          outbox := [0, 1, 2, 3].foldl (fun box k => boxWith (.siglist b.toNat k) box) s.line.outbox } })) ∧
  (∀ (s : State) (n : Nat), s.start.top = .active → s.roster.beacon = some n →
    let turned : State := { s with
      roster.pointer := (s.roster.pointer + 1) % s.roster.banks.length
      roster.beacon := some (beaconMs s) }
    (Takes s (.digest s.roster.pointer) → exec .beaconTimerExpiry s = .next { turned with
      line.outbox := boxWith (.digest s.roster.pointer) s.line.outbox }) ∧
    (s.line.outbox.length = 12 → (∀ d ∈ s.line.outbox, d.ident ≠ .digest s.roster.pointer) →
      exec .beaconTimerExpiry s = .next turned))

/-- R53: "When the query holdoff of bank b runs out, the entry's holdoff becomes 0 and its digest copy becomes none. No
frame is offered at that moment." The next DIGEST of the bank that differs is then a query again. -/
def Obligations.HoldoffEndsQuery : Prop :=
  ∀ (s : State) (b : Byte) (n : Nat) (copy : Option Signature), s.roster.banks[b.toNat]? = some ⟨some n, copy⟩ →
    let t : State := { s with roster.banks := s.roster.banks.set b.toNat ⟨none, none⟩ }
    exec (.queryHoldoffExpiry b) s = .next t ∧
    ∀ (p : Station) (x : Signature), Hears s p 0 (.digest b x) → s.start.top = .active →
      (x = s.segs.digests.getD b.toNat 0 → exec (.digest p b x) t = .next (heard p t)) ∧
      (x ≠ s.segs.digests.getD b.toNat 0 → Takes s (.sigquery p b.toNat) →
        ∃ u, exec (.digest p b x) t = .next u ∧
          u.line.outbox = boxWith (.sigquery p b.toNat) s.line.outbox ∧
          u.roster.banks[b.toNat]? = some ⟨some (2 * beaconMs s), some x⟩)

/-- R131: in round 1 or 2 the deadline raises the round, keeps every ballot, offers a POLL and starts again at 3B.
R132, R123: in round 3 the dispute is abandoned: the entry is freed, the record stays DISPUTED with its mark and
rounds 3, and DISPUTE_ABANDONED is raised; with no waiting dispute that is all, and the lowest waiting one is taken up
afresh otherwise (here among two or more stations, with no more than one waiting). -/
def Obligations.DeadlineRaisesRoundOrAbandons : Prop :=
  (∀ (s : State) (i : SegNum) (pre post : List Dispute) (d : Dispute), s.disputes = pre ++ d :: post →
    d.segment = i.toNat → (∀ e ∈ pre ++ post, e.segment ≠ i.toNat) → d.round = 1 ∨ d.round = 2 →
    Takes s (.poll i.toNat) →
      exec (.disputeDeadlineExpiry i) s = .next { s with
        disputes := pre ++ { d with round := d.round + 1, deadline := 3 * beaconMs s } :: post
        line.outbox := boxWith (.poll i.toNat) s.line.outbox }) ∧
  (∀ (s : State) (i : SegNum) (pre post : List Dispute) (d : Dispute), s.start.top = .active →
    s.disputes = pre ++ d :: post → s.disputes.length ≤ 4 → d.segment = i.toNat → i.toNat < segCount s →
    (∀ e ∈ pre ++ post, e.segment ≠ i.toNat) → d.round = 3 → (getRec s i.toNat).state = .disputed →
    let u : State := raise .disputeAbandoned (some i.toNat) none (some d.stamp) { s with
      disputes := pre ++ post
      segs.recs := s.segs.recs.set i.toNat { getRec s i.toNat with rounds := 3 } }
    ((∀ j, j < segCount s → j ≠ i.toNat → waitsForEntry s j = false) →
      exec (.disputeDeadlineExpiry i) s = .next u) ∧
    ∀ j, j < segCount s → j ≠ i.toNat → waitsForEntry s j = true →
      (∀ k, k < segCount s → k ≠ i.toNat → k ≠ j → waitsForEntry s k = false) → 2 ≤ threshold s →
      Takes s (.poll j) →
      exec (.disputeDeadlineExpiry i) s =
        .next (raise .disputeOpened (some j) none (some (getRec s j).stamp) { u with
          disputes := pre ++ post ++ [{
            segment := j, stamp := (getRec s j).stamp, ballots := [(s.start.station, (getRec s j).signature)]
            round := 1, deadline := 3 * beaconMs s }]
          line.outbox := boxWith (.poll j) s.line.outbox }))

/-! ### The host port -/

/-- R171: a host command in a top state that does not take it is answered NOT_READY and changes nothing else; in one
that takes it, a well-formed command is answered, and not with NOT_READY. ATTACH in ACTIVE and DETACH in DETACHED are
answered DONE with no effect, and FRESHEN in DETACHED REFUSED.
R169, R170, R173, R185, R192: arguments out of range are answered BAD_ARG with no other effect: a segment of N or
more, a count outside 1 to 4; an unknown code is so answered in every top state; a transaction cut short, and a STAGE
that lacks data bytes it waits for, has no effect at all. What the part clocks out is the result byte, the result data,
and after their last byte 0x00. -/
def Obligations.CommandChecks : Prop :=
  (∀ (c : Instr) (l : List TopState) (s : State), takenIn c = some l →
    (s.start.top ∉ l → exec c s = .next (answered .notReady [] s)) ∧
    (s.start.top ∈ l → c.wellFormed = true →
      ∃ t a, exec c s = .next t ∧ t.host.answer = some a ∧ a.result ≠ .notReady)) ∧
  (∀ (a : Answer) (k : Nat),
    (∃ code : Byte, clockedOut a 0 = code ∧ (a.result, code) ∈ [(ResultCode.done, 0x00#8), (.accepted, 0x01#8),
      (.busy, 0x02#8), (.refused, 0x03#8), (.noEvidence, 0x04#8), (.badArg, 0x05#8), (.notReady, 0x06#8),
      (.noData, 0x07#8)]) ∧
    (∀ v, a.data[k]? = some v → clockedOut a (k + 1) = v) ∧
    (a.data.length ≤ k → clockedOut a (k + 1) = 0x00#8)) ∧
  (∀ s : State,
    (∀ c i l, segmentArgument? c = some i → segCount s ≤ i.toNat → takenIn c = some l → s.start.top ∈ l →
      exec c s = .next (answered .badArg [] s)) ∧
    (∀ n : Byte, (n = 0 ∨ 4 < n.toNat) → s.start.top ≠ .starting →
      exec (.events n) s = .next (answered .badArg [] s)) ∧
    (∀ code : Byte, code ∉ commandCodes → exec (.unknownCommand code) s = .next (answered .badArg [] s)) ∧
    exec .transactionCutShort s = .next s ∧
    ∀ (o n : Byte) (bytes : List Byte), 1 ≤ n.toNat → n.toNat ≤ 32 → bytes.length < n.toNat →
      s.start.top = .census ∨ s.start.top = .active ∨ s.start.top = .detached →
      exec (.stage o n bytes) s = .next s) ∧
  ∀ s : State,
    (s.start.top = .active → exec .attach s = .next (answered .done [] s)) ∧
    (s.start.top = .detached → exec .detach s = .next (answered .done [] s) ∧
      ∀ i : SegNum, i.toNat < segCount s → exec (.freshen i) s = .next (answered .refused [] s))

/-- R172, R173, R192: STATUS, ROSTER and SEGINFO are answered DONE and change nothing else; STATUS carries the twelve
bytes of its table, ROSTER bit `s` for each PRESENT station `s`, and SEGINFO the record, its evidence, its pin, its
repair entry and its dispute entry in 29 bytes. -/
def Obligations.QueriesReport : Prop :=
  ∀ s : State,
    exec .status s = .next (answered .done
      ([topByte s.start.top, reasonByte s.start.reason, 0#4 ++ s.start.station, imageTag s] ++
        bytes16 (.ofNat 16 ((s.start.header.map (·.count)).getD 0)) ++ [.ofNat 8 s.repair.queue.length] ++
        bytes16 (((s.repair.queue.find? (fun e => e.state = .active)).map fun e => .ofNat 16 e.segment).getD
          0xFFFF#16) ++
        [.ofNat 8 s.disputes.length, .ofNat 8 s.host.events.length, .ofNat 8 s.line.clashes]) s) ∧
    (s.start.top = .census ∨ s.start.top = .active ∨ s.start.top = .detached →
      (∃ set : StationSet, exec .roster s = .next (answered .done (bytes16 set) s) ∧
        ∀ p : Station, set.getLsbD p.toNat = isPresent s p) ∧
      ∀ i : SegNum, i.toNat < segCount s →
        let r := getRec s i.toNat
        ∃ data, exec (.seginfo i) s = .next (answered .done data s) ∧ data.length = 29 ∧
          data.take 9 = [segStateByte r.state, if r.usable then 1 else 0] ++ stampBytes r.stamp ++
            bytes32 r.signature ∧
          (∃ flags : Byte, data[9]? = some flags ∧ flags.getLsbD 0 = r.exhausted ∧ flags.getLsbD 1 = r.mark ∧
            flags.getLsbD 2 = r.evidence.isSome ∧ flags.getLsbD 3 = r.evidence.any (·.fromNews) ∧
            (flags.getLsbD 4 = true ↔ i.toNat ∈ s.repair.pins) ∧
            flags.getLsbD 5 = (findEntry s i.toNat).isSome ∧ flags.getLsbD 6 = (findDispute s i.toNat).isSome) ∧
          data[10]? = some (.ofNat 8 r.rounds) ∧ data[11]? = some (.ofNat 8 r.pendingWrites) ∧
          data[12]? = some (.ofNat 8 r.failures) ∧
          (data.drop 13).take 9 = (match r.evidence with
            | some ev => stampBytes ev.stamp ++ bytes32 ev.signature ++ bytes16 ev.holders
            | none => List.replicate 9 0) ∧
          (data.drop 22).take 5 = (match findEntry s i.toNat with
            | some e => [levelByte e.level, entryStateByte e.state, .ofNat 8 e.attempts] ++ bytes16 e.tried
            | none => List.replicate 5 0) ∧
          data.drop 27 = match findDispute s i.toNat with
            | some d => [.ofNat 8 d.round, .ofNat 8 d.ballots.length]
            | none => [0, 0])

/-- R174: READ in ACTIVE and DETACHED: REFUSED without a usable copy, BUSY while the read buffer is not EMPTY, and
otherwise ACCEPTED with the buffer READING and the host read requested, here of a free store and of a busy one.
R176: TAKE in ACTIVE and DETACHED: DONE with segment, ok flag, stamp, state and the 256 bytes of a COMPLETE buffer,
which becomes EMPTY; NO_DATA with no effect when it is EMPTY or READING. -/
def Obligations.ReadAndTake : Prop :=
  (∀ (s : State) (i : SegNum), s.start.top = .active ∨ s.start.top = .detached → i.toNat < segCount s →
    let r := getRec s i.toNat
    (r.usable = false → exec (.read i) s = .next (answered .refused [] s)) ∧
    (r.usable = true → s.host.readBuffer ≠ .empty → exec (.read i) s = .next (answered .busy [] s)) ∧
    (r.usable = true → s.host.readBuffer = .empty →
      (StoreFree s.store → exec (.read i) s = .next (answered .accepted [] { s with
        host.readBuffer := .reading i.toNat, store.op := .reading .host i.toNat })) ∧
      (s.store.op ≠ .idle → exec (.read i) s = .next (answered .accepted [] { s with
        host.readBuffer := .reading i.toNat, store.hostReq := some i.toNat })))) ∧
  (∀ s : State, s.start.top = .active ∨ s.start.top = .detached →
    (∀ i ok t st data, s.host.readBuffer = .complete i ok t st data →
      exec .take s = .next (answered .done
        (bytes16 (.ofNat 16 i) ++ [if ok then 1 else 0] ++ stampBytes t ++ [segStateByte st] ++ data)
        { s with host.readBuffer := .empty })) ∧
    (s.host.readBuffer = .empty ∨ (∃ i, s.host.readBuffer = .reading i) →
      exec .take s = .next (answered .noData [] s)))

/-- R177: a STAGE with its data bytes, by the first line that applies; its bytes, and no others, take the places from
the offset on. -/
def Obligations.StageWritesBytes : Prop :=
  ∀ (s : State) (o n : Byte) (bytes : List Byte),
    s.start.top = .census ∨ s.start.top = .active ∨ s.start.top = .detached →
    (n = 0 ∨ 32 < n.toNat → exec (.stage o n bytes) s = .next (answered .badArg [] s)) ∧
    (1 ≤ n.toNat → n.toNat ≤ 32 → bytes.length = n.toNat →
      (256 < o.toNat + n.toNat → exec (.stage o n bytes) s = .next (answered .badArg [] s)) ∧
      (o.toNat + n.toNat ≤ 256 →
        (s.host.locked = true → exec (.stage o n bytes) s = .next (answered .busy [] s)) ∧
        (s.host.locked = false → s.host.staging.length = 256 →
          ∃ buffer : List Byte,
            exec (.stage o n bytes) s = .next (answered .done [] { s with host.staging := buffer }) ∧
            buffer.length = 256 ∧
            ∀ k, buffer[k]? =
              if o.toNat ≤ k ∧ k < o.toNat + n.toNat then bytes[k - o.toNat]? else s.host.staging[k]?)))

/-- R178, R1, R3: PUBLISH: BUSY while a publish is in flight or with two writes pending; otherwise ACCEPTED with the new
stamp: one version (65535 followed by 1) above the newest of local stamp, evidence stamp, dispute stamp and commit
buffer stamp, with self as origin. The record has one more write pending and is COMMITTING, the staging buffer is
locked, an open dispute of it is closed without an event, and the write begins in a free store or waits behind the
others. Here the segment has no repair entry and no dispute waits. -/
def Obligations.PublishChoosesStamp : Prop :=
  ∀ (s : State) (i : SegNum), s.start.top = .active ∨ s.start.top = .detached → i.toNat < segCount s →
    let r := getRec s i.toNat
    let known := newest [some r.stamp, r.evidence.map (·.stamp), (findDispute s i.toNat).map (·.stamp),
      s.repair.commit.bind fun b => if b.segment = i.toNat then some b.stamp else none]
    let t : Stamp := ⟨if known.version = 65535#16 then 1#16 else known.version + 1#16, 0#4 ++ s.start.station⟩
    (s.host.locked = true ∨ 2 ≤ r.pendingWrites → exec (.publish i) s = .next (answered .busy [] s)) ∧
    (s.host.locked = false → r.pendingWrites < 2 → r.state ≠ .unknown →
      (∀ e ∈ s.repair.queue, e.segment ≠ i.toNat) →
      (∀ j, j < segCount s → j ≠ i.toNat → waitsForEntry s j = false) →
      let u : State := { s with
        segs.recs := s.segs.recs.set i.toNat { r with
          pendingWrites := r.pendingWrites + 1, state := .committing
          mark := false, rounds := 0 }
        disputes := s.disputes.filter fun d => d.segment ≠ i.toNat
        host.locked := true }
      (StoreFree s.store →
        exec (.publish i) s = .next (answered .accepted (stampBytes t) { u with
          store.op := .writing { client := .publish, segment := i.toNat, stamp := t, signature := none, timer := none }
            false })) ∧
      (s.store.op ≠ .idle →
        exec (.publish i) s = .next (answered .accepted (stampBytes t) { u with
          store.writes := s.store.writes ++ [{ client := .publish, segment := i.toNat, stamp := t }] })))

/-- R80, R81, R182: FRESHEN by the first line of its table. The lines that answer and change nothing; the one that asks
the lowest-numbered peer for the bank's list; the raise of a running job to DEMAND; the clearing of the exhausted flag
with an entry that rises from SWEEP or NEWS, or a new one at DEMAND (both here while a DEMAND job runs, so that nothing
is preempted); the preemption of a NEWS job that runs while a SWEEP job is suspended, the new one starting in slot C with
the NEWS job on the top of the stack (R85, R87, R90), where the bytes 0x00 of the slot just taken are the model's choice
(log 36); the refusal of a queue that has no place; and DETACHED. -/
def Obligations.FreshenByTable : Prop :=
  ∀ (s : State) (i : SegNum), i.toNat < segCount s →
    let r := getRec s i.toNat
    let fresh := exec (.freshen i) s
    let demand (q : List Entry) (e : Entry) : List Entry :=
      insertEntry { e with level := .demand } (q.filter fun x => x.segment ≠ i.toNat)
    let cleared : State := { s with
      segs.recs := s.segs.recs.set i.toNat { r with
        exhausted := false, state := if r.state = .orphan then .stale else r.state } }
    let worth := r.state = .stale ∨ r.state = .orphan ∨ (r.state = .damaged ∧ r.evidence.isSome = true)
    (s.start.top = .detached → fresh = .next (answered .refused [] s)) ∧
    (s.start.top = .active →
      (r.state = .good → fresh = .next (answered .done [] s)) ∧
      (r.state ≠ .good →
        (i.toNat ∈ s.repair.pins ∨ r.state = .disputed ∨ r.state = .committing ∨ 2 ≤ r.failures →
          fresh = .next (answered .refused [] s)) ∧
        (i.toNat ∉ s.repair.pins → r.failures < 2 →
          (r.state = .damaged → r.evidence = none →
            ((∀ p, p ≠ s.start.station → isPresent s p = false) →
              fresh = .next (answered .noEvidence [] s)) ∧
            ∀ p, isPresent s p = true → p ≠ s.start.station →
              (∀ q, q.toNat < p.toNat → isPresent s q = false ∨ q = s.start.station) →
              Takes s (.sigquery p (i.toNat / 64)) →
              fresh = .next (answered .noEvidence [] { s with
                line.outbox := boxWith (.sigquery p (i.toNat / 64)) s.line.outbox })) ∧
          (∀ e, r.state = .fetching → findEntry s i.toNat = some e → e.state = .active → e.level ≠ .demand →
            fresh = .next (answered .accepted [] { s with repair.queue := demand s.repair.queue e })) ∧
          (∀ a, worth → s.repair.queue.find? (fun e => e.state = .active) = some a → a.level = .demand →
            a.segment ≠ i.toNat →
            (∀ e, findEntry s i.toNat = some e → e.state = .waiting → e.level ≠ .demand →
              fresh = .next (answered .accepted [] { cleared with
                repair.queue := demand s.repair.queue e })) ∧
            (findEntry s i.toNat = none → s.repair.queue.length < 32 →
              fresh = .next (answered .accepted [] { cleared with
                repair.queue := insertEntry (freshEntry i.toNat .demand) s.repair.queue }))) ∧
          (∀ a b ev q, worth → s.repair.queue = [a, b] → a.state = .active → a.level = .news →
            b.state = .suspended → b.level = .sweep → s.repair.stack = [b.segment] → a.segment ≠ i.toNat →
            b.segment ≠ i.toNat → s.repair.slotA.isSome = true → s.repair.slotB.isSome = true →
            s.repair.slotC = none → r.evidence = some ev → LowestSource s ev.holders 0 none q →
            Takes s (.request q i.toNat) →
            fresh = .next (answered .accepted [] { s with
              segs.recs := s.segs.recs.set i.toNat { r with exhausted := false, state := .fetching }
              repair := { s.repair with
                queue := [{
                  segment := i.toNat, level := .demand, state := .active, slot := some .c, tried := 0, attempts := 0,
                  source := some q, verified := false }, { a with state := .suspended }, b]
                stack := [a.segment, b.segment]
                slotC := some {
                  segment := i.toNat, stamp := ev.stamp, signature := ev.signature, mask := 0
                  data := List.replicate 256 0, supplier := none, computed := none }
                cond := some .asking, patience := some (patienceMs s) }
              line.outbox := boxWith (.request q i.toNat) s.line.outbox })) ∧
          (worth → findEntry s i.toNat = none → s.repair.queue.length = 32 →
            (∀ e ∈ s.repair.queue, e.state ≠ .waiting ∨ e.level ≠ .sweep) →
            fresh = .next (answered .refused [] s)))))

/-- R78, R79, R182: PIN of a pinned segment is DONE with no effect, of another on a full list REFUSED; otherwise the
segment joins the pin list, and a waiting entry of it (here behind an active job, with nothing to backfill) leaves the
repair queue while its record stays STALE with no offer. UNPIN of a segment not pinned is DONE with no effect; otherwise
the segment leaves the list, and the offer that follows is refused for a record that needs no fetch, and in DETACHED.
R135: ACCEPT of a DISPUTED record is DONE: an open entry is closed without a decision, the mark is cleared, the
rounds are 0 and the record settles GOOD; in any other state it is REFUSED. Here no dispute waits. -/
def Obligations.PinUnpinAccept : Prop :=
  (∀ (s : State) (i : SegNum), s.start.top = .active ∨ s.start.top = .detached → i.toNat < segCount s →
    let pinned := i.toNat ∈ s.repair.pins
    let r := getRec s i.toNat
    (pinned →
      exec (.pin i) s = .next (answered .done [] s) ∧
      ((s.start.top = .detached ∨ r.state = .good ∨ r.state = .committing ∨ r.state = .disputed ∨
          r.state = .orphan ∨ r.exhausted = true) →
        exec (.unpin i) s = .next (answered .done [] { s with
          repair.pins := s.repair.pins.filter fun j => j ≠ i.toNat }))) ∧
    (¬ pinned →
      exec (.unpin i) s = .next (answered .done [] s) ∧
      (s.repair.pins.length = 8 → exec (.pin i) s = .next (answered .refused [] s)) ∧
      (s.repair.pins.length < 8 →
        ((∀ e ∈ s.repair.queue, e.segment ≠ i.toNat) →
          exec (.pin i) s = .next (answered .done [] { s with repair.pins := s.repair.pins ++ [i.toNat] })) ∧
        ∀ e a, s.start.top = .active → findEntry s i.toNat = some e → e.state = .waiting → e.slot = none →
          s.repair.queue.find? (fun e => e.state = .active) = some a → a.segment ≠ i.toNat →
          NothingElse s i.toNat →
          r.state = .stale → r.usable = true → r.pendingWrites = 0 → r.evidence.isSome = true →
          r.exhausted = false →
          exec (.pin i) s = .next (answered .done [] { s with
            repair.pins := s.repair.pins ++ [i.toNat]
            repair.queue := s.repair.queue.filter fun e => e.segment ≠ i.toNat })))) ∧
  (∀ (s : State) (i : SegNum), s.start.top = .active ∨ s.start.top = .detached → i.toNat < segCount s →
    let r := getRec s i.toNat
    (r.state ≠ .disputed → exec (.accept i) s = .next (answered .refused [] s)) ∧
    (r.state = .disputed → r.usable = true → r.evidence = none → r.pendingWrites = 0 →
      (∀ e ∈ s.repair.queue, e.segment ≠ i.toNat) →
      (∀ j, j < segCount s → j ≠ i.toNat → waitsForEntry s j = false) →
      exec (.accept i) s = .next (answered .done [] { s with
        segs.recs := s.segs.recs.set i.toNat { r with mark := false, rounds := 0, state := .good }
        disputes := s.disputes.filter fun d => d.segment ≠ i.toNat })))

/-! ### The life of the station -/

/-- R45, R48, R166, R183: ATTACH in DETACHED returns the station to ACTIVE: the clash count 0, the receiver on and first
waiting for idle, the transmitter on, self PRESENT, the DIGEST of bank 0 offered, the pointer at 1 mod N/64 and the
beacon at B (here with no evidence and no waiting dispute). In ACTIVE it is DONE with no effect, and so is DETACH in
DETACHED. -/
def Obligations.AttachReturnsToActive : Prop :=
  ∀ s : State,
    (s.start.top = .active → exec .attach s = .next (answered .done [] s)) ∧
    (s.start.top = .detached →
      exec .detach s = .next (answered .done [] s) ∧
      (s.start.station ≠ 0 → s.line.outbox = [] → isSending s.line.engine = false → s.repair.queue = [] →
        s.repair.stack = [] → (∀ j, j < segCount s → backfillable (getRec s j) = false) → NoneWaiting s →
        exec .attach s = .next (answered .done [] { s with
          start := { s.start with top := .active, reason := .none }
          line := {
            receiver := true, transmitter := true, engine := .quiet, clashes := 0
            outbox := [{ ident := .digest 0, ballotStamp := none, inTransmission := false, renewed := false }] }
          roster := { s.roster with
            entries := s.roster.entries.set (s.start.station.toNat - 1) ⟨true, none⟩
            pointer := 1 % s.roster.banks.length
            beacon := some (beaconMs s) } })))

/-- R151, R167, R183: RESTART: every block takes its warm restart values, RESTARTED stands alone in the event queue, and
the station number, the bit rate, the answer and the transfer buffer (log 35) are kept. With the store IDLE the buffers
are freed and the probe begins at once; a station whose number is 0 waits for nothing either, and is still in STARTING
after the RESTART: it halts with BAD_STATION next, of its own accord, or at a RESTART_STORE_WAIT_END that comes before
(log 34). Otherwise the operation in progress ends first, at RESTART_STORE_WAIT_END, the buffers held until then, and the
probe begins, or the halt. That the pending requests are withdrawn at the RESTART, and that the census cursor is 0 from
then on, are the model's choices (logs 40 and 32). -/
def Obligations.RestartClearsAndWaits : Prop :=
  ∀ s : State, s.start.top ≠ .starting →
    let line : Line := {
      receiver := false, transmitter := isSending s.line.engine, engine := engineOff .afterRestart s.line.engine
      clashes := 0, outbox := [] }
    let cleared : State := { State.reset with
      start := { s.start with
        top := .starting, reason := .none, header := none, cursor := 0, storeWait := false }
      line := line
      store := { State.reset.store with transfer := s.store.transfer }
      host := {
        staging := List.replicate 256 0, locked := false, readBuffer := .empty
        events := [⟨.restarted, none, none, none⟩], answer := some ⟨.done, []⟩ }
      pending := s.pending, freeOrders := s.freeOrders }
    let probing : State := { cleared with store := { cleared.store with op := .probing none } }
    let halted : State := { cleared with
      start := { cleared.start with top := .halted, reason := .badStation }
      host := { cleared.host with
        events := [⟨.restarted, none, none, none⟩, ⟨.halted, none, none, none⟩] } }
    let holding : State := { cleared with
      start := { cleared.start with storeWait := true }
      repair := { cleared.repair with commit := s.repair.commit }
      store := { cleared.store with op := s.store.op, computed := s.store.computed }
      host := { cleared.host with staging := s.host.staging, locked := s.host.locked } }
    (s.store.op = .idle → s.start.station ≠ 0 → exec .restart s = .next probing) ∧
    (s.store.op = .idle → s.start.station = 0 →
      exec .restart s = .next cleared ∧
      (s.start.strapsDue = false →
        step { cleared with pending := [] } = .next { halted with pending := [] } ∧
        exec .restartStoreWaitEnd cleared = .next halted)) ∧
    (s.store.op ≠ .idle →
      exec .restart s = .next holding ∧
      (s.start.station ≠ 0 → exec .restartStoreWaitEnd holding = .next probing) ∧
      (s.start.station = 0 → exec .restartStoreWaitEnd holding = .next halted))

/-- R155, R194: COLD_START in any state gives every block its cold start values; the straps sampled next give the
station number and the bit rate, and the probe, or for number 0 a halt with BAD_STATION and a HALTED event. They are
sampled once. The bit rate of 125 kbit/s before the straps, the absent answer, the waiting commands and the count of
free orders that stay, and the bytes 0x00 of the transfer buffer are the model's choices (logs 7, 8, 9, 18 and 35). -/
def Obligations.ColdStartSamplesStraps : Prop :=
  ∀ (s : State) (stn : BitVec 4) (rate : BitVec 2),
    let reset : State := { State.reset with pending := s.pending, freeOrders := s.freeOrders }
    let kbit : Rate := if rate = 0 then .kbit125 else if rate = 1 then .kbit250 else if rate = 2 then .kbit500
      else .kbit1000
    let sampled : State := { reset with
      start := { reset.start with strapsDue := false, station := stn, rate := kbit } }
    exec .coldStart s = .next reset ∧
    (stn ≠ 0 → exec (.strapSampling stn rate) reset = .next { sampled with store.op := .probing none }) ∧
    (stn = 0 → exec (.strapSampling stn rate) reset = .next { sampled with
      start := { sampled.start with top := .halted, reason := .badStation }
      host.events := [⟨.halted, none, none, none⟩] }) ∧
    (s.start.strapsDue = false → exec (.strapSampling stn rate) s = .next s)

/-- R142, R143, R156: the probe halts with NO_STORE on a first value 0xFF, reads on while the store is busy and at most
20 ms long, and is followed by the header read; a header that fails halts with BAD_HEADER. That a later 0xFF is no more
than busy is the model's reading (log 6); so is it that every busy value starts the 20 ms, as no time is counted
(log 5).
R156 to R158: a valid header: its fields are kept, N UNKNOWN records and N/64 digests of 0 and bank entries are
built, CENSUS is entered with the receiver on, waiting for idle, and the read of slot 0 begins. -/
def Obligations.ProbeAndHeader : Prop :=
  (∀ s : State,
    (s.store.op = .probing none → exec (.storeStatusReadEnd 0xFF) s = .next (raise .halted none none none { s with
      start := { s.start with top := .halted, reason := .noStore }, store.op := .idle })) ∧
    (∀ v : Byte, s.store.op = .probing none ∧ v ≠ 0xFF ∨ (∃ n, s.store.op = .probing (some n)) →
      (v.getLsbD 0 = true → exec (.storeStatusReadEnd v) s = .next { s with store.op := .probing (some 20) }) ∧
      (v.getLsbD 0 = false → exec (.storeStatusReadEnd v) s = .next { s with store.op := .header })) ∧
    (∀ n, s.store.op = .probing (some n) → exec .storePollTimeout s = .next { s with store.op := .header }) ∧
    ∀ bytes f, s.store.op = .header → bytes.length = 12 → judgeHeader bytes = .error f →
      exec (.headerReadEnd bytes) s = .next (raise .halted none none none { s with
        start := { s.start with top := .halted, reason := .badHeader }, store.op := .idle })) ∧
  (∀ (s : State) (bytes : List Byte) (h : Header), s.store.op = .header → bytes.length = 12 →
    judgeHeader bytes = .ok h → s.store.writes = [] → s.store.serveReq = none → s.store.hostReq = none →
    s.store.censusReq = none → isSending s.line.engine = false →
      exec (.headerReadEnd bytes) s = .next { s with
        start := { s.start with top := .census, reason := .none, header := some h, cursor := 0 }
        line := { s.line with receiver := true, engine := .quiet }
        segs := {
          recs := List.replicate h.count {
            state := .unknown, usable := false, stamp := nullStamp, signature := 0, evidence := none,
            exhausted := false, mark := false, rounds := 0, pendingWrites := 0, failures := 0 }
          digests := List.replicate (h.count / 64) 0 }
        roster.banks := List.replicate (h.count / 64) ⟨none, none⟩
        store.op := .reading .census 0 })

/-- R158, R159, R162, R48, R17, R18: the end of a census read sets the record from its slot and settles it: USABLE for a
vacant slot or a written one that checks, and then without evidence it has reached, GOOD, or STALE with evidence that is
newer; UNUSABLE and DAMAGED with the event for any other, with what evidence it has. R16, R71, R160: a record that is
left with evidence joins the repair queue at its admission level, unless it is pinned. The read of the next slot begins.
After the last (here for a record nothing was heard of) the station enters ACTIVE with CENSUS_DONE, as at ATTACH but
with the clash count kept, and the pick takes the first entry of the queue, if there is one; that the data of the slot it
takes are bytes 0x00 is the model's choice (log 36). -/
def Obligations.CensusSetsRecord : Prop :=
  ∀ (s : State) (bytes : List Byte) (i : Nat) (known : Option Evidence),
    s.store.op = .reading .census i → s.start.storeWait = false →
    NonePending s.store → bytes.length = 264 → s.start.top = .census → i < segCount s →
    getRec s i = { unknownRec with evidence := known } → (∀ e ∈ s.repair.queue, e.segment ≠ i) →
    let trusted : Option (Stamp × Signature) := match classSlot bytes with
      | .vacant => some (nullStamp, 0)
      | .written t recorded computed => if computed = recorded then some (t, recorded) else none
      | .damaged => none
    let noted : State := match classSlot bytes with
      | .vacant => s
      | .written t recorded computed => if computed = recorded then s else raise .damaged (some i) none (some t) s
      | .damaged => raise .damaged (some i) none none s
    let newerOnes (t : Stamp) : Option Evidence := known.filter fun ev => ev.stamp ≠ t ∧ newer t ev.stamp = false
    let found : SegRec := match trusted with
      | some (t, x) => { unknownRec with
          state := if (newerOnes t).isSome then .stale else .good
          usable := true, stamp := t, signature := x, evidence := newerOnes t }
      | none => { unknownRec with state := .damaged, evidence := known }
    let set : State := putRec i found noted
    (i + 1 < segCount s →
      let next (u : State) : State := { u with
        start := { s.start with cursor := i + 1 }
        store := { s.store with op := .reading .census (i + 1), transfer := bytes, computed := none } }
      (found.evidence = none ∨ i ∈ s.repair.pins → exec (.slotReadEnd bytes) s = .next (next set)) ∧
      ∀ ev, found.evidence = some ev → i ∉ s.repair.pins → s.repair.queue.length < 32 →
        exec (.slotReadEnd bytes) s = .next (next { set with
          repair.queue := insertEntry
            (freshEntry i (if found.usable = true ∧ ev.fromNews = false then .sweep else .news)) s.repair.queue })) ∧
    (i + 1 = segCount s → known = none → s.start.station ≠ 0 → s.line.outbox = [] → s.repair.stack = [] →
      (∀ j, j < segCount s → j ≠ i → waitsForEntry s j = false ∧
        (backfillable (getRec s j) = false ∨ ∃ e ∈ s.repair.queue, e.segment = j)) →
      let entered (repair : RepairUnit) (segs : SegTable) (box : List Desc) : State :=
        raise .censusDone none none none { set with
          start := { s.start with top := .active, reason := .none, cursor := i + 1 }
          line := { s.line with transmitter := true, outbox := box }
          roster := { set.roster with
            entries := s.roster.entries.set (s.start.station.toNat - 1) ⟨true, none⟩
            pointer := 1 % s.roster.banks.length
            beacon := some (beaconMs s) }
          segs := segs
          repair := repair
          store := { s.store with op := .idle, transfer := bytes, computed := none } }
      let digest : List Desc := [{ ident := .digest 0, ballotStamp := none, inTransmission := false, renewed := false }]
      (s.repair.queue = [] → exec (.slotReadEnd bytes) s = .next (entered s.repair set.segs digest)) ∧
      ∀ e rest ev q, s.repair.queue = e :: rest → (∀ d ∈ rest, d.segment ≠ e.segment) →
        (∀ d ∈ e :: rest, d.state = .waiting) → e.slot = none → s.repair.slotA = none →
        (getRec s e.segment).state ≠ .unknown →
        (getRec s e.segment).evidence = some ev → LowestSource s ev.holders e.tried none q →
        exec (.slotReadEnd bytes) s = .next (entered
          { s.repair with
            queue := { e with state := .active, slot := some .a, source := some q } :: rest
            slotA := some {
              segment := e.segment, stamp := ev.stamp, signature := ev.signature, mask := 0
              data := List.replicate 256 0, supplier := none, computed := none }
            cond := some .asking, patience := some (patienceMs s) }
          { set.segs with recs := set.segs.recs.set e.segment { getRec s e.segment with state := .fetching } }
          (boxWith (.request q e.segment) digest)))

/-! ### The store -/

/-- R145, R146: a slot write begins with status reads: 0xFF is ERROR at once, busy reads on, and busy clear sends the
write sequence, whose end keeps the trailer's signature for the readback and begins POLLING; there 20 ms with the device
still busy begin RECOVERING, as an error with busy set does, and busy clear begins VERIFYING. The 20 ms start with a busy
value before the sequence, with POLLING and with RECOVERING, and run out only while they run; that every busy value
before the sequence starts them is log 5's reading, as no time is counted. That a value 0xFF in RECOVERING is judged by
its busy bit is log 31's. -/
def Obligations.WriteFollowsStatus : Prop :=
  ∀ (s : State) (w : WriteOp) (v : Byte), s.start.storeWait = false →
    let timed (w : WriteOp) : WriteOp := { w with timer := some 20 }
    (s.store.op = .writing w false → v ≠ 0xFF →
      exec (.storeStatusReadEnd v) s = .next (
        if v.getLsbD 0 then { s with store.op := .writing (timed w) false }
        else { s with store.op := .writing { w with timer := none } true })) ∧
    (∀ b, s.store.op = .writing w true → w.client = .commit → s.repair.commit = some b →
      exec .writeSequenceEnd s = .next { s with
        store.op := .polling (timed { w with signature := some b.signature }) }) ∧
    (s.store.op = .writing w true → w.client = .publish →
      let x := signatureOf w.stamp s.host.staging
      exec .writeSequenceEnd s = .next { s with
        store := { s.store with op := .polling (timed { w with signature := some x }), computed := some x } }) ∧
    (s.store.op = .polling w → v ≠ 0xFF →
      (v.getLsbD 5 = true → v.getLsbD 0 = true →
        exec (.storeStatusReadEnd v) s = .next { s with store.op := .recovering (timed w) .error }) ∧
      (v.getLsbD 5 = false → v.getLsbD 0 = false →
        exec (.storeStatusReadEnd v) s = .next { s with store.op := .verifying { w with timer := none } }) ∧
      (v.getLsbD 5 = false → v.getLsbD 0 = true → exec (.storeStatusReadEnd v) s = .next s)) ∧
    (s.store.op = .polling w → w.timer.isSome = true →
      exec .storePollTimeout s = .next { s with store.op := .recovering (timed w) .timeout }) ∧
    (s.store.op = .writing w false ∨ s.store.op = .polling w ∨ (∃ f, s.store.op = .recovering w f) →
      w.timer = none → exec .storePollTimeout s = .next s) ∧
    ∀ f, s.store.op = .recovering w f → v.getLsbD 0 = true → exec (.storeStatusReadEnd v) s = .next s

/-- R105, R147, R148: the readback of a commit write finds every byte equal: the record takes the written stamp and
signature, is USABLE with no failures, no mark and no evidence it has reached, one write fewer is pending, it settles
GOOD, COMMITTED is raised with the supplier, the commit buffer is free, and the store is IDLE. Here no other write is
pending and no job waits in READY.
R102, R103: a job that waits in READY, here the only entry, then hands its copy off to the free commit buffer, and its
commit write begins.
R147, R148, R180: the same for a publish write, which also clears the exhausted flag, unlocks the staging buffer,
offers a NEWS of the segment in ACTIVE and raises PUBLISHED. -/
def Obligations.WriteSuccessSetsRecord : Prop :=
  (∀ (s : State) (w : WriteOp) (b : CommitBuffer) (x : Signature), s.store.op = .verifying w →
    w.client = .commit → w.signature = some x → s.repair.commit = some b → b.segment = w.segment →
    b.stamp = w.stamp → b.signature = x → b.data.length = 256 → s.start.storeWait = false → NonePending s.store →
    w.segment < segCount s → (∀ e ∈ s.repair.queue, e.segment ≠ w.segment) →
    let r := getRec s w.segment
    let after := exec (.readbackEnd (slotImage b.data w.stamp x)) s
    let written : State := raise .committed (some w.segment) b.supplier (some w.stamp)
      (putRec w.segment { r with
        state := .good, usable := true, stamp := w.stamp, signature := x, evidence := none, mark := false
        rounds := 0, pendingWrites := 0, failures := 0 } s)
    r.state ≠ .unknown → r.pendingWrites = 1 →
    (∀ ev, r.evidence = some ev → ev.stamp = w.stamp ∨ newer w.stamp ev.stamp = true) →
    (s.repair.cond ≠ some .ready → after = .next { written with
      repair.commit := none, store := { s.store with op := .idle, computed := none } }) ∧
    ∀ (e : Entry) (slot : Slot), s.repair.cond = some .ready → s.repair.queue = [e] → e.state = .active →
      e.slot = some .a → s.repair.slotA = some slot → s.repair.stack = [] → e.segment < segCount s →
      (∀ j, j < segCount s → j ≠ w.segment → j ≠ e.segment → backfillable (getRec s j) = false) →
      let q := getRec s e.segment
      q.state ≠ .unknown →
      after = .next { putRec e.segment { q with pendingWrites := q.pendingWrites + 1, state := .committing } written with
        repair := { s.repair with
          queue := [], slotA := none, cond := none, patience := none
          commit := some {
            segment := e.segment, stamp := slot.stamp, signature := slot.signature, data := slot.data
            supplier := slot.supplier } }
        store := { s.store with
          computed := none
          op := .writing {
            client := .commit, segment := e.segment, stamp := slot.stamp, signature := some slot.signature
            timer := none } false } }) ∧
  (∀ (s : State) (w : WriteOp) (x : Signature), s.store.op = .verifying w →
    w.client = .publish → w.signature = some x → s.host.staging.length = 256 → s.start.storeWait = false →
    NonePending s.store → w.segment < segCount s → (∀ e ∈ s.repair.queue, e.segment ≠ w.segment) →
    let r := getRec s w.segment
    let written : State := { putRec w.segment { r with
        state := .good, usable := true, stamp := w.stamp, signature := x, evidence := none, exhausted := false
        mark := false, rounds := 0, pendingWrites := 0, failures := 0 } s with
      host.locked := false, store := { s.store with op := .idle, computed := none } }
    r.state ≠ .unknown → r.pendingWrites = 1 →
    (∀ ev, r.evidence = some ev → ev.stamp = w.stamp ∨ newer w.stamp ev.stamp = true) →
    (s.start.top = .detached → exec (.readbackEnd (slotImage s.host.staging w.stamp x)) s =
      .next (raise .published (some w.segment) none (some w.stamp) written)) ∧
    (Takes s (.news w.segment) → exec (.readbackEnd (slotImage s.host.staging w.stamp x)) s =
      .next (raise .published (some w.segment) none (some w.stamp) { written with
        line := { written.line with outbox := boxWith (.news w.segment) s.line.outbox } })))

/-- R7, R10, R106, R146, R147, R181: a slot write that fails, by a status value 0xFF in its wait or in POLLING, by an
error with busy clear, by the end of RECOVERING, by 20 ms of busy before the write sequence, or by a readback that
differs, counts a failure (at 2 the record is held, its exhausted flag set), makes the copy UNUSABLE with its stamp and
signature kept, and leaves the store IDLE; a commit write frees its buffer and raises DAMAGED, a publish write unlocks
the staging buffer and raises PUBLISH_FAILED. Here the record has no evidence and no dispute entry, and no other write
and no READY job wait. -/
def Obligations.WriteFailureLosesCopy : Prop :=
  ∀ (s : State) (w : WriteOp) (c : Instr), s.start.storeWait = false → NonePending s.store →
    w.segment < segCount s → s.repair.cond ≠ some .ready → (∀ e ∈ s.repair.queue, e.segment ≠ w.segment) →
    (∀ d ∈ s.disputes, d.segment ≠ w.segment) →
    (s.store.op = .writing w false ∧ (c = .storeStatusReadEnd 0xFF ∨ c = .storePollTimeout ∧ w.timer.isSome = true) ∨
      s.store.op = .polling w ∧ (∃ v : Byte, c = .storeStatusReadEnd v ∧
        (v = 0xFF ∨ (v.getLsbD 5 = true ∧ v.getLsbD 0 = false))) ∨
      (∃ f, s.store.op = .recovering w f) ∧
        (c = .storePollTimeout ∧ w.timer.isSome = true ∨ ∃ v : Byte, c = .storeStatusReadEnd v ∧ v.getLsbD 0 = false) ∨
      s.store.op = .verifying w ∧ (∃ bytes, c = .readbackEnd bytes ∧ bytes.length = 264 ∧ bytes ≠ writeImage w s)) →
    let r := getRec s w.segment
    let failed : State := { putRec w.segment { r with
        state := .damaged, usable := false, mark := if r.usable then false else r.mark
        rounds := if r.usable then 0 else r.rounds
        pendingWrites := 0, failures := min 2 (r.failures + 1)
        exhausted := if 1 ≤ r.failures then true else r.exhausted } s with
      store := { s.store with op := .idle, computed := none } }
    r.state ≠ .unknown → r.pendingWrites = 1 → r.evidence = none →
    (w.client = .commit → exec c s =
      .next (raise .damaged (some w.segment) none (some w.stamp) { failed with repair.commit := none })) ∧
    (w.client = .publish → exec c s =
      .next (raise .publishFailed (some w.segment) none (some w.stamp) { failed with host.locked := false }))

/-- R144, R175: the host read ends: the read buffer is COMPLETE with the ok flag, the stamp, the record's state and the
256 bytes, and READ_DONE is raised; a slot that fails its check also makes a USABLE copy UNUSABLE, with DAMAGED (here
for a GOOD record with no evidence and no write pending). -/
def Obligations.HostReadFillsBuffer : Prop :=
  ∀ (s : State) (bytes : List Byte) (i : Nat), s.store.op = .reading .host i → s.start.storeWait = false →
    NonePending s.store → bytes.length = 264 →
    let r := getRec s i
    let filled (ok : Bool) (t : Stamp) (u : State) : State :=
      raise .readDone (some i) none (if ok then some t else none) { u with
        host := { u.host with readBuffer := .complete i ok t (getRec u i).state (bytes.take 256) }
        store := { s.store with op := .idle, transfer := bytes, computed := none } }
    let damagedState : State := raise .damaged (some i) none (some r.stamp) (putRec i { r with
      usable := false, mark := false, rounds := 0, state := .damaged } s)
    (classSlot bytes = .vacant → exec (.slotReadEnd bytes) s = .next (filled true nullStamp s)) ∧
    (∀ t x, classSlot bytes = .written t x x → exec (.slotReadEnd bytes) s = .next (filled true t s)) ∧
    (r.usable = false →
      (classSlot bytes = .damaged → exec (.slotReadEnd bytes) s = .next (filled false nullStamp s)) ∧
      ∀ t x y, classSlot bytes = .written t x y → y ≠ x → exec (.slotReadEnd bytes) s = .next (filled false t s)) ∧
    (i < segCount s → r.usable = true → r.state = .good → r.pendingWrites = 0 → r.evidence = none →
      (∀ e ∈ s.repair.queue, e.segment ≠ i) → (∀ d ∈ s.disputes, d.segment ≠ i) →
      (classSlot bytes = .damaged → exec (.slotReadEnd bytes) s = .next (filled false nullStamp damagedState)) ∧
      ∀ t x y, classSlot bytes = .written t x y → y ≠ x →
        exec (.slotReadEnd bytes) s = .next (filled false t damagedState))
end

