-- ==== Sys2Proof/Laws/State.lean ====
section
/-! SUPPORT. What each record update leaves as it is, block by block: one lemma per block, tagged for simp. -/

namespace Sys2Proof.Machine

variable (s : State)

/-! ### raise -/

@[simp] theorem raise_start (k : EventKind) (i : Option Nat) (p : Option Station) (t : Option Stamp) : (raise k i p t s).start = s.start := rfl
@[simp] theorem raise_line (k : EventKind) (i : Option Nat) (p : Option Station) (t : Option Stamp) : (raise k i p t s).line = s.line := rfl
@[simp] theorem raise_roster (k : EventKind) (i : Option Nat) (p : Option Station) (t : Option Stamp) : (raise k i p t s).roster = s.roster := rfl
@[simp] theorem raise_segs (k : EventKind) (i : Option Nat) (p : Option Station) (t : Option Stamp) : (raise k i p t s).segs = s.segs := rfl
@[simp] theorem raise_repair (k : EventKind) (i : Option Nat) (p : Option Station) (t : Option Stamp) : (raise k i p t s).repair = s.repair := rfl
@[simp] theorem raise_serve (k : EventKind) (i : Option Nat) (p : Option Station) (t : Option Stamp) : (raise k i p t s).serve = s.serve := rfl
@[simp] theorem raise_disputes (k : EventKind) (i : Option Nat) (p : Option Station) (t : Option Stamp) : (raise k i p t s).disputes = s.disputes := rfl
@[simp] theorem raise_store (k : EventKind) (i : Option Nat) (p : Option Station) (t : Option Stamp) : (raise k i p t s).store = s.store := rfl
@[simp] theorem raise_pending (k : EventKind) (i : Option Nat) (p : Option Station) (t : Option Stamp) : (raise k i p t s).pending = s.pending := rfl

/-! ### answer -/

@[simp] theorem answer_start (c : ResultCode) (d : List Byte) : (answer c d s).start = s.start := rfl
@[simp] theorem answer_line (c : ResultCode) (d : List Byte) : (answer c d s).line = s.line := rfl
@[simp] theorem answer_roster (c : ResultCode) (d : List Byte) : (answer c d s).roster = s.roster := rfl
@[simp] theorem answer_segs (c : ResultCode) (d : List Byte) : (answer c d s).segs = s.segs := rfl
@[simp] theorem answer_repair (c : ResultCode) (d : List Byte) : (answer c d s).repair = s.repair := rfl
@[simp] theorem answer_serve (c : ResultCode) (d : List Byte) : (answer c d s).serve = s.serve := rfl
@[simp] theorem answer_disputes (c : ResultCode) (d : List Byte) : (answer c d s).disputes = s.disputes := rfl
@[simp] theorem answer_store (c : ResultCode) (d : List Byte) : (answer c d s).store = s.store := rfl
@[simp] theorem answer_pending (c : ResultCode) (d : List Byte) : (answer c d s).pending = s.pending := rfl

/-! ### setEntry -/

@[simp] theorem setEntry_start (i : Nat) (f : Entry → Entry) : (setEntry i f s).start = s.start := rfl
@[simp] theorem setEntry_line (i : Nat) (f : Entry → Entry) : (setEntry i f s).line = s.line := rfl
@[simp] theorem setEntry_roster (i : Nat) (f : Entry → Entry) : (setEntry i f s).roster = s.roster := rfl
@[simp] theorem setEntry_segs (i : Nat) (f : Entry → Entry) : (setEntry i f s).segs = s.segs := rfl
@[simp] theorem setEntry_serve (i : Nat) (f : Entry → Entry) : (setEntry i f s).serve = s.serve := rfl
@[simp] theorem setEntry_disputes (i : Nat) (f : Entry → Entry) : (setEntry i f s).disputes = s.disputes := rfl
@[simp] theorem setEntry_store (i : Nat) (f : Entry → Entry) : (setEntry i f s).store = s.store := rfl
@[simp] theorem setEntry_host (i : Nat) (f : Entry → Entry) : (setEntry i f s).host = s.host := rfl
@[simp] theorem setEntry_pending (i : Nat) (f : Entry → Entry) : (setEntry i f s).pending = s.pending := rfl

/-! ### addEntry -/

@[simp] theorem addEntry_start (l : Level) (i : Nat) : (addEntry l i s).start = s.start := rfl
@[simp] theorem addEntry_line (l : Level) (i : Nat) : (addEntry l i s).line = s.line := rfl
@[simp] theorem addEntry_roster (l : Level) (i : Nat) : (addEntry l i s).roster = s.roster := rfl
@[simp] theorem addEntry_segs (l : Level) (i : Nat) : (addEntry l i s).segs = s.segs := rfl
@[simp] theorem addEntry_serve (l : Level) (i : Nat) : (addEntry l i s).serve = s.serve := rfl
@[simp] theorem addEntry_disputes (l : Level) (i : Nat) : (addEntry l i s).disputes = s.disputes := rfl
@[simp] theorem addEntry_store (l : Level) (i : Nat) : (addEntry l i s).store = s.store := rfl
@[simp] theorem addEntry_host (l : Level) (i : Nat) : (addEntry l i s).host = s.host := rfl
@[simp] theorem addEntry_pending (l : Level) (i : Nat) : (addEntry l i s).pending = s.pending := rfl

/-! ### stopPatience -/

@[simp] theorem stopPatience_start : (stopPatience s).start = s.start := rfl
@[simp] theorem stopPatience_line : (stopPatience s).line = s.line := rfl
@[simp] theorem stopPatience_roster : (stopPatience s).roster = s.roster := rfl
@[simp] theorem stopPatience_segs : (stopPatience s).segs = s.segs := rfl
@[simp] theorem stopPatience_serve : (stopPatience s).serve = s.serve := rfl
@[simp] theorem stopPatience_disputes : (stopPatience s).disputes = s.disputes := rfl
@[simp] theorem stopPatience_store : (stopPatience s).store = s.store := rfl
@[simp] theorem stopPatience_host : (stopPatience s).host = s.host := rfl
@[simp] theorem stopPatience_pending : (stopPatience s).pending = s.pending := rfl

/-! ### markTried -/

@[simp] theorem markTried_start (p : Station) (i : Nat) : (markTried p i s).start = s.start := rfl
@[simp] theorem markTried_line (p : Station) (i : Nat) : (markTried p i s).line = s.line := rfl
@[simp] theorem markTried_roster (p : Station) (i : Nat) : (markTried p i s).roster = s.roster := rfl
@[simp] theorem markTried_segs (p : Station) (i : Nat) : (markTried p i s).segs = s.segs := rfl
@[simp] theorem markTried_serve (p : Station) (i : Nat) : (markTried p i s).serve = s.serve := rfl
@[simp] theorem markTried_disputes (p : Station) (i : Nat) : (markTried p i s).disputes = s.disputes := rfl
@[simp] theorem markTried_store (p : Station) (i : Nat) : (markTried p i s).store = s.store := rfl
@[simp] theorem markTried_host (p : Station) (i : Nat) : (markTried p i s).host = s.host := rfl
@[simp] theorem markTried_pending (p : Station) (i : Nat) : (markTried p i s).pending = s.pending := rfl

/-! ### countAttempt -/

@[simp] theorem countAttempt_start (i : Nat) : (countAttempt i s).start = s.start := rfl
@[simp] theorem countAttempt_line (i : Nat) : (countAttempt i s).line = s.line := rfl
@[simp] theorem countAttempt_roster (i : Nat) : (countAttempt i s).roster = s.roster := rfl
@[simp] theorem countAttempt_segs (i : Nat) : (countAttempt i s).segs = s.segs := rfl
@[simp] theorem countAttempt_serve (i : Nat) : (countAttempt i s).serve = s.serve := rfl
@[simp] theorem countAttempt_disputes (i : Nat) : (countAttempt i s).disputes = s.disputes := rfl
@[simp] theorem countAttempt_store (i : Nat) : (countAttempt i s).store = s.store := rfl
@[simp] theorem countAttempt_host (i : Nat) : (countAttempt i s).host = s.host := rfl
@[simp] theorem countAttempt_pending (i : Nat) : (countAttempt i s).pending = s.pending := rfl

/-! ### setDispute -/

@[simp] theorem setDispute_start (i : Nat) (f : Dispute → Dispute) : (setDispute i f s).start = s.start := rfl
@[simp] theorem setDispute_line (i : Nat) (f : Dispute → Dispute) : (setDispute i f s).line = s.line := rfl
@[simp] theorem setDispute_roster (i : Nat) (f : Dispute → Dispute) : (setDispute i f s).roster = s.roster := rfl
@[simp] theorem setDispute_segs (i : Nat) (f : Dispute → Dispute) : (setDispute i f s).segs = s.segs := rfl
@[simp] theorem setDispute_repair (i : Nat) (f : Dispute → Dispute) : (setDispute i f s).repair = s.repair := rfl
@[simp] theorem setDispute_serve (i : Nat) (f : Dispute → Dispute) : (setDispute i f s).serve = s.serve := rfl
@[simp] theorem setDispute_store (i : Nat) (f : Dispute → Dispute) : (setDispute i f s).store = s.store := rfl
@[simp] theorem setDispute_host (i : Nat) (f : Dispute → Dispute) : (setDispute i f s).host = s.host := rfl
@[simp] theorem setDispute_pending (i : Nat) (f : Dispute → Dispute) : (setDispute i f s).pending = s.pending := rfl

/-! ### freeDispute -/

@[simp] theorem freeDispute_start (i : Nat) : (freeDispute i s).start = s.start := rfl
@[simp] theorem freeDispute_line (i : Nat) : (freeDispute i s).line = s.line := rfl
@[simp] theorem freeDispute_roster (i : Nat) : (freeDispute i s).roster = s.roster := rfl
@[simp] theorem freeDispute_segs (i : Nat) : (freeDispute i s).segs = s.segs := rfl
@[simp] theorem freeDispute_repair (i : Nat) : (freeDispute i s).repair = s.repair := rfl
@[simp] theorem freeDispute_serve (i : Nat) : (freeDispute i s).serve = s.serve := rfl
@[simp] theorem freeDispute_store (i : Nat) : (freeDispute i s).store = s.store := rfl
@[simp] theorem freeDispute_host (i : Nat) : (freeDispute i s).host = s.host := rfl
@[simp] theorem freeDispute_pending (i : Nat) : (freeDispute i s).pending = s.pending := rfl

/-! ### makeEntry -/

@[simp] theorem makeEntry_start (i : Nat) (b : List (Station × Signature)) : (makeEntry i b s).start = s.start := rfl
@[simp] theorem makeEntry_line (i : Nat) (b : List (Station × Signature)) : (makeEntry i b s).line = s.line := rfl
@[simp] theorem makeEntry_roster (i : Nat) (b : List (Station × Signature)) : (makeEntry i b s).roster = s.roster := rfl
@[simp] theorem makeEntry_segs (i : Nat) (b : List (Station × Signature)) : (makeEntry i b s).segs = s.segs := rfl
@[simp] theorem makeEntry_repair (i : Nat) (b : List (Station × Signature)) : (makeEntry i b s).repair = s.repair := rfl
@[simp] theorem makeEntry_serve (i : Nat) (b : List (Station × Signature)) : (makeEntry i b s).serve = s.serve := rfl
@[simp] theorem makeEntry_store (i : Nat) (b : List (Station × Signature)) : (makeEntry i b s).store = s.store := rfl
@[simp] theorem makeEntry_host (i : Nat) (b : List (Station × Signature)) : (makeEntry i b s).host = s.host := rfl
@[simp] theorem makeEntry_pending (i : Nat) (b : List (Station × Signature)) : (makeEntry i b s).pending = s.pending := rfl

/-! ### recordBallot -/

@[simp] theorem recordBallot_start (p : Station) (i : Nat) (x : Signature) : (recordBallot p i x s).start = s.start := rfl
@[simp] theorem recordBallot_line (p : Station) (i : Nat) (x : Signature) : (recordBallot p i x s).line = s.line := rfl
@[simp] theorem recordBallot_roster (p : Station) (i : Nat) (x : Signature) : (recordBallot p i x s).roster = s.roster := rfl
@[simp] theorem recordBallot_segs (p : Station) (i : Nat) (x : Signature) : (recordBallot p i x s).segs = s.segs := rfl
@[simp] theorem recordBallot_repair (p : Station) (i : Nat) (x : Signature) : (recordBallot p i x s).repair = s.repair := rfl
@[simp] theorem recordBallot_serve (p : Station) (i : Nat) (x : Signature) : (recordBallot p i x s).serve = s.serve := rfl
@[simp] theorem recordBallot_store (p : Station) (i : Nat) (x : Signature) : (recordBallot p i x s).store = s.store := rfl
@[simp] theorem recordBallot_host (p : Station) (i : Nat) (x : Signature) : (recordBallot p i x s).host = s.host := rfl
@[simp] theorem recordBallot_pending (p : Station) (i : Nat) (x : Signature) : (recordBallot p i x s).pending = s.pending := rfl

/-! ### leaveHead -/

@[simp] theorem leaveHead_start : (leaveHead s).start = s.start := rfl
@[simp] theorem leaveHead_line : (leaveHead s).line = s.line := rfl
@[simp] theorem leaveHead_roster : (leaveHead s).roster = s.roster := rfl
@[simp] theorem leaveHead_segs : (leaveHead s).segs = s.segs := rfl
@[simp] theorem leaveHead_repair : (leaveHead s).repair = s.repair := rfl
@[simp] theorem leaveHead_disputes : (leaveHead s).disputes = s.disputes := rfl
@[simp] theorem leaveHead_store : (leaveHead s).store = s.store := rfl
@[simp] theorem leaveHead_host : (leaveHead s).host = s.host := rfl
@[simp] theorem leaveHead_pending : (leaveHead s).pending = s.pending := rfl

/-! ### clearRoster -/

@[simp] theorem clearRoster_start : (clearRoster s).start = s.start := rfl
@[simp] theorem clearRoster_line : (clearRoster s).line = s.line := rfl
@[simp] theorem clearRoster_segs : (clearRoster s).segs = s.segs := rfl
@[simp] theorem clearRoster_repair : (clearRoster s).repair = s.repair := rfl
@[simp] theorem clearRoster_serve : (clearRoster s).serve = s.serve := rfl
@[simp] theorem clearRoster_disputes : (clearRoster s).disputes = s.disputes := rfl
@[simp] theorem clearRoster_store : (clearRoster s).store = s.store := rfl
@[simp] theorem clearRoster_host : (clearRoster s).host = s.host := rfl
@[simp] theorem clearRoster_pending : (clearRoster s).pending = s.pending := rfl

/-! ### clearBanks -/

@[simp] theorem clearBanks_start : (clearBanks s).start = s.start := rfl
@[simp] theorem clearBanks_line : (clearBanks s).line = s.line := rfl
@[simp] theorem clearBanks_segs : (clearBanks s).segs = s.segs := rfl
@[simp] theorem clearBanks_repair : (clearBanks s).repair = s.repair := rfl
@[simp] theorem clearBanks_serve : (clearBanks s).serve = s.serve := rfl
@[simp] theorem clearBanks_disputes : (clearBanks s).disputes = s.disputes := rfl
@[simp] theorem clearBanks_store : (clearBanks s).store = s.store := rfl
@[simp] theorem clearBanks_host : (clearBanks s).host = s.host := rfl
@[simp] theorem clearBanks_pending : (clearBanks s).pending = s.pending := rfl

/-! ### endReception -/

@[simp] theorem endReception_start : (endReception s).start = s.start := rfl
@[simp] theorem endReception_roster : (endReception s).roster = s.roster := rfl
@[simp] theorem endReception_segs : (endReception s).segs = s.segs := rfl
@[simp] theorem endReception_repair : (endReception s).repair = s.repair := rfl
@[simp] theorem endReception_serve : (endReception s).serve = s.serve := rfl
@[simp] theorem endReception_disputes : (endReception s).disputes = s.disputes := rfl
@[simp] theorem endReception_store : (endReception s).store = s.store := rfl
@[simp] theorem endReception_host : (endReception s).host = s.host := rfl
@[simp] theorem endReception_pending : (endReception s).pending = s.pending := rfl

/-! ### receiverOn -/

@[simp] theorem receiverOn_start : (receiverOn s).start = s.start := rfl
@[simp] theorem receiverOn_roster : (receiverOn s).roster = s.roster := rfl
@[simp] theorem receiverOn_segs : (receiverOn s).segs = s.segs := rfl
@[simp] theorem receiverOn_repair : (receiverOn s).repair = s.repair := rfl
@[simp] theorem receiverOn_serve : (receiverOn s).serve = s.serve := rfl
@[simp] theorem receiverOn_disputes : (receiverOn s).disputes = s.disputes := rfl
@[simp] theorem receiverOn_store : (receiverOn s).store = s.store := rfl
@[simp] theorem receiverOn_host : (receiverOn s).host = s.host := rfl
@[simp] theorem receiverOn_pending : (receiverOn s).pending = s.pending := rfl

/-! ### lineOff -/

@[simp] theorem lineOff_start (fl : Flight) : (lineOff fl s).start = s.start := rfl
@[simp] theorem lineOff_roster (fl : Flight) : (lineOff fl s).roster = s.roster := rfl
@[simp] theorem lineOff_segs (fl : Flight) : (lineOff fl s).segs = s.segs := rfl
@[simp] theorem lineOff_repair (fl : Flight) : (lineOff fl s).repair = s.repair := rfl
@[simp] theorem lineOff_serve (fl : Flight) : (lineOff fl s).serve = s.serve := rfl
@[simp] theorem lineOff_disputes (fl : Flight) : (lineOff fl s).disputes = s.disputes := rfl
@[simp] theorem lineOff_store (fl : Flight) : (lineOff fl s).store = s.store := rfl
@[simp] theorem lineOff_host (fl : Flight) : (lineOff fl s).host = s.host := rfl
@[simp] theorem lineOff_pending (fl : Flight) : (lineOff fl s).pending = s.pending := rfl

/-! ### repairOff -/

@[simp] theorem repairOff_start : (repairOff s).start = s.start := rfl
@[simp] theorem repairOff_line : (repairOff s).line = s.line := rfl
@[simp] theorem repairOff_roster : (repairOff s).roster = s.roster := rfl
@[simp] theorem repairOff_segs : (repairOff s).segs = s.segs := rfl
@[simp] theorem repairOff_serve : (repairOff s).serve = s.serve := rfl
@[simp] theorem repairOff_disputes : (repairOff s).disputes = s.disputes := rfl
@[simp] theorem repairOff_store : (repairOff s).store = s.store := rfl
@[simp] theorem repairOff_host : (repairOff s).host = s.host := rfl
@[simp] theorem repairOff_pending : (repairOff s).pending = s.pending := rfl

/-! ### forgetAll -/

@[simp] theorem forgetAll_start : (forgetAll s).start = s.start := rfl
@[simp] theorem forgetAll_line : (forgetAll s).line = s.line := rfl
@[simp] theorem forgetAll_roster : (forgetAll s).roster = s.roster := rfl
@[simp] theorem forgetAll_repair : (forgetAll s).repair = s.repair := rfl
@[simp] theorem forgetAll_serve : (forgetAll s).serve = s.serve := rfl
@[simp] theorem forgetAll_disputes : (forgetAll s).disputes = s.disputes := rfl
@[simp] theorem forgetAll_store : (forgetAll s).store = s.store := rfl
@[simp] theorem forgetAll_host : (forgetAll s).host = s.host := rfl
@[simp] theorem forgetAll_pending : (forgetAll s).pending = s.pending := rfl

/-! ### dropHolders -/

@[simp] theorem dropHolders_start (p : Station) : (dropHolders p s).start = s.start := rfl
@[simp] theorem dropHolders_line (p : Station) : (dropHolders p s).line = s.line := rfl
@[simp] theorem dropHolders_roster (p : Station) : (dropHolders p s).roster = s.roster := rfl
@[simp] theorem dropHolders_repair (p : Station) : (dropHolders p s).repair = s.repair := rfl
@[simp] theorem dropHolders_serve (p : Station) : (dropHolders p s).serve = s.serve := rfl
@[simp] theorem dropHolders_disputes (p : Station) : (dropHolders p s).disputes = s.disputes := rfl
@[simp] theorem dropHolders_store (p : Station) : (dropHolders p s).store = s.store := rfl
@[simp] theorem dropHolders_host (p : Station) : (dropHolders p s).host = s.host := rfl
@[simp] theorem dropHolders_pending (p : Station) : (dropHolders p s).pending = s.pending := rfl

/-! ### probe -/

@[simp] theorem probe_start : (probe s).start = s.start := rfl
@[simp] theorem probe_line : (probe s).line = s.line := rfl
@[simp] theorem probe_roster : (probe s).roster = s.roster := rfl
@[simp] theorem probe_segs : (probe s).segs = s.segs := rfl
@[simp] theorem probe_repair : (probe s).repair = s.repair := rfl
@[simp] theorem probe_serve : (probe s).serve = s.serve := rfl
@[simp] theorem probe_disputes : (probe s).disputes = s.disputes := rfl
@[simp] theorem probe_host : (probe s).host = s.host := rfl
@[simp] theorem probe_pending : (probe s).pending = s.pending := rfl

/-! ### setSlot, setRoster -/

@[simp] theorem setSlot_start (n : SlotName) (v : Option Slot) : (setSlot n v s).start = s.start := by cases n <;> rfl
@[simp] theorem setSlot_line (n : SlotName) (v : Option Slot) : (setSlot n v s).line = s.line := by cases n <;> rfl
@[simp] theorem setSlot_roster (n : SlotName) (v : Option Slot) : (setSlot n v s).roster = s.roster := by cases n <;> rfl
@[simp] theorem setSlot_segs (n : SlotName) (v : Option Slot) : (setSlot n v s).segs = s.segs := by cases n <;> rfl
@[simp] theorem setSlot_serve (n : SlotName) (v : Option Slot) : (setSlot n v s).serve = s.serve := by cases n <;> rfl
@[simp] theorem setSlot_disputes (n : SlotName) (v : Option Slot) : (setSlot n v s).disputes = s.disputes := by cases n <;> rfl
@[simp] theorem setSlot_store (n : SlotName) (v : Option Slot) : (setSlot n v s).store = s.store := by cases n <;> rfl
@[simp] theorem setSlot_host (n : SlotName) (v : Option Slot) : (setSlot n v s).host = s.host := by cases n <;> rfl
@[simp] theorem setSlot_pending (n : SlotName) (v : Option Slot) : (setSlot n v s).pending = s.pending := by cases n <;> rfl
@[simp] theorem setSlot_queue (n : SlotName) (v : Option Slot) : (setSlot n v s).repair.queue = s.repair.queue := by cases n <;> rfl
@[simp] theorem setSlot_stack (n : SlotName) (v : Option Slot) : (setSlot n v s).repair.stack = s.repair.stack := by cases n <;> rfl
@[simp] theorem setSlot_pins (n : SlotName) (v : Option Slot) : (setSlot n v s).repair.pins = s.repair.pins := by cases n <;> rfl
@[simp] theorem setSlot_commit (n : SlotName) (v : Option Slot) : (setSlot n v s).repair.commit = s.repair.commit := by cases n <;> rfl
@[simp] theorem setSlot_cond (n : SlotName) (v : Option Slot) : (setSlot n v s).repair.cond = s.repair.cond := by cases n <;> rfl
@[simp] theorem setSlot_patience (n : SlotName) (v : Option Slot) : (setSlot n v s).repair.patience = s.repair.patience := by cases n <;> rfl
@[simp] theorem setRoster_start (p : Station) (e : RosterEntry) : (setRoster p e s).start = s.start := by unfold setRoster; split <;> rfl
@[simp] theorem setRoster_line (p : Station) (e : RosterEntry) : (setRoster p e s).line = s.line := by unfold setRoster; split <;> rfl
@[simp] theorem setRoster_segs (p : Station) (e : RosterEntry) : (setRoster p e s).segs = s.segs := by unfold setRoster; split <;> rfl
@[simp] theorem setRoster_repair (p : Station) (e : RosterEntry) : (setRoster p e s).repair = s.repair := by unfold setRoster; split <;> rfl
@[simp] theorem setRoster_serve (p : Station) (e : RosterEntry) : (setRoster p e s).serve = s.serve := by unfold setRoster; split <;> rfl
@[simp] theorem setRoster_disputes (p : Station) (e : RosterEntry) : (setRoster p e s).disputes = s.disputes := by unfold setRoster; split <;> rfl
@[simp] theorem setRoster_store (p : Station) (e : RosterEntry) : (setRoster p e s).store = s.store := by unfold setRoster; split <;> rfl
@[simp] theorem setRoster_host (p : Station) (e : RosterEntry) : (setRoster p e s).host = s.host := by unfold setRoster; split <;> rfl
@[simp] theorem setRoster_pending (p : Station) (e : RosterEntry) : (setRoster p e s).pending = s.pending := by unfold setRoster; split <;> rfl
@[simp] theorem setRoster_beacon (p : Station) (e : RosterEntry) : (setRoster p e s).roster.beacon = s.roster.beacon := by unfold setRoster; split <;> rfl
@[simp] theorem setRoster_pointer (p : Station) (e : RosterEntry) : (setRoster p e s).roster.pointer = s.roster.pointer := by unfold setRoster; split <;> rfl
@[simp] theorem setRoster_banks (p : Station) (e : RosterEntry) : (setRoster p e s).roster.banks = s.roster.banks := by unfold setRoster; split <;> rfl

/-! ### Records and digests -/

@[simp] theorem changeDigest_start (b : Nat) (d : Signature) : (changeDigest b d s).start = s.start := by unfold changeDigest; split <;> rfl
@[simp] theorem changeDigest_line (b : Nat) (d : Signature) : (changeDigest b d s).line = s.line := by unfold changeDigest; split <;> rfl
@[simp] theorem changeDigest_repair (b : Nat) (d : Signature) : (changeDigest b d s).repair = s.repair := by unfold changeDigest; split <;> rfl
@[simp] theorem changeDigest_serve (b : Nat) (d : Signature) : (changeDigest b d s).serve = s.serve := by unfold changeDigest; split <;> rfl
@[simp] theorem changeDigest_disputes (b : Nat) (d : Signature) : (changeDigest b d s).disputes = s.disputes := by unfold changeDigest; split <;> rfl
@[simp] theorem changeDigest_store (b : Nat) (d : Signature) : (changeDigest b d s).store = s.store := by unfold changeDigest; split <;> rfl
@[simp] theorem changeDigest_host (b : Nat) (d : Signature) : (changeDigest b d s).host = s.host := by unfold changeDigest; split <;> rfl
@[simp] theorem changeDigest_pending (b : Nat) (d : Signature) : (changeDigest b d s).pending = s.pending := by unfold changeDigest; split <;> rfl
@[simp] theorem changeDigest_entries (b : Nat) (d : Signature) : (changeDigest b d s).roster.entries = s.roster.entries := by unfold changeDigest; split <;> rfl
@[simp] theorem changeDigest_beacon (b : Nat) (d : Signature) : (changeDigest b d s).roster.beacon = s.roster.beacon := by unfold changeDigest; split <;> rfl
@[simp] theorem changeDigest_pointer (b : Nat) (d : Signature) : (changeDigest b d s).roster.pointer = s.roster.pointer := by unfold changeDigest; split <;> rfl
@[simp] theorem changeDigest_recs (b : Nat) (d : Signature) : (changeDigest b d s).segs.recs = s.segs.recs := by unfold changeDigest; split <;> rfl
@[simp] theorem putRec_start (i : Nat) (r : SegRec) : (putRec i r s).start = s.start := by unfold putRec; split <;> simp
@[simp] theorem putRec_line (i : Nat) (r : SegRec) : (putRec i r s).line = s.line := by unfold putRec; split <;> simp
@[simp] theorem putRec_repair (i : Nat) (r : SegRec) : (putRec i r s).repair = s.repair := by unfold putRec; split <;> simp
@[simp] theorem putRec_serve (i : Nat) (r : SegRec) : (putRec i r s).serve = s.serve := by unfold putRec; split <;> simp
@[simp] theorem putRec_disputes (i : Nat) (r : SegRec) : (putRec i r s).disputes = s.disputes := by unfold putRec; split <;> simp
@[simp] theorem putRec_store (i : Nat) (r : SegRec) : (putRec i r s).store = s.store := by unfold putRec; split <;> simp
@[simp] theorem putRec_host (i : Nat) (r : SegRec) : (putRec i r s).host = s.host := by unfold putRec; split <;> simp
@[simp] theorem putRec_pending (i : Nat) (r : SegRec) : (putRec i r s).pending = s.pending := by unfold putRec; split <;> simp
@[simp] theorem putRec_entries (i : Nat) (r : SegRec) : (putRec i r s).roster.entries = s.roster.entries := by unfold putRec; split <;> simp
@[simp] theorem putRec_beacon (i : Nat) (r : SegRec) : (putRec i r s).roster.beacon = s.roster.beacon := by unfold putRec; split <;> simp
@[simp] theorem putRec_pointer (i : Nat) (r : SegRec) : (putRec i r s).roster.pointer = s.roster.pointer := by unfold putRec; split <;> simp
@[simp] theorem modifyRec_start (i : Nat) (g : SegRec → SegRec) : (modifyRec i g s).start = s.start := putRec_start s i _
@[simp] theorem modifyRec_line (i : Nat) (g : SegRec → SegRec) : (modifyRec i g s).line = s.line := putRec_line s i _
@[simp] theorem modifyRec_repair (i : Nat) (g : SegRec → SegRec) : (modifyRec i g s).repair = s.repair := putRec_repair s i _
@[simp] theorem modifyRec_serve (i : Nat) (g : SegRec → SegRec) : (modifyRec i g s).serve = s.serve := putRec_serve s i _
@[simp] theorem modifyRec_disputes (i : Nat) (g : SegRec → SegRec) : (modifyRec i g s).disputes = s.disputes := putRec_disputes s i _
@[simp] theorem modifyRec_store (i : Nat) (g : SegRec → SegRec) : (modifyRec i g s).store = s.store := putRec_store s i _
@[simp] theorem modifyRec_host (i : Nat) (g : SegRec → SegRec) : (modifyRec i g s).host = s.host := putRec_host s i _
@[simp] theorem modifyRec_pending (i : Nat) (g : SegRec → SegRec) : (modifyRec i g s).pending = s.pending := putRec_pending s i _

/-- R18: a record written is the record read back; outside the table nothing is written. -/
theorem putRec_recs (i : Nat) (r : SegRec) : (putRec i r s).segs.recs = s.segs.recs.set i r := by
  unfold putRec segCount
  split
  · simp
  · rw [List.set_eq_of_length_le (by omega)]

theorem getRec_putRec_self (i : Nat) (r : SegRec) (h : i < segCount s) : getRec (putRec i r s) i = r := by
  unfold getRec segCount at *
  simp [putRec_recs, h]

theorem getRec_putRec_other (i j : Nat) (r : SegRec) (h : i ≠ j) : getRec (putRec i r s) j = getRec s j := by
  unfold getRec
  simp [putRec_recs, h]

theorem getRec_modifyRec_self (i : Nat) (g : SegRec → SegRec) (h : i < segCount s) :
    getRec (modifyRec i g s) i = g (getRec s i) := getRec_putRec_self s i _ h

theorem getRec_modifyRec_other (i j : Nat) (g : SegRec → SegRec) (h : i ≠ j) :
    getRec (modifyRec i g s) j = getRec s j := getRec_putRec_other s i j _ h

theorem modifyRec_outside (i : Nat) (g : SegRec → SegRec) (h : ¬ i < segCount s) : modifyRec i g s = s := by
  simp [modifyRec, putRec, h]

@[simp] theorem segCount_putRec (i : Nat) (r : SegRec) : segCount (putRec i r s) = segCount s := by
  simp [segCount, putRec_recs]

/-! ### The store arbiter -/

@[simp] theorem arbitrate_start : (arbitrate s).start = s.start := by unfold arbitrate beginWrite; (repeat' split) <;> rfl
@[simp] theorem arbitrate_line : (arbitrate s).line = s.line := by unfold arbitrate beginWrite; (repeat' split) <;> rfl
@[simp] theorem arbitrate_roster : (arbitrate s).roster = s.roster := by unfold arbitrate beginWrite; (repeat' split) <;> rfl
@[simp] theorem arbitrate_segs : (arbitrate s).segs = s.segs := by unfold arbitrate beginWrite; (repeat' split) <;> rfl
@[simp] theorem arbitrate_repair : (arbitrate s).repair = s.repair := by unfold arbitrate beginWrite; (repeat' split) <;> rfl
@[simp] theorem arbitrate_serve : (arbitrate s).serve = s.serve := by unfold arbitrate beginWrite; (repeat' split) <;> rfl
@[simp] theorem arbitrate_disputes : (arbitrate s).disputes = s.disputes := by unfold arbitrate beginWrite; (repeat' split) <;> rfl
@[simp] theorem arbitrate_host : (arbitrate s).host = s.host := by unfold arbitrate beginWrite; (repeat' split) <;> rfl
@[simp] theorem arbitrate_pending : (arbitrate s).pending = s.pending := by unfold arbitrate beginWrite; (repeat' split) <;> rfl

end Sys2Proof.Machine
end

