-- ==== Sys2Proof/Laws/Lists.lean ====
section
/-! SUPPORT. What the list operations of the model keep: removing the last match, inserting in order, the outbox after
an offer (R34 to R36), the event queue after an offer (R184), chunk masks. -/

namespace Sys2Proof.Machine

/-! ### removeLast -/

theorem removeLast_sublist {α : Type} (p : α → Bool) (l : List α) : (removeLast p l).Sublist l := by
  have h : (l.reverse.eraseP p).Sublist l.reverse := List.eraseP_sublist
  simpa [removeLast] using h.reverse

theorem removeLast_length {α : Type} (p : α → Bool) (l : List α) (h : l.any p = true) :
    (removeLast p l).length + 1 = l.length := by
  obtain ⟨a, ha, hp⟩ := List.any_eq_true.mp h
  have h1 := List.length_eraseP_of_mem (List.mem_reverse.mpr ha) hp
  have h2 : 0 < l.length := List.length_pos_of_mem ha
  simp only [removeLast, List.length_reverse] at *
  omega

/-- Removing a match keeps every filter that no match meets. -/
theorem removeLast_filter {α : Type} (p q : α → Bool) (l : List α) (h : ∀ a, p a = true → q a = false) :
    (removeLast p l).filter q = l.filter q := by
  have key : ∀ m : List α, (m.eraseP p).filter q = m.filter q := by
    intro m
    induction m with
    | nil => rfl
    | cons a rest ih =>
      by_cases hp : p a = true
      · simp [List.eraseP_cons_of_pos hp, h a hp]
      · rw [List.eraseP_cons_of_neg hp]
        simp [List.filter_cons, ih]
  simp [removeLast, List.filter_reverse, key]

/-! ### Insertion in order -/

theorem insertDesc_perm (d : Desc) (l : List Desc) : (insertDesc d l).Perm (d :: l) := by
  induction l with
  | nil => exact List.Perm.refl _
  | cons x rest ih =>
    unfold insertDesc
    split
    · exact (List.Perm.cons x ih).trans (List.Perm.swap d x rest)
    · exact List.Perm.refl _

theorem insertDesc_sorted (d : Desc) (l : List Desc)
    (h : l.Pairwise (fun a b => codeOf a.ident ≤ codeOf b.ident)) :
    (insertDesc d l).Pairwise (fun a b => codeOf a.ident ≤ codeOf b.ident) := by
  induction l with
  | nil => simp [insertDesc]
  | cons x rest ih =>
    rw [List.pairwise_cons] at h
    unfold insertDesc
    split
    · rename_i hx
      refine List.pairwise_cons.mpr ⟨fun b hb => ?_, ih h.2⟩
      rcases List.mem_cons.mp ((insertDesc_perm d rest).mem_iff.mp hb) with rfl | hb
      · exact hx
      · exact h.1 b hb
    · rename_i hx
      refine List.pairwise_cons.mpr ⟨fun b hb => ?_, List.pairwise_cons.mpr h⟩
      rcases List.mem_cons.mp hb with rfl | hb
      · omega
      · have := h.1 b hb; omega

theorem insertEntry_perm (e : Entry) (l : List Entry) : (insertEntry e l).Perm (e :: l) := by
  induction l with
  | nil => exact List.Perm.refl _
  | cons x rest ih =>
    unfold insertEntry
    split
    · exact (List.Perm.cons x ih).trans (List.Perm.swap e x rest)
    · exact List.Perm.refl _

theorem insertEntry_sorted (e : Entry) (l : List Entry)
    (h : l.Pairwise (fun a b => levelRank b.level ≤ levelRank a.level)) :
    (insertEntry e l).Pairwise (fun a b => levelRank b.level ≤ levelRank a.level) := by
  induction l with
  | nil => simp [insertEntry]
  | cons x rest ih =>
    rw [List.pairwise_cons] at h
    unfold insertEntry
    split
    · rename_i hx
      refine List.pairwise_cons.mpr ⟨fun b hb => ?_, ih h.2⟩
      rcases List.mem_cons.mp ((insertEntry_perm e rest).mem_iff.mp hb) with rfl | hb
      · exact hx
      · exact h.1 b hb
    · rename_i hx
      refine List.pairwise_cons.mpr ⟨fun b hb => ?_, List.pairwise_cons.mpr h⟩
      rcases List.mem_cons.mp hb with rfl | hb
      · omega
      · have := h.1 b hb; omega

/-! ### The outbox after an offer -/

@[simp] theorem mergeDesc_ident (t : Option Stamp) (d : Desc) : (mergeDesc t d).ident = d.ident := rfl

@[simp] theorem mergeDesc_inTransmission (t : Option Stamp) (d : Desc) :
    (mergeDesc t d).inTransmission = d.inTransmission := rfl

theorem map_merge_idents (id : FrameId) (t : Option Stamp) (l : List Desc) :
    (l.map fun d => if d.ident = id then mergeDesc t d else d).map (·.ident) = l.map (·.ident) := by
  induction l with
  | nil => rfl
  | cons d rest ih => simp only [List.map_cons, ih]; congr 1; split <;> rfl

theorem inFlight_merge (id : FrameId) (t : Option Stamp) (l : List Desc) :
    inFlight (l.map fun d => if d.ident = id then mergeDesc t d else d) = inFlight l := by
  induction l with
  | nil => rfl
  | cons d rest ih =>
    simp only [inFlight, List.map_cons, List.filter_cons] at *
    by_cases h : d.ident = id <;> by_cases g : d.inTransmission = true <;> simp [h, g, ih]

theorem inFlight_insert (d : Desc) (l : List Desc) (h : d.inTransmission = false) :
    inFlight (insertDesc d l) = inFlight l := by
  induction l with
  | nil => simp [inFlight, insertDesc, h]
  | cons x rest ih =>
    unfold insertDesc
    split
    · simp only [inFlight, List.filter_cons] at *
      split <;> simp [ih]
    · simp [inFlight, List.filter_cons, h]

theorem greatestCode_pos (box : List Desc) (n : Nat) (h : n < greatestCode box) :
    (box.any fun d => !d.inTransmission && codeOf d.ident == greatestCode box) = true := by
  have key : ∀ (l : List Desc) (g : Nat),
      l.foldl (fun g d => max g (codeOf d.ident)) g = g ∨
        ∃ d ∈ l, codeOf d.ident = l.foldl (fun g d => max g (codeOf d.ident)) g := by
    intro l
    induction l with
    | nil => intro g; exact .inl rfl
    | cons a rest ih =>
      intro g
      rcases ih (max g (codeOf a.ident)) with h1 | ⟨d, hd, h1⟩
      · simp only [List.foldl_cons, h1]
        rcases Nat.le_total g (codeOf a.ident) with h2 | h2
        · exact .inr ⟨a, by simp, by simp [Nat.max_eq_right h2]⟩
        · exact .inl (Nat.max_eq_left h2)
      · exact .inr ⟨d, by simp [hd], by simpa using h1⟩
  rcases key (box.filter fun d => !d.inTransmission) 0 with h1 | ⟨d, hd, h1⟩
  · unfold greatestCode at h; omega
  · simp only [List.mem_filter] at hd
    exact List.any_eq_true.mpr ⟨d, hd.1, by simp only [hd.2, Bool.true_and, beq_iff_eq]; exact h1⟩

/-- R34 to R36: whatever an offer does, the outbox keeps its form and the descriptor in transmission. -/
theorem offerBox_ok (id : FrameId) (t : Option Stamp) (box : List Desc) (h : OutboxOk box) :
    OutboxOk (offerBox id t box).1 := by
  obtain ⟨hl, hn, hs⟩ := h
  unfold offerBox
  split
  · refine ⟨by simpa using hl, by rw [map_merge_idents]; exact hn, ?_⟩
    rw [List.pairwise_map]
    refine hs.imp fun {a b} hab => ?_
    split <;> split <;> simpa using hab
  · rename_i hid
    have hnew : ∀ d ∈ box, d.ident ≠ id := by simpa using hid
    have add : ∀ l : List Desc, l.Sublist box → l.length < 12 →
        OutboxOk (insertDesc { ident := id, ballotStamp := t, inTransmission := false, renewed := false } l) := by
      intro l hsub hlen
      refine ⟨?_, ?_, insertDesc_sorted _ _ (hs.sublist hsub)⟩
      · rw [(insertDesc_perm _ _).length_eq]; simp only [List.length_cons, Config.outboxCapacity]; omega
      · rw [((insertDesc_perm _ _).map _).nodup_iff, List.map_cons, List.nodup_cons]
        refine ⟨?_, hn.sublist (hsub.map _)⟩
        simp only [List.mem_map, not_exists, not_and]
        exact fun d hd => hnew d (hsub.subset hd)
    split
    · rename_i hlt
      exact add box (List.Sublist.refl _) hlt
    · split
      · exact ⟨hl, hn, hs⟩
      · rename_i hg
        refine add _ (removeLast_sublist _ _) ?_
        have := removeLast_length _ box (greatestCode_pos box (codeOf id) (by omega))
        simp only [Config.outboxCapacity] at hl
        omega

theorem offerBox_inFlight (id : FrameId) (t : Option Stamp) (box : List Desc) :
    inFlight (offerBox id t box).1 = inFlight box := by
  unfold offerBox
  split
  · exact inFlight_merge id t box
  · split
    · exact inFlight_insert _ _ rfl
    · split
      · rfl
      · simp only
        rw [inFlight_insert _ _ rfl]
        unfold inFlight
        rw [removeLast_filter _ _ _ (by intro a ha; simp only [Bool.and_eq_true, Bool.not_eq_true'] at ha; exact ha.1)]

/-! ### The event queue after an offer -/

theorem offerEvent_ok (e : Event) (q : List Event) (h : EventsOk q) : EventsOk (offerEvent e q) := by
  obtain ⟨hl, hd⟩ := h
  unfold offerEvent
  split
  · exact ⟨hl, hd⟩
  · rename_i hno
    have hno : holdsLost q = false := by simpa using hno
    have h15 : Config.eventRoom = 15 := rfl
    split
    · exact ⟨by simp only [List.length_append, List.length_singleton]; omega, by simpa using hno⟩
    · split
      · exact ⟨by simp only [List.length_append, List.length_singleton]; omega, by simpa using hno⟩
      · exact ⟨hl, hd⟩

theorem eventsOk_drop (q : List Event) (n : Nat) (h : EventsOk q) : EventsOk (q.drop n) := by
  refine ⟨by simp only [List.length_drop]; have := h.1; omega, ?_⟩
  have hd := h.2
  simp only [holdsLost, List.any_eq_false, decide_eq_true_eq] at hd ⊢
  intro e he
  refine hd e ?_
  have hsub : (q.drop n).dropLast = q.dropLast.drop n := by
    rw [List.dropLast_eq_take, List.dropLast_eq_take, List.length_drop, List.drop_take]
    congr 1
    omega
  rw [hsub] at he
  exact List.mem_of_mem_drop he

/-! ### Chunk masks -/

theorem chunkCount_add (m : ChunkMask) (c : Chunk) : chunkCount (addChunk m c) ≤ chunkCount m + 1 := by
  have : ∀ (m : ChunkMask) (c : Chunk), chunkCount (addChunk m c) ≤ chunkCount m + 1 := by decide +kernel
  exact this m c

theorem chunkCount_drop (m : ChunkMask) (c : Chunk) : chunkCount (dropChunk m c) ≤ chunkCount m := by
  have : ∀ (m : ChunkMask) (c : Chunk), chunkCount (dropChunk m c) ≤ chunkCount m := by decide +kernel
  exact this m c

@[simp] theorem chunkCount_zero : chunkCount 0 = 0 := by decide

end Sys2Proof.Machine
end

