-- ==== Sys2Proof/Laws/Digests.lean ====
section
/-! SUPPORT. R18: the digest kept in place equals the recount of the bank, whatever record is written. -/

namespace Sys2Proof.Machine

/-- The exclusive-OR of the values of `g` over a list. -/
def xorOver (g : Nat → Signature) (l : List Nat) : Signature := l.foldl (fun acc o => acc ^^^ g o) 0

theorem xorOver_from (g : Nat → Signature) (l : List Nat) (a : Signature) :
    l.foldl (fun acc o => acc ^^^ g o) a = a ^^^ xorOver g l := by
  induction l generalizing a with
  | nil => simp [xorOver]
  | cons x rest ih =>
    simp only [xorOver, List.foldl_cons]
    rw [ih, ih (0 ^^^ g x)]
    simp [BitVec.xor_assoc]

theorem xorOver_cons (g : Nat → Signature) (x : Nat) (l : List Nat) : xorOver g (x :: l) = g x ^^^ xorOver g l := by
  simp only [xorOver, List.foldl_cons]
  rw [xorOver_from]
  simp [xorOver]

theorem xorOver_congr (g g' : Nat → Signature) (l : List Nat) (h : ∀ o ∈ l, g o = g' o) :
    xorOver g l = xorOver g' l := by
  induction l with
  | nil => rfl
  | cons x rest ih =>
    rw [xorOver_cons, xorOver_cons, h x (by simp), ih fun o ho => h o (by simp [ho])]

/-- One value of the bank changes: the exclusive-OR changes by the old and the new value. -/
theorem xorOver_change (g g' : Nat → Signature) (l : List Nat) (k : Nat) (hk : k ∈ l) (hn : l.Nodup)
    (h : ∀ o ∈ l, o ≠ k → g o = g' o) : xorOver g' l = xorOver g l ^^^ (g k ^^^ g' k) := by
  induction l with
  | nil => simp at hk
  | cons x rest ih =>
    rw [List.nodup_cons] at hn
    rw [xorOver_cons, xorOver_cons]
    by_cases hx : x = k
    · subst hx
      have : xorOver g rest = xorOver g' rest :=
        xorOver_congr g g' rest fun o ho => h o (by simp [ho]) (fun e => hn.1 (e ▸ ho))
      rw [this]
      generalize xorOver g' rest = a
      generalize g x = b
      generalize g' x = c
      rw [BitVec.xor_comm b a, BitVec.xor_assoc, ← BitVec.xor_assoc b b c, BitVec.xor_self]
      simp [BitVec.xor_comm]
    · have hk' : k ∈ rest := by
        rcases List.mem_cons.mp hk with h | h
        · exact absurd h.symm hx
        · exact h
      rw [ih hk' hn.2 fun o ho => h o (by simp [ho]), h x (by simp) hx, BitVec.xor_assoc]

theorem recountDigest_eq (recs : List SegRec) (b : Nat) :
    recountDigest recs b = xorOver (fun o => rotated (Config.bankSize * b + o)
      (contributed (recs.getD (Config.bankSize * b + o) unknownRec))) (List.range Config.bankSize) := rfl

/-- A recount reads only the records of its bank. -/
theorem recountDigest_congr (recs recs' : List SegRec) (b : Nat)
    (h : ∀ o < Config.bankSize, contributed (recs.getD (Config.bankSize * b + o) unknownRec) =
      contributed (recs'.getD (Config.bankSize * b + o) unknownRec)) :
    recountDigest recs b = recountDigest recs' b := by
  rw [recountDigest_eq, recountDigest_eq]
  exact xorOver_congr _ _ _ fun o ho => by simp only [h o (List.mem_range.mp ho)]

theorem recountDigest_set (recs : List SegRec) (i : Nat) (r : SegRec) (hi : i < recs.length) :
    recountDigest (recs.set i r) (i / Config.bankSize) = recountDigest recs (i / Config.bankSize) ^^^
      (rotated i (contributed (recs.getD i unknownRec)) ^^^ rotated i (contributed r)) := by
  have hs : Config.bankSize = 64 := rfl
  have hk : Config.bankSize * (i / Config.bankSize) + i % Config.bankSize = i := Nat.div_add_mod i Config.bankSize
  rw [recountDigest_eq, recountDigest_eq,
    xorOver_change (fun o => rotated (Config.bankSize * (i / Config.bankSize) + o)
      (contributed (recs.getD (Config.bankSize * (i / Config.bankSize) + o) unknownRec))) _ _ (i % Config.bankSize)
      (List.mem_range.mpr (Nat.mod_lt _ (by omega))) List.nodup_range ?_]
  · simp only [hk]
    simp [List.getD_eq_getElem?_getD, hi]
  · intro o _ ho
    have : i ≠ Config.bankSize * (i / Config.bankSize) + o := by omega
    simp only [List.getD_eq_getElem?_getD, List.getElem?_set_ne this]

theorem recountDigest_set_other (recs : List SegRec) (i b : Nat) (r : SegRec) (hb : b ≠ i / Config.bankSize) :
    recountDigest (recs.set i r) b = recountDigest recs b := by
  refine recountDigest_congr _ _ _ fun o ho => ?_
  have : i ≠ Config.bankSize * b + o := by
    intro h
    apply hb
    rw [h, Nat.mul_add_div (by decide), Nat.div_eq_of_lt ho]
    omega
  simp only [List.getD_eq_getElem?_getD, List.getElem?_set_ne this]

theorem changeDigest_digests (b : Nat) (delta : Signature) (s : State) :
    (changeDigest b delta s).segs.digests = s.segs.digests.set b (s.segs.digests.getD b 0 ^^^ delta) := by
  unfold changeDigest
  split
  · rename_i h
    subst h
    by_cases hb : b < s.segs.digests.length
    · simp [List.getD_eq_getElem?_getD, hb]
    · rw [List.set_eq_of_length_le (by omega)]
  · rfl

theorem stopHoldoff_length (b : Nat) (d : Signature) (banks : List BankEntry) :
    (stopHoldoff b d banks).length = banks.length := by
  unfold stopHoldoff
  split
  · split <;> simp
  · rfl

@[simp] theorem putRec_recs_length (s : State) (i : Nat) (r : SegRec) :
    (putRec i r s).segs.recs.length = s.segs.recs.length := by simp [putRec_recs]

@[simp] theorem putRec_digests_length (s : State) (i : Nat) (r : SegRec) :
    (putRec i r s).segs.digests.length = s.segs.digests.length := by
  unfold putRec
  split
  · simp [changeDigest_digests]
  · rfl

@[simp] theorem putRec_banks_length (s : State) (i : Nat) (r : SegRec) :
    (putRec i r s).roster.banks.length = s.roster.banks.length := by
  unfold putRec changeDigest
  repeat' split
  all_goals simp [stopHoldoff_length]

/-- R18: the digests stay equal to the recount whatever record is written. -/
theorem putRec_digestsOk (s : State) (i : Nat) (r : SegRec) (h : DigestsOk s.segs) :
    DigestsOk (putRec i r s).segs := by
  refine ⟨by simpa using h.1, fun b hb => ?_⟩
  rw [putRec_digests_length] at hb
  have hb0 := h.2 b hb
  unfold putRec
  split
  · rename_i hi
    simp only [changeDigest_digests, changeDigest_recs]
    unfold segCount at hi
    by_cases hbi : b = i / Config.bankSize
    · subst hbi
      rw [recountDigest_set _ _ _ hi, ← hb0]
      simp [List.getD_eq_getElem?_getD, getRec, hb]
    · rw [recountDigest_set_other _ _ _ _ hbi, ← hb0]
      simp [List.getD_eq_getElem?_getD, List.getElem?_set_ne (Ne.symm hbi)]
  · exact hb0

/-- Records changed without a change of any contributed signature keep the digests right. -/
theorem digestsOk_map (g : SegTable) (f : SegRec → SegRec) (hf : ∀ r, contributed (f r) = contributed r)
    (h : DigestsOk g) : DigestsOk { g with recs := g.recs.map f } := by
  refine ⟨by simpa using h.1, fun b hb => ?_⟩
  rw [h.2 b hb]
  refine recountDigest_congr _ _ _ fun o _ => ?_
  simp only [List.getD_eq_getElem?_getD, List.getElem?_map]
  cases g.recs[Config.bankSize * b + o]? with
  | none => rfl
  | some r => simp [hf]

end Sys2Proof.Machine
end

