-- ==== Sys2Proof/Laws/Queue.lean ====
section
/-! SUPPORT. The repair queue with its suspend stack and its landing slots when the entry of one segment is changed,
leaves or joins: what `RepairOk` says of the unit after it. -/

namespace Sys2Proof.Machine

/-- The queue `q'` has the entries of `q` for other segments than `i`, and `x` for `i`. -/
def Replaced (q q' : List Entry) (i : Nat) (x : Option Entry) : Prop :=
  ∀ d, d ∈ q' ↔ x = some d ∨ (d ∈ q ∧ d.segment ≠ i)

variable {q q' : List Entry} {i : Nat} {x : Option Entry} {st : List Nat}

theorem levelRank_pos (l : Level) : 1 ≤ levelRank l := by cases l <;> decide

theorem levelRank_lower (l : Level) (h : l ≠ .demand) : levelRank l ≤ 2 := by
  cases l <;> first | (exact absurd rfl h) | decide

/-- An entry is the one of its segment. -/
theorem once_eq (h : (q.map (·.segment)).Nodup) {d e : Entry} (hd : d ∈ q) (he : e ∈ q) (hs : d.segment = e.segment) :
    d = e := List.inj_on_of_nodup_map h hd he hs

/-! ### The suspend stack -/

/-- R85: the segment leaves the stack when its entry leaves, waits or becomes active above every suspended one. -/
theorem StackOk.rest (h : StackOk q st) (hm : Replaced q q' i x) (hs : ∀ e, x = some e → e.state ≠ .suspended)
    (ha : ∀ e, x = some e → e.state = .active → ∀ d ∈ q, d.segment ≠ i → d.state = .suspended →
      levelRank d.level < levelRank e.level) :
    StackOk q' (st.filter fun j => decide (j ≠ i)) := by
  have old : ∀ d ∈ q', d.state = .suspended → d ∈ q ∧ d.segment ≠ i := by
    intro d hd hds
    rcases (hm d).mp hd with hd | hd
    · exact absurd hds (hs d hd)
    · exact hd
  refine ⟨Nat.le_trans (List.length_filter_le _ _) h.room, fun j => ?_, ?_, ?_, fun d hd hds => h.lower d (old d hd hds).1 hds⟩
  · simp only [List.mem_filter, decide_eq_true_eq, h.suspended]
    constructor
    · rintro ⟨⟨e, he, rfl, hes⟩, hj⟩
      exact ⟨e, (hm e).mpr (.inr ⟨he, hj⟩), rfl, hes⟩
    · rintro ⟨e, he, rfl, hes⟩
      exact ⟨⟨e, (old e he hes).1, rfl, hes⟩, (old e he hes).2⟩
  · refine (h.rising.sublist List.filter_sublist).imp fun {j k} hjk d hd e he hds hes => ?_
    exact hjk d (old d hd hds).1 e (old e he hes).1 hds hes
  · intro a haq d hd has hds
    rcases (hm a).mp haq with hax | hax
    · exact ha a hax has d (old d hd hds).1 (old d hd hds).2 hds
    · exact h.below a hax.1 d (old d hd hds).1 has hds

/-- R90: the active job's segment is pushed onto the stack. -/
theorem StackOk.push (h : StackOk q st) {e : Entry} (hm : Replaced q q' i (some e)) (hx : e.segment = i)
    (hs : e.state = .suspended) (hl : e.level ≠ .demand) (hi : i ∉ st)
    (hno : ∀ d ∈ q, d.segment ≠ i → d.state ≠ .active)
    (hb : ∀ d ∈ q, d.segment ≠ i → d.state = .suspended → levelRank d.level < levelRank e.level) :
    StackOk q' (i :: st) := by
  have cases' : ∀ d ∈ q', d = e ∨ (d ∈ q ∧ d.segment ≠ i) := by
    intro d hd
    rcases (hm d).mp hd with hd | hd
    · exact .inl (Option.some.inj hd).symm
    · exact .inr hd
  have mem_e : e ∈ q' := (hm e).mpr (.inl rfl)
  refine ⟨?_, fun j => ?_, ?_, ?_, ?_⟩
  · match st, h.suspended, h.rising, hi with
    | [], _, _, _ => simp [Config.stackCapacity]
    | [_], _, _, _ => simp [Config.stackCapacity]
    | j :: k :: rest, hsusp, hris, hi =>
      exfalso
      obtain ⟨d, hd, hdj, hds⟩ := (hsusp j).mp (by simp)
      obtain ⟨c, hc, hck, hcs⟩ := (hsusp k).mp (by simp)
      have h1 := (List.pairwise_cons.mp hris).1 k (by simp) d hd c hc hds hcs hdj hck
      have h2 := hb d hd (fun h => hi (by rw [← h, hdj]; simp)) hds
      have h3 := levelRank_lower _ hl
      have h4 := levelRank_pos c.level
      omega
  · constructor
    · intro hj
      rcases List.mem_cons.mp hj with rfl | hj
      · exact ⟨e, mem_e, hx, hs⟩
      · obtain ⟨d, hd, hdj, hds⟩ := (h.suspended j).mp hj
        exact ⟨d, (hm d).mpr (.inr ⟨hd, fun h => hi (by rw [← h, hdj]; exact hj)⟩), hdj, hds⟩
    · rintro ⟨d, hd, rfl, hds⟩
      rcases cases' d hd with rfl | hd
      · rw [hx]; simp
      · exact List.mem_cons_of_mem _ ((h.suspended _).mpr ⟨d, hd.1, rfl, hds⟩)
  · refine List.pairwise_cons.mpr ⟨fun j hj d hd c hc hds hcs hdi hcj => ?_, ?_⟩
    · have hji : j ≠ i := fun h => hi (by rw [← h]; exact hj)
      rcases cases' d hd with rfl | hd
      · rcases cases' c hc with rfl | hc
        · exact absurd (hcj.symm.trans hdi) hji
        · exact hb c hc.1 hc.2 hcs
      · exact absurd hdi hd.2
    · refine List.Pairwise.imp_of_mem ?_ h.rising
      intro j k hj hk hjk d hd c hc hds hcs hdj hck
      rcases cases' d hd with rfl | hd
      · exact absurd hj (by rw [← hdj, hx]; exact hi)
      · rcases cases' c hc with rfl | hc
        · exact absurd hk (by rw [← hck, hx]; exact hi)
        · exact hjk d hd.1 c hc.1 hds hcs hdj hck
  · intro a haq d hd has hds
    rcases cases' a haq with rfl | haq
    · rw [hs] at has; cases has
    · exact absurd has (hno a haq.1 haq.2)
  · intro d hd hds
    rcases cases' d hd with rfl | hd
    · exact hl
    · exact h.lower d hd.1 hds

/-! ### The landing slots -/

/-- R83: the slots of other segments stay, and those of segment `i` are as its entry says. -/
theorem SlotsOk.replace {r v : RepairUnit} (h : SlotsOk r) (hm : Replaced r.queue v.queue i x)
    (hx : ∀ e, x = some e → e.segment = i)
    (keep : ∀ n w, w.segment ≠ i → (v.slot n = some w ↔ r.slot n = some w))
    (mine : ∀ n w, v.slot n = some w → w.segment = i → ∃ e, x = some e ∧ e.slot = some n)
    (has : ∀ e n, x = some e → e.slot = some n → ∃ w, v.slot n = some w ∧ w.segment = i)
    (begun : ∀ e, x = some e → e.state ≠ .waiting → e.slot.isSome = true)
    (sweep : ∀ e, x = some e → e.state = .waiting → e.level = .sweep → e.slot = none) : SlotsOk v := by
  refine ⟨fun d hd n hn => ?_, fun n w hw => ?_, fun d hd hds => ?_, fun d hd hds hdl => ?_⟩
  · rcases (hm d).mp hd with hd | ⟨hd, hdi⟩
    · obtain ⟨w, hw, hwi⟩ := has d n hd hn
      exact ⟨w, hw, hwi.trans (hx d hd).symm⟩
    · obtain ⟨w, hw, hwd⟩ := h.held d hd n hn
      exact ⟨w, (keep n w (by rw [hwd]; exact hdi)).mpr hw, hwd⟩
  · by_cases hi : w.segment = i
    · obtain ⟨e, he, hen⟩ := mine n w hw hi
      exact ⟨e, (hm e).mpr (.inl he), (hx e he).trans hi.symm, hen⟩
    · obtain ⟨e, he, hew, hen⟩ := h.owned n w ((keep n w hi).mp hw)
      exact ⟨e, (hm e).mpr (.inr ⟨he, by rw [hew]; exact hi⟩), hew, hen⟩
  · rcases (hm d).mp hd with hd | hd
    · exact begun d hd hds
    · exact h.started d hd.1 hds
  · rcases (hm d).mp hd with hd | hd
    · exact sweep d hd hds hdl
    · exact h.sweep d hd.1 hds hdl

/-! ### The whole unit -/

/-- One entry replaced: the facts of the list, of the stack and of the slots make the unit's. -/
theorem RepairOk.replace {r v : RepairUnit} (h : RepairOk r) (hm : Replaced r.queue v.queue i x)
    (hx : ∀ e, x = some e → e.segment = i ∧ i ∉ r.pins) (room : v.queue.length ≤ Config.repairCapacity)
    (once : (v.queue.map (·.segment)).Nodup)
    (order : v.queue.Pairwise fun d e => levelRank e.level ≤ levelRank d.level) (pins : v.pins = r.pins)
    (one : ∀ e, x = some e → e.state = .active → ∀ d ∈ r.queue, d.segment ≠ i → d.state ≠ .active)
    (stack : StackOk v.queue v.stack) (slots : SlotsOk v) : RepairOk v := by
  refine ⟨room, once, order, fun d hd e he hda hea => ?_, by rw [pins]; exact h.pinRoom, by rw [pins]; exact h.pinsOnce,
    fun d hd => ?_, stack, slots⟩
  · rcases (hm d).mp hd with hd1 | hd1 <;> rcases (hm e).mp he with he1 | he1
    · rw [hd1] at he1; exact Option.some.inj he1
    · exact absurd hea (one d hd1 hda e he1.1 he1.2)
    · exact absurd hda (one e he1 hea d hd1.1 hd1.2)
    · exact h.oneActive d hd1.1 e he1.1 hda hea
  · rw [pins]
    rcases (hm d).mp hd with hd | hd
    · rw [(hx d hd).1]; exact (hx d hd).2
    · exact h.unpinned d hd.1

theorem StackOk.congr (h : StackOk q st) (hm : ∀ d, d ∈ q' ↔ d ∈ q) : StackOk q' st := by
  obtain ⟨a, b, c, d, e⟩ := h
  constructor <;> (try simp only [hm]) <;> assumption

/-- Only queue, stack, pins and slots count. -/
theorem RepairOk.congr {r v : RepairUnit} (h : RepairOk r) (hq : v.queue = r.queue) (hs : v.stack = r.stack)
    (hp : v.pins = r.pins) (hl : ∀ n, v.slot n = r.slot n) : RepairOk v := by
  obtain ⟨a, b, c, d, e, f, g, k, l, m, n, o⟩ := h
  refine ⟨by rw [hq]; exact a, by rw [hq]; exact b, by rw [hq]; exact c, by rw [hq]; exact d, by rw [hp]; exact e,
    by rw [hp]; exact f, by rw [hq, hp]; exact g, by rw [hq, hs]; exact k, ?_⟩
  exact ⟨by simp only [hq, hl]; exact l, by simp only [hq, hl]; exact m, by rw [hq]; exact n, by rw [hq]; exact o⟩

/-- R76: an empty queue with an empty stack and free slots. -/
theorem repairOk_empty {r : RepairUnit} (hq : r.queue = []) (hs : r.stack = []) (hl : ∀ n, r.slot n = none)
    (h1 : r.pins.length ≤ Config.pinCapacity) (h2 : r.pins.Nodup) : RepairOk r := by
  refine ⟨by simp [hq], by simp [hq], by simp [hq], by simp [hq], h1, h2, by simp [hq], ?_, ?_⟩
  · rw [hq, hs]; exact ⟨Nat.zero_le _, by simp, by simp, by simp, by simp⟩
  · exact ⟨by simp [hq], by simp [hl], by simp [hq], by simp [hq]⟩

/-! ### The changes of the queue -/

/-- The queue with the entry of segment `i` changed by `f`. -/
def changed (i : Nat) (f : Entry → Entry) (l : List Entry) : List Entry :=
  l.map fun e => if e.segment = i then f e else e

theorem changed_segments (i : Nat) (f : Entry → Entry) (hf : ∀ e, (f e).segment = e.segment) (l : List Entry) :
    (changed i f l).map (·.segment) = l.map (·.segment) := by
  rw [changed, List.map_map]
  refine List.map_congr_left fun e _ => ?_
  simp only [Function.comp]
  split
  · exact hf e
  · rfl

theorem changed_once (i : Nat) (f : Entry → Entry) (hf : ∀ e, (f e).segment = e.segment) (l : List Entry)
    (h : (l.map (·.segment)).Nodup) : ((changed i f l).map (·.segment)).Nodup := by
  rw [changed_segments i f hf]; exact h

theorem changed_order (i : Nat) (f : Entry → Entry) (hf : ∀ e, (f e).level = e.level) (l : List Entry)
    (h : l.Pairwise fun d e => levelRank e.level ≤ levelRank d.level) :
    (changed i f l).Pairwise fun d e => levelRank e.level ≤ levelRank d.level := by
  simp only [changed, List.pairwise_map]
  have hl : ∀ e : Entry, (if e.segment = i then f e else e).level = e.level := by intro e; split <;> simp [hf]
  refine h.imp fun {a b} hab => ?_
  rw [hl, hl]; exact hab

theorem changed_replaced {l : List Entry} (hn : (l.map (·.segment)).Nodup) {e : Entry} (he : e ∈ l) (f : Entry → Entry) :
    Replaced l (changed e.segment f l) e.segment (some (f e)) := by
  intro d
  simp only [changed, List.mem_map, Option.some.injEq]
  constructor
  · rintro ⟨c, hc, rfl⟩
    split
    · rename_i hs
      rw [once_eq hn hc he hs]; exact .inl rfl
    · rename_i hs; exact .inr ⟨hc, hs⟩
  · rintro (rfl | ⟨hd, hs⟩)
    · exact ⟨e, he, by rw [if_pos rfl]⟩
    · exact ⟨d, hd, by rw [if_neg hs]⟩

theorem changed_absent {l : List Entry} (h : ∀ e ∈ l, e.segment ≠ i) (f : Entry → Entry) : changed i f l = l := by
  unfold changed
  conv => rhs; rw [← List.map_id l]
  refine List.map_congr_left fun e he => ?_
  rw [if_neg (h e he)]; rfl

/-- R83: a slot that is taken keeps its place when its contents change. -/
theorem slots_value {r v : RepairUnit} (h : SlotsOk r) (hq : v.queue = r.queue)
    (hl : ∀ n, (v.slot n).map (·.segment) = (r.slot n).map (·.segment)) : SlotsOk v := by
  obtain ⟨a, b, c, d⟩ := h
  refine ⟨fun e he n hn => ?_, fun n w hw => ?_, by rw [hq]; exact c, by rw [hq]; exact d⟩
  · rw [hq] at he
    obtain ⟨w, hw, hws⟩ := a e he n hn
    have := hl n
    rw [hw] at this
    cases hv : v.slot n with
    | none => rw [hv] at this; cases this
    | some u =>
      rw [hv] at this
      exact ⟨u, rfl, (Option.some.inj this).trans hws⟩
  · have := hl n
    rw [hw] at this
    cases hr : r.slot n with
    | none => rw [hr] at this; cases this
    | some u =>
      rw [hr] at this
      have hs : w.segment = u.segment := Option.some.inj this
      rw [hq, hs]; exact b n u hr

theorem RepairOk.value {r v : RepairUnit} (h : RepairOk r) (hq : v.queue = r.queue) (hs : v.stack = r.stack)
    (hp : v.pins = r.pins) (hl : ∀ n, (v.slot n).map (·.segment) = (r.slot n).map (·.segment)) : RepairOk v := by
  obtain ⟨a, b, c, d, e, f, g, k, l⟩ := h
  exact ⟨by rw [hq]; exact a, by rw [hq]; exact b, by rw [hq]; exact c, by rw [hq]; exact d, by rw [hp]; exact e,
    by rw [hp]; exact f, by rw [hq, hp]; exact g, by rw [hq, hs]; exact k, slots_value l hq hl⟩

/-- The segment of an entry that is not suspended is not on the stack. -/
theorem not_stacked {l : List Entry} (h : StackOk l st) (hn : (l.map (·.segment)).Nodup) {e : Entry} (he : e ∈ l)
    (hs : e.state ≠ .suspended) : e.segment ∉ st := by
  intro hi
  obtain ⟨d, hd, hds, hdd⟩ := (h.suspended _).mp hi
  rw [once_eq hn hd he hds] at hdd
  exact hs hdd

theorem filter_stack (h : i ∉ st) : st.filter (fun j => decide (j ≠ i)) = st := by
  refine List.filter_eq_self.mpr fun j hj => ?_
  simp only [decide_eq_true_eq]
  exact fun hji => h (by rw [← hji]; exact hj)

theorem RepairOk.absent {r : RepairUnit} (h : RepairOk r) (hn : ∀ e ∈ r.queue, e.segment ≠ i) : i ∉ r.stack := by
  intro hi
  obtain ⟨d, hd, hds, _⟩ := (h.stack.suspended _).mp hi
  exact hn d hd hds

/-- R88, R91, R94: what an entry remembers changes; its place, its state and its slot stay. -/
theorem RepairOk.note {r : RepairUnit} (h : RepairOk r) (i : Nat) (f : Entry → Entry)
    (hf : ∀ e, (f e).segment = e.segment ∧ (f e).level = e.level ∧ (f e).state = e.state ∧ (f e).slot = e.slot) :
    RepairOk { r with queue := changed i f r.queue } := by
  by_cases hi : ∃ e ∈ r.queue, e.segment = i
  · obtain ⟨e, he, rfl⟩ := hi
    have hm := changed_replaced h.once he f
    obtain ⟨f1, f2, f3, f4⟩ := hf e
    have uniq : ∀ d ∈ changed e.segment f r.queue, ∃ c ∈ r.queue, c.segment = d.segment ∧ c.level = d.level ∧
        c.state = d.state ∧ c.slot = d.slot := by
      intro d hd
      rcases (hm d).mp hd with hd | hd
      · obtain rfl := Option.some.inj hd
        exact ⟨e, he, f1.symm, f2.symm, f3.symm, f4.symm⟩
      · exact ⟨d, hd.1, rfl, rfl, rfl, rfl⟩
    have back : ∀ c ∈ r.queue, ∃ d ∈ changed e.segment f r.queue, d.segment = c.segment ∧ d.level = c.level ∧
        d.state = c.state ∧ d.slot = c.slot := by
      intro c hc
      by_cases hs : c.segment = e.segment
      · rw [once_eq h.once hc he hs]
        exact ⟨f e, (hm _).mpr (.inl rfl), f1, f2, f3, f4⟩
      · exact ⟨c, (hm _).mpr (.inr ⟨hc, hs⟩), rfl, rfl, rfl, rfl⟩
    refine h.replace (v := { r with queue := changed e.segment f r.queue }) hm ?_ ?_ ?_ ?_ rfl ?_ ?_ ?_
    · intro d hd; obtain rfl := Option.some.inj hd; exact ⟨f1, h.unpinned e he⟩
    · simp only [changed, List.length_map]; exact h.room
    · exact changed_once _ _ (fun e => (hf e).1) _ h.once
    · exact changed_order _ _ (fun e => (hf e).2.1) _ h.order
    · intro d hd hda c hc hcs hca
      obtain rfl := Option.some.inj hd
      exact hcs (by rw [h.oneActive c hc e he hca (by rw [← f3]; exact hda)])
    · refine ⟨h.stack.room, fun j => ?_, ?_, ?_, ?_⟩
      · rw [h.stack.suspended]
        constructor
        · rintro ⟨c, hc, rfl, hcs⟩
          obtain ⟨d, hd, h1, _, h3, _⟩ := back c hc
          exact ⟨d, hd, h1, by rw [h3]; exact hcs⟩
        · rintro ⟨d, hd, rfl, hds⟩
          obtain ⟨c, hc, h1, _, h3, _⟩ := uniq d hd
          exact ⟨c, hc, h1, by rw [h3]; exact hds⟩
      · refine h.stack.rising.imp fun {j k} hjk d hd c hc hds hcs hdj hck => ?_
        obtain ⟨d', hd', a1, a2, a3, _⟩ := uniq d hd
        obtain ⟨c', hc', b1, b2, b3, _⟩ := uniq c hc
        rw [← a2, ← b2]
        exact hjk d' hd' c' hc' (by rw [a3]; exact hds) (by rw [b3]; exact hcs) (by rw [a1]; exact hdj) (by rw [b1]; exact hck)
      · intro d hd c hc hds hcs
        obtain ⟨d', hd', a1, a2, a3, _⟩ := uniq d hd
        obtain ⟨c', hc', b1, b2, b3, _⟩ := uniq c hc
        rw [← a2, ← b2]
        exact h.stack.below d' hd' c' hc' (by rw [a3]; exact hds) (by rw [b3]; exact hcs)
      · intro d hd hds
        obtain ⟨d', hd', a1, a2, a3, _⟩ := uniq d hd
        rw [← a2]; exact h.stack.lower d' hd' (by rw [a3]; exact hds)
    · refine ⟨fun d hd n hn => ?_, fun n w hw => ?_, fun d hd hds => ?_, fun d hd hds hdl => ?_⟩
      · obtain ⟨c, hc, a1, _, _, a4⟩ := uniq d hd
        rw [← a1]; exact h.slots.held c hc n (by rw [a4]; exact hn)
      · obtain ⟨c, hc, a1, a4⟩ := h.slots.owned n w hw
        obtain ⟨d, hd, b1, _, _, b4⟩ := back c hc
        exact ⟨d, hd, b1.trans a1, b4.trans a4⟩
      · obtain ⟨c, hc, _, _, a3, a4⟩ := uniq d hd
        rw [← a4]; exact h.slots.started c hc (by rw [a3]; exact hds)
      · obtain ⟨c, hc, _, a2, a3, a4⟩ := uniq d hd
        rw [← a4]; exact h.slots.sweep c hc (by rw [a3]; exact hds) (by rw [a2]; exact hdl)
  · rw [changed_absent (fun e he hs => hi ⟨e, he, hs⟩)]; exact h

/-- R91: a job with a slot becomes active above every suspended one, and leaves the stack. -/
theorem RepairOk.activate {r : RepairUnit} (h : RepairOk r) {e : Entry} (he : e ∈ r.queue)
    (hslot : e.slot.isSome = true) (hno : ∀ d ∈ r.queue, d.state ≠ .active)
    (hl : ∀ d ∈ r.queue, d.segment ≠ e.segment → d.state = .suspended → levelRank d.level < levelRank e.level) :
    RepairOk { r with
      queue := changed e.segment (fun e => { e with state := .active }) r.queue
      stack := r.stack.filter (fun j => decide (j ≠ e.segment)) } := by
  have hm := changed_replaced h.once he fun e => { e with state := .active }
  refine h.replace (v := { r with
      queue := changed e.segment (fun e => { e with state := .active }) r.queue
      stack := r.stack.filter (fun j => decide (j ≠ e.segment)) }) hm ?_ ?_ ?_ ?_ rfl ?_ ?_ ?_
  · intro d hd; obtain rfl := Option.some.inj hd; exact ⟨rfl, h.unpinned e he⟩
  · simp only [changed, List.length_map]; exact h.room
  · exact changed_once _ _ (by intro _; rfl) _ h.once
  · exact changed_order _ _ (by intro _; rfl) _ h.order
  · intro _ _ _ d hd _; exact hno d hd
  · refine h.stack.rest hm ?_ ?_
    · intro d hd; obtain rfl := Option.some.inj hd; simp
    · intro d hd _; obtain rfl := Option.some.inj hd; exact hl
  · refine h.slots.replace hm ?_ (fun _ _ _ => Iff.rfl) ?_ ?_ ?_ ?_
    · intro d hd; obtain rfl := Option.some.inj hd; rfl
    · intro n w hw hi
      obtain ⟨c, hc, hcs, hcn⟩ := h.slots.owned n w hw
      rw [once_eq h.once hc he (hcs.trans hi)] at hcn
      exact ⟨_, rfl, hcn⟩
    · intro d n hd hn; obtain rfl := Option.some.inj hd; exact h.slots.held e he n hn
    · intro d hd _; obtain rfl := Option.some.inj hd; exact hslot
    · intro d hd hds; obtain rfl := Option.some.inj hd; cases hds

/-- R87: a waiting entry without a slot takes a free one and becomes active. -/
theorem RepairOk.fresh {r v : RepairUnit} (h : RepairOk r) {e : Entry} (he : e ∈ r.queue) (hw : e.state = .waiting)
    (hnone : e.slot = none) (n : SlotName) (w : Slot) (hfree : r.slot n = none) (hws : w.segment = e.segment)
    (hno : ∀ d ∈ r.queue, d.state ≠ .active)
    (hl : ∀ d ∈ r.queue, d.segment ≠ e.segment → d.state = .suspended → levelRank d.level < levelRank e.level)
    (hq : v.queue = changed e.segment (fun e => { e with state := .active, slot := some n }) r.queue)
    (hst : v.stack = r.stack) (hp : v.pins = r.pins)
    (hv : ∀ m, v.slot m = if m = n then some w else r.slot m) : RepairOk v := by
  have hm := changed_replaced h.once he fun e => { e with state := .active, slot := some n }
  rw [← hq] at hm
  refine h.replace hm ?_ ?_ ?_ ?_ hp ?_ ?_ ?_
  · intro d hd; obtain rfl := Option.some.inj hd; exact ⟨rfl, h.unpinned e he⟩
  · rw [hq]; simp only [changed, List.length_map]; exact h.room
  · rw [hq]; exact changed_once _ _ (by intro _; rfl) _ h.once
  · rw [hq]; exact changed_order _ _ (by intro _; rfl) _ h.order
  · intro _ _ _ d hd _; exact hno d hd
  · have hns := not_stacked h.stack h.once he (by rw [hw]; simp)
    rw [hst, ← filter_stack hns]
    refine h.stack.rest hm ?_ ?_
    · intro d hd; obtain rfl := Option.some.inj hd; simp
    · intro d hd _; obtain rfl := Option.some.inj hd; exact hl
  · refine h.slots.replace hm ?_ ?_ ?_ ?_ ?_ ?_
    · intro d hd; obtain rfl := Option.some.inj hd; rfl
    · intro m u hu
      rw [hv]
      split
      · rename_i hmn
        subst hmn
        rw [hfree]
        constructor
        · intro h1; obtain rfl := Option.some.inj h1; exact absurd hws hu
        · intro h1; cases h1
      · rfl
    · intro m u hu hi
      rw [hv] at hu
      split at hu
      · rename_i hmn; subst hmn; exact ⟨_, rfl, rfl⟩
      · obtain ⟨c, hc, hcs, hcn⟩ := h.slots.owned m u hu
        rw [once_eq h.once hc he (hcs.trans hi), hnone] at hcn
        cases hcn
    · intro d m hd hn
      obtain rfl := Option.some.inj hd
      obtain rfl := Option.some.inj hn
      exact ⟨w, by rw [hv, if_pos rfl], hws⟩
    · intro d hd _; obtain rfl := Option.some.inj hd; rfl
    · intro d hd hds; obtain rfl := Option.some.inj hd; cases hds

/-- R90: the active job is suspended onto the stack. -/
theorem RepairOk.suspend {r : RepairUnit} (h : RepairOk r) {a : Entry} (ha : a ∈ r.queue) (hact : a.state = .active)
    (hl : a.level ≠ .demand) :
    RepairOk { r with
      queue := changed a.segment (fun e => { e with state := .suspended }) r.queue, stack := a.segment :: r.stack } := by
  have hm := changed_replaced h.once ha fun e => { e with state := .suspended }
  refine h.replace (v := { r with
      queue := changed a.segment (fun e => { e with state := .suspended }) r.queue, stack := a.segment :: r.stack })
    hm ?_ ?_ ?_ ?_ rfl ?_ ?_ ?_
  · intro d hd; obtain rfl := Option.some.inj hd; exact ⟨rfl, h.unpinned a ha⟩
  · simp only [changed, List.length_map]; exact h.room
  · exact changed_once _ _ (by intro _; rfl) _ h.once
  · exact changed_order _ _ (by intro _; rfl) _ h.order
  · intro d hd hda; obtain rfl := Option.some.inj hd; cases hda
  · refine h.stack.push hm rfl rfl hl (not_stacked h.stack h.once ha (by rw [hact]; simp)) ?_ ?_
    · intro d hd hds hda; exact hds (by rw [h.oneActive d hd a ha hda hact])
    · intro d hd _ hds; exact h.stack.below a ha d hd hact hds
  · refine h.slots.replace hm ?_ (fun _ _ _ => Iff.rfl) ?_ ?_ ?_ ?_
    · intro d hd; obtain rfl := Option.some.inj hd; rfl
    · intro n w hw hi
      obtain ⟨c, hc, hcs, hcn⟩ := h.slots.owned n w hw
      rw [once_eq h.once hc ha (hcs.trans hi)] at hcn
      exact ⟨_, rfl, hcn⟩
    · intro d n hd hn; obtain rfl := Option.some.inj hd; exact h.slots.held a ha n hn
    · intro d hd _; obtain rfl := Option.some.inj hd; exact h.slots.started a ha (by rw [hact]; simp)
    · intro d hd hds; obtain rfl := Option.some.inj hd; cases hds

/-- R74: an entry leaves the queue and the stack, and its slot is freed. -/
theorem RepairOk.drop {r v : RepairUnit} (h : RepairOk r) {e : Entry} (he : e ∈ r.queue)
    (hq : v.queue = r.queue.filter (fun d => decide (d.segment ≠ e.segment)))
    (hst : v.stack = r.stack.filter (fun j => decide (j ≠ e.segment))) (hp : v.pins = r.pins)
    (hv : ∀ m, v.slot m = if e.slot = some m then none else r.slot m) : RepairOk v := by
  have hm : Replaced r.queue v.queue e.segment none := by
    intro d; rw [hq]; simp [List.mem_filter]
  have hsub : v.queue.Sublist r.queue := by rw [hq]; exact List.filter_sublist
  refine h.replace hm (fun d hd => by cases hd) (Nat.le_trans hsub.length_le h.room) (h.once.sublist (hsub.map _))
    (h.order.sublist hsub) hp (fun d hd => by cases hd) ?_ ?_
  · rw [hst]
    exact h.stack.rest hm (fun d hd => by cases hd) (fun d hd => by cases hd)
  · refine h.slots.replace hm (fun d hd => by cases hd) ?_ ?_ (fun d n hd => by cases hd) (fun d hd => by cases hd)
      (fun d hd => by cases hd)
    · intro n w hw
      rw [hv]
      split
      · rename_i hn
        obtain ⟨u, hu, hus⟩ := h.slots.held e he n hn
        rw [hu]
        constructor
        · intro h1; cases h1
        · intro h1; obtain rfl := Option.some.inj h1; exact absurd hus hw
      · rfl
    · intro n w hw hi
      rw [hv] at hw
      split at hw
      · cases hw
      · rename_i hn
        obtain ⟨c, hc, hcs, hcn⟩ := h.slots.owned n w hw
        rw [once_eq h.once hc he (hcs.trans hi)] at hcn
        exact absurd hcn hn

/-- R73: a waiting entry at SWEEP gives way. -/
theorem RepairOk.evict {r : RepairUnit} (h : RepairOk r) {l : List Entry} (hl : l.Sublist r.queue)
    (hw : ∀ e ∈ r.queue, e ∉ l → e.state = .waiting ∧ e.level = .sweep) : RepairOk { r with queue := l } := by
  have hin : ∀ e ∈ r.queue, e.state ≠ .waiting → e ∈ l := by
    intro e he hs
    by_cases hel : e ∈ l
    · exact hel
    · exact absurd (hw e he hel).1 hs
  refine ⟨Nat.le_trans hl.length_le h.room, h.once.sublist (hl.map _), h.order.sublist hl,
    fun d hd e he => h.oneActive d (hl.subset hd) e (hl.subset he), h.pinRoom, h.pinsOnce,
    fun d hd => h.unpinned d (hl.subset hd), ?_, ?_⟩
  · refine ⟨h.stack.room, fun j => ?_, ?_, ?_, ?_⟩
    · rw [h.stack.suspended]
      constructor
      · rintro ⟨e, he, rfl, hes⟩; exact ⟨e, hin e he (by rw [hes]; simp), rfl, hes⟩
      · rintro ⟨e, he, rfl, hes⟩; exact ⟨e, hl.subset he, rfl, hes⟩
    · exact h.stack.rising.imp fun {j k} hjk d hd e he => hjk d (hl.subset hd) e (hl.subset he)
    · exact fun a ha d hd => h.stack.below a (hl.subset ha) d (hl.subset hd)
    · exact fun d hd => h.stack.lower d (hl.subset hd)
  · refine ⟨fun d hd => h.slots.held d (hl.subset hd), fun n w hw' => ?_, fun d hd => h.slots.started d (hl.subset hd),
      fun d hd => h.slots.sweep d (hl.subset hd)⟩
    obtain ⟨e, he, hes, hen⟩ := h.slots.owned n w hw'
    refine ⟨e, ?_, hes, hen⟩
    by_cases hel : e ∈ l
    · exact hel
    · have := h.slots.sweep e he (hw e he hel).1 (hw e he hel).2
      rw [this] at hen; cases hen

/-- R71: a waiting entry without a slot joins. -/
theorem RepairOk.join {r : RepairUnit} (h : RepairOk r) {e : Entry} (hnone : ∀ d ∈ r.queue, d.segment ≠ e.segment)
    (hpin : e.segment ∉ r.pins) (hs : e.state = .waiting) (hslot : e.slot = none)
    (hroom : r.queue.length < Config.repairCapacity) : RepairOk { r with queue := insertEntry e r.queue } := by
  have hperm := insertEntry_perm e r.queue
  have hm : Replaced r.queue (insertEntry e r.queue) e.segment (some e) := by
    intro d
    rw [hperm.mem_iff, List.mem_cons]
    constructor
    · rintro (rfl | hd)
      · exact .inl rfl
      · exact .inr ⟨hd, hnone d hd⟩
    · rintro (hd | hd)
      · exact .inl (Option.some.inj hd).symm
      · exact .inr hd.1
  refine h.replace (v := { r with queue := insertEntry e r.queue }) hm ?_ ?_ ?_ (insertEntry_sorted e _ h.order) rfl ?_ ?_ ?_
  · intro d hd; obtain rfl := Option.some.inj hd; exact ⟨rfl, hpin⟩
  · simp only [hperm.length_eq, List.length_cons]; omega
  · rw [(hperm.map _).nodup_iff, List.map_cons, List.nodup_cons]
    refine ⟨?_, h.once⟩
    simp only [List.mem_map, not_exists, not_and]
    exact hnone
  · intro d hd hda; obtain rfl := Option.some.inj hd; rw [hs] at hda; cases hda
  · show StackOk _ r.stack
    rw [← filter_stack (h.absent hnone)]
    refine h.stack.rest hm ?_ ?_
    · intro d hd; obtain rfl := Option.some.inj hd; rw [hs]; simp
    · intro d hd hda; obtain rfl := Option.some.inj hd; rw [hs] at hda; cases hda
  · refine h.slots.replace hm ?_ (fun _ _ _ => Iff.rfl) ?_ ?_ ?_ ?_
    · intro d hd; obtain rfl := Option.some.inj hd; rfl
    · intro n w hw hi
      obtain ⟨c, hc, hcs, _⟩ := h.slots.owned n w hw
      exact absurd (hcs.trans hi) (hnone c hc)
    · intro d n hd hn; obtain rfl := Option.some.inj hd; rw [hslot] at hn; cases hn
    · intro d hd hds; obtain rfl := Option.some.inj hd; exact absurd hs hds
    · intro d hd _ _; obtain rfl := Option.some.inj hd; exact hslot

/-- The queue with one entry taken out, and that entry, hold the same entries. -/
theorem takenOut_perm (l : List Entry) (e : Entry) (he : e ∈ l) (hn : (l.map (·.segment)).Nodup) :
    l.Perm (e :: l.filter (fun x => decide (x.segment ≠ e.segment))) := by
  induction l with
  | nil => simp at he
  | cons a rest ih =>
    rw [List.map_cons, List.nodup_cons] at hn
    rcases List.mem_cons.mp he with rfl | he
    · have : rest.filter (fun x => decide (x.segment ≠ e.segment)) = rest := by
        refine List.filter_eq_self.mpr fun x hx => ?_
        simp only [ne_eq, decide_eq_true_eq]
        exact fun h => hn.1 (List.mem_map.mpr ⟨x, hx, h⟩)
      rw [List.filter_cons_of_neg (by simp), this]
    · have hne : a.segment ≠ e.segment := fun h => hn.1 (List.mem_map.mpr ⟨e, he, h.symm⟩)
      rw [List.filter_cons_of_pos (by simpa using hne)]
      exact (List.Perm.cons a (ih he hn.2)).trans (List.Perm.swap e a _)

/-- R72: an entry rises to a level; a suspended one becomes waiting and leaves the stack. -/
theorem RepairOk.rise {r : RepairUnit} (h : RepairOk r) {e : Entry} (he : e ∈ r.queue) (level : Level)
    (hl : levelRank e.level < levelRank level) :
    RepairOk { r with
      queue := insertEntry { e with level := level, state := if e.state = .suspended then .waiting else e.state }
        (r.queue.filter (fun x => decide (x.segment ≠ e.segment)))
      stack := if e.state = .suspended then r.stack.filter (fun j => decide (j ≠ e.segment)) else r.stack } := by
  generalize hx : ({ e with level := level, state := if e.state = .suspended then .waiting else e.state } : Entry) = x
  have x1 : x.segment = e.segment := by rw [← hx]
  have x2 : x.level = level := by rw [← hx]
  have x3 : x.slot = e.slot := by rw [← hx]
  have x4 : x.state = if e.state = .suspended then .waiting else e.state := by rw [← hx]
  have x5 : x.state ≠ .suspended := by
    rw [x4]; split
    · simp
    · assumption
  have hperm := insertEntry_perm x (r.queue.filter (fun x => decide (x.segment ≠ e.segment)))
  have hsub : (r.queue.filter (fun x => decide (x.segment ≠ e.segment))).Sublist r.queue := List.filter_sublist
  have hlen := (takenOut_perm _ e he h.once).length_eq
  have hm : Replaced r.queue (insertEntry x (r.queue.filter (fun x => decide (x.segment ≠ e.segment)))) e.segment
      (some x) := by
    intro d
    rw [hperm.mem_iff, List.mem_cons, List.mem_filter, Option.some.injEq, eq_comm (a := d)]
    simp only [decide_eq_true_eq]
  have hstack : (if e.state = .suspended then r.stack.filter (fun j => decide (j ≠ e.segment)) else r.stack) =
      r.stack.filter (fun j => decide (j ≠ e.segment)) := by
    split
    · rfl
    · rename_i hs; exact (filter_stack (not_stacked h.stack h.once he hs)).symm
  rw [hstack]
  refine h.replace (v := { r with
      queue := insertEntry x (r.queue.filter (fun x => decide (x.segment ≠ e.segment)))
      stack := r.stack.filter (fun j => decide (j ≠ e.segment)) }) hm ?_ ?_ ?_
    (insertEntry_sorted x _ (h.order.sublist hsub)) rfl ?_ ?_ ?_
  · intro d hd; obtain rfl := Option.some.inj hd; exact ⟨x1, h.unpinned e he⟩
  · simp only [hperm.length_eq, List.length_cons] at hlen ⊢
    have := h.room
    omega
  · rw [(hperm.map _).nodup_iff, List.map_cons, List.nodup_cons, x1]
    refine ⟨?_, h.once.sublist (hsub.map _)⟩
    simp only [List.mem_map, not_exists, not_and]
    intro d hd
    simpa using (List.mem_filter.mp hd).2
  · intro d hd hda c hc hcs hca
    obtain rfl := Option.some.inj hd
    rw [x4] at hda
    split at hda
    · cases hda
    · exact hcs (by rw [h.oneActive c hc e he hca hda])
  · refine h.stack.rest hm ?_ ?_
    · intro d hd; obtain rfl := Option.some.inj hd; exact x5
    · intro d hd hda c hc _ hcs
      obtain rfl := Option.some.inj hd
      rw [x4] at hda
      split at hda
      · cases hda
      · have := h.stack.below e he c hc hda hcs
        rw [x2]; omega
  · refine h.slots.replace hm ?_ (fun _ _ _ => Iff.rfl) ?_ ?_ ?_ ?_
    · intro d hd; obtain rfl := Option.some.inj hd; exact x1
    · intro n w hw hi
      obtain ⟨c, hc, hcs, hcn⟩ := h.slots.owned n w hw
      rw [once_eq h.once hc he (hcs.trans hi)] at hcn
      exact ⟨_, rfl, x3.trans hcn⟩
    · intro d n hd hn; obtain rfl := Option.some.inj hd; rw [x3] at hn; exact h.slots.held e he n hn
    · intro d hd hds
      obtain rfl := Option.some.inj hd
      rw [x3]
      refine h.slots.started e he ?_
      rw [x4] at hds
      split at hds
      · exact absurd rfl hds
      · exact hds
    · intro d hd _ hdl
      obtain rfl := Option.some.inj hd
      rw [x2] at hdl
      subst hdl
      have := levelRank_pos e.level
      simp only [levelRank] at hl this
      omega

end Sys2Proof.Machine
end

