-- ==== Sys2Proof/Laws/Linked.lean ====
section
/-! SUPPORT. What the blocks say of each segment (`Linked`): when a change at one segment keeps it, and how a settle
brings a segment back to it. -/

namespace Sys2Proof.Machine

variable {due : Due} {s t : State} {i j : Nat}

/-! ### Records -/

/-- R15: a settled record is as R14 says. -/
theorem recOk_settled (r : SegRec) (slot : Bool) (hu : r.state = .unknown → r.usable = false ∧ r.pendingWrites = 0)
    (hc : r.pendingWrites ≤ 2) (hm : r.mark = true → r.stamp ≠ nullStamp ∧ r.state ≠ .unknown)
    (hb : slot = true → r.state ≠ .unknown → r.evidence.isSome = true ∧ r.pendingWrites = 0) :
    RecOk { r with state := settledState slot r } := by
  obtain ⟨st, us, stamp, sg, ev, ex, mk, rd, pw, fl⟩ := r
  simp only at hu hc hm hb
  by_cases h1 : st = .unknown
  · subst h1
    have := hu rfl
    have hmk : mk = false := by cases mk; rfl; exact absurd rfl (hm rfl).2
    constructor <;> simp_all [settledState]
  · by_cases h2 : slot = true
    · subst h2
      have := hb rfl h1
      constructor <;> simp_all [settledState]
    · have h2 : slot = false := by simpa using h2
      subst h2
      by_cases h3 : 0 < pw
      · constructor <;> simp_all [settledState]
      · have h3 : pw = 0 := by omega
        subst h3
        cases us <;> cases ex <;> cases mk <;> cases ev <;>
          (constructor <;> simp_all [settledState])

theorem recOk_unknownRec : RecOk unknownRec := by constructor <;> simp [unknownRec]

theorem RecOk.pending_zero {r : SegRec} (h : RecOk r) (hs : r.state ≠ .committing) : r.pendingWrites = 0 := by
  have := mt h.committing.mpr hs; omega

theorem InRepair.pending_zero {r : SegRec} (h : InRepair r) (hr : RecOk r) : r.pendingWrites = 0 := by
  refine hr.pending_zero ?_
  rcases h.state with h | h | h | h <;> rw [h] <;> simp

theorem InRepair.not_unknown {r : SegRec} (h : InRepair r) : r.state ≠ .unknown := by
  rcases h.state with h | h | h | h <;> rw [h] <;> simp

theorem InRepair.not_disputed {r : SegRec} (h : InRepair r) : r.state ≠ .disputed := by
  rcases h.state with h | h | h | h <;> rw [h] <;> simp

/-- R15: a settled record with evidence, without pending writes, is in repair. -/
theorem inRepair_settled (r : SegRec) (slot : Bool) (hu : r.state ≠ .unknown) (he : r.evidence.isSome = true)
    (hp : r.pendingWrites = 0) : InRepair { r with state := settledState slot r } := by
  refine ⟨?_, he⟩
  simp only [settledState, if_neg hu, hp]
  repeat' split
  all_goals simp_all

theorem getRec_eq (s : State) (i : Nat) (h : ¬ i < segCount s) : getRec s i = unknownRec := by
  simp only [getRec, segCount] at *
  rw [List.getD_eq_getElem?_getD, List.getElem?_eq_none (by omega)]; rfl

theorem getRec_congr (h : t.segs = s.segs) (i : Nat) : getRec t i = getRec s i := by simp [getRec, h]

/-! ### Writes still due -/

theorem writesDue_congr (h1 : t.start.storeWait = s.start.storeWait) (h2 : t.store.op = s.store.op)
    (h3 : t.store.writes = s.store.writes) : writesDue due t = writesDue due s := by
  simp only [writesDue, h1, h2, h3]

/-- The arbiter takes the oldest write in hand and loses none. -/
theorem writesDue_arbitrate (s : State) : (writesDue due (arbitrate s)).Sublist (writesDue due s) := by
  unfold arbitrate
  split
  · exact List.Sublist.refl _
  · rename_i hop
    have hop : s.store.op = .idle := by simpa using hop
    repeat' split
    all_goals simp only [writesDue, beginWrite, hop, writeOf, Option.toList_none, Option.toList_some, List.map_nil,
      List.map_cons, List.append_assoc]
    · rename_i hw
      rw [hw]
      refine List.Sublist.append_left ?_ _
      split
      · exact List.sublist_cons_self _ _
      · exact List.Sublist.refl _
    all_goals exact List.Sublist.refl _

theorem censusAt_arbitrate (s : State) (k : Nat) (h : censusAt due (arbitrate s).store k) : censusAt due s.store k := by
  unfold arbitrate at h
  unfold censusAt at *
  split at h
  · exact h
  · rename_i hop
    have hop : s.store.op = .idle := by simpa using hop
    repeat' split at h
    all_goals simp_all [beginWrite]
    rcases h with h | h
    · exact .inl h.2
    · exact .inr h

/-! ### Changes at one segment -/

/-- Nothing new is said of segment `j`. -/
theorem SegLinked.mono {after : Due} (h : SegLinked due s j) (hr : getRec t j = getRec s j)
    (hst : t.start.station = s.start.station) (htop : t.start.top = .census → s.start.top = .census)
    (hw : (writesDue after t).countP (·.2 = j) ≤ (writesDue due s).countP (·.2 = j))
    (hq : ∀ d ∈ t.repair.queue, d.segment = j → ∃ c ∈ s.repair.queue, c.segment = j)
    (hd : ∀ d ∈ t.disputes, d.segment = j → d ∈ s.disputes)
    (hc : ∀ k, censusAt after t.store k → censusAt due s.store k) : SegLinked after t j := by
  refine ⟨by rw [hr]; exact h.record, by rw [hr]; exact Nat.le_trans hw h.writes, fun d hd1 hd2 => ?_, fun d hd1 hd2 => ?_,
    fun ht k hk hkj => by rw [hr]; exact h.census (htop ht) k (hc k hk) hkj⟩
  · obtain ⟨c, hc1, hc2⟩ := hq d hd1 hd2
    rw [hr]; exact h.repair c hc1 hc2
  · rw [hr, hst]; exact h.dispute d (hd d hd1 hd2) hd2

/-- The commit clause holds of fewer writes. -/
theorem HoldsCommit.subperm {l l' : List (WriteClient × Nat)} {c : Option CommitBuffer} (h : HoldsCommit c l)
    (hl : l'.Subperm l) : HoldsCommit c l' := by
  obtain ⟨k, hp, hk⟩ := hl
  rcases h with h | ⟨b, hb, h⟩
  · rw [h] at hk; rw [List.sublist_nil.mp hk] at hp; exact .inl (List.nil_perm.mp hp)
  · rw [h] at hk
    rcases List.sublist_singleton.mp hk with h1 | h1
    · rw [h1] at hp; exact .inl (List.nil_perm.mp hp)
    · rw [h1] at hp; exact .inr ⟨b, hb, (List.singleton_perm.mp hp).symm⟩

theorem commitsDue_congr (h : writesDue due t = writesDue due s) : commitsDue due t = commitsDue due s := by
  simp only [commitsDue, h]

theorem commitsDue_subperm {after : Due} (h : (writesDue after t).Subperm (writesDue due s))
    (hh : after.held.Subperm due.held) : (commitsDue after t).Subperm (commitsDue due s) :=
  hh.append (h.filter _)

/-- Sound but for what is said of segment `i`. -/
structure SoundBut (due : Due) (i : Nat) (s : State) : Prop where
  repair : RepairOk s.repair
  serve : ServeOk s.serve
  disputes : DisputesOk s.disputes
  others : ∀ j, j ≠ i → SegLinked due s j
  commit : HoldsCommit s.repair.commit (commitsDue due s)

theorem SoundAt.but (h : SoundAt due s) (i : Nat) : SoundBut due i s :=
  ⟨h.repair, h.serve, h.disputes, fun j _ => h.linked.segment j, h.linked.commit⟩

theorem SoundBut.sound (h : SoundBut due i s) (hi : SegLinked due s i) : SoundAt due s := by
  refine ⟨h.repair, h.serve, h.disputes, ⟨fun j => ?_, h.commit⟩⟩
  by_cases hj : j = i
  · rw [hj]; exact hi
  · exact h.others j hj

/-- A change at segment `i` alone. -/
theorem SoundBut.change (h : SoundBut due i s) (hst : t.start.station = s.start.station)
    (htop : t.start.top = .census → s.start.top = .census) (hr : ∀ j, j ≠ i → getRec t j = getRec s j)
    (hw : ∀ j, j ≠ i → (writesDue due t).countP (·.2 = j) ≤ (writesDue due s).countP (·.2 = j))
    (hq : ∀ d ∈ t.repair.queue, d.segment ≠ i → ∃ c ∈ s.repair.queue, c.segment = d.segment)
    (hd : ∀ d ∈ t.disputes, d.segment ≠ i → d ∈ s.disputes) (hc : ∀ k, censusAt due t.store k → censusAt due s.store k)
    (repair : RepairOk t.repair) (serve : ServeOk t.serve) (disputes : DisputesOk t.disputes)
    (commit : HoldsCommit t.repair.commit (commitsDue due t)) :
    SoundBut due i t := by
  refine ⟨repair, serve, disputes, fun j hj => ?_, commit⟩
  refine (h.others j hj).mono (hr j hj) hst htop (hw j hj) (fun d hd1 hd2 => ?_) (fun d hd1 hd2 => ?_) hc
  · obtain ⟨c, hc1, hc2⟩ := hq d hd1 (by rw [hd2]; exact hj)
    exact ⟨c, hc1, hc2.trans hd2⟩
  · exact hd d hd1 (by rw [hd2]; exact hj)

/-- The record of segment `i` is rewritten. -/
theorem SoundBut.record (h : SoundBut due i s) (r : SegRec) : SoundBut due i (putRec i r s) := by
  have hw : writesDue due (putRec i r s) = writesDue due s := writesDue_congr (by simp) (by simp) (by simp)
  refine h.change (by simp) (by simp) (fun j hj => getRec_putRec_other s i j r (Ne.symm hj)) (fun j _ => by rw [hw])
    (fun d hd _ => ⟨d, by simpa using hd, rfl⟩) (fun d hd _ => by simpa using hd) (fun k hk => by simpa using hk)
    (by simpa using h.repair) (by simpa using h.serve) (by simpa using h.disputes) ?_
  rw [commitsDue_congr hw]; simpa using h.commit

/-- `SoundAt` looks at these parts of the state alone. -/
theorem SoundAt.congr (h : SoundAt due s) (hst : t.start.station = s.start.station)
    (htop : t.start.top = .census → s.start.top = .census) (hwait : t.start.storeWait = s.start.storeWait)
    (hsegs : t.segs.recs = s.segs.recs) (hrep : RepairOk t.repair) (hq : t.repair.queue = s.repair.queue)
    (hc : t.repair.commit = s.repair.commit) (hsv : ServeOk t.serve) (hd : t.disputes = s.disputes)
    (hop : t.store.op = s.store.op) (hw : t.store.writes = s.store.writes)
    (hreq : t.store.censusReq = s.store.censusReq) : SoundAt due t := by
  have hr : ∀ j, getRec t j = getRec s j := by intro j; simp [getRec, hsegs]
  have hwd : writesDue due t = writesDue due s := writesDue_congr hwait hop hw
  refine ⟨hrep, hsv, by rw [hd]; exact h.disputes, ⟨fun j => ?_, ?_⟩⟩
  · refine (h.linked.segment j).mono (hr j) hst htop (by rw [hwd]) (fun d hd1 hd2 => ⟨d, by rw [← hq]; exact hd1, hd2⟩)
      (fun d hd1 _ => by rw [← hd]; exact hd1) (fun k hk => ?_)
    unfold censusAt at *; rw [← hop, ← hreq]; exact hk
  · rw [commitsDue_congr hwd, hc]; exact h.linked.commit

/-- The store may end its operation, let requests go, or take writes that are due. -/
theorem SoundAt.storeUnit {after : Due} (h : SoundAt due s) (u : Store)
    (hw : (writesDue after { s with store := u }).Subperm (writesDue due s)) (hh : after.held.Subperm due.held)
    (hc : ∀ k, censusAt after u k → censusAt due s.store k) : SoundAt after { s with store := u } :=
  ⟨h.repair, h.serve, h.disputes, ⟨fun j => (h.linked.segment j).mono rfl rfl id (hw.countP_le _)
    (fun d hd hs => ⟨d, hd, hs⟩) (fun _ hd _ => hd) hc, h.linked.commit.subperm (commitsDue_subperm hw hh)⟩⟩

theorem SoundAt.arbitrate (h : SoundAt due s) : SoundAt due (arbitrate s) := by
  have hsub := writesDue_arbitrate (due := due) s
  refine ⟨by simpa using h.repair, by simpa using h.serve, by simpa using h.disputes, ⟨fun j => ?_, ?_⟩⟩
  · refine (h.linked.segment j).mono (by simp [getRec]) (by simp) (by simp) (hsub.countP_le)
      (fun d hd1 hd2 => ⟨d, by simpa using hd1, hd2⟩) (fun d hd1 _ => by simpa using hd1) (censusAt_arbitrate s)
  · simpa using h.linked.commit.subperm (commitsDue_subperm (after := due) hsub.subperm (.refl _))

/-- R15 over a record that a change has left unsettled: what it must still satisfy. -/
structure Loose (due : Due) (i : Nat) (s : State) : Prop where
  but : SoundBut due i s
  unknown : (getRec s i).state = .unknown → (getRec s i).usable = false ∧ (getRec s i).pendingWrites = 0
  count : (getRec s i).pendingWrites ≤ 2
  mark : (getRec s i).mark = true → (getRec s i).stamp ≠ nullStamp ∧ (getRec s i).state ≠ .unknown
  writes : (writesDue due s).countP (·.2 = i) ≤ (getRec s i).pendingWrites
  repair : (∃ e ∈ s.repair.queue, e.segment = i) →
    (getRec s i).evidence.isSome = true ∧ (getRec s i).pendingWrites = 0 ∧ (getRec s i).state ≠ .unknown
  dispute : ∀ d ∈ s.disputes, d.segment ≠ i
  census : s.start.top = .census → ∀ j, censusAt due s.store j → j ≤ i → (getRec s i).state = .unknown

theorem findEntry_some (i : Nat) (e : Entry) (h : findEntry s i = some e) :
    e ∈ s.repair.queue ∧ e.segment = i := by
  refine ⟨List.mem_of_find?_eq_some h, ?_⟩
  simpa using List.find?_some h

theorem findEntry_none (i : Nat) (h : findEntry s i = none) : ∀ e ∈ s.repair.queue, e.segment ≠ i := by
  intro e he hi
  have := List.find?_eq_none.mp h e he
  simp [hi] at this

theorem holdsSlot_some (h : holdsSlot s i = true) : ∃ e ∈ s.repair.queue, e.segment = i := by
  unfold holdsSlot at h
  cases hf : findEntry s i with
  | none => rw [hf] at h; cases h
  | some e => exact ⟨e, findEntry_some i e hf⟩

/-- R15: a settle makes the segment sound again. -/
theorem Loose.quiet (h : Loose due i s) : SoundAt due (settleQuiet i s) := by
  refine SoundBut.sound (h.but.record _) ?_
  by_cases hi : i < segCount s
  · have hself : getRec (settleQuiet i s) i =
        { getRec s i with state := settledState (holdsSlot s i) (getRec s i) } := getRec_putRec_self s i _ hi
    refine ⟨?_, ?_, ?_, ?_, ?_⟩
    · rw [hself]
      refine recOk_settled _ _ h.unknown h.count h.mark fun hb hu => ?_
      have := h.repair (holdsSlot_some hb)
      exact ⟨this.1, this.2.1⟩
    · rw [hself, show writesDue due (settleQuiet i s) = writesDue due s from
        writesDue_congr (by simp [settleQuiet, modifyRec]) (by simp [settleQuiet, modifyRec]) (by simp [settleQuiet, modifyRec])]
      exact h.writes
    · intro e he hs
      rw [hself]
      have := h.repair ⟨e, by simpa [settleQuiet, modifyRec] using he, hs⟩
      exact inRepair_settled _ _ this.2.2 this.1 this.2.1
    · intro d hd hs
      exact absurd hs (h.dispute d (by simpa [settleQuiet, modifyRec] using hd))
    · intro ht k hk hki
      have := h.census (by simpa [settleQuiet, modifyRec] using ht) k (by simpa [settleQuiet, modifyRec] using hk) hki
      rw [hself]
      simp [settledState, this]
  · have hs : settleQuiet i s = s := modifyRec_outside s i _ hi
    rw [hs]
    have hu := getRec_eq s i hi
    refine ⟨by rw [hu]; exact recOk_unknownRec, h.writes, fun e he hs => ?_, fun d hd hs => absurd hs (h.dispute d hd),
      h.census⟩
    have := (h.repair ⟨e, he, hs⟩).2.2
    rw [hu] at this; exact absurd rfl this

/-- A sound segment without a dispute entry may be settled. -/
theorem SoundAt.loose (h : SoundAt due s) (hd : ∀ d ∈ s.disputes, d.segment ≠ i) : Loose due i s := by
  have hl := h.linked.segment i
  refine ⟨h.but i, fun hu => ⟨hl.record.unknown hu, hl.record.pending_zero (by rw [hu]; simp)⟩, hl.record.count,
    hl.record.mark, hl.writes, ?_, hd, hl.census⟩
  rintro ⟨e, he, hs⟩
  have := hl.repair e he hs
  exact ⟨this.evidence, this.pending_zero hl.record, this.not_unknown⟩

/-- A record changed before its settle. -/
theorem Loose.modify (h : Loose due i s) (f : SegRec → SegRec)
    (hf : ∀ r, (f r).state = r.state ∧ (f r).pendingWrites = r.pendingWrites ∧ (f r).stamp = r.stamp)
    (hu : ∀ r, r.usable = false → (f r).usable = false) (hm : ∀ r, (f r).mark = true → r.mark = true)
    (he : ∀ r, r.evidence.isSome = true → (f r).evidence.isSome = true) : Loose due i (modifyRec i f s) := by
  by_cases hi : i < segCount s
  · have hself : getRec (modifyRec i f s) i = f (getRec s i) := getRec_putRec_self s i _ hi
    obtain ⟨f1, f2, f3⟩ := hf (getRec s i)
    have hw : writesDue due (modifyRec i f s) = writesDue due s :=
      writesDue_congr (by simp) (by simp) (by simp)
    refine ⟨h.but.record _, ?_, ?_, ?_, ?_, ?_, ?_, ?_⟩ <;> (try rw [hself]) <;> (try rw [f1]) <;> (try rw [f2])
    · exact fun hs => ⟨hu _ (h.unknown hs).1, (h.unknown hs).2⟩
    · exact h.count
    · rw [f3]; exact fun hs => h.mark (hm _ hs)
    · rw [hw]; exact h.writes
    · intro hq
      have := h.repair (by simpa using hq)
      exact ⟨he _ this.1, this.2⟩
    · simpa using h.dispute
    · simpa using h.census
  · have hs : modifyRec i f s = s := modifyRec_outside s i _ hi
    rw [hs]; exact h

/-- The record of a sound segment is rewritten. -/
theorem SoundAt.record (h : SoundAt due s) (i : Nat) (f : SegRec → SegRec)
    (hok : RecOk (getRec s i) → RecOk (f (getRec s i)))
    (hp : (getRec s i).pendingWrites ≤ (f (getRec s i)).pendingWrites)
    (hr : ∀ e ∈ s.repair.queue, e.segment = i → InRepair (getRec s i) → InRepair (f (getRec s i)))
    (hd : ∀ d ∈ s.disputes, d.segment = i → DisputeFits s.start.station (getRec s i) d →
      DisputeFits s.start.station (f (getRec s i)) d)
    (hc : (getRec s i).state = .unknown → (f (getRec s i)).state = .unknown) : SoundAt due (modifyRec i f s) := by
  by_cases hi : i < segCount s
  · have hself : getRec (modifyRec i f s) i = f (getRec s i) := getRec_putRec_self s i _ hi
    have hl := h.linked.segment i
    have hw : writesDue due (modifyRec i f s) = writesDue due s :=
      writesDue_congr (by simp) (by simp) (by simp)
    refine SoundBut.sound ((h.but i).record _) ⟨?_, ?_, ?_, ?_, ?_⟩
    · exact hself ▸ hok hl.record
    · show (writesDue due (modifyRec i f s)).countP _ ≤ (getRec (modifyRec i f s) i).pendingWrites
      rw [hself, hw]; exact Nat.le_trans hl.writes hp
    · intro e he hs
      show InRepair (getRec (modifyRec i f s) i)
      rw [hself]
      have he : e ∈ s.repair.queue := by simpa [modifyRec] using he
      exact hr e he hs (hl.repair e he hs)
    · intro d hd1 hs
      show DisputeFits (modifyRec i f s).start.station (getRec (modifyRec i f s) i) d
      rw [hself, modifyRec_start]
      have hd1 : d ∈ s.disputes := by simpa [modifyRec] using hd1
      exact hd d hd1 hs (hl.dispute d hd1 hs)
    · intro ht k hk hki
      show (getRec (modifyRec i f s) i).state = _
      rw [hself]
      exact hc (hl.census (by simpa [modifyRec] using ht) k (by simpa [modifyRec] using hk) hki)
  · have hs : modifyRec i f s = s := modifyRec_outside s i _ hi
    rw [hs]; exact h

/-- R15: a sound record settles without harm, with a dispute entry too: a DISPUTED record stays DISPUTED. -/
theorem SoundAt.settleQuiet (h : SoundAt due s) (i : Nat) : SoundAt due (settleQuiet i s) := by
  have hl := h.linked.segment i
  by_cases hd : ∃ d ∈ s.disputes, d.segment = i
  · obtain ⟨d, hd, hs⟩ := hd
    have hst := (hl.dispute d hd hs).state
    obtain ⟨hu, he, hm⟩ := hl.record.disputed hst
    have hp := hl.record.pending_zero (by rw [hst]; simp)
    have hslot : holdsSlot s i = false := by
      cases hb : holdsSlot s i with
      | false => rfl
      | true =>
        obtain ⟨e, he, hes⟩ := holdsSlot_some hb
        exact absurd hst (hl.repair e he hes).not_disputed
    have hset : settledState (holdsSlot s i) (getRec s i) = .disputed := by
      rw [hslot]; simp [settledState, hst, hu, he, hm, hp]
    have hsame : { getRec s i with state := settledState (holdsSlot s i) (getRec s i) } = getRec s i := by
      rw [hset, ← hst]
    refine h.record i _ ?_ ?_ ?_ ?_ ?_ <;> rw [hsame]
    · exact id
    · exact fun _ _ _ h => h
    · exact fun _ _ _ h => h
    · exact id
  · exact (h.loose fun d hd1 hs => hd ⟨d, hd1, hs⟩).quiet

end Sys2Proof.Machine
end

