-- ==== Sys2Proof/Laws/Inner.lean ====
section
/-! SUPPORT. What goes on inside a happening. `Moves s t`: `t` comes from `s` by events raised, records rewritten with
their copy's stamp and signature kept, offers to the outbox, moves of the Repair, Serve and Dispute Units, and requests
to the store arbiter; what every run of moves keeps is said once, below. `Inner s t`: such a run that also leaves a
sound state sound. Each shared operation has one lemma that says it is one. -/

namespace Sys2Proof.Machine

/-- The moves of the units inside a happening. -/
inductive Moves : State → State → Prop where
  | refl (s : State) : Moves s s
  | trans {s t u : State} : Moves s t → Moves t u → Moves s u
  | event (s : State) (k : EventKind) (i : Option Nat) (p : Option Station) (t : Option Stamp) :
      Moves s (raise k i p t s)
  | record (s : State) (i : Nat) (r : SegRec) (hs : r.stamp = (getRec s i).stamp)
      (hx : r.signature = (getRec s i).signature) (hp : (getRec s i).pendingWrites ≤ r.pendingWrites) :
      Moves s (putRec i r s)
  | box (s : State) (id : FrameId) (t : Option Stamp) (h : s.start.top = .active) :
      Moves s { s with line.outbox := (offerBox id t s.line.outbox).1 }
  | repair (s : State) (v : RepairUnit) (pins : v.pins = s.repair.pins)
      (rest : s.start.top ≠ .active → engineAtRest s.repair → engineAtRest v)
      (empty : listening s.start.top = false → s.repair.queue = [] → v.queue = [])
      (commit : ∀ b, s.repair.commit = some b → v.commit = some b) : Moves s { s with repair := v }
  | serve (s : State) (v : ServeUnit) (empty : s.start.top ≠ .active → s.serve.queue = [] → v.queue = []) :
      Moves s { s with serve := v }
  | disputes (s : State) (v : List Dispute) (empty : s.start.top ≠ .active → s.disputes = [] → v = []) :
      Moves s { s with disputes := v }
  | writes (s : State) (q : WriteReq) : Moves s { s with store.writes := s.store.writes ++ [q] }
  | serveReq (s : State) (i : Nat) : Moves s { s with store.serveReq := some i }
  | arbiter (s : State) : Moves s (arbitrate s)

namespace Moves

variable {s t : State}

theorem start (h : Moves s t) : t.start = s.start := by
  induction h <;> simp_all

theorem pending (h : Moves s t) : t.pending = s.pending := by
  induction h <;> simp_all

/-- Of the Line Interface only the outbox changes. -/
theorem line (h : Moves s t) : t.line = { s.line with outbox := t.line.outbox } := by
  induction h with
  | trans _ _ h1 h2 => rw [h2, h1]
  | _ => simp

/-- Of the Roster Unit only the bank table changes, and not its size. -/
theorem roster (h : Moves s t) :
    t.roster = { s.roster with banks := t.roster.banks } ∧ t.roster.banks.length = s.roster.banks.length := by
  induction h with
  | trans _ _ h1 h2 => exact ⟨by rw [h2.1, h1.1], h2.2.trans h1.2⟩
  | record s i r _ _ _ =>
    refine ⟨?_, by simp⟩
    have h1 := putRec_entries s i r
    have h2 := putRec_beacon s i r
    have h3 := putRec_pointer s i r
    cases hr : (putRec i r s).roster
    simp_all
  | _ => simp

/-- Of the Host Port only the event queue changes. -/
theorem host (h : Moves s t) : t.host = { s.host with events := t.host.events } := by
  induction h with
  | trans _ _ h1 h2 => rw [h2, h1]
  | event => rfl
  | _ => simp

theorem sizes (h : Moves s t) :
    t.segs.recs.length = s.segs.recs.length ∧ t.segs.digests.length = s.segs.digests.length := by
  induction h with
  | trans _ _ h1 h2 => exact ⟨h2.1.trans h1.1, h2.2.trans h1.2⟩
  | _ => simp

/-- R184 -/
theorem events (h : Moves s t) (ok : EventsOk s.host.events) : EventsOk t.host.events := by
  induction h with
  | trans _ _ h1 h2 => exact h2 (h1 ok)
  | event => exact offerEvent_ok _ _ ok
  | _ => simpa using ok

/-- R18 -/
theorem digests (h : Moves s t) (ok : DigestsOk s.segs) : DigestsOk t.segs := by
  induction h with
  | trans _ _ h1 h2 => exact h2 (h1 ok)
  | record s i r _ _ _ => exact putRec_digestsOk s i r ok
  | _ => simpa using ok

/-- R8: no stamp and no signature of a copy changes. -/
theorem copies (h : Moves s t) (i : Nat) :
    (getRec t i).stamp = (getRec s i).stamp ∧ (getRec t i).signature = (getRec s i).signature := by
  induction h with
  | trans _ _ h1 h2 => exact ⟨h2.1.trans h1.1, h2.2.trans h1.2⟩
  | record s j r hs hx _ =>
    by_cases hj : j = i
    · subst hj
      by_cases hlt : j < segCount s
      · rw [getRec_putRec_self s j r hlt]; exact ⟨hs, hx⟩
      · simp [putRec, hlt]
    · rw [getRec_putRec_other s j i r hj]; exact ⟨rfl, rfl⟩
  | _ => simp [getRec]

/-- R8: pending writes fall only when a write has ended. -/
theorem counted (h : Moves s t) (i : Nat) : (getRec s i).pendingWrites ≤ (getRec t i).pendingWrites := by
  induction h with
  | trans _ _ h1 h2 => exact Nat.le_trans h1 h2
  | record s j r _ _ hp =>
    by_cases hj : j = i
    · subst hj
      by_cases hlt : j < segCount s
      · rw [getRec_putRec_self s j r hlt]; exact hp
      · simp [putRec, hlt]
    · rw [getRec_putRec_other s j i r hj]
  | _ => simp [getRec]

/-- R34 -/
theorem outboxOk (h : Moves s t) (ok : OutboxOk s.line.outbox) : OutboxOk t.line.outbox := by
  induction h with
  | trans _ _ h1 h2 => exact h2 (h1 ok)
  | box => exact offerBox_ok _ _ _ ok
  | _ => simpa using ok

theorem flight (h : Moves s t) : inFlight t.line.outbox = inFlight s.line.outbox := by
  induction h with
  | trans _ _ h1 h2 => exact h2.trans h1
  | box => exact offerBox_inFlight _ _ _
  | _ => simp

/-- R35: outside ACTIVE offers are dropped. -/
theorem outboxShut (h : Moves s t) (ht : s.start.top ≠ .active) : t.line.outbox = s.line.outbox := by
  induction h with
  | trans a _ h1 h2 => rw [h2 (by rw [a.start]; exact ht), h1 ht]
  | box _ _ _ h => exact absurd h ht
  | _ => simp

/-- R77: the pin list changes by PIN and UNPIN alone. -/
theorem pins (h : Moves s t) : t.repair.pins = s.repair.pins := by
  induction h <;> simp_all

/-- R84: an occupied commit buffer stays as it is. -/
theorem commit (h : Moves s t) (b : CommitBuffer) (hb : s.repair.commit = some b) : t.repair.commit = some b := by
  induction h with
  | trans _ _ h1 h2 => exact h2 (h1 hb)
  | repair _ _ _ _ _ hc => exact hc b hb
  | _ => simpa using hb

theorem atRest (h : Moves s t) (ht : s.start.top ≠ .active) (hr : engineAtRest s.repair) :
    engineAtRest t.repair := by
  induction h with
  | trans a _ h1 h2 => exact h2 (by rw [a.start]; exact ht) (h1 ht hr)
  | repair _ _ _ hrest _ _ => exact hrest ht hr
  | _ => simpa using hr

theorem queueEmpty (h : Moves s t) (ht : listening s.start.top = false) (hq : s.repair.queue = []) :
    t.repair.queue = [] := by
  induction h with
  | trans a _ h1 h2 => exact h2 (by rw [a.start]; exact ht) (h1 ht hq)
  | repair _ _ _ _ he _ => exact he ht hq
  | _ => simpa using hq

theorem serveEmpty (h : Moves s t) (ht : s.start.top ≠ .active) (hq : s.serve.queue = []) :
    t.serve.queue = [] := by
  induction h with
  | trans a _ h1 h2 => exact h2 (by rw [a.start]; exact ht) (h1 ht hq)
  | serve _ _ he => exact he ht hq
  | _ => simpa using hq

theorem disputesEmpty (h : Moves s t) (ht : s.start.top ≠ .active) (hq : s.disputes = []) : t.disputes = [] := by
  induction h with
  | trans a _ h1 h2 => exact h2 (by rw [a.start]; exact ht) (h1 ht hq)
  | disputes _ _ he => exact he ht hq
  | _ => simpa using hq

/-- What the arbiter can do: take a write, a serve read, a host read or a census read while the store is free. -/
theorem arbiter_cases (s : State) :
    arbitrate s = s ∨ s.store.op = .idle ∧
      ((∃ w, (arbitrate s).store.op = .writing w false ∧ (arbitrate s).store.censusReq = s.store.censusReq) ∨
        (∃ i, (arbitrate s).store.op = .reading .serve i ∧ (arbitrate s).store.censusReq = s.store.censusReq) ∨
        (∃ i, (arbitrate s).store.op = .reading .host i ∧ (arbitrate s).store.censusReq = s.store.censusReq) ∨
        ∃ i, s.store.censusReq = some i ∧ (arbitrate s).store.op = .reading .census i ∧
          (arbitrate s).store.censusReq = none) := by
  unfold arbitrate beginWrite
  split
  · exact .inl rfl
  · rename_i hop
    have hop : s.store.op = .idle := by simpa using hop
    repeat' split
    all_goals simp_all

/-- The operations of the store that belong to a start and to the census are not begun or due by inner moves, but
for a pending census read that the arbiter takes. -/
theorem storeOp (h : Moves s t) :
    (s.store.op ≠ .idle → t.store.op = s.store.op ∧ t.store.censusReq = s.store.censusReq) ∧
      (s.store.op = .idle →
        (t.store.censusReq = s.store.censusReq ∧ (t.store.op = .idle ∨ (∃ w, t.store.op = .writing w false) ∨
          (∃ i, t.store.op = .reading .serve i) ∨ ∃ i, t.store.op = .reading .host i)) ∨
        ∃ i, s.store.censusReq = some i ∧ t.store.op = .reading .census i ∧ t.store.censusReq = none) := by
  induction h with
  | trans _ _ h1 h2 =>
    refine ⟨fun h => ?_, fun h => ?_⟩
    · obtain ⟨a, b⟩ := h1.1 h
      obtain ⟨c, d⟩ := h2.1 (by rw [a]; exact h)
      exact ⟨c.trans a, d.trans b⟩
    · rcases h1.2 h with ⟨hc, hi | ⟨w, hw⟩ | ⟨i, hi⟩ | ⟨i, hi⟩⟩ | ⟨i, hi, ho, hc⟩
      · rcases h2.2 hi with ⟨hc2, h3⟩ | ⟨i, hi2, h3⟩
        · exact .inl ⟨hc2.trans hc, h3⟩
        · exact .inr ⟨i, by rw [← hc]; exact hi2, h3⟩
      · obtain ⟨c, d⟩ := h2.1 (by simp [hw])
        exact .inl ⟨d.trans hc, .inr (.inl ⟨w, c.trans hw⟩)⟩
      · obtain ⟨c, d⟩ := h2.1 (by simp [hi])
        exact .inl ⟨d.trans hc, .inr (.inr (.inl ⟨i, c.trans hi⟩))⟩
      · obtain ⟨c, d⟩ := h2.1 (by simp [hi])
        exact .inl ⟨d.trans hc, .inr (.inr (.inr ⟨i, c.trans hi⟩))⟩
      · obtain ⟨c, d⟩ := h2.1 (by simp [ho])
        exact .inr ⟨i, hi, c.trans ho, d.trans hc⟩
  | arbiter s =>
    rcases arbiter_cases s with h | ⟨hop, ⟨w, h1, h2⟩ | ⟨i, h1, h2⟩ | ⟨i, h1, h2⟩ | ⟨i, h0, h1, h2⟩⟩
    · rw [h]; exact ⟨fun _ => ⟨rfl, rfl⟩, fun h => .inl ⟨rfl, .inl h⟩⟩
    · exact ⟨fun h => absurd hop h, fun _ => .inl ⟨h2, .inr (.inl ⟨w, h1⟩)⟩⟩
    · exact ⟨fun h => absurd hop h, fun _ => .inl ⟨h2, .inr (.inr (.inl ⟨i, h1⟩))⟩⟩
    · exact ⟨fun h => absurd hop h, fun _ => .inl ⟨h2, .inr (.inr (.inr ⟨i, h1⟩))⟩⟩
    · exact ⟨fun h => absurd hop h, fun _ => .inr ⟨i, h0, h1, h2⟩⟩
  | _ => simp_all

end Moves

/-- A run of moves that keeps the state sound. -/
structure Inner (s t : State) : Prop where
  moves : Moves s t
  sound : ∀ due, SoundAt due s → SoundAt due t

namespace Inner

variable {s t u : State}

theorem refl (s : State) : Inner s s := ⟨.refl s, fun _ h => h⟩

theorem trans (h1 : Inner s t) (h2 : Inner t u) : Inner s u :=
  ⟨h1.moves.trans h2.moves, fun e h => h2.sound e (h1.sound e h)⟩

theorem start (h : Inner s t) : t.start = s.start := h.moves.start

/-- An event says nothing of a segment. -/
theorem event (s : State) (k : EventKind) (i : Option Nat) (p : Option Station) (t : Option Stamp) :
    Inner s (raise k i p t s) :=
  ⟨.event s k i p t, fun _ h => h.congr rfl id rfl rfl h.repair rfl rfl h.serve rfl rfl rfl rfl⟩

theorem box (s : State) (id : FrameId) (t : Option Stamp) (h : s.start.top = .active) :
    Inner s { s with line.outbox := (offerBox id t s.line.outbox).1 } :=
  ⟨.box s id t h, fun _ h => h.congr rfl (fun h => h) rfl rfl h.repair rfl rfl h.serve rfl rfl rfl rfl⟩

theorem arbiter (s : State) : Inner s (arbitrate s) := ⟨.arbiter s, fun _ h => h.arbitrate⟩

theorem serveReq (s : State) (i : Nat) : Inner s { s with store.serveReq := some i } :=
  ⟨.serveReq s i, fun _ h => h.congr rfl id rfl rfl h.repair rfl rfl h.serve rfl rfl rfl rfl⟩

theorem serve (s : State) (v : ServeUnit) (ok : ServeOk s.serve → ServeOk v)
    (empty : s.start.top ≠ .active → s.serve.queue = [] → v.queue = []) : Inner s { s with serve := v } :=
  ⟨.serve s v empty, fun _ h => h.congr rfl id rfl rfl h.repair rfl rfl (ok h.serve) rfl rfl rfl rfl⟩

/-- A move of the Repair Unit that keeps queue and commit buffer. -/
theorem job (s : State) (v : RepairUnit) (hq : v.queue = s.repair.queue) (hp : v.pins = s.repair.pins)
    (hc : v.commit = s.repair.commit) (ok : RepairOk s.repair → RepairOk v)
    (rest : s.start.top ≠ .active → engineAtRest s.repair → v.cond = none ∧ v.patience = none) :
    Inner s { s with repair := v } :=
  ⟨.repair s v hp (fun ht hr => ⟨by rw [hq]; exact hr.1, rest ht hr⟩) (fun _ h => by rw [hq]; exact h)
      (fun _ h => by rw [hc]; exact h),
    fun _ h => h.congr rfl id rfl rfl (ok h.repair) hq hc h.serve rfl rfl rfl rfl⟩

end Inner

end Sys2Proof.Machine
end

