-- ==== Sys2Proof/Laws/Offers.lean ====
section
/-! SUPPORT. Requests to the arbiter, offers to the outbox and the Serve Unit's own work are runs of inner moves. -/

namespace Sys2Proof.Machine

variable {s : State}

/-! ### Records -/

/-- A record changed with its copy's stamp and signature kept. -/
theorem modifyRec_moves (i : Nat) (f : SegRec → SegRec) (hs : ∀ r, (f r).stamp = r.stamp)
    (hx : ∀ r, (f r).signature = r.signature) (s : State)
    (hp : ∀ r, r.pendingWrites ≤ (f r).pendingWrites := by intro _; first | exact Nat.le_refl _ | exact Nat.le_succ _) :
    Moves s (modifyRec i f s) :=
  .record s i _ (hs _) (hx _) (hp _)

/-- R15: a settle of a sound state. -/
theorem settleQuiet_inner (i : Nat) (s : State) : Inner s (settleQuiet i s) :=
  ⟨modifyRec_moves i (fun r => { r with state := settledState (holdsSlot s i) r }) (fun _ => rfl) (fun _ => rfl) s,
    fun _ h => h.settleQuiet i⟩

/-! ### Requests -/

theorem requestWrite_moves (q : WriteReq) (s : State) : Moves s (requestWrite q s) :=
  (Moves.writes s q).trans (.arbiter _)

theorem requestServeRead_inner (i : Nat) : Inner s (requestServeRead i s) := by
  exact ((Inner.serve s { s.serve with reading := true } (fun h => h) (fun _ hq => hq)).trans
    (.serveReq _ i)).trans (.arbiter _)

/-! ### The Serve Unit -/

theorem serveOk_leave (u : ServeUnit) (h : ServeOk u) :
    ServeOk { u with queue := u.queue.tail, phase := .waiting, outstanding := 0 } := by
  obtain ⟨h1, h2, _, _, _⟩ := h
  refine ⟨?_, ?_, (by decide : chunkCount 0 ≤ Config.paceLimit), by simp, by simp⟩
  · simp only [List.length_tail]; omega
  · exact h2.sublist ((List.tail_sublist _).map _)

theorem leaveHead_inner : Inner s (leaveHead s) :=
  .serve s _ (serveOk_leave _) (fun _ hq => by simp [hq])

theorem endChunk_inner (id : FrameId) : Inner s (endChunk id s) := by
  unfold endChunk
  split
  · split
    · rename_i _ _ _ _ c head rest hq hend
      have hsend : s.serve.phase = .send := by
        simp only [endsChunk, hq] at hend
        simp only [Bool.and_eq_true, decide_eq_true_eq] at hend
        exact hend.1.1.1
      refine .serve s _ (fun ⟨h1, h2, h3, h4, h5⟩ => ?_) (fun _ hn => by simp [hq] at hn)
      rw [hq] at h1 h2
      refine ⟨by simpa using h1, by simpa using h2, ?_, by simp [hsend], by simp⟩
      exact Nat.le_trans (chunkCount_drop _ _) h3
    · exact .refl s
  · exact .refl s

theorem offerRaw_inner (id : FrameId) (t : Option Stamp) (s : State) : Inner s (offerRaw id t s).1 := by
  unfold offerRaw
  split
  · exact .refl s
  · rename_i h
    exact .box s id t (by simpa using h)

theorem serveStep_inner (r : State × Option FrameId) (hr : serveStep s = some r) :
    Inner s r.1 := by
  unfold serveStep at hr
  split at hr
  · simp at hr
  · rename_i head rest hq
    split at hr
    · simp at hr
    · rename_i hsend
      split at hr
      · obtain rfl := Option.some.inj hr
        exact leaveHead_inner
      · split at hr
        · rename_i hpace
          obtain ⟨c, _, rfl⟩ := Option.map_eq_some_iff.mp hr
          refine Inner.trans (.serve s { s.serve with outstanding := addChunk s.serve.outstanding c } (fun ⟨h1, h2, _, _, h5⟩ => ?_)
            (fun _ hn => hn)) (offerRaw_inner _ _ _)
          refine ⟨h1, h2, ?_, by simp [hsend], h5⟩
          have := chunkCount_add s.serve.outstanding c
          exact Nat.le_trans this hpace
        · simp at hr
    · rename_i hwait
      split at hr
      · simp at hr
      · split at hr
        · obtain rfl := Option.some.inj hr
          refine Inner.trans (.serve s { s.serve with phase := .read } (fun ⟨h1, h2, h3, h4, _⟩ => ?_) (fun _ hn => hn))
            (requestServeRead_inner _)
          exact ⟨h1, h2, h3, fun _ => h4 (by simp [hwait]), by simp [hq]⟩
        · obtain rfl := Option.some.inj hr
          exact (offerRaw_inner _ _ _).trans leaveHead_inner

theorem serveRun_inner (n : Nat) : ∀ (told : Option FrameId) (s : State),
    Inner s (serveRun n told s) := by
  induction n with
  | zero => intro told s; exact .refl s
  | succ n ih =>
    intro told s
    cases told with
    | some id => exact (endChunk_inner id).trans (ih none _)
    | none =>
      simp only [serveRun]
      cases hr : serveStep s with
      | none => exact .refl s
      | some r => exact (serveStep_inner r hr).trans (ih r.2 _)

theorem serveWork_inner : Inner s (serveWork s) := serveRun_inner _ _ s

theorem tellServe_inner (id : FrameId) : Inner s (tellServe id s) := by
  unfold tellServe
  split
  · exact serveRun_inner _ _ s
  · exact .refl s

/-! ### Offers -/

theorem offerWith_inner (id : FrameId) (t : Option Stamp) : Inner s (offerWith id t s) := by
  unfold offerWith
  split
  · rename_i s' told heq
    have h1 : Inner s s' := by
      have := offerRaw_inner id t s
      rw [heq] at this
      exact this
    exact h1.trans (tellServe_inner told)
  · rename_i s' heq
    have := offerRaw_inner id t s
    rw [heq] at this
    exact this

theorem offer_inner (id : FrameId) : Inner s (offer id s) := offerWith_inner id none

end Sys2Proof.Machine
end

