-- ==== Sys2Proof/Laws/Engine.lean ====
section
/-! SUPPORT. The Repair Unit's operations are runs of inner moves: the fetch engine, the repair queue and the settle
with its offer. -/

namespace Sys2Proof.Machine

variable {s : State}

/-! ### What an offer leaves alone -/

theorem serveStep_repair (r : State × Option FrameId) (hr : serveStep s = some r) :
    r.1.repair = s.repair ∧ r.1.start = s.start := by
  have raw : ∀ (id : FrameId) (t : State), (offerRaw id none t).1.repair = t.repair ∧
      (offerRaw id none t).1.start = t.start := by
    intro id t; unfold offerRaw; split <;> exact ⟨rfl, rfl⟩
  unfold serveStep at hr
  repeat' split at hr
  all_goals first | (simp at hr; done) | skip
  · obtain rfl := Option.some.inj hr; exact ⟨rfl, rfl⟩
  · obtain ⟨c, _, rfl⟩ := Option.map_eq_some_iff.mp hr; exact raw _ _
  · obtain rfl := Option.some.inj hr; simp [requestServeRead]
  · obtain rfl := Option.some.inj hr; simpa using raw _ _

theorem serveRun_repair (n : Nat) : ∀ (told : Option FrameId) (s : State),
    (serveRun n told s).repair = s.repair ∧ (serveRun n told s).start = s.start := by
  induction n with
  | zero => intro _ s; exact ⟨rfl, rfl⟩
  | succ n ih =>
    intro told s
    cases told with
    | some id =>
      have he : (endChunk id s).repair = s.repair ∧ (endChunk id s).start = s.start := by
        unfold endChunk; repeat' split
        all_goals exact ⟨rfl, rfl⟩
      exact ⟨(ih _ _).1.trans he.1, (ih _ _).2.trans he.2⟩
    | none =>
      simp only [serveRun]
      cases hr : serveStep s with
      | none => exact ⟨rfl, rfl⟩
      | some r =>
        have h1 := serveStep_repair r hr
        exact ⟨(ih _ _).1.trans h1.1, (ih _ _).2.trans h1.2⟩

@[simp] theorem offerWith_repair (id : FrameId) (t : Option Stamp) (s : State) :
    (offerWith id t s).repair = s.repair := by
  have hraw : (offerRaw id t s).1.repair = s.repair := by unfold offerRaw; split <;> rfl
  unfold offerWith tellServe
  split
  · rename_i heq
    rw [heq] at hraw
    split
    · rw [(serveRun_repair _ _ _).1]; exact hraw
    · exact hraw
  · rename_i heq; rw [heq] at hraw; exact hraw

@[simp] theorem offer_repair (id : FrameId) (s : State) : (offer id s).repair = s.repair := offerWith_repair id none s

@[simp] theorem offerWith_start (id : FrameId) (t : Option Stamp) (s : State) :
    (offerWith id t s).start = s.start := (offerWith_inner id t).start

@[simp] theorem offer_start (id : FrameId) (s : State) : (offer id s).start = s.start := offerWith_start id none s

/-! ### The queue with one entry changed -/

/-- Some entry is ACTIVE, or the top state is. -/
def Working (s : State) : Prop := s.start.top = .active ∨ ∃ e ∈ s.repair.queue, e.state = .active

theorem Working.not_atRest (h : Working s) (ht : s.start.top ≠ .active) : ¬ engineAtRest s.repair := by
  rcases h with h | ⟨e, he, ha⟩
  · exact absurd h ht
  · exact fun hr => hr.1 e he ha

/-- No entry is ACTIVE. -/
def NoActive (s : State) : Prop := ∀ e ∈ s.repair.queue, e.state ≠ .active

/-- A change of the Repair Unit with no entry for a new segment, and the commit buffer kept. -/
theorem SoundAt.repairUnit {due : Due} (h : SoundAt due s) (v : RepairUnit) (ok : RepairOk v)
    (hq : ∀ d ∈ v.queue, ∃ c ∈ s.repair.queue, c.segment = d.segment) (hc : v.commit = s.repair.commit) :
    SoundAt due { s with repair := v } := by
  refine ⟨ok, h.serve, h.disputes, ⟨fun j => ?_, ?_⟩⟩
  rotate_left
  · show HoldsCommit v.commit (commitsDue due s)
    rw [hc]; exact h.linked.commit
  refine (h.linked.segment j).mono rfl rfl id (Nat.le_refl _) (fun d hd hs => ?_) (fun d hd _ => hd) (fun _ hk => hk)
  obtain ⟨c, hc1, hc2⟩ := hq d hd
  exact ⟨c, hc1, hc2.trans hs⟩

theorem changed_from (i : Nat) (f : Entry → Entry) (hf : ∀ e, (f e).segment = e.segment) (l : List Entry) :
    ∀ d ∈ changed i f l, ∃ c ∈ l, c.segment = d.segment := by
  intro d hd
  obtain ⟨c, hc, rfl⟩ := List.mem_map.mp hd
  refine ⟨c, hc, ?_⟩
  split
  · exact (hf c).symm
  · rfl

/-- What an entry remembers changes; its place, its state and its slot stay. -/
theorem setEntry_inner (i : Nat) (f : Entry → Entry)
    (hf : ∀ e, (f e).segment = e.segment ∧ (f e).level = e.level ∧ (f e).state = e.state ∧ (f e).slot = e.slot) :
    Inner s (setEntry i f s) := by
  refine ⟨.repair s _ rfl (fun _ hr => ⟨fun e he ha => ?_, hr.2⟩) (fun _ hq => by simp [hq]) (fun _ hb => hb),
    fun _ h => h.repairUnit _ (h.repair.note i f hf) (changed_from i f (fun e => (hf e).1) _) rfl⟩
  obtain ⟨d, hd, rfl⟩ := List.mem_map.mp he
  split at ha
  · exact hr.1 d hd (by rw [← (hf d).2.2.1]; exact ha)
  · exact hr.1 d hd ha

/-- Changes of the condition and the timer. -/
theorem side_inner (v : RepairUnit) (hq : v.queue = s.repair.queue) (hp : v.pins = s.repair.pins)
    (hc : v.commit = s.repair.commit) (hs : v.stack = s.repair.stack) (hl : ∀ n, v.slot n = s.repair.slot n)
    (hr : s.start.top ≠ .active → engineAtRest s.repair → v.cond = none ∧ v.patience = none) :
    Inner s { s with repair := v } := .job s v hq hp hc (fun h => h.congr hq hs hp hl) hr

theorem setSlot_slot (n m : SlotName) (v : Option Slot) :
    (setSlot n v s).repair.slot m = if m = n then v else s.repair.slot m := by
  cases n <;> cases m <;> rfl

theorem setSlot_frame (n : SlotName) (v : Option Slot) :
    setSlot n v s = { s with repair := (setSlot n v s).repair } := by cases n <;> rfl

/-- R92, R93: the contents of a slot change. -/
theorem setSlot_inner (n : SlotName) (v : Option Slot) (hv : v.map (·.segment) = (getSlot s n).map (·.segment)) :
    Inner s (setSlot n v s) := by
  rw [setSlot_frame]
  refine .job s _ (by simp) (by simp) (by simp) (fun h => h.value (by simp) (by simp) (by simp) fun m => ?_)
    (fun _ he => ⟨by simpa using he.2.1, by simpa using he.2.2⟩)
  rw [setSlot_slot]
  split
  · rename_i hm; subst hm; exact hv
  · rfl

theorem modifySlot_inner (i : Nat) (f : Slot → Slot) (hf : ∀ w, (f w).segment = w.segment) :
    Inner s (modifySlot i f s) := by
  unfold modifySlot
  repeat' split
  · refine setSlot_inner _ _ ?_
    rw [Option.map_map]
    congr 1
    funext w; exact hf w
  · exact .refl s
  · exact .refl s

theorem stopPatience_inner : Inner s (stopPatience s) :=
  side_inner _ rfl rfl rfl rfl (fun n => by cases n <;> rfl) (fun _ he => ⟨he.2.1, rfl⟩)

theorem markTried_inner (p : Station) (i : Nat) : Inner s (markTried p i s) :=
  setEntry_inner i _ (fun _ => ⟨rfl, rfl, rfl, rfl⟩)

theorem countAttempt_inner (i : Nat) : Inner s (countAttempt i s) :=
  setEntry_inner i _ (fun _ => ⟨rfl, rfl, rfl, rfl⟩)

/-! ### Entries leaving and joining -/

theorem dropEntry_none {i : Nat} (h : findEntry s i = none) : dropEntry i s = s := by simp [dropEntry, h]

/-- R74: what a departure leaves of the Repair Unit. -/
theorem dropEntry_unit {i : Nat} {e : Entry} (h : findEntry s i = some e) :
    dropEntry i s = { s with repair := (dropEntry i s).repair } ∧
      (dropEntry i s).repair.queue = s.repair.queue.filter (fun d => decide (d.segment ≠ i)) ∧
      (dropEntry i s).repair.stack = s.repair.stack.filter (fun j => decide (j ≠ i)) ∧
      (dropEntry i s).repair.pins = s.repair.pins ∧ (dropEntry i s).repair.commit = s.repair.commit ∧
      (∀ m, (dropEntry i s).repair.slot m = if e.slot = some m then none else s.repair.slot m) ∧
      (((dropEntry i s).repair.cond = none ∧ (dropEntry i s).repair.patience = none) ∨
        ((dropEntry i s).repair.cond = s.repair.cond ∧ (dropEntry i s).repair.patience = s.repair.patience)) := by
  unfold dropEntry
  rw [h]
  obtain ⟨_, _, st, slot, _, _, _, _⟩ := e
  rcases slot with _ | n
  · cases st
    all_goals refine ⟨rfl, rfl, rfl, rfl, rfl, fun m => by cases m <;> rfl, ?_⟩
    all_goals first | exact .inr ⟨rfl, rfl⟩ | exact .inl ⟨rfl, rfl⟩
  · cases st <;> cases n
    all_goals refine ⟨rfl, rfl, rfl, rfl, rfl, fun m => by cases m <;> rfl, ?_⟩
    all_goals first | exact .inr ⟨rfl, rfl⟩ | exact .inl ⟨rfl, rfl⟩

theorem dropEntry_gone (i : Nat) (s : State) : ∀ e ∈ (dropEntry i s).repair.queue, e.segment ≠ i := by
  intro e he
  cases h : findEntry s i with
  | none => rw [dropEntry_none h] at he; exact findEntry_none i h e he
  | some d =>
    rw [(dropEntry_unit h).2.1] at he
    simpa using (List.mem_filter.mp he).2

theorem dropEntry_subset (i : Nat) (s : State) : ∀ e ∈ (dropEntry i s).repair.queue, e ∈ s.repair.queue := by
  intro e he
  cases h : findEntry s i with
  | none => rw [dropEntry_none h] at he; exact he
  | some d =>
    rw [(dropEntry_unit h).2.1] at he
    exact (List.mem_filter.mp he).1

theorem repairOk_drop (i : Nat) (h : RepairOk s.repair) : RepairOk (dropEntry i s).repair := by
  cases hf : findEntry s i with
  | none => rw [dropEntry_none hf]; exact h
  | some e =>
    obtain ⟨_, h1, h2, h3, _, h5, _⟩ := dropEntry_unit hf
    obtain ⟨hm, hs⟩ := findEntry_some i e hf
    subst hs
    exact h.drop hm h1 h2 h3 h5

theorem dropEntry_inner (i : Nat) : Inner s (dropEntry i s) := by
  cases hf : findEntry s i with
  | none => rw [dropEntry_none hf]; exact .refl s
  | some e =>
    obtain ⟨h0, h1, _, h3, h4, _, h6⟩ := dropEntry_unit hf
    rw [h0]
    refine ⟨.repair s _ h3 (fun _ hr => ⟨fun d hd => hr.1 d (dropEntry_subset i s d hd), ?_⟩) (fun _ hq => by rw [h1, hq]; rfl)
        (fun b hb => by rw [h4]; exact hb),
      fun _ h => h.repairUnit _ (repairOk_drop i h.repair) (fun d hd => ⟨d, dropEntry_subset i s d hd, rfl⟩) h4⟩
    rcases h6 with h6 | h6
    · exact h6
    · rw [h6.1, h6.2]; exact hr.2

/-- A record that may have a repair entry (R71, R75). -/
def Wanted (r : SegRec) : Prop :=
  r.state = .stale ∨ r.state = .fetching ∨ (r.state = .damaged ∧ r.evidence.isSome = true)

theorem Wanted.inRepair {r : SegRec} (h : Wanted r) (ok : RecOk r) : InRepair r := by
  rcases h with h | h | h
  · exact ⟨.inl h, (ok.stale h).2⟩
  · exact ⟨.inr (.inr (.inl h)), ok.fetching h⟩
  · exact ⟨.inr (.inr (.inr h.1)), h.2⟩

/-- A run of moves that keeps the state sound under a condition. -/
structure InnerIf (q : Prop) (s t : State) : Prop where
  moves : Moves s t
  sound : ∀ due, SoundAt due s → q → SoundAt due t

theorem InnerIf.inner {q : Prop} {t : State} (h : InnerIf q s t) (hq : ∀ due, SoundAt due s → q) : Inner s t :=
  ⟨h.moves, fun e hs => h.sound e hs (hq e hs)⟩

theorem InnerIf.trans {q : Prop} {t u : State} (h1 : InnerIf q s t) (h2 : Inner t u) : InnerIf q s u :=
  ⟨h1.moves.trans h2.moves, fun e h hq => h2.sound e (h1.sound e h hq)⟩

/-- R71: an entry joins for a segment without one that is wanted and not pinned, while there is room. -/
theorem join_inner (level : Level) (i : Nat) (hnone : ∀ e ∈ s.repair.queue, e.segment ≠ i) (hpin : i ∉ s.repair.pins)
    (hw : Wanted (getRec s i)) (ht : listening s.start.top = true) :
    InnerIf (s.repair.queue.length < Config.repairCapacity) s (addEntry level i s) := by
  have hmem : ∀ d, d ∈ insertEntry (freshEntry i level) s.repair.queue ↔ d = freshEntry i level ∨ d ∈ s.repair.queue :=
    fun d => by rw [(insertEntry_perm _ _).mem_iff, List.mem_cons]
  refine ⟨.repair s _ rfl (fun _ hr => ⟨fun d hd => ?_, hr.2⟩) (fun hn => by rw [ht] at hn; cases hn) (fun _ hb => hb),
    fun due h hroom => ?_⟩
  · rcases (hmem d).mp hd with rfl | hd
    · simp [freshEntry]
    · exact hr.1 d hd
  · have hok : RepairOk (addEntry level i s).repair :=
      h.repair.join (e := freshEntry i level) hnone hpin rfl rfl hroom
    refine ((h.but i).change (t := addEntry level i s) rfl id (fun _ _ => rfl) (fun _ _ => Nat.le_refl _) (fun d hd hs => ?_)
      (fun d hd _ => hd) (fun _ hk => hk) hok h.serve h.disputes h.linked.commit).sound ?_
    · rcases (hmem d).mp hd with rfl | hd
      · exact absurd rfl hs
      · exact ⟨d, hd, rfl⟩
    · have hl := h.linked.segment i
      exact ⟨hl.record, hl.writes, fun _ _ _ => hw.inRepair hl.record, hl.dispute, hl.census⟩

theorem listening_active (h : s.start.top = .active) : listening s.start.top = true := by rw [h]; rfl

theorem wanted_backfillable {r : SegRec} (h : backfillable r = true) : Wanted r := by
  simp only [backfillable, Bool.and_eq_true, Bool.or_eq_true, decide_eq_true_eq] at h
  rcases h.1 with h | h
  · exact .inl h
  · exact .inr (.inr h)

theorem wanted_fetchable {r : SegRec} (h : fetchable r = true) : Wanted r := by
  simp only [fetchable, Bool.and_eq_true, Bool.or_eq_true, decide_eq_true_eq] at h
  rcases h.1 with (h | h) | h
  · exact .inl h
  · exact .inr (.inl h)
  · exact .inr (.inr h)

theorem backfillOne_inner (i : Nat) (ht : s.start.top = .active) : Inner s (backfillOne i s) := by
  unfold backfillOne
  split
  · rename_i hq
    simp only [Bool.and_eq_true, queueRoom, qualifies, decide_eq_true_eq, Bool.not_eq_true', pinned,
      Option.isNone_iff_eq_none] at hq
    exact (join_inner _ i (findEntry_none i hq.2.2) (by simpa using hq.2.1.2)
      (wanted_backfillable hq.2.1.1) (listening_active ht)).inner fun _ _ => hq.1
  · exact .refl s

/-- A fold over segments in ACTIVE, each member a run of inner moves. -/
theorem fold_inner (f : State → Nat → State) (hf : ∀ s i, s.start.top = .active → Inner s (f s i)) (l : List Nat) :
    ∀ s, s.start.top = .active → Inner s (l.foldl f s) := by
  induction l with
  | nil => intro s _; exact .refl s
  | cons i rest ih =>
    intro s ht
    have h1 := hf s i ht
    exact h1.trans (ih _ (by rw [h1.start]; exact ht))

theorem backfillQuiet_inner : Inner s (backfillQuiet s) := by
  unfold backfillQuiet
  split
  · exact .refl s
  · rename_i ht
    exact fold_inner _ (fun s i ht => backfillOne_inner i ht) _ s (by simpa using ht)

/-! ### The active job -/

theorem activeEntry_some (e : Entry) (h : activeEntry s = some e) : e ∈ s.repair.queue ∧ e.state = .active := by
  refine ⟨List.mem_of_find?_eq_some h, ?_⟩
  simpa using List.find?_some h

theorem activeEntry_none (h : activeEntry s = none) : NoActive s := by
  intro e he ha
  have := List.find?_eq_none.mp h e he
  simp [ha] at this

theorem working_of_active (e : Entry) (h : activeEntry s = some e) : Working s := .inr ⟨e, activeEntry_some e h⟩

theorem setEntry_working (i : Nat) (f : Entry → Entry) (hf : ∀ e, (f e).state = e.state) (h : Working s) :
    Working (setEntry i f s) := by
  rcases h with h | ⟨e, he, ha⟩
  · exact .inl h
  · refine .inr ⟨if e.segment = i then f e else e, List.mem_map.mpr ⟨e, he, rfl⟩, ?_⟩
    split
    · rw [hf]; exact ha
    · exact ha

theorem working_congr {t : State} (h : Working s) (hq : t.repair.queue = s.repair.queue)
    (ht : t.start = s.start) : Working t := by
  unfold Working at *
  rw [hq, ht]; exact h

theorem askSource_inner (p : Station) (i : Nat) (hw : Working s) : Inner s (askSource p i s) := by
  have h1 : Inner s (setEntry i (fun e => { e with source := some p }) s) :=
    setEntry_inner i _ (fun _ => ⟨rfl, rfl, rfl, rfl⟩)
  have hw1 : Working (setEntry i (fun e => { e with source := some p }) s) := setEntry_working i _ (fun _ => rfl) hw
  refine h1.trans ((offer_inner (.request p i)).trans ?_)
  have hw2 := working_congr (t := offer (.request p i) (setEntry i (fun e => { e with source := some p }) s)) hw1
    (by rw [offer_repair]) (by rw [offer_start])
  exact side_inner _ rfl rfl rfl rfl (fun n => by cases n <;> rfl) (fun ht hr => absurd hr (hw2.not_atRest ht))

/-- A record changed in ways that no other unit looks at. -/
theorem flag_inner (i : Nat) (f : SegRec → SegRec)
    (hf : ∀ r, (f r).stamp = r.stamp ∧ (f r).signature = r.signature ∧ (f r).state = r.state ∧
      (f r).evidence.isSome = r.evidence.isSome ∧ (f r).pendingWrites = r.pendingWrites)
    (ok : ∀ r, RecOk r → RecOk (f r)) (s : State) : Inner s (modifyRec i f s) := by
  refine ⟨modifyRec_moves i f (fun r => (hf r).1) (fun r => (hf r).2.1) s (fun r => Nat.le_of_eq (hf r).2.2.2.2.symm), fun _ h => ?_⟩
  obtain ⟨f1, f2, f3, f4, f5⟩ := hf (getRec s i)
  refine h.record i f (ok _) (Nat.le_of_eq f5.symm) ?_ ?_ ?_
  · exact fun e _ _ h => ⟨by rw [f3]; exact h.state, by rw [f4]; exact h.evidence⟩
  · exact fun d _ _ h => ⟨by rw [f3]; exact h.state, by rw [f1]; exact h.stamp, by rw [f2]; exact h.own⟩
  · rw [f3]; exact id

theorem exhaustJob_inner (i : Nat) : Inner s (exhaustJob i s) := by
  unfold exhaustJob
  refine stopPatience_inner.trans ((flag_inner i (fun r => { r with exhausted := true })
    (fun _ => ⟨rfl, rfl, rfl, rfl, rfl⟩) (fun r h => ?_) _).trans
      ((Inner.event _ _ _ _ _).trans ((dropEntry_inner i).trans ((settleQuiet_inner i _).trans backfillQuiet_inner))))
  exact { h with orphan := fun ho => ⟨(h.orphan ho).1, (h.orphan ho).2.1, rfl⟩ }

theorem chooseSource_inner (q : Option Station) : Inner s (chooseSource q s) := by
  unfold chooseSource
  split
  · exact .refl s
  · rename_i e he
    split
    · exact askSource_inner _ _ (working_of_active e he)
    · exact exhaustJob_inner _

theorem chooseOrEnd_inner (i : Nat) : Inner s (chooseOrEnd i s) := by
  unfold chooseOrEnd
  split
  · exact exhaustJob_inner i
  · exact chooseSource_inner none

/-! ### The hand-off -/

theorem slotOf_some {i : Nat} {w : Slot} (h : slotOf s i = some w) : ∃ e ∈ s.repair.queue, e.segment = i := by
  unfold slotOf at h
  split at h
  · rename_i e he; exact ⟨e, findEntry_some i e he⟩
  · cases h

/-- The state of a hand-off before the write is requested (R102). -/
def handedOff (i : Nat) (b : CommitBuffer) (s : State) : State :=
  settleQuiet i (dropEntry i (modifyRec i (fun r => { r with pendingWrites := r.pendingWrites + 1 })
    { s with repair.commit := some b }))

theorem dropEntry_segs (i : Nat) (s : State) : (dropEntry i s).segs = s.segs := by
  cases hf : findEntry s i with
  | none => rw [dropEntry_none hf]
  | some e => rw [(dropEntry_unit hf).1]

theorem dropEntry_rest (i : Nat) (s : State) :
    (dropEntry i s).start = s.start ∧ (dropEntry i s).store = s.store ∧ (dropEntry i s).serve = s.serve ∧
      (dropEntry i s).disputes = s.disputes ∧ (dropEntry i s).repair.commit = s.repair.commit := by
  cases hf : findEntry s i with
  | none => rw [dropEntry_none hf]; exact ⟨rfl, rfl, rfl, rfl, rfl⟩
  | some e =>
    refine ⟨?_, ?_, ?_, ?_, (dropEntry_unit hf).2.2.2.2.1⟩ <;> rw [(dropEntry_unit hf).1]

/-- An entry leaves in a state that is sound but for its segment. -/
theorem SoundBut.drop {due : Due} {i : Nat} (h : SoundBut due i s) : SoundBut due i (dropEntry i s) := by
  obtain ⟨h1, h2, h3, h4, h5⟩ := dropEntry_rest i s
  have hw : writesDue due (dropEntry i s) = writesDue due s := writesDue_congr (by rw [h1]) (by rw [h2]) (by rw [h2])
  refine h.change (by rw [h1]) (by rw [h1]; exact id) (fun j _ => getRec_congr (dropEntry_segs i s) j)
    (fun j _ => by rw [hw]) (fun d hd _ => ⟨d, dropEntry_subset i s d hd, rfl⟩)
    (fun d hd _ => by rw [h4] at hd; exact hd) (fun k hk => by rw [h2] at hk; exact hk) (repairOk_drop i h.repair)
    (by rw [h3]; exact h.serve) (by rw [h4]; exact h.disputes) ?_
  rw [commitsDue_congr hw, h5]; exact h.commit

/-- The results of writes that are due, and one more. -/
theorem writesDue_request {due : Due} (q : WriteReq) (s : State) :
    writesDue due { s with store.writes := s.store.writes ++ [q] } = writesDue due s ++ [(q.client, q.segment)] := by
  simp [writesDue]

/-- R102: the commit buffer taken, the write counted, the entry gone, the record settled and the write requested. -/
theorem handedOff_sound {due : Due} {i : Nat} {b : CommitBuffer} (h : SoundAt due s)
    (he : ∃ e ∈ s.repair.queue, e.segment = i) (hc : s.repair.commit = none) (hb : b.segment = i) (t : Stamp) :
    SoundAt due (requestWrite ⟨.commit, i, t⟩ (handedOff i b s)) := by
  have hl := h.linked.segment i
  obtain ⟨e, he, hes⟩ := he
  have hin := hl.repair e he hes
  have hp0 := hin.pending_zero hl.record
  have hlt : i < segCount s := by
    by_cases hi : i < segCount s
    · exact hi
    · exact absurd (by rw [getRec_eq s i hi]; rfl) hin.not_unknown
  have hnocommit : commitsDue due s = [] := by
    rcases h.linked.commit with h | ⟨b, hb, _⟩
    · exact h
    · rw [hc] at hb; cases hb
  have h1 : SoundBut due i { s with repair.commit := some b } :=
    (h.but i).change rfl id (fun _ _ => rfl) (fun _ _ => Nat.le_refl _) (fun d hd _ => ⟨d, hd, rfl⟩) (fun d hd _ => hd)
      (fun _ hk => hk) (h.repair.congr rfl rfl rfl (fun n => by cases n <;> rfl)) h.serve h.disputes (.inl hnocommit)
  unfold requestWrite
  refine SoundAt.arbitrate ?_
  -- the record of the segment after the settle
  have hrec : getRec (handedOff i b s) i = { getRec s i with pendingWrites := 1, state := .committing } := by
    unfold handedOff settleQuiet
    have hno : ∀ u : State, holdsSlot (dropEntry i u) i = false := by
      intro u
      cases hb : holdsSlot (dropEntry i u) i with
      | false => rfl
      | true =>
        obtain ⟨d, hd, hds⟩ := holdsSlot_some hb
        exact absurd hds (dropEntry_gone i u d hd)
    rw [hno, getRec_modifyRec_self, getRec_congr (dropEntry_segs i _), getRec_modifyRec_self]
    rotate_left
    · exact hlt
    · rw [segCount, dropEntry_segs]; unfold modifyRec; rw [← segCount, segCount_putRec]; exact hlt
    show ({ getRec s i with
      pendingWrites := (getRec s i).pendingWrites + 1
      state := settledState false { getRec s i with pendingWrites := (getRec s i).pendingWrites + 1 } } : SegRec) = _
    rw [hp0]
    simp [settledState, hin.not_unknown]
  have hstart : (handedOff i b s).start = s.start := by
    unfold handedOff settleQuiet; rw [modifyRec_start, (dropEntry_rest i _).1, modifyRec_start]
  have hstore : (handedOff i b s).store = s.store := by
    unfold handedOff settleQuiet; rw [modifyRec_store, (dropEntry_rest i _).2.1, modifyRec_store]
  have hdis : (handedOff i b s).disputes = s.disputes := by
    unfold handedOff settleQuiet; rw [modifyRec_disputes, (dropEntry_rest i _).2.2.2.1, modifyRec_disputes]
  have hcom : (handedOff i b s).repair.commit = some b := by
    unfold handedOff settleQuiet; rw [modifyRec_repair, (dropEntry_rest i _).2.2.2.2, modifyRec_repair]
  have h3 : SoundBut due i (handedOff i b s) := ((h1.record _).drop).record _
  have hwd : writesDue due (handedOff i b s) = writesDue due s :=
    writesDue_congr (by rw [hstart]) (by rw [hstore]) (by rw [hstore])
  have h4 : SoundBut due i { handedOff i b s with store.writes := (handedOff i b s).store.writes ++ [⟨.commit, i, t⟩] } := by
    refine h3.change rfl id (fun _ _ => rfl) (fun j hj => ?_) (fun d hd _ => ⟨d, hd, rfl⟩) (fun d hd _ => hd)
      (fun _ hk => hk) h3.repair h3.serve h3.disputes ?_
    · rw [writesDue_request, List.countP_append]
      simp [Ne.symm hj]
    · unfold commitsDue at hnocommit ⊢
      rw [writesDue_request, List.filter_append, hwd, ← List.append_assoc, hnocommit]
      exact .inr ⟨b, hcom, by simp [hb]⟩
  refine h4.sound ⟨?_, ?_, ?_, ?_, ?_⟩
  · show RecOk (getRec (handedOff i b s) i)
    rw [hrec]
    obtain ⟨r1, r2, r3, r4, r5, r6, r7, r8, r9, r10⟩ := hl.record
    constructor <;> simp
    intro hm; exact (r10 hm).1
  · show _ ≤ (getRec (handedOff i b s) i).pendingWrites
    rw [writesDue_request, hwd, hrec, List.countP_append]
    have := hl.writes
    rw [hp0] at this
    simp only [Nat.le_zero] at this
    rw [this]
    simp
  · intro d hd hds
    have hd : d ∈ (handedOff i b s).repair.queue := hd
    unfold handedOff settleQuiet at hd
    rw [modifyRec_repair] at hd
    exact absurd hds (dropEntry_gone i _ d hd)
  · intro d hd hds
    have hd : d ∈ s.disputes := by rw [← hdis]; exact hd
    exact absurd (hl.dispute d hd hds).state hin.not_disputed
  · intro ht k hk hki
    have ht : s.start.top = .census := by rw [← hstart]; exact ht
    have hk : censusAt due s.store k := by
      have hk : censusAt due { (handedOff i b s).store with writes := (handedOff i b s).store.writes ++ [⟨.commit, i, t⟩] } k := hk
      unfold censusAt at *; rw [← hstore]; exact hk
    exact absurd (hl.census ht k hk hki) hin.not_unknown

theorem handOff_inner (i : Nat) (hw : Working s) : Inner s (handOff i s) := by
  unfold handOff
  split
  · exact .refl s
  · rename_i slot hslot
    split
    · exact side_inner _ rfl rfl rfl rfl (fun n => by cases n <;> rfl) (fun ht hr => absurd hr (hw.not_atRest ht))
    · rename_i hc
      refine Inner.trans ?_ backfillQuiet_inner
      refine ⟨?_, fun _ h => handedOff_sound h (slotOf_some hslot) (by simpa using hc) rfl _⟩
      refine Moves.trans (.repair s { s.repair with commit := some {
          segment := i, stamp := slot.stamp, signature := slot.signature, data := slot.data,
          supplier := slot.supplier } } rfl (fun _ hr => hr) (fun _ hq => hq) (fun b hb => by simp [hb] at hc)) ?_
      exact (modifyRec_moves i (fun r => { r with pendingWrites := r.pendingWrites + 1 }) (fun _ => rfl) (fun _ => rfl) _).trans
        ((dropEntry_inner i).moves.trans ((settleQuiet_inner i _).moves.trans (requestWrite_moves _ _)))

theorem verifyJob_inner (e : Entry) (hw : Working s) : Inner s (verifyJob e s) := by
  unfold verifyJob
  refine stopPatience_inner.trans ?_
  have hw1 : Working (stopPatience s) := working_congr hw rfl rfl
  dsimp only
  split
  · exact .refl _
  · split
    · exact (setEntry_inner e.segment (fun e => { e with verified := true }) (fun _ => ⟨rfl, rfl, rfl, rfl⟩)).trans
        (handOff_inner _ (setEntry_working _ _ (fun _ => rfl) hw1))
    · have h2 : ∀ t : State,
          Inner t (chooseOrEnd e.segment (modifySlot e.segment clearChunks (countAttempt e.segment t))) :=
        fun t => (countAttempt_inner _).trans ((modifySlot_inner _ clearChunks (fun _ => rfl)).trans (chooseOrEnd_inner _))
      cases e.source with
      | none => exact h2 _
      | some p => exact (markTried_inner p _).trans (h2 _)

/-! ### Taking up -/

/-- A job may start or go on with this stack: no other is active, the stack is without its segment, and every
suspended job is of a lower level (R85, R86, R90). -/
structure MayStart (i : Nat) (stack : List Nat) (s : State) (e : Entry) : Prop where
  alone : NoActive s
  stack : stack = s.repair.stack.filter (fun j => decide (j ≠ i))
  above : ∀ d ∈ s.repair.queue, d.segment ≠ i → d.state = .suspended → levelRank d.level < levelRank e.level

/-- The stack left by a pick, and one entry changed. -/
theorem stackEntry_moves (i : Nat) (f : Entry → Entry) (stack : List Nat) (ht : s.start.top = .active) :
    Moves s (setEntry i f { s with repair.stack := stack }) :=
  .repair s _ rfl (fun hn => absurd ht hn) (fun hn => by rw [ht] at hn; cases hn) (fun _ hb => hb)

theorem freeSlot_free {n : SlotName} (h : freeSlot s = some n) : s.repair.slot n = none := by
  unfold freeSlot at h
  repeat' split at h
  all_goals first | (obtain rfl := Option.some.inj h; simp_all [RepairUnit.slot]) | cases h

theorem freshStart_inner (i : Nat) (stack : List Nat) (e : Entry) (he : findEntry s i = some e) (hslot : e.slot = none)
    (ht : s.start.top = .active) :
    InnerIf (MayStart i stack s e) s (freshStart i { s with repair.stack := stack }) := by
  have hstack : Moves s { s with repair.stack := stack } :=
    .repair s _ rfl (fun hn => absurd ht hn) (fun hn => by rw [ht] at hn; cases hn) (fun _ hb => hb)
  obtain ⟨hmem, hseg⟩ := findEntry_some i e he
  have facts : ∀ due, SoundAt due s → MayStart i stack s e → e.state = .waiting ∧ stack = s.repair.stack := by
    intro due h hms
    have hwait : e.state = .waiting := by
      have := h.repair.slots.started e hmem
      rw [hslot] at this
      by_cases hx : e.state = .waiting
      · exact hx
      · exact absurd (this hx) (by simp)
    refine ⟨hwait, ?_⟩
    rw [hms.stack]
    subst hseg
    exact filter_stack (not_stacked h.repair.stack h.repair.once hmem (by rw [hwait]; simp))
  unfold freshStart
  split
  · rename_i ev n hev hn
    have hev : (getRec s i).evidence = some ev := hev
    have hn : freeSlot s = some n := hn
    refine InnerIf.trans ?_ (chooseSource_inner none)
    generalize hw : ({
      segment := i, stamp := ev.stamp, signature := ev.signature, mask := 0, data := blankSegment,
      supplier := none, computed := none } : Slot) = w
    have hws : w.segment = i := by rw [← hw]
    have hunit : setEntry i (fun e => { e with state := .active, slot := some n })
        (setSlot n (some w) { s with repair.stack := stack }) =
        { s with repair := (setEntry i (fun e => { e with state := .active, slot := some n })
          (setSlot n (some w) { s with repair.stack := stack })).repair } := by cases n <;> rfl
    have hq : (setEntry i (fun e => { e with state := .active, slot := some n })
        (setSlot n (some w) { s with repair.stack := stack })).repair.queue =
        changed i (fun e => { e with state := .active, slot := some n }) s.repair.queue := by cases n <;> rfl
    refine ⟨?_, fun due h hms => ?_⟩
    · refine Moves.trans ?_ (modifyRec_moves i (fun r => { r with state := .fetching }) (fun _ => rfl) (fun _ => rfl) _)
      rw [hunit]
      exact .repair s _ (by cases n <;> rfl) (fun hn => absurd ht hn) (fun hn => by rw [ht] at hn; cases hn)
        (fun b hb => by cases n <;> exact hb)
    · obtain ⟨hwait, hst⟩ := facts due h hms
      have hfree : s.repair.slot n = none := freeSlot_free hn
      have hok : RepairOk (setEntry i (fun e => { e with state := .active, slot := some n })
          (setSlot n (some w) { s with repair.stack := stack })).repair := by
        subst hseg
        refine h.repair.fresh hmem hwait hslot n w hfree hws hms.alone hms.above hq ?_ ?_ ?_
        · rw [← hst]; cases n <;> rfl
        · cases n <;> rfl
        · intro m
          rw [show (setEntry e.segment (fun e => { e with state := .active, slot := some n })
            (setSlot n (some w) { s with repair.stack := stack })).repair.slot m =
            (setSlot n (some w) { s with repair.stack := stack }).repair.slot m by cases n <;> cases m <;> rfl,
            setSlot_slot]
          cases m <;> rfl
      have h1 : SoundAt due (setEntry i (fun e => { e with state := .active, slot := some n })
          (setSlot n (some w) { s with repair.stack := stack })) := by
        rw [hunit]
        exact h.repairUnit _ hok (by rw [hq]; exact changed_from i _ (by intro _; rfl) _) (by cases n <;> rfl)
      have hin : InRepair (getRec s i) := (h.linked.segment i).repair e hmem hseg
      have hrec : ∀ u : State, u.segs = s.segs → getRec u i = getRec s i := fun u hu => getRec_congr hu i
      refine h1.record i (fun r => { r with state := .fetching }) ?_ (Nat.le_refl _) ?_ ?_ ?_ <;>
        rw [hrec _ (by cases n <;> rfl)]
      · intro ok
        have hp := hin.pending_zero ok
        obtain ⟨r1, r2, r3, r4, r5, r6, r7, r8, r9, r10⟩ := ok
        constructor <;> simp [hp, hin.evidence]
        intro hm; exact (r10 hm).1
      · exact fun _ _ _ _ => ⟨.inr (.inr (.inl rfl)), hin.evidence⟩
      · exact fun d _ _ hd => absurd hd.state hin.not_disputed
      · exact fun hu => absurd hu hin.not_unknown
  · exact ⟨hstack, fun due h hms => by rw [(facts due h hms).2]; exact h⟩

theorem resume_inner (e : Entry) (stack : List Nat) (he : findEntry s e.segment = some e)
    (hslot : e.slot.isSome = true) (ht : s.start.top = .active) :
    InnerIf (MayStart e.segment stack s e) s (resume e { s with repair.stack := stack }) := by
  have h1 : InnerIf (MayStart e.segment stack s e) s
      (setEntry e.segment (fun e => { e with state := .active }) { s with repair.stack := stack }) := by
    refine ⟨stackEntry_moves _ _ _ ht, fun due h hms => ?_⟩
    have hok := h.repair.activate (findEntry_some _ e he).1 hslot hms.alone hms.above
    rw [← hms.stack] at hok
    exact h.repairUnit _ hok (changed_from e.segment (fun e => { e with state := .active }) (by intro _; rfl) s.repair.queue) rfl
  have hw : Working (setEntry e.segment (fun e => { e with state := .active }) { s with repair.stack := stack }) := .inl ht
  unfold resume
  refine h1.trans ?_
  dsimp only
  repeat' split
  · exact handOff_inner _ hw
  · exact verifyJob_inner e hw
  · exact askSource_inner _ _ hw
  · exact (markTried_inner _ _).trans (chooseSource_inner none)
  · exact chooseSource_inner none

/-- R86, R90: an entry taken up, with the stack the pick leaves. -/
theorem takeUp_inner (i : Nat) (stack : List Nat) (ht : s.start.top = .active) :
    InnerIf (∃ e, findEntry s i = some e ∧ MayStart i stack s e) s (takeUp i { s with repair.stack := stack }) := by
  unfold takeUp
  rw [show findEntry { s with repair.stack := stack } i = findEntry s i from rfl]
  cases he : findEntry s i with
  | none =>
    exact ⟨.repair s _ rfl (fun hn => absurd ht hn) (fun hn => by rw [ht] at hn; cases hn) (fun _ hb => hb),
      fun due h hx => by obtain ⟨e, h1, _⟩ := hx; cases h1⟩
  | some e =>
    have key : ∀ t, InnerIf (MayStart i stack s e) s t →
        InnerIf (∃ d, some e = some d ∧ MayStart i stack s d) s t := by
      rintro t ⟨h1, h2⟩
      refine ⟨h1, fun due h hx => ?_⟩
      obtain ⟨d, hd, hm⟩ := hx
      obtain rfl := Option.some.inj hd
      exact h2 due h hm
    refine key _ ?_
    dsimp only
    split
    · rename_i hn
      exact freshStart_inner i stack e he (by simpa using hn) ht
    · rename_i hn
      obtain rfl := (findEntry_some i e he).2
      exact resume_inner e stack he (by simpa [Option.isSome_iff_ne_none] using hn) ht

theorem findEntry_mem {e : Entry} (h : RepairOk s.repair) (he : e ∈ s.repair.queue) : findEntry s e.segment = some e := by
  cases hf : findEntry s e.segment with
  | none => exact absurd rfl (findEntry_none _ hf e he)
  | some d =>
    obtain ⟨hd, hs⟩ := findEntry_some _ d hf
    rw [once_eq h.once hd he hs]

/-- R86: what a pick takes may start. -/
theorem pickChoice_mayStart {due : Due} (h : SoundAt due s) (hno : NoActive s) (i : Nat) (stack : List Nat)
    (hp : pickChoice s = some (i, stack)) : ∃ e, findEntry s i = some e ∧ MayStart i stack s e := by
  have hok := h.repair
  have stacked : ∀ d ∈ s.repair.queue, d.state = .suspended → d.segment ∈ s.repair.stack :=
    fun d hd hs => (hok.stack.suspended _).mpr ⟨d, hd, rfl, hs⟩
  have waits : ∀ w, firstWaiting s = some w → w ∈ s.repair.queue ∧ w.state = .waiting := by
    intro w hw
    exact ⟨List.mem_of_find?_eq_some hw, by simpa using List.find?_some hw⟩
  have takeTop : ∀ top rest, s.repair.stack = top :: rest →
      ∃ e, findEntry s top = some e ∧ MayStart top rest s e := by
    intro top rest hst
    obtain ⟨e, he, rfl, hes⟩ := (hok.stack.suspended top).mp (by rw [hst]; simp)
    have hris := hok.stack.rising
    rw [hst] at hris
    have hr := List.pairwise_cons.mp hris
    refine ⟨e, findEntry_mem hok he, hno, ?_, fun d hd hds hdd => ?_⟩
    · rw [hst, List.filter_cons_of_neg (by simp)]
      refine (List.filter_eq_self.mpr fun j hj => ?_).symm
      simp only [decide_eq_true_eq]
      intro hje
      have := hr.1 j hj e he e he hes hes rfl hje.symm
      omega
    · have := stacked d hd hdd
      rw [hst] at this
      rcases List.mem_cons.mp this with hx | hx
      · exact absurd hx hds
      · exact hr.1 _ hx e he d hd hes hdd rfl rfl
  have takeWait : ∀ w, firstWaiting s = some w →
      (∀ d ∈ s.repair.queue, d.state = .suspended → levelRank d.level < levelRank w.level) →
      ∃ e, findEntry s w.segment = some e ∧ MayStart w.segment s.repair.stack s e := by
    intro w hw hlv
    obtain ⟨hm, hws⟩ := waits w hw
    exact ⟨w, findEntry_mem hok hm, hno,
      (filter_stack (not_stacked hok.stack hok.once hm (by rw [hws]; simp))).symm, fun d hd _ hds => hlv d hd hds⟩
  unfold pickChoice at hp
  split at hp
  · rename_i w hst hw
    simp only [Option.some.injEq, Prod.mk.injEq] at hp
    obtain ⟨rfl, rfl⟩ := hp
    rw [← hst]
    refine takeWait w hw fun d hd hds => ?_
    have := stacked d hd hds
    rw [hst] at this; cases this
  · cases hp
  · rename_i top rest w hst hw
    split at hp
    · rename_i hlt
      simp only [Option.some.injEq, Prod.mk.injEq] at hp
      obtain ⟨rfl, rfl⟩ := hp
      rw [← hst]
      refine takeWait w hw fun d hd hds => ?_
      obtain ⟨e, hf, hms⟩ := takeTop top rest hst
      rw [hf] at hlt
      simp only [Option.any_some, decide_eq_true_eq] at hlt
      by_cases hdt : d.segment = top
      · obtain ⟨he, hes⟩ := findEntry_some top e hf
        rw [once_eq hok.once hd he (hdt.trans hes.symm)]; exact hlt
      · exact Nat.lt_trans (hms.above d hd hdt hds) hlt
    · simp only [Option.some.injEq, Prod.mk.injEq] at hp
      obtain ⟨rfl, rfl⟩ := hp
      exact takeTop _ _ hst
  · rename_i top rest hst _
    simp only [Option.some.injEq, Prod.mk.injEq] at hp
    obtain ⟨rfl, rfl⟩ := hp
    exact takeTop _ _ hst

theorem pickLoop_inner (n : Nat) : ∀ s, Inner s (pickLoop n s) := by
  induction n with
  | zero => intro s; exact .refl s
  | succ n ih =>
    intro s
    unfold pickLoop
    split
    · exact .refl s
    · rename_i hc
      simp only [not_or, ne_eq, not_not, Bool.not_eq_true, Option.isSome_eq_false_iff,
        Option.isNone_iff_eq_none] at hc
      split
      · exact .refl s
      · rename_i i stack hp
        exact ((takeUp_inner i stack hc.1).inner fun _ h =>
          pickChoice_mayStart h (activeEntry_none (s := s) hc.2) i stack hp).trans (ih _)

theorem pick_inner : Inner s (pick s) := pickLoop_inner _ s

/-- R90: the active job below a level is suspended. -/
theorem preempt_inner (a : Entry) (ha : activeEntry s = some a) (hl : a.level ≠ .demand) : Inner s (preempt s) := by
  have hp : preempt s = { s with repair := { s.repair with
      queue := changed a.segment (fun e => { e with state := .suspended }) s.repair.queue
      stack := a.segment :: s.repair.stack, cond := none, patience := none } } := by
    unfold preempt; rw [ha]; rfl
  obtain ⟨hm, hact⟩ := activeEntry_some a ha
  rw [hp]
  refine ⟨.repair s _ rfl (fun _ hr => absurd hact (hr.1 a hm)) (fun _ hq => by rw [hq] at hm; cases hm) (fun _ hb => hb),
    fun _ h => h.repairUnit _ ?_
      (changed_from a.segment (fun e => { e with state := .suspended }) (by intro _; rfl) s.repair.queue) rfl⟩
  exact (h.repair.suspend hm hact hl).congr rfl rfl rfl (fun n => by cases n <;> rfl)

theorem preemptFor_inner (i : Nat) (ht : s.start.top = .active) : Inner s (preemptFor i s) := by
  unfold preemptFor
  split
  · rename_i a e ha he
    split
    · rename_i hlt
      have hl : a.level ≠ .demand := by
        intro h
        have : levelRank e.level ≤ 3 := by cases e.level <;> decide
        rw [h] at hlt; simp only [levelRank] at hlt this; omega
      have h1 := preempt_inner a ha hl
      have h2 := takeUp_inner (s := preempt s) i (preempt s).repair.stack (by rw [h1.start]; exact ht)
      refine Inner.trans ⟨h1.moves.trans h2.moves, fun due h => h2.sound due (h1.sound due h) ?_⟩ pick_inner
      -- the entry stands above every suspended one, the preempted job among them
      obtain ⟨hm, hact⟩ := activeEntry_some a ha
      obtain ⟨hem, hes⟩ := findEntry_some i e he
      have hsnd := h1.sound due h
      have hq : (preempt s).repair.queue = changed a.segment (fun e => { e with state := .suspended }) s.repair.queue := by
        unfold preempt; rw [ha]; rfl
      have hst : (preempt s).repair.stack = a.segment :: s.repair.stack := by
        unfold preempt; rw [ha]; rfl
      have hrep := changed_replaced h.repair.once hm fun e => { e with state := .suspended }
      rw [← hq] at hrep
      have hne : e.segment ≠ a.segment := by
        intro hx
        rw [once_eq h.repair.once hem hm hx] at hlt
        omega
      have hem1 : e ∈ (preempt s).repair.queue := (hrep e).mpr (.inr ⟨hem, hne⟩)
      have hns : e.state ≠ .suspended := by
        intro hx
        have := h.repair.stack.below a hm e hem hact hx
        omega
      subst hes
      refine ⟨e, findEntry_mem hsnd.repair hem1, ?_, ?_, ?_⟩
      · intro d hd hda
        rcases (hrep d).mp hd with hd | hd
        · obtain rfl := Option.some.inj hd; cases hda
        · exact hd.2 (by rw [h.repair.oneActive d hd.1 a hm hda hact])
      · exact (filter_stack (not_stacked hsnd.repair.stack hsnd.repair.once hem1 hns)).symm
      · intro d hd _ hds
        rcases (hrep d).mp hd with hd | hd
        · obtain rfl := Option.some.inj hd; exact hlt
        · exact Nat.lt_trans (h.repair.stack.below a hm d hd.1 hact hds) hlt
    · exact .refl s
  · exact .refl s

theorem afterAdmission_inner (i : Nat) : Inner s (afterAdmission i s) := by
  unfold afterAdmission
  split
  · exact .refl s
  · rename_i ht
    split
    · exact pick_inner
    · exact preemptFor_inner i (by simpa using ht)

/-! ### Admission -/

theorem raiseEntry_inner (level : Level) (e : Entry) (he : findEntry s e.segment = some e) :
    Inner s (raiseEntry level e s) := by
  unfold raiseEntry
  split
  · exact .refl s
  · rename_i hlt
    obtain ⟨hmem, _⟩ := findEntry_some _ e he
    have hin : ∀ d ∈ insertEntry { e with level := level, state := if e.state = .suspended then .waiting else e.state }
        (s.repair.queue.filter (fun x => decide (x.segment ≠ e.segment))),
        ∃ c ∈ s.repair.queue, c.segment = d.segment ∧ (d.state = .active → c.state = .active) := by
      intro d hd
      rcases List.mem_cons.mp ((insertEntry_perm _ _).mem_iff.mp hd) with rfl | hd
      · refine ⟨e, hmem, rfl, fun ha => ?_⟩
        simp only at ha
        split at ha
        · cases ha
        · exact ha
      · exact ⟨d, (List.mem_filter.mp hd).1, rfl, id⟩
    have h1 : Inner s { s with
        repair.queue := insertEntry { e with level := level, state := if e.state = .suspended then .waiting else e.state }
          (s.repair.queue.filter (fun x => decide (x.segment ≠ e.segment)))
        repair.stack := if e.state = .suspended then s.repair.stack.filter (fun j => decide (j ≠ e.segment))
          else s.repair.stack } := by
      refine ⟨.repair s _ rfl (fun _ hr => ⟨fun d hd ha => ?_, hr.2⟩) (fun _ hn => by rw [hn] at hmem; cases hmem) (fun _ hb => hb),
        fun _ h => h.repairUnit _ (h.repair.rise hmem level (by omega)) (fun d hd => ?_) rfl⟩
      · obtain ⟨c, hc, _, hca⟩ := hin d hd
        exact hr.1 c hc (hca ha)
      · obtain ⟨c, hc, hcs, _⟩ := hin d hd
        exact ⟨c, hc, hcs⟩
    dsimp only
    by_cases hact : e.state = .active
    · rw [if_pos hact]; exact h1
    · rw [if_neg hact]; exact h1.trans (afterAdmission_inner _)

theorem removeLast_out {α : Type} (p : α → Bool) (l : List α) (a : α) (ha : a ∈ l) (hn : a ∉ removeLast p l) :
    p a = true := by
  cases hp : p a with
  | true => rfl
  | false =>
    refine absurd ?_ hn
    have : a ∈ l.reverse.eraseP p := (List.mem_eraseP_of_neg (by simp [hp])).mpr (List.mem_reverse.mpr ha)
    simpa [removeLast] using this

theorem admitEntry_inner (level : Level) (i : Nat) (hnone : findEntry s i = none) (hpin : pinned s i = false)
    (hw : Wanted (getRec s i)) (ht : listening s.start.top = true) : Inner s (admitEntry level i s) := by
  have hpin : i ∉ s.repair.pins := by simpa [pinned] using hpin
  unfold admitEntry
  split
  · rename_i hroom
    exact ((join_inner level i (findEntry_none i hnone) hpin hw ht).inner fun _ _ => by simpa [queueRoom] using hroom).trans
      (afterAdmission_inner i)
  · split
    · rename_i hev
      simp only [Bool.and_eq_true] at hev
      have hlen := removeLast_length waitingSweep s.repair.queue hev.2
      have hsub := removeLast_sublist waitingSweep s.repair.queue
      have h1 : Inner s { s with repair.queue := removeLast waitingSweep s.repair.queue } := by
        refine ⟨.repair s _ rfl (fun _ hr => ⟨fun d hd => hr.1 d (hsub.subset hd), hr.2⟩)
            (fun hn => by rw [ht] at hn; cases hn) (fun _ hb => hb),
          fun _ h => h.repairUnit _ (h.repair.evict hsub fun e he hn => ?_) (fun d hd => ⟨d, hsub.subset hd, rfl⟩) rfl⟩
        have := removeLast_out _ _ e he hn
        simpa [waitingSweep] using this
      have h2 := join_inner (s := { s with repair.queue := removeLast waitingSweep s.repair.queue }) level i
        (fun e he => findEntry_none i hnone e (hsub.subset he)) hpin hw ht
      refine Inner.trans ⟨h1.moves.trans h2.moves, fun due h => h2.sound due (h1.sound due h) ?_⟩
        (afterAdmission_inner i)
      have := h.repair.room
      simp only
      omega
    · exact .refl s

theorem enterQueue_inner (level : Level) (i : Nat) (hpin : pinned s i = false) (hw : Wanted (getRec s i))
    (ht : listening s.start.top = true) : Inner s (enterQueue level i s) := by
  unfold enterQueue
  split
  · rename_i e he
    have := (findEntry_some i e he).2
    exact raiseEntry_inner level e (by rw [this]; exact he)
  · rename_i hn
    exact admitEntry_inner level i hn hpin hw ht

theorem offerRepair_inner (i : Nat) : Inner s (offerRepair i s) := by
  unfold offerRepair
  split
  · rename_i ha
    simp only [admissible, Bool.and_eq_true, Bool.not_eq_true'] at ha
    exact enterQueue_inner _ i ha.2 (wanted_fetchable ha.1.2) (by simpa [listening] using ha.1.1)
  · exact .refl s

theorem backfill_inner : Inner s (backfill s) := by
  unfold backfill
  split
  · exact .refl s
  · rename_i ht
    refine fold_inner _ (fun s i ht => ?_) _ s (by simpa using ht)
    split
    · have h1 := backfillOne_inner (s := s) i ht
      exact h1.trans (preemptFor_inner i (by rw [h1.start]; exact ht))
    · exact .refl s

/-- R16: the offer that follows a settle. -/
theorem settle_eq (i : Nat) (s : State) : settle i s =
    if settleOffers (getRec (settleQuiet i s) i) then offerRepair i (settleQuiet i s) else settleQuiet i s := rfl

theorem offerAfter_inner (i : Nat) (b : Bool) : Inner s (if b then offerRepair i s else s) := by
  split
  · exact offerRepair_inner i
  · exact .refl _

theorem settle_inner (i : Nat) : Inner s (settle i s) := by
  rw [settle_eq]
  exact (settleQuiet_inner i s).trans (offerAfter_inner i _)

/-- A settle of a segment that a change has left unsettled. -/
theorem Loose.settled {due : Due} {i : Nat} (h : Loose due i s) : SoundAt due (settle i s) := by
  rw [settle_eq]
  exact (offerAfter_inner i _).sound due h.quiet

theorem readyHandOff_inner : Inner s (readyHandOff s) := by
  unfold readyHandOff
  split
  · rename_i a ha
    split
    · exact (handOff_inner _ (working_of_active a ha)).trans pick_inner
    · exact .refl s
  · exact .refl s

end Sys2Proof.Machine
end

