-- ==== Sys2Proof/Laws/Units.lean ====
section
/-! SUPPORT. The operations of the Dispute Unit, of reports and evidence, and of the Serve Unit are runs of inner
moves. -/

namespace Sys2Proof.Machine

variable {s : State}

/-! ### The Dispute Unit -/

theorem setBallot_mem (p : Station) (x : Signature) (l : List (Station × Signature)) :
    ∀ b ∈ setBallot p x l, b.1 = p ∨ b ∈ l := by
  induction l with
  | nil => intro b hb; simp only [setBallot, List.mem_singleton] at hb; exact .inl (by rw [hb])
  | cons a rest ih =>
    obtain ⟨q, y⟩ := a
    intro b hb
    simp only [setBallot] at hb
    split at hb
    · rcases List.mem_cons.mp hb with rfl | hb
      · exact .inl rfl
      · exact .inr (by simp [hb])
    · split at hb
      · rcases List.mem_cons.mp hb with rfl | hb
        · exact .inl rfl
        · exact .inr hb
      · rcases List.mem_cons.mp hb with rfl | hb
        · exact .inr (by simp)
        · rcases ih b hb with h | h
          · exact .inl h
          · exact .inr (by simp [h])

/-- R121: the ballots stay in station order, one for each station. -/
theorem setBallot_sorted (p : Station) (x : Signature) (l : List (Station × Signature))
    (h : l.Pairwise fun a b => a.1.toNat < b.1.toNat) :
    (setBallot p x l).Pairwise fun a b => a.1.toNat < b.1.toNat := by
  induction l with
  | nil => simp [setBallot]
  | cons a rest ih =>
    obtain ⟨q, y⟩ := a
    obtain ⟨h1, h2⟩ := List.pairwise_cons.mp h
    simp only [setBallot]
    split
    · rename_i hq
      subst hq
      exact List.pairwise_cons.mpr ⟨h1, h2⟩
    · rename_i hq
      split
      · rename_i hlt
        refine List.pairwise_cons.mpr ⟨fun b hb => ?_, h⟩
        rcases List.mem_cons.mp hb with rfl | hb
        · exact hlt
        · have := h1 b hb; simp only at this ⊢; omega
      · rename_i hge
        refine List.pairwise_cons.mpr ⟨fun b hb => ?_, ih h2⟩
        rcases setBallot_mem p x rest b hb with hp | hb
        · have : q.toNat ≠ p.toNat := fun h => hq (BitVec.eq_of_toNat_eq h)
          rw [hp]; simp only at this ⊢; omega
        · exact h1 b hb

theorem findDispute_some {i : Nat} {d : Dispute} (h : findDispute s i = some d) : d ∈ s.disputes ∧ d.segment = i :=
  ⟨List.mem_of_find?_eq_some h, by simpa using List.find?_some h⟩

theorem findDispute_none {i : Nat} (h : findDispute s i = none) : ∀ d ∈ s.disputes, d.segment ≠ i := by
  intro d hd hi
  have := List.find?_eq_none.mp h d hd
  simp [hi] at this

/-- The dispute table after a change that opens nothing and keeps every own ballot. -/
theorem SoundAt.disputeTable {due : Due} (h : SoundAt due s) (v : List Dispute) (ok : DisputesOk v)
    (hv : ∀ d ∈ v, ∃ c ∈ s.disputes, c.segment = d.segment ∧ c.stamp = d.stamp ∧
      ∀ x, (s.start.station, x) ∈ c.ballots → (s.start.station, x) ∈ d.ballots) :
    SoundAt due { s with disputes := v } := by
  refine ⟨h.repair, h.serve, ok, ⟨fun j => ?_, h.linked.commit⟩⟩
  have hl := h.linked.segment j
  refine ⟨hl.record, hl.writes, hl.repair, fun d hd hs => ?_, hl.census⟩
  obtain ⟨c, hc, h1, h2, h3⟩ := hv d hd
  have := hl.dispute c hc (h1.trans hs)
  exact ⟨this.state, h2.symm.trans this.stamp, h3 _ this.own⟩

theorem DisputesOk.sublist {l v : List Dispute} (h : DisputesOk l) (hv : v.Sublist l) : DisputesOk v :=
  ⟨Nat.le_trans hv.length_le h.room, h.once.sublist (hv.map _), fun d hd => h.stamps d (hv.subset hd),
    fun d hd => h.rounds d (hv.subset hd), fun d hd => h.ballots d (hv.subset hd)⟩

/-- A change of one entry that keeps its segment, its stamp and the own ballot. -/
theorem setDispute_inner (i : Nat) (f : Dispute → Dispute)
    (hf : ∀ d, (f d).segment = d.segment ∧ (f d).stamp = d.stamp)
    (hr : ∀ d, 1 ≤ d.round → d.round ≤ Config.lastRound → 1 ≤ (f d).round ∧ (f d).round ≤ Config.lastRound)
    (hb : ∀ d, (d.ballots.Pairwise fun a b => a.1.toNat < b.1.toNat) →
      (f d).ballots.Pairwise fun a b => a.1.toNat < b.1.toNat)
    (ho : ∀ d x, (s.start.station, x) ∈ d.ballots → (s.start.station, x) ∈ (f d).ballots) :
    Inner s (setDispute i f s) := by
  have hseg : ∀ d : Dispute, (if d.segment = i then f d else d).segment = d.segment := by
    intro d; split
    · exact (hf d).1
    · rfl
  refine ⟨.disputes s _ (fun _ hd => by simp [hd]), fun _ h => h.disputeTable _ ?_ fun d hd => ?_⟩
  · obtain ⟨h1, h2, h3, h4, h5⟩ := h.disputes
    refine ⟨by simpa using h1, ?_, fun d hd => ?_, fun d hd => ?_, fun d hd => ?_⟩
    · rw [List.map_map]
      rw [show (fun d : Dispute => d.segment) ∘ (fun d => if d.segment = i then f d else d) = (·.segment) from
        funext hseg]
      exact h2
    all_goals
      obtain ⟨e, he, rfl⟩ := List.mem_map.mp hd
      split
    · rw [(hf e).2]; exact h3 e he
    · exact h3 e he
    · exact hr e (h4 e he).1 (h4 e he).2
    · exact h4 e he
    · exact hb e (h5 e he)
    · exact h5 e he
  · obtain ⟨e, he, rfl⟩ := List.mem_map.mp hd
    refine ⟨e, he, (hseg e).symm, ?_, fun x hx => ?_⟩
    · split
      · exact (hf e).2.symm
      · rfl
    · split
      · exact ho e x hx
      · exact hx

theorem freeDispute_inner (i : Nat) : Inner s (freeDispute i s) :=
  ⟨.disputes s _ (fun _ hd => by simp [hd]), fun _ h => h.disputeTable _ (h.disputes.sublist List.filter_sublist)
    fun d hd => ⟨d, (List.mem_filter.mp hd).1, rfl, rfl, fun _ hx => hx⟩⟩

theorem freeDispute_gone (i : Nat) (s : State) : ∀ d ∈ (freeDispute i s).disputes, d.segment ≠ i := by
  intro d hd
  simpa using (List.mem_filter.mp hd).2

theorem SoundBut.free {due : Due} {i : Nat} (h : SoundBut due i s) : SoundBut due i (freeDispute i s) :=
  h.change rfl id (fun _ _ => rfl) (fun _ _ => Nat.le_refl _) (fun d hd _ => ⟨d, hd, rfl⟩)
    (fun _ hd _ => (List.mem_filter.mp hd).1) (fun _ hk => hk) h.repair h.serve (h.disputes.sublist List.filter_sublist) h.commit

theorem Loose.free {due : Due} {i : Nat} (h : Loose due i s) : Loose due i (freeDispute i s) :=
  ⟨h.but.free, h.unknown, h.count, h.mark, h.writes, h.repair, freeDispute_gone i s, h.census⟩

/-- A dispute entry freed leaves a segment that may be settled. -/
theorem SoundAt.freed {due : Due} (h : SoundAt due s) (i : Nat) : Loose due i (freeDispute i s) :=
  ((freeDispute_inner i).sound due h).loose (freeDispute_gone i s)

theorem makeEntry_moves (i : Nat) (ballots : List (Station × Signature)) (ht : s.start.top = .active) :
    Moves s (makeEntry i ballots s) := .disputes s _ (fun hn => absurd ht hn)

theorem disputesOk_make {i : Nat} {ballots : List (Station × Signature)} (h : DisputesOk s.disputes)
    (hroom : disputeRoom s = true) (hno : ∀ d ∈ s.disputes, d.segment ≠ i) (ht : (getRec s i).stamp ≠ nullStamp)
    (hb : ballots.Pairwise fun a b => a.1.toNat < b.1.toNat) : DisputesOk (makeEntry i ballots s).disputes := by
  obtain ⟨h1, h2, h3, h4, h5⟩ := h
  have hroom : s.disputes.length < Config.disputeCapacity := by simpa [disputeRoom] using hroom
  refine ⟨by simp only [makeEntry, List.length_append, List.length_singleton]; omega, ?_, fun d hd => ?_, fun d hd => ?_,
    fun d hd => ?_⟩
  · simp only [makeEntry, List.map_append, List.map_cons, List.map_nil]
    refine List.nodup_append.mpr ⟨h2, by simp, ?_⟩
    intro a ha b hb hab
    obtain rfl := List.mem_singleton.mp hb
    obtain ⟨d, hd, hds⟩ := List.mem_map.mp ha
    exact hno d hd (hds.trans hab)
  all_goals
    rcases List.mem_append.mp hd with hd | hd
  · exact h3 d hd
  · obtain rfl := List.mem_singleton.mp hd; exact ht
  · exact h4 d hd
  · obtain rfl := List.mem_singleton.mp hd; exact ⟨Nat.le_refl 1, by simp [Config.lastRound]⟩
  · exact h5 d hd
  · obtain rfl := List.mem_singleton.mp hd; exact hb

/-- R123: an entry made for a DISPUTED record without one. -/
theorem makeEntry_inner (i : Nat) (ht : s.start.top = .active) (hroom : disputeRoom s = true)
    (hst : (getRec s i).state = .disputed) (hno : findDispute s i = none) :
    Inner s (makeEntry i [ownBallot i s] s) := by
  refine ⟨makeEntry_moves i _ ht, fun due h => ?_⟩
  have hl := h.linked.segment i
  have hok := disputesOk_make (i := i) (ballots := [ownBallot i s]) h.disputes hroom (findDispute_none hno)
    (hl.record.mark (hl.record.disputed hst).2.2).1 (by simp)
  refine ((h.but i).change (t := makeEntry i [ownBallot i s] s) rfl id (fun _ _ => rfl) (fun _ _ => Nat.le_refl _)
    (fun d hd _ => ⟨d, hd, rfl⟩) (fun d hd hs => ?_) (fun _ hk => hk) h.repair h.serve hok h.linked.commit).sound
    ⟨hl.record, hl.writes, hl.repair, fun d hd hs => ?_, hl.census⟩
  · rcases List.mem_append.mp hd with hd | hd
    · exact hd
    · obtain rfl := List.mem_singleton.mp hd; exact absurd rfl hs
  · rcases List.mem_append.mp hd with hd | hd
    · exact absurd hs (findDispute_none hno d hd)
    · obtain rfl := List.mem_singleton.mp hd
      exact ⟨hst, rfl, List.mem_singleton.mpr rfl⟩

theorem markDisputed_moves (i : Nat) (s : State) : Moves s (markDisputed i s) :=
  modifyRec_moves i (fun r => { r with mark := true, rounds := 0, state := .disputed }) (fun _ => rfl) (fun _ => rfl) s

/-- A GOOD record with a stamp becomes DISPUTED. -/
theorem recOk_disputed {r : SegRec} (h : RecOk r) (hg : r.state = .good) (ht : r.stamp ≠ nullStamp) :
    RecOk { r with mark := true, rounds := 0, state := .disputed } := by
  have hp := h.pending_zero (by rw [hg]; simp)
  have := h.good hg
  constructor <;> simp_all

theorem goodAt_state {r : SegRec} {t : Stamp} (h : goodAt r t = true) : r.state = .good ∧ r.stamp = t := by
  simp only [goodAt, Bool.and_eq_true, decide_eq_true_eq] at h
  exact ⟨h.1.1, h.2⟩

theorem InRepair.not_good {r : SegRec} (h : InRepair r) : r.state ≠ .good := by
  rcases h.state with h | h | h | h <;> rw [h] <;> simp

theorem markDisputed_inner (i : Nat) (hg : (getRec s i).state = .good) (ht : (getRec s i).stamp ≠ nullStamp) :
    Inner s (markDisputed i s) :=
  ⟨markDisputed_moves i s, fun _ h => h.record i _ (fun ok => recOk_disputed ok hg ht) (Nat.le_refl _)
    (fun _ _ _ hin => absurd hg hin.not_good) (fun _ _ _ hd => absurd hd.state (by rw [hg]; simp))
    (fun hu => by rw [hg] at hu; cases hu)⟩

theorem clearMark_moves (i : Nat) (s : State) : Moves s (modifyRec i clearMark s) :=
  modifyRec_moves i clearMark (fun _ => rfl) (fun _ => rfl) s

theorem Loose.clearMark {due : Due} {i : Nat} (h : Loose due i s) : Loose due i (modifyRec i clearMark s) :=
  h.modify Machine.clearMark (fun _ => ⟨rfl, rfl, rfl⟩) (fun _ hu => hu) (fun _ hm => by cases hm) (fun _ he => he)

/-- R129, R135: an entry is freed, the mark cleared and the record settled. -/
theorem closeSettle_inner (i : Nat) : Inner s (settle i (modifyRec i clearMark (freeDispute i s))) :=
  ⟨(freeDispute_inner i).moves.trans ((clearMark_moves i _).trans (settle_inner i).moves),
    fun _ h => (h.freed i).clearMark.settled⟩

theorem keepDispute_inner (d : Dispute) : Inner s (keepDispute d s) :=
  (closeSettle_inner d.segment).trans (.event _ _ _ _ _)

theorem takeUpOne_inner (i : Nat) (ht : s.start.top = .active) (hroom : disputeRoom s = true)
    (hw : waitsForEntry s i = true) : Inner s (takeUpOne i s) := by
  simp only [waitsForEntry, Bool.and_eq_true, decide_eq_true_eq, Option.isNone_iff_eq_none] at hw
  unfold takeUpOne
  refine (makeEntry_inner i ht hroom hw.1.1 hw.2).trans ((offer_inner (.poll i)).trans
    (Inner.trans (.event _ .disputeOpened (some i) none (some (getRec s i).stamp)) ?_))
  dsimp only
  split
  · split
    · exact keepDispute_inner _
    · exact .refl _
  · exact .refl _

theorem takeUpLoop_inner (n : Nat) : ∀ s, Inner s (takeUpLoop n s) := by
  induction n with
  | zero => intro s; exact .refl s
  | succ n ih =>
    intro s
    unfold takeUpLoop
    split
    · exact .refl s
    · rename_i hc
      simp only [not_or, ne_eq, not_not, Bool.not_eq_true, Bool.not_eq_false'] at hc
      split
      · exact .refl s
      · rename_i i hi
        exact (takeUpOne_inner i hc.1 (by simpa using hc.2) (List.find?_some hi)).trans (ih _)

theorem takeUpDisputes_inner : Inner s (takeUpDisputes s) := takeUpLoop_inner _ s

theorem takeUpIf_inner (b : Bool) : Inner s (takeUpIf b s) := by
  unfold takeUpIf
  split
  · exact takeUpDisputes_inner
  · exact .refl s

/-- The record of a copy that becomes UNUSABLE (R7). -/
theorem Loose.unusable {due : Due} {i : Nat} (h : Loose due i s) :
    Loose due i (modifyRec i (fun r => Machine.clearMark { r with usable := false }) s) :=
  h.modify _ (fun _ => ⟨rfl, rfl, rfl⟩) (fun _ _ => rfl) (fun _ hm => by cases hm) (fun _ he => he)

theorem copyUnusable_moves (i : Nat) (s : State) : Moves s (copyUnusable i s) := by
  unfold copyUnusable
  split
  · exact .refl s
  · exact (freeDispute_inner i).moves.trans ((modifyRec_moves i (fun r => clearMark { r with usable := false })
      (fun _ => rfl) (fun _ => rfl) _).trans ((settle_inner i).moves.trans (takeUpIf_inner _).moves))

/-- R7: a USABLE copy becomes UNUSABLE at a segment that a change has left unsettled. -/
theorem Loose.copyUnusable {due : Due} {i : Nat} (h : Loose due i s) (hu : (getRec s i).usable = true) :
    SoundAt due (copyUnusable i s) := by
  unfold Machine.copyUnusable
  rw [hu]
  exact (takeUpIf_inner _).sound due h.free.unusable.settled

theorem copyUnusable_inner (i : Nat) : Inner s (copyUnusable i s) := by
  refine ⟨copyUnusable_moves i s, fun due h => ?_⟩
  unfold copyUnusable
  split
  · exact h
  · exact (takeUpIf_inner _).sound due (h.freed i).unusable.settled

theorem clearExhausted_eq (r : SegRec) :
    clearExhausted r = { r with exhausted := if held r then r.exhausted else false } := by
  unfold clearExhausted; split <;> rfl

theorem clearExhausted_stamp (r : SegRec) : (clearExhausted r).stamp = r.stamp := by
  unfold clearExhausted; split <;> rfl

theorem clearExhausted_signature (r : SegRec) : (clearExhausted r).signature = r.signature := by
  unfold clearExhausted; split <;> rfl

/-- A record with evidence put in place of what it had, and the exhausted flag cleared (R63, R65, R130). -/
def withEvidence (ev : Evidence) (r : SegRec) : SegRec := clearExhausted { r with evidence := some ev }

theorem withEvidence_eq (ev : Evidence) (r : SegRec) :
    withEvidence ev r = { r with evidence := some ev, exhausted := if held r then r.exhausted else false } := by
  unfold withEvidence; rw [clearExhausted_eq]; rfl

theorem withEvidence_moves (i : Nat) (ev : Evidence) (s : State) : Moves s (modifyRec i (withEvidence ev) s) :=
  modifyRec_moves i (withEvidence ev) (fun _ => clearExhausted_stamp _) (fun _ => clearExhausted_signature _) s
    (fun _ => by rw [withEvidence_eq])

theorem Loose.withEvidence {due : Due} {i : Nat} (h : Loose due i s) (ev : Evidence) :
    Loose due i (modifyRec i (withEvidence ev) s) := by
  refine h.modify (Machine.withEvidence ev) (fun r => ?_) (fun r hu => ?_) (fun r hm => ?_) (fun r _ => ?_)
  · rw [withEvidence_eq]; exact ⟨rfl, rfl, rfl⟩
  · rw [withEvidence_eq]; exact hu
  · rw [withEvidence_eq] at hm; exact hm
  · rw [withEvidence_eq]; rfl

theorem loseDispute_inner (d : Dispute) (w : Signature) (hd : d ∈ s.disputes) : Inner s (loseDispute d w s) := by
  unfold loseDispute
  refine Inner.trans ⟨?_, fun due h => ?_⟩ takeUpDisputes_inner
  · exact (freeDispute_inner d.segment).moves.trans ((Moves.event _ .disputeLost (some d.segment) none (some d.stamp)).trans
      ((withEvidence_moves d.segment _ _).trans (copyUnusable_moves _ _)))
  · have hdis := (h.linked.segment d.segment).dispute d hd rfl
    have hu := ((h.linked.segment d.segment).record.disputed hdis.state).1
    have h1 : Loose due d.segment (raise .disputeLost (some d.segment) none (some d.stamp) (freeDispute d.segment s)) :=
      SoundAt.loose ((Inner.event _ _ _ _ _).sound due ((freeDispute_inner d.segment).sound due h))
        (freeDispute_gone d.segment s)
    refine Loose.copyUnusable (h1.withEvidence _) ?_
    by_cases hi : d.segment < segCount s
    · have := getRec_modifyRec_self (raise .disputeLost (some d.segment) none (some d.stamp) (freeDispute d.segment s))
        d.segment (withEvidence ⟨d.stamp, w, votersFor w d.ballots, true⟩) hi
      refine (congrArg SegRec.usable this).trans ?_
      rw [withEvidence_eq]; exact hu
    · have := getRec_eq s _ hi
      rw [this] at hu; cases hu

theorem evaluate_inner (i : Nat) : Inner s (evaluate i s) := by
  unfold evaluate
  repeat' split
  · exact .refl s
  · exact .refl s
  · exact (keepDispute_inner _).trans takeUpDisputes_inner
  · rename_i hd _ _ _ _; exact loseDispute_inner _ _ (findDispute_some hd).1

theorem setBallot_own (p q : Station) (x y : Signature) (hpq : q ≠ p) (l : List (Station × Signature))
    (h : (q, y) ∈ l) : (q, y) ∈ setBallot p x l := by
  induction l with
  | nil => cases h
  | cons a rest ih =>
    obtain ⟨c, z⟩ := a
    simp only [setBallot]
    split
    · rename_i hc
      rcases List.mem_cons.mp h with h | h
      · simp only [Prod.mk.injEq] at h; exact absurd (h.1.trans hc) hpq
      · exact List.mem_cons_of_mem _ h
    · split
      · exact List.mem_cons_of_mem _ h
      · rcases List.mem_cons.mp h with h | h
        · rw [h]; exact List.mem_cons_self
        · exact List.mem_cons_of_mem _ (ih h)

/-- R122: an entry opened for a GOOD record, with the own ballot and the other station's. -/
theorem makeMarked_inner (i : Nat) (p : Station) (x : Signature) (ht : s.start.top = .active)
    (hroom : disputeRoom s = true) (hg : (getRec s i).state = .good) (hn : (getRec s i).stamp ≠ nullStamp)
    (hp : p ≠ s.start.station) :
    Inner s (markDisputed i (makeEntry i (setBallot p x [ownBallot i s]) s)) := by
  refine ⟨(makeEntry_moves i _ ht).trans (markDisputed_moves i _), fun due h => ?_⟩
  have hl := h.linked.segment i
  have hno : ∀ d ∈ s.disputes, d.segment ≠ i := by
    intro d hd hs
    have := (hl.dispute d hd hs).state
    rw [hg] at this; cases this
  have hok := disputesOk_make (i := i) (ballots := setBallot p x [ownBallot i s]) h.disputes hroom hno hn
    (setBallot_sorted _ _ _ (by simp))
  have hlt : i < segCount s := by
    by_cases hi : i < segCount s
    · exact hi
    · rw [getRec_eq s i hi] at hg; cases hg
  have h1 : SoundBut due i (makeEntry i (setBallot p x [ownBallot i s]) s) := by
    refine (h.but i).change (t := makeEntry i (setBallot p x [ownBallot i s]) s) rfl id (fun _ _ => rfl)
      (fun _ _ => Nat.le_refl _) (fun d hd _ => ⟨d, hd, rfl⟩) (fun d hd hs => ?_) (fun _ hk => hk) h.repair h.serve hok
      h.linked.commit
    rcases List.mem_append.mp hd with hd | hd
    · exact hd
    · obtain rfl := List.mem_singleton.mp hd; exact absurd rfl hs
  refine SoundBut.sound (h1.record _) ?_
  have hself : getRec (markDisputed i (makeEntry i (setBallot p x [ownBallot i s]) s)) i =
      { getRec s i with mark := true, rounds := 0, state := .disputed } :=
    getRec_modifyRec_self (makeEntry i (setBallot p x [ownBallot i s]) s) i _ hlt
  have hw : writesDue due (markDisputed i (makeEntry i (setBallot p x [ownBallot i s]) s)) = writesDue due s :=
    writesDue_congr (by simp [markDisputed]) (by simp [markDisputed]) (by simp [markDisputed])
  refine ⟨?_, ?_, fun e he hs => ?_, fun d hd hs => ?_, fun hc k hk hki => ?_⟩
  · show RecOk (getRec (markDisputed i _) i)
    rw [hself]; exact recOk_disputed hl.record hg hn
  · show _ ≤ (getRec (markDisputed i _) i).pendingWrites
    rw [hself]
    exact Nat.le_trans (Nat.le_of_eq (congrArg _ hw)) hl.writes
  · have he : e ∈ s.repair.queue := by simpa [markDisputed, modifyRec] using he
    exact absurd hg (hl.repair e he hs).not_good
  · have hd : d ∈ (makeEntry i (setBallot p x [ownBallot i s]) s).disputes := by simpa [markDisputed, modifyRec] using hd
    rcases List.mem_append.mp hd with hd | hd
    · exact absurd hs (hno d hd)
    · obtain rfl := List.mem_singleton.mp hd
      show DisputeFits _ (getRec (markDisputed i _) i) _
      rw [hself]
      rw [show (markDisputed i (makeEntry i (setBallot p x [ownBallot i s]) s)).start = s.start by simp [markDisputed]]
      exact ⟨rfl, rfl, setBallot_own p _ x _ (Ne.symm hp) _ (List.mem_singleton.mpr rfl)⟩
  · have := hl.census (by simpa [markDisputed, modifyRec] using hc) k (by simpa [markDisputed, modifyRec] using hk) hki
    rw [hg] at this; cases this

theorem openDispute_inner (p : Station) (i : Nat) (x : Signature) (ht : s.start.top = .active)
    (hg : (getRec s i).state = .good) (hn : (getRec s i).stamp ≠ nullStamp) (hp : p ≠ s.start.station) :
    Inner s (openDispute p i x s) := by
  unfold openDispute
  split
  · rename_i hroom
    exact (makeMarked_inner i p x ht hroom hg hn hp).trans ((offer_inner (.poll i)).trans
      (Inner.trans (.event _ .disputeOpened (some i) (some p) (some (getRec s i).stamp)) (evaluate_inner i)))
  · exact markDisputed_inner i hg hn

theorem recordBallot_inner (p : Station) (i : Nat) (x : Signature) (hp : p ≠ s.start.station) :
    Inner s (recordBallot p i x s) :=
  setDispute_inner i _ (fun _ => ⟨rfl, rfl⟩) (fun _ a b => ⟨a, b⟩) (fun _ hb => setBallot_sorted _ _ _ hb)
    (fun _ y hy => setBallot_own p _ x y (Ne.symm hp) _ hy)

theorem signatureFailure_inner (i : Nat) : Inner s (signatureFailure i s) := by
  unfold signatureFailure
  split
  · exact (copyUnusable_inner i).trans (.event _ _ _ _ _)
  · exact .refl s

theorem disputePoll_inner (p : Station) (i : Nat) (t : Stamp) (x : Signature) (ht : s.start.top = .active)
    (hp : p ≠ s.start.station) : Inner s (disputePoll p i t x s) := by
  unfold disputePoll
  dsimp only
  repeat' split
  · exact .refl s
  · exact (recordBallot_inner p i x hp).trans ((offerWith_inner _ _).trans (evaluate_inner i))
  · exact offerWith_inner _ _
  · rename_i hn _ _ hg
    obtain ⟨h1, h2⟩ := goodAt_state hg
    exact openDispute_inner p i x ht h1 (by rw [h2]; exact hn) hp
  · exact offerWith_inner _ _
  · exact .refl s

theorem disputeBallot_inner (p : Station) (i : Nat) (t : Stamp) (x : Signature) (ht : s.start.top = .active)
    (hp : p ≠ s.start.station) : Inner s (disputeBallot p i t x s) := by
  unfold disputeBallot
  dsimp only
  repeat' split
  · exact .refl s
  · exact (recordBallot_inner p i x hp).trans (evaluate_inner i)
  · rename_i hn _ hg
    simp only [Bool.and_eq_true] at hg
    obtain ⟨h1, h2⟩ := goodAt_state hg.1
    exact openDispute_inner p i x ht h1 (by rw [h2]; exact hn) hp
  · exact .refl s

theorem deadlineExpiry_inner (i : Nat) : Inner s (deadlineExpiry i s) := by
  unfold deadlineExpiry
  repeat' split
  · exact .refl s
  · rename_i d _ hlt
    refine (setDispute_inner i (fun e => { e with round := d.round + 1 }) (fun _ => ⟨rfl, rfl⟩)
      (fun _ _ _ => ⟨by simp, hlt⟩) (fun _ hb => hb) (fun _ _ hx => hx)).trans ((offer_inner (.poll i)).trans ?_)
    exact setDispute_inner i _ (fun _ => ⟨rfl, rfl⟩) (fun _ a b => ⟨a, b⟩) (fun _ hb => hb) (fun _ _ hx => hx)
  · rename_i d _ _
    exact (freeDispute_inner i).trans ((flag_inner i (fun r => { r with rounds := 3 })
      (fun _ => ⟨rfl, rfl, rfl, rfl, rfl⟩) (fun _ h => { h with }) _).trans
        (Inner.trans (.event _ .disputeAbandoned (some i) none (some d.stamp)) takeUpDisputes_inner))

/-- A fold, each member a run of inner moves. -/
theorem foldAny_inner {α : Type} (f : State → α → State) (hf : ∀ s a, Inner s (f s a))
    (l : List α) : ∀ s, Inner s (l.foldl f s) := by
  induction l with
  | nil => intro s; exact .refl s
  | cons a rest ih => intro s; exact (hf s a).trans (ih _)

theorem disputeStationLost_inner (p : Station) (hp : p ≠ s.start.station) : Inner s (disputeStationLost p s) := by
  unfold disputeStationLost
  have h1 : Inner s { s with
      disputes := s.disputes.map (fun d => { d with ballots := d.ballots.filter (fun b => b.1 ≠ p) }) } := by
    refine ⟨.disputes s _ (fun _ hd => by simp [hd]), fun _ h => h.disputeTable _ ?_ fun d hd => ?_⟩
    · obtain ⟨h1, h2, h3, h4, h5⟩ := h.disputes
      refine ⟨by simpa using h1, by rw [List.map_map]; exact h2, fun d hd => ?_, fun d hd => ?_, fun d hd => ?_⟩
      all_goals obtain ⟨e, he, rfl⟩ := List.mem_map.mp hd
      · exact h3 e he
      · exact h4 e he
      · exact (h5 e he).sublist List.filter_sublist
    · obtain ⟨e, he, rfl⟩ := List.mem_map.mp hd
      exact ⟨e, he, rfl, rfl, fun x hx => List.mem_filter.mpr ⟨hx, by simpa using Ne.symm hp⟩⟩
  exact h1.trans (foldAny_inner _ (fun _ i => evaluate_inner i) _ _)

/-! ### Reports and evidence -/

theorem resetJob_inner (i : Nat) (ev : Evidence) : Inner s (resetJob i ev s) := by
  unfold resetJob
  split
  · exact .refl s
  · split
    · exact .refl s
    · refine (modifySlot_inner i
        (fun slot => clearChunks { slot with stamp := ev.stamp, signature := ev.signature }) (fun _ => rfl)).trans
        ((setEntry_inner i (fun e => { e with tried := 0, attempts := 0, source := none, verified := false })
        (fun _ => ⟨rfl, rfl, rfl, rfl⟩)).trans ?_)
      dsimp only
      split
      · exact stopPatience_inner.trans ((chooseSource_inner none).trans pick_inner)
      · exact .refl _

/-- Evidence put in place in a state that may have it. -/
theorem withEvidence_inner (i : Nat) (ev : Evidence)
    (ok : RecOk (getRec s i) → RecOk (withEvidence ev (getRec s i))) : Inner s (modifyRec i (withEvidence ev) s) := by
  refine ⟨withEvidence_moves i ev s, fun _ h => h.record i _ ok ?_ ?_ ?_ ?_⟩ <;> rw [withEvidence_eq]
  · exact fun _ _ _ hin => ⟨hin.state, rfl⟩
  · exact fun _ _ _ hd => ⟨hd.state, hd.stamp, hd.own⟩
  · exact id

theorem recOk_withEvidence (ev : Evidence) {r : SegRec} (h : RecOk r) (h1 : r.state ≠ .good) (h2 : r.state ≠ .disputed)
    (h3 : r.state = .orphan → held r = true) : RecOk (withEvidence ev r) := by
  rw [withEvidence_eq]
  obtain ⟨r1, r2, r3, r4, r5, r6, r7, r8, r9, r10⟩ := h
  refine ⟨r1, fun h => absurd h h1, fun h => ⟨(r3 h).1, rfl⟩, fun _ => rfl, r5, fun h => ⟨(r6 h).1, rfl, ?_⟩,
    fun h => absurd h h2, r8, r9, r10⟩
  simp only [h3 h, if_true]; exact (r6 h).2.2

/-- R64, R65: a record with a usable copy takes evidence and becomes STALE. -/
theorem recOk_stale (ev : Evidence) {r : SegRec} (h : RecOk r) (hs : r.state = .good ∨ r.state = .orphan) :
    RecOk { withEvidence ev r with state := .stale } := by
  rw [withEvidence_eq]
  have hu : r.usable = true := by
    rcases hs with hs | hs
    · exact (h.good hs).1
    · exact (h.orphan hs).1
  have hp := h.pending_zero (by rcases hs with hs | hs <;> rw [hs] <;> simp)
  exact ⟨nofun, nofun, fun _ => ⟨hu, rfl⟩, fun _ => rfl, ⟨nofun, fun h => by simp [hp] at h⟩, nofun, nofun, nofun, h.count,
    fun hm => ⟨(h.mark hm).1, by simp⟩⟩

theorem setStale_moves (i : Nat) (s : State) : Moves s (setRecState i .stale s) :=
  modifyRec_moves i (fun r => { r with state := .stale }) (fun _ => rfl) (fun _ => rfl) s

theorem modify_twice (i : Nat) (f g : SegRec → SegRec) (s : State) (h : i < segCount s) :
    getRec (modifyRec i g (modifyRec i f s)) i = g (f (getRec s i)) := by
  rw [getRec_modifyRec_self, getRec_modifyRec_self _ _ _ h]
  unfold modifyRec; rw [segCount_putRec]; exact h

/-- R64, R65: evidence raised on a GOOD or ORPHAN record. -/
theorem staleWith_inner (i : Nat) (ev : Evidence) (hs : (getRec s i).state = .good ∨ (getRec s i).state = .orphan) :
    Inner s (setRecState i .stale (modifyRec i (withEvidence ev) s)) := by
  refine ⟨(withEvidence_moves i ev s).trans (setStale_moves i _), fun due h => ?_⟩
  have hl := h.linked.segment i
  have hlt : i < segCount s := by
    by_cases hi : i < segCount s
    · exact hi
    · rw [getRec_eq s i hi] at hs; rcases hs with hs | hs <;> cases hs
  have hself : getRec (setRecState i .stale (modifyRec i (withEvidence ev) s)) i =
      { withEvidence ev (getRec s i) with state := .stale } := modify_twice i _ _ s hlt
  refine SoundBut.sound (((h.but i).record _).record _) ?_
  have hw : writesDue due (setRecState i .stale (modifyRec i (withEvidence ev) s)) = writesDue due s :=
    writesDue_congr (by simp [setRecState]) (by simp [setRecState]) (by simp [setRecState])
  have hd0 : (getRec s i).state ≠ .disputed := by rcases hs with hs | hs <;> rw [hs] <;> simp
  refine ⟨?_, ?_, fun e _ _ => ?_, fun d hd hds => ?_, fun hc k hk hki => ?_⟩ <;> (try rw [hself])
  · exact recOk_stale ev hl.record hs
  · rw [hw, withEvidence_eq]; exact hl.writes
  · rw [withEvidence_eq]; exact ⟨.inl rfl, rfl⟩
  · exact absurd (hl.dispute d (by simpa [setRecState] using hd) hds).state hd0
  · have := hl.census (by simpa [setRecState] using hc) k (by simpa [setRecState] using hk) hki
    rcases hs with hs | hs <;> (rw [hs] at this; cases this)

/-- R64, R133: evidence raised on a DISPUTED record drops the dispute. -/
theorem dropDispute_inner (i : Nat) (ev : Evidence) (hst : (getRec s i).state = .disputed) :
    Inner s (dropDispute i (modifyRec i (withEvidence ev) s)) := by
  unfold dropDispute
  refine Inner.trans (t := setRecState i .stale (raise .disputeDropped (some i) none
    (some (getRec (modifyRec i (withEvidence ev) s) i).stamp)
    (freeDispute i (modifyRec i clearMark (modifyRec i (withEvidence ev) s))))) ⟨?_, fun due h => ?_⟩
    ((offerRepair_inner i).trans (takeUpIf_inner _))
  · exact (withEvidence_moves i ev s).trans ((clearMark_moves i _).trans ((freeDispute_inner i).moves.trans
      ((Moves.event _ _ _ _ _).trans (setStale_moves i _))))
  · have hl := h.linked.segment i
    have hlt : i < segCount s := by
      by_cases hi : i < segCount s
      · exact hi
      · rw [getRec_eq s i hi] at hst; cases hst
    generalize hu : freeDispute i (modifyRec i clearMark (modifyRec i (withEvidence ev) s)) = u
    have hbut : SoundBut due i u := by
      rw [← hu]; exact (((h.but i).record _).record _).free
    have hrec : getRec u i = clearMark (withEvidence ev (getRec s i)) := by
      rw [← hu]; exact modify_twice i (withEvidence ev) clearMark s hlt
    have hcount : i < segCount u := by
      rw [← hu]
      show i < segCount (modifyRec i clearMark (modifyRec i (withEvidence ev) s))
      unfold modifyRec; rw [segCount_putRec, segCount_putRec]; exact hlt
    have hgone : ∀ d ∈ u.disputes, d.segment ≠ i := by rw [← hu]; exact freeDispute_gone i _
    have hstart : u.start = s.start := by rw [← hu]; simp
    have hstore : u.store = s.store := by rw [← hu]; simp
    have hself : getRec (setRecState i .stale (raise .disputeDropped (some i) none
        (some (getRec (modifyRec i (withEvidence ev) s) i).stamp) u)) i =
        { clearMark (withEvidence ev (getRec s i)) with state := .stale } := by
      rw [← hrec]; exact getRec_modifyRec_self (raise _ _ _ _ u) i _ hcount
    have hbut2 : SoundBut due i (raise .disputeDropped (some i) none
        (some (getRec (modifyRec i (withEvidence ev) s) i).stamp) u) :=
      hbut.change rfl id (fun _ _ => rfl) (fun _ _ => Nat.le_refl _) (fun d hd _ => ⟨d, hd, rfl⟩) (fun d hd _ => hd)
        (fun _ hk => hk) hbut.repair hbut.serve hbut.disputes hbut.commit
    refine SoundBut.sound (hbut2.record _) ?_
    have hw : writesDue due (setRecState i .stale (raise .disputeDropped (some i) none
        (some (getRec (modifyRec i (withEvidence ev) s) i).stamp) u)) = writesDue due s :=
      writesDue_congr (by simp [setRecState, hstart]) (by simp [setRecState, hstore]) (by simp [setRecState, hstore])
    have hp := hl.record.pending_zero (by rw [hst]; simp)
    refine ⟨?_, ?_, fun e _ _ => ?_, fun d hd hds => ?_, fun hc k hk hki => ?_⟩ <;> (try rw [hself])
    · rw [withEvidence_eq]
      have := hl.record.disputed hst
      constructor <;> simp_all [clearMark]
    · rw [hw, withEvidence_eq]; exact hl.writes
    · rw [withEvidence_eq]; exact ⟨.inl rfl, rfl⟩
    · exact absurd hds (hgone d (by simpa [setRecState] using hd))
    · have := hl.census (by simpa [setRecState, hstart] using hc) k (by simpa [setRecState, hstore] using hk) hki
      rw [hst] at this; cases this

theorem raiseEvidence_inner (p : Station) (i : Nat) (t : Stamp) (x : Signature) (b : Bool) :
    Inner s (raiseEvidence p i t x b s) := by
  have keep : (getRec s i).state ≠ .good → (getRec s i).state ≠ .disputed → (getRec s i).state ≠ .orphan →
      Inner s (modifyRec i (withEvidence { stamp := t, signature := x, holders := oneStation p, fromNews := b }) s) :=
    fun h1 h2 h3 => withEvidence_inner i _ fun ok => recOk_withEvidence _ ok h1 h2 fun h => absurd h h3
  unfold raiseEvidence
  dsimp only
  split
  all_goals rename_i hst
  · exact keep (by rw [hst]; simp) (by rw [hst]; simp) (by rw [hst]; simp)
  · exact (staleWith_inner i _ (.inl hst)).trans (offerRepair_inner i)
  · exact (keep (by rw [hst]; simp) (by rw [hst]; simp) (by rw [hst]; simp)).trans (offerRepair_inner i)
  · exact (staleWith_inner i _ (.inr hst)).trans (offerRepair_inner i)
  · exact (keep (by rw [hst]; simp) (by rw [hst]; simp) (by rw [hst]; simp)).trans
      ((resetJob_inner i _).trans (offerRepair_inner i))
  · exact keep (by rw [hst]; simp) (by rw [hst]; simp) (by rw [hst]; simp)
  · exact dropDispute_inner i _ hst
  · have h1 := keep (by rw [hst]; simp) (by rw [hst]; simp) (by rw [hst]; simp)
    split
    · exact h1
    · exact h1.trans (offerRepair_inner i)

theorem addHolder_inner (p : Station) (i : Nat) (ev : Evidence) (hev : (getRec s i).evidence = some ev) :
    Inner s (addHolder p i ev s) := by
  unfold addHolder
  split
  · exact .refl s
  · have key : ((getRec s i).state = .orphan → held (getRec s i) = true) →
        Inner s (modifyRec i (withEvidence { ev with holders := addStation ev.holders p }) s) :=
      fun h3 => withEvidence_inner i _ fun ok => recOk_withEvidence _ ok
        (fun h => by have := (ok.good h).2.1; rw [hev] at this; cases this)
        (fun h => by have := (ok.disputed h).2.1; rw [hev] at this; cases this) h3
    dsimp only
    split
    · rename_i hst
      split
      · rename_i hh; exact key fun _ => hh
      · exact (staleWith_inner i _ (.inr hst)).trans (offerRepair_inner i)
    · rename_i hst
      have h1 := key fun h => by rw [hst] at h; cases h
      split
      · exact h1.trans (offerRepair_inner i)
      · exact h1
    · rename_i h1 _; exact key fun h => absurd h h1

theorem mismatch_inner (p : Station) (i : Nat) (x : Signature) (hg : (getRec s i).state = .good)
    (hn : (getRec s i).stamp ≠ nullStamp) (hp : p ≠ s.start.station) : Inner s (mismatch p i x s) := by
  unfold mismatch
  split
  · rename_i ht
    exact openDispute_inner p i x ht hg hn hp
  · split
    · exact markDisputed_inner i hg hn
    · exact .refl s

theorem reportMismatches_good {r : SegRec} {t : Stamp} {x : Signature} (h : reportMismatches r t x = true) :
    r.state = .good ∧ r.stamp = t := by
  simp only [reportMismatches, Bool.and_eq_true] at h
  exact goodAt_state h.1

theorem report_inner (p : Station) (i : Nat) (t : Stamp) (x : Signature) (b : Bool) (hp : p ≠ s.start.station)
    (hn : t ≠ nullStamp) : Inner s (report p i t x b s) := by
  unfold report
  dsimp only
  split
  · rename_i hm
    obtain ⟨h1, h2⟩ := reportMismatches_good hm
    exact mismatch_inner p i x h1 (by rw [h2]; exact hn) hp
  · split
    · exact .refl s
    · split
      · exact .refl s
      · split
        · exact raiseEvidence_inner p i t x b
        · rename_i ev hev
          split
          · exact raiseEvidence_inner p i t x b
          · split
            · exact addHolder_inner p i _ hev
            · exact .refl s

theorem disputePathReport_inner (p : Station) (i : Nat) (t : Stamp) (x : Signature) (hp : p ≠ s.start.station) :
    Inner s (disputePathReport p i t x s) := by
  unfold disputePathReport
  split
  · rename_i h
    obtain ⟨h1, h2⟩ := reportMismatches_good h.2
    exact mismatch_inner p i x h1 (by rw [h2]; exact h.1) hp
  · exact .refl s

theorem listEntry_inner (p : Station) (i : Nat) (e : SigEntry) (hp : p ≠ s.start.station) :
    Inner s (listEntry p i e s) := by
  unfold listEntry
  split
  · rename_i h; exact report_inner p i _ _ false hp h.2
  · exact .refl s

theorem listEntries_inner (p : Station) (l : List SigEntry) : ∀ (i : Nat) (s : State), p ≠ s.start.station →
    Inner s (listEntries p i l s) := by
  induction l with
  | nil => intro i s _; exact .refl s
  | cons e rest ih =>
    intro i s hp
    have h1 := listEntry_inner (s := s) p i e hp
    exact h1.trans (ih _ _ (by rw [h1.start]; exact hp))

/-! ### The Serve Unit -/

theorem joinRequest_key (t : Stamp) (m : ChunkMask) (e : ServeEntry) :
    ((joinRequest t m e).requester, (joinRequest t m e).segment) = (e.requester, e.segment) := by
  unfold joinRequest; split <;> rfl

/-- The head out of service. -/
theorem headOut_inner (b : Bool) :
    Inner s (if b then { s with serve.phase := .waiting, serve.outstanding := 0 } else s) := by
  split
  · refine .serve s _ (fun ⟨h1, h2, _, _, _⟩ => ?_) (fun _ hq => hq)
    exact ⟨h1, h2, (by decide : chunkCount 0 ≤ Config.paceLimit), by simp, by simp⟩
  · exact .refl s

theorem joinEntry_inner (p : Station) (i : Nat) (t : Stamp) (m : ChunkMask) :
    Inner s (joinEntry p i t m s) := by
  unfold joinEntry
  have h1 : Inner s { s with
      serve.queue := s.serve.queue.map (fun e => if isEntryOf p i e then joinRequest t m e else e) } := by
    refine .serve s _ (fun ⟨h1, h2, h3, h4, h5⟩ => ?_) (fun _ hq => by simp [hq])
    refine ⟨by simpa using h1, ?_, h3, h4, fun hn => h5 (by simpa using hn)⟩
    have : (s.serve.queue.map (fun e => if isEntryOf p i e then joinRequest t m e else e)).map
        (fun e => (e.requester, e.segment)) = s.serve.queue.map (fun e => (e.requester, e.segment)) := by
      rw [List.map_map]
      refine List.map_congr_left fun e _ => ?_
      simp only [Function.comp]
      split
      · exact joinRequest_key t m e
      · rfl
    simp only [this]; exact h2
  exact h1.trans ((headOut_inner _).trans serveWork_inner)

theorem takeRequest_inner (p : Station) (i : Nat) (t : Stamp) (m : ChunkMask) (ht : s.start.top = .active)
    : Inner s (takeRequest p i t m s) := by
  unfold takeRequest
  split
  · exact offer_inner _
  · split
    · exact joinEntry_inner p i t m
    · rename_i hnone
      split
      · rename_i hroom
        have h1 : Inner s { s with
            serve.queue := s.serve.queue ++ [{ requester := p, segment := i, stamp := t, remaining := m }] } := by
          refine .serve s _ (fun ⟨h1, h2, h3, h4, h5⟩ => ?_) (fun hn => absurd ht hn)
          refine ⟨by simp only [List.length_append, List.length_singleton]; omega, ?_, h3, h4,
            fun hn => by simp at hn⟩
          simp only [List.map_append, List.map_cons, List.map_nil]
          refine List.nodup_append.mpr ⟨h2, by simp, ?_⟩
          intro a ha b hb hab
          obtain rfl := List.mem_singleton.mp hb
          obtain ⟨e, he, rfl⟩ := List.mem_map.mp ha
          refine hnone (List.any_eq_true.mpr ⟨e, he, ?_⟩)
          simp only [Prod.mk.injEq] at hab
          simp [isEntryOf, hab.1, hab.2]
        exact h1.trans serveWork_inner
      · exact offer_inner _

theorem refuseHead_inner (head : ServeEntry) : Inner s (refuseHead head s) :=
  (offer_inner (.nohave head.requester head.segment)).trans leaveHead_inner

theorem serveReadWithoutEntry_inner (i : Nat) (r : SlotResult) :
    Inner s (serveReadWithoutEntry i r s) := by
  unfold serveReadWithoutEntry
  repeat' split
  · exact signatureFailure_inner i
  · exact .refl s
  · exact signatureFailure_inner i
  · exact .refl s

theorem serveReadForHead_inner (head : ServeEntry) (r : SlotResult) (data : List Byte)
    (hq : s.serve.queue ≠ []) : Inner s (serveReadForHead head r data s) := by
  unfold serveReadForHead
  repeat' split
  · exact (signatureFailure_inner _).trans (refuseHead_inner head)
  · exact refuseHead_inner head
  · exact refuseHead_inner head
  · exact (signatureFailure_inner _).trans (refuseHead_inner head)
  · refine .serve s _ (fun ⟨h1, h2, _, _, _⟩ => ?_) (fun _ hn => hn)
    exact ⟨h1, h2, (by decide : chunkCount 0 ≤ Config.paceLimit), by simp, fun hn => absurd hn hq⟩

theorem serveReadEnd_inner (i : Nat) (r : SlotResult) (data : List Byte) :
    Inner s (serveReadEnd i r data s) := by
  unfold serveReadEnd
  have h1 : Inner s { s with serve.reading := false } :=
    .serve s _ id (fun _ hq => hq)
  refine h1.trans ?_
  dsimp only
  split
  · rename_i hq _
    exact (serveReadForHead_inner _ _ _ (by simp [hq])).trans serveWork_inner
  · exact (serveReadWithoutEntry_inner i r).trans serveWork_inner

theorem serveStationLost_inner (p : Station) : Inner s (serveStationLost p s) := by
  unfold serveStationLost
  dsimp only
  by_cases hl : (s.serve.queue.head?.any fun e => decide (e.requester = p)) = true
  · rw [if_pos hl]
    refine Inner.trans (t := { s with serve.queue := s.serve.queue.filter (fun e => e.requester ≠ p),
                                      serve.phase := .waiting, serve.outstanding := 0 })
      (.serve s _ (fun ⟨h1, h2, _, _, _⟩ => ?_) (fun _ hq => by simp [hq])) serveWork_inner
    exact ⟨Nat.le_trans (List.length_filter_le _ _) h1, h2.sublist (List.filter_sublist.map _),
      (by decide : chunkCount 0 ≤ Config.paceLimit), by simp, by simp⟩
  · rw [if_neg hl]
    refine Inner.trans (t := { s with serve.queue := s.serve.queue.filter (fun e => e.requester ≠ p) })
      (.serve s _ (fun ⟨h1, h2, h3, h4, h5⟩ => ?_) (fun _ hq => by simp [hq])) serveWork_inner
    refine ⟨Nat.le_trans (List.length_filter_le _ _) h1, h2.sublist (List.filter_sublist.map _), h3, h4,
      fun hn => ?_⟩
    cases hq : s.serve.queue with
    | nil => exact h5 hq
    | cons a rest =>
      simp only [hq, List.head?_cons, Option.any_some, decide_eq_true_eq] at hl hn
      rw [List.filter_cons_of_pos (by simpa using hl)] at hn
      exact absurd hn (by simp)

end Sys2Proof.Machine
end

