-- ==== Sys2Proof/Laws/Invariant.lean ====
section
/-! SUPPORT. The invariant of Safety.lean in two parts, inner moves and changes of records keep it, and so do the DETACH
sequence and the counting of a clash. -/

namespace Sys2Proof.Machine

variable {due : Due} {s t : State}

/-- What the top state says of every block but the store (`Governed` without its clauses on store operations). -/
structure BlockRules (s : State) : Prop where
  reason : reasonFits s.start.top s.start.reason = true
  station : started s.start.top = true → s.start.station ≠ 0
  header : s.start.header.isSome = started s.start.top
  tables : ∀ h, s.start.header = some h →
    s.segs.recs.length = h.count ∧ s.roster.banks.length = h.count / Config.bankSize
  noTable : s.start.header = none → s.segs.recs = []
  receiver : s.line.receiver = listening s.start.top
  transmitter : s.line.transmitter = (s.start.top == .active || isSending s.line.engine)
  engine : s.line.receiver = false → s.line.engine = .quiet ∨ isSending s.line.engine = true
  outbox : s.start.top ≠ .active → s.line.outbox = []
  flight : inFlight s.line.outbox = sentIdent s.line.engine
  clashes : s.line.clashes ≤ Config.clashLimit
  rosterSize : s.roster.entries.length = 15
  absent : listening s.start.top = false → ∀ e ∈ s.roster.entries, e = ⟨false, none⟩
  selfEntry : started s.start.top = true → rosterEntry s s.start.station = ⟨s.start.top == .active, none⟩
  beacon : s.roster.beacon.isSome = (s.start.top == .active)
  pointer : s.start.top ≠ .active → s.roster.pointer = 0
  queue : listening s.start.top = false → s.repair.queue = []
  fetching : s.start.top ≠ .active → engineAtRest s.repair
  serve : s.start.top ≠ .active → s.serve.queue = []
  disputes : s.start.top ≠ .active → s.disputes = []
  waiting : s.start.storeWait = true → s.start.top = .starting

/-- What the top state says of the store operations under way and of the straps. -/
structure StoreRules (s : State) : Prop where
  probing : ((∃ p, s.store.op = .probing p) ∨ s.store.op = .header) →
    s.start.top = .starting ∧ s.start.storeWait = false ∧ s.start.station ≠ 0
  census : ∀ i, s.store.op = .reading .census i →
    (s.start.top = .census ∨ s.start.storeWait = true) ∧ s.store.censusReq = none
  censusReq : s.store.censusReq.isSome = true → s.start.top = .census
  straps : s.start.strapsDue = true →
    s.start.top = .starting ∧ s.start.storeWait = false ∧ (∀ p, s.store.op ≠ .probing p) ∧ s.store.op ≠ .header

theorem governed_iff : Governed s ↔ BlockRules s ∧ StoreRules s :=
  ⟨fun ⟨a,b,c,d,d',e,f,g,h,i,j,k,l,m,n,o,p,q,r,u,v,w,x,y,z⟩ => ⟨⟨a,b,c,d,d',e,f,g,h,i,j,k,l,m,n,o,p,q,r,u,y⟩,⟨v,w,x,z⟩⟩,
   fun ⟨⟨a,b,c,d,d',e,f,g,h,i,j,k,l,m,n,o,p,q,r,u,y⟩,⟨v,w,x,z⟩⟩ => ⟨a,b,c,d,d',e,f,g,h,i,j,k,l,m,n,o,p,q,r,u,v,w,x,y,z⟩⟩

/-- The invariant without `StoreRules`: what a rule must keep that ends or begins a store operation. -/
structure Base (due : Due) (s : State) : Prop where
  events : EventsOk s.host.events
  digests : DigestsOk s.segs
  outbox : OutboxOk s.line.outbox
  sound : SoundAt due s
  core : BlockRules s

/-- What a rule keeps besides: all but the soundness. -/
structure Rest (s : State) : Prop where
  events : EventsOk s.host.events
  digests : DigestsOk s.segs
  outbox : OutboxOk s.line.outbox
  core : BlockRules s

theorem Base.rest (b : Base due s) : Rest s := ⟨b.events, b.digests, b.outbox, b.core⟩

theorem Rest.base (r : Rest s) (h : SoundAt due s) : Base due s := ⟨r.events, r.digests, r.outbox, h, r.core⟩

/-- The invariant in its two parts. -/
theorem inv_iff : Inv s ↔ Base .now s ∧ StoreRules s :=
  ⟨fun ⟨a,b,c,d,e⟩ => ⟨⟨a,b,c,d,(governed_iff.mp e).1⟩,(governed_iff.mp e).2⟩,
   fun ⟨⟨a,b,c,d,e⟩,f⟩ => ⟨a,b,c,d,governed_iff.mpr ⟨e,f⟩⟩⟩

/-- Inner moves keep what the top state says of the blocks. -/
theorem blockRules_inner (h : Moves s t) (c : BlockRules s) : BlockRules t := by
  have hst := h.start
  have hl := h.line
  obtain ⟨hr, hb⟩ := h.roster
  have e1 : t.line.receiver = s.line.receiver := by rw [hl]
  have e2 : t.line.transmitter = s.line.transmitter := by rw [hl]
  have e3 : t.line.engine = s.line.engine := by rw [hl]
  have e4 : t.line.clashes = s.line.clashes := by rw [hl]
  have e5 : t.roster.entries = s.roster.entries := by rw [hr]
  have e6 : t.roster.beacon = s.roster.beacon := by rw [hr]
  have e7 : t.roster.pointer = s.roster.pointer := by rw [hr]
  have e8 : ∀ p, rosterEntry t p = rosterEntry s p := by intro p; simp [rosterEntry, e5]
  constructor <;> (try rw [hst]) <;> (try simp only [e1, e2, e3, e4, e5, e6, e7, e8])
  · exact c.reason
  · exact c.station
  · exact c.header
  · intro hd hh; have := c.tables hd hh; rw [h.sizes.1, hb]; exact this
  · intro hn
    have := c.noTable hn
    exact List.eq_nil_of_length_eq_zero (by rw [h.sizes.1, this]; rfl)
  · exact c.receiver
  · exact c.transmitter
  · exact c.engine
  · intro ht; rw [h.outboxShut ht]; exact c.outbox ht
  · rw [h.flight]; exact c.flight
  · exact c.clashes
  · exact c.rosterSize
  · exact c.absent
  · exact c.selfEntry
  · exact c.beacon
  · exact c.pointer
  · exact fun ht => h.queueEmpty ht (c.queue ht)
  · exact fun ht => h.atRest ht (c.fetching ht)
  · exact fun ht => h.serveEmpty ht (c.serve ht)
  · exact fun ht => h.disputesEmpty ht (c.disputes ht)
  · exact c.waiting

/-- Inner moves keep what the top state says of the store operations. -/
theorem storeRules_inner (h : Moves s t) (c : StoreRules s) : StoreRules t := by
  have hst := h.start
  have hs := h.storeOp
  by_cases hop : s.store.op = .idle
  · rcases hs.2 hop with ⟨hc, h1⟩ | ⟨i, hi, h1, h2⟩
    · have hno : ∀ x, (t.store.op = .probing x → False) := by
        intro x hx; rcases h1 with h1 | ⟨_, h1⟩ | ⟨_, h1⟩ | ⟨_, h1⟩ <;> simp [h1] at hx
      have hno2 : t.store.op ≠ .header := by
        intro hx; rcases h1 with h1 | ⟨_, h1⟩ | ⟨_, h1⟩ | ⟨_, h1⟩ <;> simp [h1] at hx
      have hno3 : ∀ x, (t.store.op = .reading .census x → False) := by
        intro x hx; rcases h1 with h1 | ⟨_, h1⟩ | ⟨_, h1⟩ | ⟨_, h1⟩ <;> simp [h1] at hx
      refine ⟨?_, ?_, ?_, ?_⟩
      · rintro (⟨p, hp⟩ | hp)
        · exact (hno p hp).elim
        · exact (hno2 hp).elim
      · intro i hi; exact (hno3 i hi).elim
      · rw [hc, hst]; exact c.censusReq
      · rw [hst]; intro hd; exact ⟨(c.straps hd).1, (c.straps hd).2.1, fun p hp => hno p hp, hno2⟩
    · refine ⟨?_, ?_, ?_, ?_⟩
      · rw [h1]; simp
      · intro j _; rw [hst]; exact ⟨.inl (c.censusReq (by simp [hi])), h2⟩
      · rw [h2]; simp
      · rw [hst, h1]; intro hd; exact ⟨(c.straps hd).1, (c.straps hd).2.1, by simp, by simp⟩
  · obtain ⟨h1, h2⟩ := hs.1 hop
    refine ⟨?_, ?_, ?_, ?_⟩ <;> rw [hst] <;> (try rw [h1]) <;> (try rw [h2])
    · exact c.probing
    · exact c.census
    · exact c.censusReq
    · exact c.straps

theorem rest_moves (h : Moves s t) (c : Rest s) : Rest t :=
  ⟨h.events c.events, h.digests c.digests, h.outboxOk c.outbox, blockRules_inner h c.core⟩

/-- Moves that leave the state sound. -/
theorem base_moves {after : Due} (h : Moves s t) (hs : SoundAt after t) (c : Base due s) : Base after t :=
  (rest_moves h c.rest).base hs

theorem base_inner (h : Inner s t) (c : Base due s) : Base due t := base_moves h.moves (h.sound _ c.sound) c

theorem inv_moves (h : Moves s t) (hs : Sound t) (c : Inv s) : Inv t := by
  obtain ⟨b, o⟩ := inv_iff.mp c
  exact inv_iff.mpr ⟨base_moves h hs b, storeRules_inner h o⟩

/-- An operation made of inner moves keeps the invariant. -/
theorem inv_inner (h : Inner s t) (c : Inv s) : Inv t := inv_moves h.moves (h.sound _ c.sound) c

/-- A record rewritten. -/
theorem rest_putRec (i : Nat) (r : SegRec) (c : Rest s) : Rest (putRec i r s) := by
  have h1 := putRec_entries s i r
  have h2 := putRec_beacon s i r
  have h3 := putRec_pointer s i r
  refine ⟨by simpa using c.events, putRec_digestsOk s i r c.digests, by simpa using c.outbox, ?_⟩
  have cc := c.core
  have e8 : ∀ p, rosterEntry (putRec i r s) p = rosterEntry s p := by intro p; simp [rosterEntry]
  constructor <;> (try simp only [putRec_start, putRec_line, putRec_repair, putRec_serve, putRec_disputes, h1, h2, h3, e8])
  · exact cc.reason
  · exact cc.station
  · exact cc.header
  · intro hd hh; have := cc.tables hd hh; simpa using this
  · intro hn; rw [putRec_recs, cc.noTable hn]; rfl
  · exact cc.receiver
  · exact cc.transmitter
  · exact cc.engine
  · exact cc.outbox
  · exact cc.flight
  · exact cc.clashes
  · exact cc.rosterSize
  · exact cc.absent
  · exact cc.selfEntry
  · exact cc.beacon
  · exact cc.pointer
  · exact cc.queue
  · exact cc.fetching
  · exact cc.serve
  · exact cc.disputes
  · exact cc.waiting

/-- What is kept does not look at the store, nor at the host port but for its events. -/
theorem rest_congr (c : Rest s) (h1 : t.start = s.start) (h2 : t.line = s.line) (h3 : t.roster = s.roster)
    (h4 : t.segs = s.segs) (h5 : t.repair.queue = s.repair.queue ∧ t.repair.cond = s.repair.cond ∧
      t.repair.patience = s.repair.patience) (h6 : t.serve = s.serve)
    (h7 : t.disputes = s.disputes) (h8 : EventsOk t.host.events) : Rest t := by
  obtain ⟨a, b, d, g⟩ := c
  have e8 : ∀ p, rosterEntry t p = rosterEntry s p := by intro p; simp [rosterEntry, h3]
  have e9 : engineAtRest t.repair = engineAtRest s.repair := by simp only [engineAtRest, h5]
  refine ⟨h8, by rw [h4]; exact b, by rw [h2]; exact d, ?_⟩
  obtain ⟨a,b,c,d,d',e,f,g,h,i,j,k,l,m,n,o,p,q,r,u,y⟩ := g
  constructor <;> simp only [h1,h2,h3,h4,h5,h6,h7,e8,e9] <;> assumption

theorem base_congr {e : Due} (c : Base due s) (h1 : t.start = s.start) (h2 : t.line = s.line)
    (h3 : t.roster = s.roster) (h4 : t.segs = s.segs) (h5 : t.repair = s.repair) (h6 : t.serve = s.serve)
    (h7 : t.disputes = s.disputes) (h8 : EventsOk t.host.events) (hs : SoundAt e t) : Base e t :=
  (rest_congr c.rest h1 h2 h3 h4 (by rw [h5]; exact ⟨rfl, rfl, rfl⟩) h6 h7 h8).base hs

theorem putRec_disputes_comm (i : Nat) (r : SegRec) (d : List Dispute) (s : State) :
    putRec i r { s with disputes := d } = { putRec i r s with disputes := d } := by
  by_cases h1 : i < segCount s
  · have h1' : i < segCount { s with disputes := d } := h1
    have hr : getRec { s with disputes := d } i = getRec s i := rfl
    simp only [putRec, if_pos h1, if_pos h1', changeDigest, hr]
    by_cases h2 : rotated i (contributed (getRec s i)) ^^^ rotated i (contributed r) = 0
    · rw [if_pos h2, if_pos h2]
    · rw [if_neg h2, if_neg h2]
  · have h1' : ¬ i < segCount { s with disputes := d } := h1
    simp only [putRec, if_neg h1, if_neg h1']

theorem modify_comm (i : Nat) (f : SegRec → SegRec) (d : List Dispute) (s : State) :
    modifyRec i f { s with disputes := d } = { modifyRec i f s with disputes := d } :=
  putRec_disputes_comm i _ d s

/-- Rewriting the records of a list of disputes does not look at the dispute table. -/
theorem foldModify_comm (f : SegRec → SegRec) (l : List Dispute) (d : List Dispute) : ∀ s : State,
    l.foldl (fun s e => modifyRec e.segment f s) { s with disputes := d } =
      { l.foldl (fun s e => modifyRec e.segment f s) s with disputes := d } := by
  induction l with
  | nil => intro s; rfl
  | cons a rest ih => intro s; simp only [List.foldl_cons, modify_comm, ih]

theorem roundsOff_inner (l : List Dispute) : Inner s (l.foldl (fun s d => modifyRec d.segment (fun r => { r with rounds := 0 }) s) s) :=
  foldAny_inner _ (fun s d => flag_inner d.segment (fun r => { r with rounds := 0 }) (fun _ => ⟨rfl, rfl, rfl, rfl, rfl⟩)
    (fun _ h => { h with }) s) l s

theorem disputesOff_base (c : Base due { s with disputes := [] }) : Base due (disputesOff s) := by
  unfold disputesOff
  have := base_inner (roundsOff_inner s.disputes) c
  rw [foldModify_comm] at this
  exact this

theorem foldModify_frame (f : SegRec → SegRec) (l : List Dispute) : ∀ s : State,
    (l.foldl (fun s e => modifyRec e.segment f s) s).store = s.store ∧
    (l.foldl (fun s e => modifyRec e.segment f s) s).start = s.start := by
  induction l with
  | nil => intro s; exact ⟨rfl, rfl⟩
  | cons a rest ih => intro s; have := ih (modifyRec a.segment f s); simp only [List.foldl_cons]; rw [this.1, this.2]; simp [modifyRec]

theorem contributed_forget (r : SegRec) : contributed (forgetEvidence r) = contributed r := by
  unfold forgetEvidence clearExhausted settledState contributed held
  by_cases hu : r.state = .unknown
  · split <;> simp [hu]
  · split <;> simp only [hu, if_false] <;> repeat' split
    all_goals simp_all

theorem getRec_map (f : SegRec → SegRec) (s : State) (i : Nat) (h : i < segCount s) :
    getRec { s with segs.recs := s.segs.recs.map f } i = f (getRec s i) := by
  unfold segCount at h
  simp [getRec, List.getD_eq_getElem?_getD, h]

/-- Every record is changed alike. -/
theorem SoundAt.mapRecs (h : SoundAt due s) (f : SegRec → SegRec) (ok : ∀ r, RecOk r → RecOk (f r))
    (hp : ∀ r, (f r).pendingWrites = r.pendingWrites) (hu : ∀ r, r.state = .unknown → (f r).state = .unknown)
    (hr : ∀ e ∈ s.repair.queue, ∀ r, InRepair r → InRepair (f r))
    (hd : ∀ d ∈ s.disputes, ∀ r, DisputeFits s.start.station r d → DisputeFits s.start.station (f r) d) :
    SoundAt due { s with segs.recs := s.segs.recs.map f } := by
  refine ⟨h.repair, h.serve, h.disputes, ⟨fun i => ?_, h.linked.commit⟩⟩
  have hl := h.linked.segment i
  by_cases hi : i < segCount s
  · have hg := getRec_map f s i hi
    refine ⟨by rw [hg]; exact ok _ hl.record, by rw [hg, hp]; exact hl.writes, fun e he hs => ?_, fun d hd1 hs => ?_,
      fun ht k hk hki => ?_⟩ <;> rw [hg]
    · exact hr e he _ (hl.repair e he hs)
    · exact hd d hd1 _ (hl.dispute d hd1 hs)
    · exact hu _ (hl.census ht k hk hki)
  · have hg : getRec { s with segs.recs := s.segs.recs.map f } i = getRec s i := by
      rw [getRec_eq s i hi, getRec_eq _ i (by simpa [segCount] using hi)]
    exact hl.mono hg rfl id (Nat.le_refl _) (fun d hd hs => ⟨d, hd, hs⟩) (fun _ hd _ => hd) (fun _ hk => hk)

theorem forgetEvidence_ok (r : SegRec) (h : RecOk r) : RecOk (forgetEvidence r) := by
  have hf : forgetEvidence r =
      { (clearExhausted { r with evidence := none }) with
        state := settledState false (clearExhausted { r with evidence := none }) } := rfl
  rw [hf, clearExhausted_eq]
  exact recOk_settled _ false (fun hu => ⟨h.unknown hu, h.pending_zero (by rw [hu]; simp)⟩) h.count h.mark
    (fun hb => by cases hb)

theorem forgetEvidence_kept (r : SegRec) :
    (forgetEvidence r).pendingWrites = r.pendingWrites ∧ (r.state = .unknown → (forgetEvidence r).state = .unknown) := by
  have hf : forgetEvidence r =
      { (clearExhausted { r with evidence := none }) with
        state := settledState false (clearExhausted { r with evidence := none }) } := rfl
  rw [hf, clearExhausted_eq]
  exact ⟨rfl, fun hu => by simp [settledState, hu]⟩

theorem forgetAll_base (c : Base due s) (hq : s.repair.queue = []) (hdd : s.disputes = []) :
    Base due (forgetAll s) := by
  have hd : DigestsOk (forgetAll s).segs := digestsOk_map s.segs forgetEvidence contributed_forget c.digests
  obtain ⟨a, b, d, e, g⟩ := c
  refine ⟨a, hd, d, e.mapRecs forgetEvidence forgetEvidence_ok (fun r => (forgetEvidence_kept r).1)
    (fun r => (forgetEvidence_kept r).2) (fun e he => by rw [hq] at he; cases he) (fun d hd => by rw [hdd] at hd; cases hd), ?_⟩
  obtain ⟨a,b,c,d,d',e,f,g,h,i,j,k,l,m,n,o,p,q,r,u,y⟩ := g
  refine ⟨a,b,c,?_,?_,e,f,g,h,i,j,k,l,m,n,o,p,q,r,u,y⟩
  · intro hd hh; have := d hd hh; simpa [forgetAll] using this
  · intro hn; show s.segs.recs.map _ = []; rw [d' hn]; rfl

/-- The base holds after DETACH (R164), field by field. -/
theorem detached_base (b : Base .now s) (u : State) (hstarted : started s.start.top = true)
    (hw : s.start.storeWait = false) (r : Reason) (hr : r = .host ∨ r = .clash)
    (h1 : u.start = { s.start with top := .detached, reason := r })
    (h2 : u.line.receiver = false) (h3 : u.line.transmitter = isSending s.line.engine)
    (h4 : u.line.engine = engineOff .afterDetach s.line.engine) (h5 : u.line.outbox = [])
    (h6 : u.line.clashes = s.line.clashes) (h7 : u.roster.entries = List.replicate 15 ⟨false, none⟩)
    (h8 : u.roster.beacon = none) (h9 : u.roster.pointer = 0) (h10 : u.roster.banks.length = s.roster.banks.length)
    (h11 : u.segs = s.segs) (h12 : u.repair.queue = [])
    (h14 : u.repair.cond = none) (h15 : u.repair.patience = none) (h16 : u.serve.queue = [])
    (h19 : u.disputes = [])
    (h20 : u.host = s.host) (hsound : SoundAt .now u) : Base .now u := by
  have g := b.core
  have hst := g.station hstarted
  constructor
  · rw [h20]; exact b.events
  · rw [h11]; exact b.digests
  · rw [h5]; exact ⟨Nat.zero_le _, List.nodup_nil, List.Pairwise.nil⟩
  · exact hsound
  · constructor
    · rw [h1]; rcases hr with rfl | rfl <;> rfl
    · rw [h1]; intro _; exact hst
    · rw [h1]; have := g.header; rw [hstarted] at this; exact this
    · rw [h1]; intro h hh; have := g.tables h hh; rw [h11, h10]; exact this
    · rw [h1, h11]; exact g.noTable
    · rw [h1, h2]; rfl
    · rw [h1, h3, h4]; cases s.line.engine <;> rfl
    · intro _; rw [h4]; cases s.line.engine <;> simp [isSending, engineOff]
    · intro _; exact h5
    · rw [h4, h5]; cases s.line.engine <;> simp [sentIdent, inFlight, engineOff]
    · rw [h6]; exact g.clashes
    · rw [h7]; simp
    · intro _ e he; rw [h7] at he; exact List.eq_of_mem_replicate he
    · intro _
      rw [h1]
      simp only [rosterEntry, h7]
      rw [if_neg hst]
      have : s.start.station.toNat - 1 < 15 := by have := s.start.station.isLt; omega
      rw [List.getD_eq_getElem?_getD, List.getElem?_replicate, if_pos this]; rfl
    · rw [h1, h8]; rfl
    · intro _; exact h9
    · intro _; exact h12
    · intro _; exact ⟨by rw [h12]; simp, h14, h15⟩
    · intro _; exact h16
    · intro _; exact h19
    · rw [h1]; intro h; rw [show _ = s.start.storeWait from rfl, hw] at h; cases h

/-- The blocks emptied at DETACH leave a sound state. -/
theorem detached_sound (h : SoundAt due s) (r : Reason) :
    SoundAt due { repairOff (serveOff (clearBanks (clearRoster (lineOff .afterDetach
      { s with start.top := .detached, start.reason := r })))) with disputes := [] } := by
  have h1 : SoundAt due { s with repair := (repairOff s).repair } :=
    h.repairUnit _ (repairOk_empty rfl rfl (fun n => by cases n <;> rfl) h.repair.pinRoom h.repair.pinsOnce)
      (fun d hd => by cases hd) rfl
  have h2 := h1.disputeTable [] ⟨Nat.zero_le _, by simp, by simp, by simp, by simp⟩ (fun d hd => by cases hd)
  refine h2.congr rfl (fun hc => by cases hc) rfl rfl h2.repair rfl rfl ?_ rfl rfl rfl rfl
  exact ⟨by simp [serveOff], by simp [serveOff], (by decide : chunkCount 0 ≤ Config.paceLimit), fun _ => rfl, fun _ => rfl⟩

/-- The DETACH sequence keeps the invariant (R164). -/
theorem detach_inv (r : Reason) (hr : r = .host ∨ r = .clash) (ht : s.start.top = .active) (c : Inv s) :
    Inv (detachSequence r s) := by
  obtain ⟨b, o⟩ := inv_iff.mp c
  have g := b.core
  have hstarted : started s.start.top = true := by rw [ht]; rfl
  have hw : s.start.storeWait = false := by
    cases h : s.start.storeWait with
    | false => rfl
    | true => have := g.waiting h; rw [ht] at this; cases this
  have hs : s.start.strapsDue = false := by
    cases h : s.start.strapsDue with
    | false => rfl
    | true => have := (o.straps h).1; rw [ht] at this; cases this
  have key : Base .now (detachSequence r s) := by
    unfold detachSequence
    dsimp only
    refine base_inner (.event _ _ _ _ _) ?_
    refine forgetAll_base (disputesOff_base ?_) ?_ rfl
    · refine detached_base b _ hstarted hw r hr rfl rfl rfl rfl rfl rfl rfl rfl rfl ?_ rfl rfl rfl rfl rfl rfl rfl ?_
      · exact List.length_map _
      · exact detached_sound b.sound r
    · unfold disputesOff; simp only; rw [(roundsOff_inner _).moves.queueEmpty rfl rfl]
  refine inv_iff.mpr ⟨key, ?_⟩
  have e1 : (detachSequence r s).store.op = s.store.op ∧ (detachSequence r s).store.censusReq = s.store.censusReq := by
    unfold detachSequence; dsimp only
    simp only [raise_store, forgetAll, disputesOff]
    rw [(foldModify_frame _ _ _).1]; exact ⟨rfl, rfl⟩
  have e2 : (detachSequence r s).start = { s.start with top := .detached, reason := r } := by
    unfold detachSequence; dsimp only
    simp only [raise_start, forgetAll, disputesOff]
    rw [(foldModify_frame _ _ _).2]; rfl
  constructor <;> rw [e2] <;> (try rw [e1.1]) <;> (try rw [e1.2])
  · intro h; have := (o.probing h).1; rw [ht] at this; cases this
  · intro i hi
    rcases (o.census i hi).1 with h | h
    · rw [ht] at h; cases h
    · rw [hw] at h; cases h
  · intro h; have := o.censusReq h; rw [ht] at this; cases this
  · intro h; rw [show _ = s.start.strapsDue from rfl, hs] at h; cases h

/-- Counting a clash keeps the invariant, at the limit by the DETACH sequence (R29). -/
theorem countClash_inv (c : Inv s) : Inv (countClash s) := by
  have h1 : Inv { s with line.clashes := min Config.clashLimit (s.line.clashes + 1) } := by
    obtain ⟨a, b, d, e, g⟩ := c
    refine ⟨a, b, d, e.congr rfl id rfl rfl e.repair rfl rfl e.serve rfl rfl rfl rfl, ?_⟩
    exact { g with clashes := Nat.min_le_left _ _ }
  unfold countClash
  dsimp only
  split
  · rename_i h; exact detach_inv _ (.inr rfl) h.2 h1
  · exact h1

end Sys2Proof.Machine
end

