-- ==== Sys2Proof/Laws/Receiving.lean ====
section
/-! SUPPORT. Received frames, timers and host commands keep the invariant, one lemma for each shared operation. -/

namespace Sys2Proof.Machine

variable {s t : State}

theorem storeRules_congr (o : StoreRules s) (h1 : t.start = s.start) (h2 : t.store.op = s.store.op)
    (h3 : t.store.censusReq = s.store.censusReq) : StoreRules t := by
  obtain ⟨a, b, c, d⟩ := o
  constructor <;> rw [h1] <;> (try rw [h2]) <;> (try rw [h3]) <;> assumption

theorem inv_congr (c : Inv s) (h1 : t.start = s.start) (h2 : t.line = s.line) (h3 : t.roster = s.roster)
    (h4 : t.segs = s.segs) (h5 : t.repair = s.repair) (h6 : t.serve = s.serve) (h7 : t.disputes = s.disputes)
    (h8 : EventsOk t.host.events) (h9 : t.store.op = s.store.op) (h10 : t.store.censusReq = s.store.censusReq)
    (h11 : t.store.writes = s.store.writes) : Inv t := by
  obtain ⟨b, o⟩ := inv_iff.mp c
  refine inv_iff.mpr ⟨base_congr b h1 h2 h3 h4 h5 h6 h7 h8 ?_, storeRules_congr o h1 h9 h10⟩
  exact c.sound.congr (by rw [h1]) (by rw [h1]; exact id) (by rw [h1]) (by rw [h4]) (by rw [h5]; exact c.sound.repair)
    (by rw [h5]) (by rw [h5]) (by rw [h6]; exact c.sound.serve) h7 h9 h11 h10

/-- Every record is changed alike. -/
theorem inv_mapRecs (f : SegRec → SegRec) (hf : ∀ r, contributed (f r) = contributed r) (c : Inv s)
    (hs : Sound { s with segs.recs := s.segs.recs.map f }) : Inv { s with segs.recs := s.segs.recs.map f } := by
  obtain ⟨⟨a, b, d, _, g⟩, o⟩ := inv_iff.mp c
  refine inv_iff.mpr ⟨⟨a, digestsOk_map s.segs f hf b, d, hs, ?_⟩, storeRules_congr o rfl rfl rfl⟩
  refine { g with tables := fun hd hh => ?_, noTable := fun hn => ?_ }
  · have := g.tables hd hh; simpa using this
  · show s.segs.recs.map f = []; rw [g.noTable hn]; rfl

/-- Changes of the line and the roster leave a sound state. -/
theorem sound_outer (h : Sound s) (l : Line) (r : RosterUnit) : Sound { s with line := l, roster := r } :=
  h.congr rfl id rfl rfl h.repair rfl rfl h.serve rfl rfl rfl rfl

theorem inv_answer (k : ResultCode) (d : List Byte) (c : Inv s) : Inv (answer k d s) :=
  inv_congr c rfl rfl rfl rfl rfl rfl rfl c.events rfl rfl rfl

theorem listening_started {t : TopState} (h : listening t = true) : started t = true := by
  cases t <;> simp_all [listening, started]

/-- Setting a roster entry that is not self's keeps the invariant. -/
theorem inv_setRoster (p : Station) (e : RosterEntry) (hp : started s.start.top = true → p ≠ s.start.station)
    (ha : listening s.start.top = false → e = ⟨false, none⟩) (c : Inv s) : Inv (setRoster p e s) := by
  unfold setRoster
  split
  · exact c
  · rename_i hp0
    obtain ⟨⟨a, b, d, ee, g⟩, o⟩ := inv_iff.mp c
    refine inv_iff.mpr ⟨⟨a, b, d, sound_outer ee _ _, ?_⟩, storeRules_congr o rfl rfl rfl⟩
    refine { g with rosterSize := by simpa using g.rosterSize, absent := ?_, selfEntry := ?_ }
    · intro h x hx
      rcases List.mem_or_eq_of_mem_set hx with hx | rfl
      · exact g.absent h x hx
      · exact ha h
    · intro h
      have := g.selfEntry h
      have hst := g.station h
      simp only [rosterEntry, if_neg hst] at this ⊢
      rw [← this]
      have hne : p.toNat - 1 ≠ s.start.station.toNat - 1 := by
        have h1 : p.toNat ≠ s.start.station.toNat := fun h2 => hp h (BitVec.eq_of_toNat_eq h2)
        have h2 : p.toNat ≠ 0 := fun h => hp0 (BitVec.eq_of_toNat_eq h)
        have h3 : s.start.station.toNat ≠ 0 := fun h => hst (BitVec.eq_of_toNat_eq h)
        omega
      simp [List.getD_eq_getElem?_getD, List.getElem?_set_ne hne]

theorem inv_raise (k : EventKind) (i : Option Nat) (p : Option Station) (t : Option Stamp) (c : Inv s) :
    Inv (raise k i p t s) := inv_inner (.event _ _ _ _ _) c

/-- A presence notice keeps the invariant (R42). -/
theorem presence_inv (p : Station) (hp : p ≠ s.start.station) (hl : listening s.start.top = true) (c : Inv s) :
    Inv (presence p s) := by
  have h1 := inv_setRoster p ⟨true, some (4 * beaconMs s)⟩ (fun _ => hp) (fun h => by rw [hl] at h; cases h) c
  unfold presence
  dsimp only
  split
  · exact h1
  · exact inv_raise _ _ _ _ h1

theorem presence_start (p : Station) : (presence p s).start = s.start := by
  unfold presence setRoster; dsimp only; repeat' split
  all_goals rfl

theorem engine_inv (e : Engine) (he : e = .quiet ∨ s.line.receiver = true ∧ (e = .idle ∨ e = .receiving))
    (hn : isSending s.line.engine = false) (c : Inv s) : Inv { s with line.engine := e } := by
  obtain ⟨⟨a, b, d, ee, g⟩, o⟩ := inv_iff.mp c
  have hs : isSending e = false := by rcases he with rfl | ⟨_, rfl | rfl⟩ <;> rfl
  have hz : sentIdent e = [] := by rcases he with rfl | ⟨_, rfl | rfl⟩ <;> rfl
  have hz2 : sentIdent s.line.engine = [] := by
    revert hn; cases s.line.engine <;> simp [isSending, sentIdent]
  refine inv_iff.mpr ⟨⟨a, b, d, sound_outer ee _ _, ?_⟩, storeRules_congr o rfl rfl rfl⟩
  refine { g with transmitter := ?_, engine := ?_, flight := ?_ }
  · have := g.transmitter; rw [hn] at this; simpa [hs] using this
  · intro h
    rcases he with rfl | ⟨hr, _⟩
    · exact .inl rfl
    · simp only at h; rw [hr] at h; cases h
  · have := g.flight; rw [hz2] at this; simpa [hz] using this

theorem endReception_inv (hn : isSending s.line.engine = false) (c : Inv s) : Inv (endReception s) :=
  engine_inv .quiet (.inl rfl) hn c

/-- A frame that bears self's number keeps the invariant (R32). -/
theorem ownNumber_inv (c : Inv s) : Inv (ownNumber s) := by
  unfold ownNumber; split
  · exact countClash_inv c
  · exact c

theorem receiving_facts (h : receiving s = true) (c : Inv s) :
    isSending s.line.engine = false ∧ listening s.start.top = true := by
  simp only [receiving, Bool.and_eq_true, beq_iff_eq] at h
  refine ⟨by rw [h.2]; rfl, ?_⟩
  rw [← c.governed.receiver]; exact h.1

/-- A good frame keeps the invariant when what its body does keeps it (R31 to R33). -/
theorem receiveFrame_inv (p q : Station) (b : Body) (f : State → State)
    (hf : ∀ u, Inv u → listening u.start.top = true → p ≠ u.start.station → Inv (f u)) (c : Inv s) : Inv (receiveFrame p q b f s) := by
  unfold receiveFrame
  split
  · exact c
  · rename_i hr
    obtain ⟨h1, h2⟩ := receiving_facts (by simpa using hr) c
    have c1 := endReception_inv h1 c
    dsimp only
    split
    · exact c1
    · split
      · exact ownNumber_inv c1
      · rename_i hp
        have c2 := presence_inv (s := endReception s) p hp h2 c1
        split
        · exact hf _ c2 (by rw [presence_start]; exact h2) (by rw [presence_start]; exact hp)
        · exact c2

theorem inActive_inv (f : State → State) (hf : ∀ u, Inv u → u.start.top = .active → Inv (f u)) (c : Inv s) :
    Inv (inActive f s) := by
  unfold inActive; split
  · rename_i h; exact hf s c h
  · exact c

/-- Giving up the source of the active job makes inner moves (R95, R97). -/
theorem giveUpSource_inner (p : Station) (i : Nat) : Inner s (giveUpSource p i s) :=
  stopPatience_inner.trans ((markTried_inner p i).trans ((chooseSource_inner none).trans pick_inner))

/-- The timer and the condition of the job in ACTIVE. -/
theorem timer_inner (c : Option JobCond) (n : Option Nat) (ht : s.start.top = .active) :
    Inner s { s with repair.cond := c, repair.patience := n } :=
  side_inner _ rfl rfl rfl rfl (fun m => by cases m <;> rfl) (fun hn => absurd ht hn)

/-- A BUSY body for the active job makes inner moves (R96). -/
theorem sourceBusy_inner (p : Station) (i : Nat) (ht : s.start.top = .active) : Inner s (sourceBusy p i s) := by
  unfold sourceBusy
  refine (stopPatience_inner.trans (countAttempt_inner i)).trans ?_
  have hw : Working (countAttempt i (stopPatience s)) := .inl ht
  dsimp only
  repeat' split
  · exact .refl _
  · exact (exhaustJob_inner i).trans pick_inner
  · exact askSource_inner _ _ hw
  · exact timer_inner _ _ ht
  · exact (exhaustJob_inner i).trans pick_inner

theorem afterChunk_inner (i : Nat) (b : Bool) (ht : s.start.top = .active) : Inner s (afterChunk i b s) := by
  unfold afterChunk
  dsimp only
  repeat' split
  · have h1 := timer_inner s.repair.cond (some (patienceMs s)) ht
    refine h1.trans (Inner.trans ?_ pick_inner)
    exact verifyJob_inner _ (.inl ht)
  · exact timer_inner s.repair.cond _ ht
  · exact .refl _
  · exact .refl _

/-- R92: a chunk is stored in the slot of its segment. -/
theorem slotNamed_some {i : Nat} {t : Stamp} {n : SlotName} {w : Slot} (hn : slotNamed s i t = some n)
    (hw : getSlot s n = some w) : w.segment = i ∧ w.stamp = t := by
  have := List.find?_some hn
  rw [hw] at this
  simpa using this

/-- A DATA body makes inner moves (R92). -/
theorem deliverData_inner (p : Station) (i : Nat) (t : Stamp) (ch : Chunk) (bs : List Byte)
    (ht : s.start.top = .active) : Inner s (deliverData p i t ch bs s) := by
  unfold deliverData
  repeat' split
  · exact .refl s
  · exact .refl s
  · exact .refl s
  · rename_i _ n _ _ slot hslot _
    refine (setSlot_inner n (some (storeChunk p ch bs slot)) (by rw [hslot]; rfl)).trans ?_
    have ht : (setSlot n (some (storeChunk p ch bs slot)) s).start.top = .active := by
      cases n <;> exact ht
    exact afterChunk_inner _ _ ht

theorem sourceSilent_inner (e : Entry) : Inner s (sourceSilent e s) := by
  unfold sourceSilent
  have : ∀ u : State, Inner u (pick (chooseOrEnd e.segment (countAttempt e.segment u))) :=
    fun u => (countAttempt_inner _).trans ((chooseOrEnd_inner _).trans pick_inner)
  cases e.source with
  | none => exact this s
  | some p => exact (markTried_inner p _).trans (this _)

/-- A patience timer that runs out makes inner moves (R94). -/
theorem patienceExpiry_inner : Inner s (patienceExpiry s) := by
  unfold patienceExpiry
  repeat' split
  · exact stopPatience_inner.trans (sourceSilent_inner _)
  · exact askSource_inner _ _ (working_of_active _ (by assumption))
  · exact .refl s
  · exact .refl s

theorem dropHolder_ok (p : Station) {r : SegRec} (h : RecOk r) : RecOk (dropHolder p r) := by
  obtain ⟨r1, r2, r3, r4, r5, r6, r7, r8, r9, r10⟩ := h
  constructor <;> simp_all [dropHolder]

/-- R66: a station leaves the holders of one record. -/
theorem holderRefuses_inner (p : Station) (i : Nat) : Inner s (holderRefuses p i s) :=
  flag_inner i (dropHolder p) (fun _ => ⟨rfl, rfl, rfl, by simp [dropHolder], rfl⟩) (fun _ h => dropHolder_ok p h) s

theorem deliverNohave_inner (p : Station) (i : Nat) : Inner s (deliverNohave p i s) := by
  unfold deliverNohave
  refine (holderRefuses_inner p i).trans ?_
  dsimp only
  split
  · exact giveUpSource_inner p i
  · exact .refl _

theorem inv_banks (b : List BankEntry) (hb : b.length = s.roster.banks.length) (c : Inv s) :
    Inv { s with roster.banks := b } := by
  obtain ⟨⟨a, d, e, f, g⟩, o⟩ := inv_iff.mp c
  refine inv_iff.mpr ⟨⟨a, d, e, sound_outer f _ _, ?_⟩, storeRules_congr o rfl rfl rfl⟩
  exact { g with tables := fun h hh => by have := g.tables h hh; simp only [hb]; exact this }

theorem deliverDigest_inv (p : Station) (b : Nat) (x : Signature) (c : Inv s) : Inv (deliverDigest p b x s) := by
  unfold deliverDigest
  repeat' split
  · exact c
  · exact c
  · exact inv_banks _ (by simp) (inv_inner (offer_inner (.sigquery p b)) c)

/-- R67: the records after a station is lost. -/
theorem dropHolders_inv (p : Station) (c : Inv s) : Inv (dropHolders p s) :=
  inv_mapRecs (dropHolder p) (fun _ => rfl) c (c.sound.mapRecs (dropHolder p) (fun _ h => dropHolder_ok p h)
    (fun _ => rfl) (fun _ h => h)
    (fun _ _ _ h => ⟨h.state, by simpa [dropHolder] using h.evidence⟩) (fun _ _ _ h => ⟨h.state, h.stamp, h.own⟩))

theorem engineStationLost_inner (p : Station) : Inner s (engineStationLost p s) := by
  unfold engineStationLost
  repeat' split
  · exact giveUpSource_inner _ _
  · exact .refl _
  · exact .refl _

/-- A silence timer that runs out keeps the invariant (R43, R44). -/
theorem silenceExpiry_inv (p : Station) (c : Inv s) : Inv (silenceExpiry p s) := by
  unfold silenceExpiry
  split
  · rename_i h
    have hp : p ≠ s.start.station := by
      intro hp
      by_cases hs : started s.start.top = true
      · have := c.governed.selfEntry hs
        rw [← hp] at this
        rw [this] at h; simp at h
      · have hl : listening s.start.top = false := by
          revert hs; cases s.start.top <;> simp [started, listening]
        have := c.governed.absent hl
        have hpr := h.1
        simp only [isPresent, rosterEntry] at hpr
        split at hpr
        · cases hpr
        · rw [List.getD_eq_getElem?_getD] at hpr
          cases hx : s.roster.entries[p.toNat - 1]? with
          | none => rw [hx] at hpr; cases hpr
          | some x => rw [hx, this x (List.mem_of_getElem? hx)] at hpr; cases hpr
    have c1 := inv_raise .peerLost none (some p) none (inv_setRoster p ⟨false, none⟩ (fun _ => hp) (fun _ => rfl) c)
    unfold stationLost
    refine inv_inner ((engineStationLost_inner p).trans ((serveStationLost_inner p).trans
      (disputeStationLost_inner p ?_))) (dropHolders_inv p c1)
    rw [(serveStationLost_inner p).start, (engineStationLost_inner p).start]
    show p ≠ (setRoster p _ s).start.station
    unfold setRoster; split <;> exact hp
  · exact c

/-- The beacon keeps the invariant (R49). -/
theorem beaconExpiry_inv (c : Inv s) : Inv (beaconExpiry s) := by
  unfold beaconExpiry
  split
  · rename_i h
    have c1 := inv_inner (offer_inner (.digest s.roster.pointer)) c
    have ht : (offer (.digest s.roster.pointer) s).start.top = .active := by rw [offer_start]; exact h.2
    dsimp only
    obtain ⟨⟨a, d, e, f, g⟩, o⟩ := inv_iff.mp c1
    refine inv_iff.mpr ⟨⟨a, d, e, sound_outer f _ _, ?_⟩, storeRules_congr o rfl rfl rfl⟩
    refine { g with beacon := ?_, pointer := ?_ }
    · simp only; rw [ht]; rfl
    · intro hn; exact absurd ht hn
  · exact c

/-- A query holdoff that runs out keeps the invariant (R53). -/
theorem holdoffExpiry_inv (b : Nat) (c : Inv s) : Inv (holdoffExpiry b s) := by
  unfold holdoffExpiry
  repeat' split
  · exact c
  · exact inv_banks _ (by simp) c
  · exact c

/-! ### Host commands -/

/-- A host command keeps the invariant when its rule does in the top states that take it (R171). -/
theorem take_inv (f : TopState → Bool) (g : State → Bool) (r : State → State)
    (hr : f s.start.top = true → g s = true → Inv (r s)) (c : Inv s) : Inv (takeCommand f g r s) := by
  unfold takeCommand
  repeat' split
  · exact inv_answer _ _ c
  · exact inv_answer _ _ c
  · rename_i h1 h2; exact hr (by simpa using h1) (by simpa using h2)

theorem inv_arbitrate (c : Inv s) : Inv (arbitrate s) := inv_inner (.arbiter _) c

/-- READ keeps the invariant (R174). -/
theorem read_inv (i : Nat) (c : Inv s) : Inv (readRule i s) := by
  unfold readRule
  repeat' split
  · exact inv_answer _ _ c
  · exact inv_answer _ _ c
  · refine inv_answer _ _ (inv_arbitrate ?_)
    exact inv_congr c rfl rfl rfl rfl rfl rfl rfl c.events rfl rfl rfl

/-- TAKE keeps the invariant (R176). -/
theorem takeRule_inv (c : Inv s) : Inv (takeRule s) := by
  unfold takeRule
  repeat' split
  · exact inv_answer _ _ (inv_congr c rfl rfl rfl rfl rfl rfl rfl c.events rfl rfl rfl)
  · exact inv_answer _ _ c

/-- STAGE keeps the invariant (R177). -/
theorem stageRule_inv (o : Nat) (b : List Byte) (c : Inv s) : Inv (stageRule o b s) := by
  unfold stageRule
  split
  · exact inv_answer _ _ c
  · exact inv_answer _ _ (inv_congr c rfl rfl rfl rfl rfl rfl rfl c.events rfl rfl rfl)

/-- The record of a segment that a publish is accepted for (R178). -/
def counted (r : SegRec) : SegRec := { r with pendingWrites := r.pendingWrites + 1, state := .committing }

/-- The dispute of a COMMITTING segment is closed (R178). -/
theorem publishClose_sound {due : Due} {i : Nat} (h : SoundBut due i s) (hst : (getRec s i).state = .committing)
    (hp : 0 < (getRec s i).pendingWrites) (hc : (getRec s i).pendingWrites ≤ 2)
    (hw : (writesDue due s).countP (·.2 = i) ≤ (getRec s i).pendingWrites)
    (hq : ∀ e ∈ s.repair.queue, e.segment ≠ i) (ht : s.start.top ≠ .census) : SoundAt due (publishClose i s) := by
  have hlt : i < segCount s := by
    by_cases hi : i < segCount s
    · exact hi
    · rw [getRec_eq s i hi] at hst; cases hst
  have hself : getRec (modifyRec i clearMark (freeDispute i s)) i = clearMark (getRec s i) :=
    getRec_modifyRec_self (freeDispute i s) i _ hlt
  have hwd : writesDue due (modifyRec i clearMark (freeDispute i s)) = writesDue due s :=
    writesDue_congr (by simp) (by simp) (by simp)
  refine (takeUpIf_inner _).sound due (SoundBut.sound (h.free.record _) ⟨?_, ?_, fun e he hs => ?_, fun d hd hs => ?_, fun hn => ?_⟩)
  · show RecOk (getRec (modifyRec i clearMark (freeDispute i s)) i)
    rw [hself]
    constructor <;> simp [clearMark, hst, hp, hc]
  · show _ ≤ (getRec (modifyRec i clearMark (freeDispute i s)) i).pendingWrites
    rw [hself]; exact Nat.le_trans (Nat.le_of_eq (congrArg _ hwd)) hw
  · exact absurd hs (hq e (by simpa [modifyRec] using he))
  · exact absurd hs (freeDispute_gone i s d (by simpa [modifyRec] using hd))
  · exact absurd (by simpa [modifyRec] using hn) ht

/-- R178: the entry of a segment with a pending write has left, its record settles, and its dispute is closed. -/
theorem Loose.publishClose {due : Due} {i : Nat} (h : Loose due i s) (hp : 0 < (getRec s i).pendingWrites)
    (ht : s.start.top ≠ .census) : SoundAt due (publishClose i (pick (backfill (settle i s)))) := by
  have hmv : Moves s (pick (backfill (settle i s))) :=
    (settle_inner i).moves.trans (backfill_inner.moves.trans pick_inner.moves)
  have h1 : SoundAt due (settle i s) := h.settled
  have hu : SoundAt due (pick (backfill (settle i s))) := pick_inner.sound due (backfill_inner.sound due h1)
  generalize pick (backfill (settle i s)) = u at hmv hu
  have hul := hu.linked.segment i
  have hpos := Nat.lt_of_lt_of_le hp (hmv.counted i)
  have hcom := hul.record.committing.mpr hpos
  refine publishClose_sound (hu.but i) hcom hpos hul.record.count hul.writes (fun e he hs => ?_) ?_
  · have := (hul.repair e he hs).state
    rw [hcom] at this; simp at this
  · rw [hmv.start]; exact ht

/-- R178: what a PUBLISH does before its write is requested. -/
theorem publish_moves (i : Nat) (s : State) : Moves s (publishClose i (publishCancel i (modifyRec i counted s))) := by
  refine (modifyRec_moves i counted (fun _ => rfl) (fun _ => rfl) s).trans (Moves.trans ?_
    ((freeDispute_inner i).moves.trans ((clearMark_moves i _).trans (takeUpIf_inner _).moves)))
  unfold publishCancel cancelEntry
  split
  · exact (dropEntry_inner i).moves.trans ((settle_inner i).moves.trans (backfill_inner.moves.trans pick_inner.moves))
  · exact .refl _

theorem dropEntry_getRec (i j : Nat) (s : State) : getRec (dropEntry i s) j = getRec s j :=
  getRec_congr (dropEntry_segs i s) j

/-- R178: the state is sound with the write of segment `i` on its way. -/
theorem publish_sound (i : Nat) (hi : i < segCount s) (ht : s.start.top ≠ .census)
    (hp : (getRec s i).pendingWrites < 2) (h : Sound s) :
    SoundAt ⟨false, [(.publish, i)], none, []⟩ (publishClose i (publishCancel i (modifyRec i counted s))) := by
  have hl := h.linked.segment i
  have hwd : writesDue ⟨false, [(.publish, i)], none, []⟩ s = (.publish, i) :: writesDue .now s := rfl
  have hbut : SoundBut ⟨false, [(.publish, i)], none, []⟩ i s := by
    refine ⟨h.repair, h.serve, h.disputes, fun j hj => ?_, ?_⟩
    · refine (h.linked.segment j).mono rfl rfl id ?_ (fun d hd hs => ⟨d, hd, hs⟩) (fun d hd _ => hd) (fun _ hk => hk)
      rw [hwd, List.countP_cons_of_neg (by simpa using Ne.symm hj)]
    · unfold commitsDue; rw [hwd, List.filter_cons_of_neg (by simp)]; exact h.linked.commit
  have hself : getRec (modifyRec i counted s) i = counted (getRec s i) := getRec_modifyRec_self s i _ hi
  have hb1 := hbut.record (counted (getRec s i))
  have hw1 : (writesDue ⟨false, [(.publish, i)], none, []⟩ (modifyRec i counted s)).countP (·.2 = i) ≤
      (getRec s i).pendingWrites + 1 := by
    rw [show writesDue ⟨false, [(.publish, i)], none, []⟩ (modifyRec i counted s) = writesDue ⟨false, [(.publish, i)], none, []⟩ s from
      writesDue_congr (by simp) (by simp) (by simp), hwd, List.countP_cons_of_pos (by simp)]
    have := hl.writes; omega
  have htop : (modifyRec i counted s).start.top ≠ .census := by simpa using ht
  by_cases he : (findEntry (modifyRec i counted s) i).isSome = true
  · obtain ⟨e, he⟩ := Option.isSome_iff_exists.mp he
    have hin : InRepair (getRec s i) := by
      obtain ⟨hm, hs⟩ := findEntry_some i e he
      exact hl.repair e (by simpa using hm) hs
    have hr1 : getRec (dropEntry i (modifyRec i counted s)) i = counted (getRec s i) := (dropEntry_getRec i i _).trans hself
    obtain ⟨d1, d2, _, d4, d5⟩ := dropEntry_rest i (modifyRec i counted s)
    have hloose : Loose ⟨false, [(.publish, i)], none, []⟩ i (dropEntry i (modifyRec i counted s)) := by
      refine ⟨SoundBut.drop hb1, ?_, ?_, ?_, ?_, ?_, ?_, ?_⟩ <;> (try rw [hr1])
      · intro hu; cases hu
      · exact hp
      · exact fun hm => ⟨(hl.record.mark hm).1, by simp [counted]⟩
      · rw [show writesDue ⟨false, [(.publish, i)], none, []⟩ (dropEntry i (modifyRec i counted s)) =
          writesDue ⟨false, [(.publish, i)], none, []⟩ (modifyRec i counted s) from
          writesDue_congr (by rw [d1]) (by rw [d2]) (by rw [d2])]
        exact hw1
      · rintro ⟨e, he, hs⟩; exact absurd hs (dropEntry_gone i _ e he)
      · intro d hd hs
        rw [d4] at hd
        exact absurd (hl.dispute d (by simpa using hd) hs).state hin.not_disputed
      · rw [d1]; intro hn; exact absurd hn htop
    have hcan : publishCancel i (modifyRec i counted s) = pick (backfill (settle i (dropEntry i (modifyRec i counted s)))) := by
      simp only [publishCancel, cancelEntry, he, Option.isSome_some, if_true]
    rw [hcan]
    refine hloose.publishClose ?_ ?_
    · rw [hr1]; exact Nat.succ_pos _
    · rw [d1]; exact htop
  · have hn : findEntry (modifyRec i counted s) i = none := by simpa using he
    have hcan : publishCancel i (modifyRec i counted s) = modifyRec i counted s := by
      simp only [publishCancel, hn, Option.isSome_none, Bool.false_eq_true, if_false]
    rw [hcan]
    refine publishClose_sound hb1 ?_ ?_ ?_ ?_ (findEntry_none i hn) htop <;> rw [hself]
    · rfl
    · exact Nat.succ_pos _
    · exact hp
    · exact hw1

/-- PUBLISH keeps the invariant (R178, R179). -/
theorem publish_inv (i : Nat) (hi : i < segCount s) (ht : inRunning s.start.top = true) (c : Inv s) :
    Inv (publishRule i s) := by
  unfold publishRule
  split
  · exact inv_answer _ _ c
  · rename_i hg
    have ht : s.start.top ≠ .census := by intro h; rw [h] at ht; cases ht
    have hp : (getRec s i).pendingWrites < 2 := by
      simp only [not_or] at hg; omega
    unfold publishAccept
    refine inv_answer _ _ ?_
    have h1 := publish_sound i hi ht hp c.sound
    have hm := publish_moves i s
    show Inv (requestWrite ⟨.publish, i, publishStamp i s⟩
      { publishClose i (publishCancel i (modifyRec i counted s)) with host.locked := true })
    generalize publishClose i (publishCancel i (modifyRec i counted s)) = u at h1 hm
    obtain ⟨b, o⟩ := inv_iff.mp c
    have b1 : Base ⟨false, [(.publish, i)], none, []⟩ { u with host.locked := true } := by
      have := base_moves hm h1 b
      exact base_congr this rfl rfl rfl rfl rfl rfl rfl this.events
        (h1.congr rfl id rfl rfl h1.repair rfl rfl h1.serve rfl rfl rfl rfl)
    have o1 : StoreRules { u with host.locked := true } := storeRules_congr (storeRules_inner hm o) rfl rfl rfl
    refine inv_iff.mpr ⟨base_moves (requestWrite_moves _ _) ?_ b1, storeRules_inner (requestWrite_moves _ _) o1⟩
    refine SoundAt.arbitrate (b1.sound.storeUnit _ ?_ (.refl _) (fun _ hk => hk))
    refine List.Perm.subperm ?_
    rw [writesDue_request]
    exact (List.perm_append_singleton _ _)

theorem freshenRec_eq (r : SegRec) : freshenRec r =
    { r with exhausted := if held r then r.exhausted else false, state := if r.state = .orphan then .stale else r.state } := by
  unfold freshenRec; rw [clearExhausted_eq]

/-- R80: a record that a FRESHEN takes. -/
theorem freshenRec_inner (i : Nat) (hf : freshenable (getRec s i) = true) :
    Inner s (modifyRec i freshenRec s) := by
  have hst : (getRec s i).state = .stale ∨ (getRec s i).state = .orphan ∨ (getRec s i).state = .damaged := by
    simp only [freshenable, Bool.or_eq_true, Bool.and_eq_true, decide_eq_true_eq] at hf
    rcases hf with (h | h) | h
    · exact .inl h
    · exact .inr (.inl h)
    · exact .inr (.inr h.1)
  refine ⟨modifyRec_moves i freshenRec (fun _ => by rw [freshenRec_eq]) (fun _ => by rw [freshenRec_eq]) s
    (fun _ => by rw [freshenRec_eq]), fun due h => h.record i _ ?_ ?_ ?_ ?_ ?_⟩ <;> rw [freshenRec_eq]
  · intro ok
    have hp := ok.pending_zero (by rcases hst with h | h | h <;> rw [h] <;> simp)
    obtain ⟨r1, r2, r3, r4, r5, r6, r7, r8, r9, r10⟩ := ok
    rcases hst with h | h | h <;> (constructor <;> simp_all)
  · intro e _ _ hin
    refine ⟨?_, hin.evidence⟩
    rcases hst with h | h | h <;> simp [h]
  · intro d _ _ hd
    have := hd.state
    rcases hst with h | h | h <;> (rw [h] at this; cases this)
  · intro hu
    rcases hst with h | h | h <;> (rw [h] at hu; cases hu)

/-- FRESHEN keeps the invariant (R80). -/
theorem freshen_inv (i : Nat) (ht : inRunning s.start.top = true) (c : Inv s) : Inv (freshenRule i s) := by
  unfold freshenRule
  split
  · exact inv_answer _ _ c
  · rename_i hd
    have hl : listening s.start.top = true := by
      revert ht hd; cases s.start.top <;> simp [inRunning, listening]
    unfold freshenActive
    dsimp only
    split
    · exact inv_answer _ _ c
    · split
      · exact inv_answer _ _ c
      · rename_i hp
        have hp : pinned s i = false := by
          by_contra h; exact hp (.inl (by simpa using h))
        split
        · refine inv_answer _ _ (inv_inner ?_ c)
          unfold askBank; split
          · exact offer_inner _
          · exact .refl _
        · split
          · rename_i hf
            exact inv_answer _ _ (inv_inner (enterQueue_inner .demand i hp (.inr (.inl hf)) hl) c)
          · split
            · rename_i hf
              have hlt : i < segCount s := by
                by_cases hi : i < segCount s
                · exact hi
                · have := hf.1; rw [getRec_eq s i hi] at this; simp [freshenable, unknownRec] at this
              refine inv_answer _ _ (inv_inner ((freshenRec_inner i hf.1).trans (enterQueue_inner .demand i
                (by simpa [pinned, modifyRec] using hp) ?_ (by simpa [modifyRec] using hl))) c)
              rw [getRec_modifyRec_self s i _ hlt, freshenRec_eq]
              have hf := hf.1
              simp only [freshenable, Bool.or_eq_true, Bool.and_eq_true, decide_eq_true_eq] at hf
              rcases hf with (h | h) | h
              · exact .inl (by simp [h])
              · exact .inl (by simp [h])
              · exact .inr (.inr ⟨by simp [h.1], h.2⟩)
            · exact inv_answer _ _ c

theorem dropEntry_pins (i : Nat) (v : List Nat) :
    dropEntry i { s with repair.pins := v } = { dropEntry i s with repair.pins := v } := by
  unfold dropEntry
  have h1 : findEntry { s with repair.pins := v } i = findEntry s i := rfl
  rw [h1]
  cases findEntry s i with
  | none => rfl
  | some e =>
    dsimp only
    cases e.slot with
    | none => dsimp only; split <;> rfl
    | some n => cases n <;> dsimp only [setSlot] <;> split <;> rfl

theorem inv_pins (v : List Nat) (h1 : v.length ≤ Config.pinCapacity) (h2 : v.Nodup)
    (h3 : ∀ e ∈ s.repair.queue, e.segment ∉ v) (c : Inv s) : Inv { s with repair.pins := v } := by
  obtain ⟨⟨a, d, e, f, g⟩, o⟩ := inv_iff.mp c
  have hok : RepairOk { s.repair with pins := v } :=
    { room := f.repair.room, once := f.repair.once, order := f.repair.order, oneActive := f.repair.oneActive,
      pinRoom := h1, pinsOnce := h2, unpinned := h3, stack := f.repair.stack,
      slots := ⟨f.repair.slots.held, f.repair.slots.owned, f.repair.slots.started, f.repair.slots.sweep⟩ }
  exact inv_iff.mpr ⟨⟨a, d, e, f.congr rfl id rfl rfl hok rfl rfl f.serve rfl rfl rfl rfl, { g with }⟩,
    storeRules_congr o rfl rfl rfl⟩

/-- PIN keeps the invariant (R78). -/
theorem pin_inv (i : Nat) (c : Inv s) : Inv (pinRule i s) := by
  unfold pinRule
  split
  · exact inv_answer _ _ c
  · split
    · exact inv_answer _ _ c
    · rename_i hp hl
      refine inv_answer _ _ ?_
      have hr := c.sound.repair
      have hp : i ∉ s.repair.pins := by simpa [pinned] using hp
      have hlen : (s.repair.pins ++ [i]).length ≤ Config.pinCapacity := by simp; omega
      have hnd : (s.repair.pins ++ [i]).Nodup := List.nodup_append.mpr ⟨hr.pinsOnce, by simp, by
        intro a ha b hb; simp at hb; rw [hb]; rintro rfl; exact hp ha⟩
      unfold pinCancel
      split
      · unfold cancelEntry
        rw [dropEntry_pins]
        have c1 : Inv (dropEntry i s) := inv_inner (dropEntry_inner i) c
        refine inv_inner ((settle_inner i).trans (backfill_inner.trans pick_inner))
          (inv_pins (s := dropEntry i s) (s.repair.pins ++ [i]) hlen hnd ?_ c1)
        intro e he hm
        rcases List.mem_append.mp hm with hm | hm
        · rw [← (dropEntry_inner (s := s) i).moves.pins] at hm
          exact c1.sound.repair.unpinned e he hm
        · exact dropEntry_gone i s e he (by simpa using hm)
      · rename_i hn
        refine inv_pins _ hlen hnd (fun e he hm => ?_) c
        rcases List.mem_append.mp hm with hm | hm
        · exact hr.unpinned e he hm
        · have hn : findEntry s i = none := by
            cases h : findEntry s i with
            | none => rfl
            | some e => exact absurd (show (findEntry { s with repair.pins := s.repair.pins ++ [i] } i).isSome = true from by
                rw [show findEntry { s with repair.pins := s.repair.pins ++ [i] } i = findEntry s i from rfl, h]; rfl) hn
          exact findEntry_none i hn e he (by simpa using hm)

/-- UNPIN keeps the invariant (R79). -/
theorem unpin_inv (i : Nat) (c : Inv s) : Inv (unpinRule i s) := by
  unfold unpinRule
  split
  · refine inv_answer _ _ (inv_inner (offerRepair_inner i) ?_)
    have hr := c.sound.repair
    refine inv_pins _ (Nat.le_trans (List.length_filter_le _ _) hr.pinRoom) (hr.pinsOnce.sublist List.filter_sublist) ?_ c
    exact fun e he hm => hr.unpinned e he (List.mem_of_mem_filter hm)
  · exact inv_answer _ _ c

/-- ACCEPT keeps the invariant (R135). -/
theorem accept_inv (i : Nat) (c : Inv s) : Inv (acceptRule i s) := by
  unfold acceptRule
  split
  · exact inv_answer _ _ (inv_inner ((closeSettle_inner i).trans (takeUpIf_inner _)) c)
  · exact inv_answer _ _ c

/-- EVENTS keeps the invariant (R185). -/
theorem events_inv (n : Nat) (c : Inv s) : Inv (eventsRule n s) := by
  unfold eventsRule
  exact inv_answer _ _ (inv_congr c rfl rfl rfl rfl rfl rfl rfl (eventsOk_drop _ _ c.events) rfl rfl rfl)

end Sys2Proof.Machine
end

