-- ==== Sys2Proof/Laws/Sending.lean ====
section
/-! SUPPORT. The transmitter, the starts and the straps keep the invariant, one lemma for each shared operation. -/

namespace Sys2Proof.Machine

variable {s t : State}

/-! line -/
theorem endDesc_cons (a : Desc) (rest : List Desc) :
    endDesc (a :: rest) = if a.inTransmission then (if a.renewed then returnDesc a :: endDesc rest else endDesc rest)
      else a :: endDesc rest := by
  unfold endDesc
  rw [List.filterMap_cons]
  by_cases h1 : a.inTransmission <;> by_cases h2 : a.renewed <;> simp [h1, h2]

theorem endDesc_idents (l : List Desc) : ((endDesc l).map (·.ident)).Sublist (l.map (·.ident)) := by
  induction l with
  | nil => simp [endDesc]
  | cons a rest ih =>
    rw [endDesc_cons]
    split
    · split
      · exact List.Sublist.cons_cons _ ih
      · exact List.Sublist.cons _ ih
    · exact List.Sublist.cons_cons _ ih

theorem endDesc_codes (l : List Desc) (h : l.Pairwise (fun d e => codeOf d.ident ≤ codeOf e.ident)) :
    (endDesc l).Pairwise (fun d e => codeOf d.ident ≤ codeOf e.ident) := by
  have h1 : (l.map (·.ident)).Pairwise (fun d e => codeOf d ≤ codeOf e) := by simpa [List.pairwise_map] using h
  have := h1.sublist (endDesc_idents l)
  simpa [List.pairwise_map] using this

theorem endDesc_inFlight (l : List Desc) : inFlight (endDesc l) = [] := by
  unfold inFlight
  rw [List.map_eq_nil_iff, List.filter_eq_nil_iff]
  intro d hd
  obtain ⟨e, _, he⟩ := List.mem_filterMap.mp hd
  split at he
  · split at he
    · obtain rfl := Option.some.inj he; simp [returnDesc]
    · simp at he
  · rename_i h; obtain rfl := Option.some.inj he; simpa using h

theorem endDesc_ok (l : List Desc) (h : OutboxOk l) : OutboxOk (endDesc l) := by
  obtain ⟨h1, h2, h3⟩ := h
  refine ⟨?_, h2.sublist (endDesc_idents l), endDesc_codes l h3⟩
  have := (endDesc_idents l).length_le
  simp at this; omega

/-- the line after the end of a frame whose descriptor stands in the outbox -/
theorem inv_lineEnd (b : List Desc) (e : Engine) (k : Nat) (hk : k ≤ Config.clashLimit) (hb : OutboxOk b) (hf : inFlight b = [])
    (he : e = .quiet ∨ e = .receiving) (hsend : ∃ f id, s.line.engine = .sending f id .attached) (c : Inv s) :
    Inv { s with line.engine := e, line.clashes := k, line.outbox := b } := by
  obtain ⟨f, id, hsend⟩ := hsend
  obtain ⟨⟨a, d, _, ee, g⟩, o⟩ := inv_iff.mp c
  have hne : s.line.outbox ≠ [] := by
    intro h; have := g.flight; rw [h, hsend] at this; simp [inFlight, sentIdent] at this
  have ht : s.start.top = .active := by by_contra h; exact hne (g.outbox h)
  have hr : s.line.receiver = true := by rw [g.receiver, ht]; rfl
  refine inv_iff.mpr ⟨⟨a, d, hb, sound_outer ee _ _, ?_⟩, storeRules_congr o rfl rfl rfl⟩
  refine { g with clashes := hk, transmitter := ?_, engine := ?_, flight := ?_, outbox := ?_ }
  · have := g.transmitter; rw [hsend, ht] at this; rw [ht]; simpa using this
  · intro h; rw [show _ = s.line.receiver from rfl, hr] at h; cases h
  · intro h; exact absurd ht h
  · rcases he with rfl | rfl <;> exact hf

/-- The end of a frame that was finished after DETACH keeps the invariant. -/
theorem finished_inv (f : Frame) (id : FrameId) (fl : Flight) (h : s.line.engine = .sending f id fl) (hfl : fl ≠ .attached) (k : Nat)
    (hk : k ≤ Config.clashLimit) (c : Inv s) : Inv { finishedFrame s with line.clashes := k } := by
  obtain ⟨⟨a, d, bb, ee, g⟩, o⟩ := inv_iff.mp c
  refine inv_iff.mpr ⟨⟨a, d, bb, sound_outer ee _ _, ?_⟩, storeRules_congr o rfl rfl rfl⟩
  refine { g with clashes := hk, transmitter := ?_, engine := ?_, flight := ?_ }
  · simp [finishedFrame, isSending]
  · intro _; exact .inl rfl
  · have := g.flight; rw [h] at this
    cases fl <;> simp_all [sentIdent, finishedFrame]

theorem tellEnd_inner (id : FrameId) : Inner s (tellEnd id s) := by
  unfold tellEnd; split
  · exact tellServe_inner _
  · exact .refl _

theorem finishedFrame_inv (f : Frame) (id : FrameId) (fl : Flight) (h : s.line.engine = .sending f id fl) (hfl : fl ≠ .attached)
    (c : Inv s) : Inv (finishedFrame s) := finished_inv f id fl h hfl s.line.clashes c.governed.clashes c

/-- A clash keeps the invariant (R28, R29). -/
theorem clashed_inv (c : Inv s) : Inv (clashed s) := by
  unfold clashed
  split
  · rename_i f id h
    refine countClash_inv (inv_inner (tellEnd_inner id) ?_)
    exact inv_lineEnd (s := s) (endDesc s.line.outbox) .quiet s.line.clashes c.governed.clashes (endDesc_ok _ c.outbox)
      (endDesc_inFlight _) (.inl rfl) ⟨f, id, h⟩ c
  · rename_i f id h
    exact countClash_inv (finishedFrame_inv f id _ h (by simp) c)
  · rename_i f id h
    exact finishedFrame_inv f id _ h (by simp) c
  · exact c

/-- A clean end keeps the invariant (R30). -/
theorem endedCleanly_inv (c : Inv s) : Inv (endedCleanly s) := by
  unfold endedCleanly
  split
  · rename_i f id h
    refine inv_inner (tellEnd_inner id) ?_
    exact inv_lineEnd (s := s) (endDesc s.line.outbox) .quiet 0 (Nat.zero_le _) (endDesc_ok _ c.outbox) (endDesc_inFlight _) (.inl rfl) ⟨f, id, h⟩ c
  · rename_i f id h
    exact finished_inv f id _ h (by simp) 0 (Nat.zero_le _) c
  · rename_i f id h
    exact finishedFrame_inv f id _ h (by simp) c
  · exact c

/-- A lost arbitration keeps the invariant (R27). -/
theorem loseArbitration_inv (c : Inv s) : Inv (loseArbitration s) := by
  unfold loseArbitration
  split
  · rename_i f id h
    have hid : ∀ d : Desc, (if d.inTransmission then returnDesc d else d).ident = d.ident := by
      intro d; split <;> rfl
    refine inv_lineEnd (s := s) _ .receiving s.line.clashes c.governed.clashes ?_ ?_ (.inr rfl) ⟨f, id, h⟩ c
    · obtain ⟨h1, h2, h3⟩ := c.outbox
      refine ⟨by simpa using h1, ?_, ?_⟩
      · rw [List.map_map]; simpa [Function.comp_def, hid] using h2
      · simpa [List.pairwise_map, hid] using h3
    · unfold inFlight
      rw [List.map_eq_nil_iff, List.filter_eq_nil_iff]
      intro d hd
      obtain ⟨e, _, rfl⟩ := List.mem_map.mp hd
      split
      · simp [returnDesc]
      · rename_i h; simpa using h
  · rename_i f id fl hne h
    exact finishedFrame_inv f id fl h (by rintro rfl; exact hne rfl) c
  · exact c

/-- The head check leaves an outbox that is in order, its head the one in transmission (R37). -/
theorem selectHead_facts (s : State) (l : List Desc) :
    ((selectHead s l).1.map (·.ident)).Sublist (l.map (·.ident)) ∧
      ((∀ d ∈ l, d.inTransmission = false) →
        inFlight (selectHead s l).1 = match (selectHead s l).2 with | some (id, _) => [id] | none => []) := by
  induction l with
  | nil => exact ⟨by simp [selectHead], fun _ => rfl⟩
  | cons a rest ih =>
    unfold selectHead
    split
    · rename_i ha
      refine ⟨?_, fun h => ?_⟩
      · exact List.Sublist.cons_cons _ ih.1
      · have := h a (by simp); rw [this] at ha; cases ha
    · rename_i ha
      split
      · refine ⟨List.Sublist.refl _, fun h => ?_⟩
        have : rest.filter (·.inTransmission) = [] := List.filter_eq_nil_iff.mpr fun d hd => by simp [h d (by simp [hd])]
        simp [inFlight, this]
      · exact ⟨List.Sublist.cons _ ih.1, fun h => ih.2 fun d hd => h d (by simp [hd])⟩

/-- The beginning of a transmission keeps the invariant (R26). -/
theorem startTransmission_inv (c : Inv s) : Inv (startTransmission s) := by
  unfold startTransmission
  split
  · rename_i hc
    obtain ⟨⟨a, d, bb, ee, g⟩, o⟩ := inv_iff.mp c
    have ht : s.start.top = .active := by
      have := g.transmitter; rw [hc.1, hc.2] at this; simpa [isSending] using this.symm
    have hnone : ∀ d ∈ s.line.outbox, d.inTransmission = false := by
      have := g.flight; rw [hc.2] at this
      simp only [sentIdent, inFlight, List.map_eq_nil_iff, List.filter_eq_nil_iff] at this
      intro d hd; simpa using this d hd
    obtain ⟨h1, h2⟩ := selectHead_facts s s.line.outbox
    have h2 := h2 hnone
    have hok : OutboxOk (selectHead s s.line.outbox).1 := by
      obtain ⟨k1, k2, k3⟩ := bb
      have k3' : (s.line.outbox.map (·.ident)).Pairwise (fun d e => codeOf d ≤ codeOf e) := by simpa [List.pairwise_map] using k3
      refine ⟨?_, k2.sublist h1, ?_⟩
      · have := h1.length_le; simp at this; omega
      · have := k3'.sublist h1; simpa [List.pairwise_map] using this
    split
    · rename_i box id body heq
      rw [heq] at h2 hok
      refine inv_iff.mpr ⟨⟨a, d, hok, sound_outer ee _ _, ?_⟩, storeRules_congr o rfl rfl rfl⟩
      refine { g with transmitter := ?_, engine := ?_, outbox := ?_, flight := ?_ }
      · simp only [isSending]; rw [hc.1]; simp
      · intro _; exact .inr rfl
      · intro h; exact absurd ht h
      · exact h2
    · rename_i box heq
      rw [heq] at h2 hok
      refine inv_iff.mpr ⟨⟨a, d, hok, sound_outer ee _ _, ?_⟩, storeRules_congr o rfl rfl rfl⟩
      refine { g with outbox := ?_, flight := ?_ }
      · intro h; exact absurd ht h
      · simp only [hc.2, sentIdent]; exact h2
  · exact c

/-! ### Starts -/

/-- A state of UNKNOWN records and without work for the units is sound. -/
theorem sound_fresh (hrec : ∀ i, getRec s i = unknownRec) (hw : writesDue .now s = []) (ok : RepairOk s.repair)
    (hq : s.repair.queue = []) (serve : ServeOk s.serve) (hd : s.disputes = []) : Sound s := by
  refine ⟨ok, serve, by rw [hd]; exact ⟨Nat.zero_le _, by simp, by simp, by simp, by simp⟩, ⟨fun i => ?_, .inl (by simp only [commitsDue, hw]; rfl)⟩⟩
  refine ⟨by rw [hrec]; exact recOk_unknownRec, by rw [hw]; exact Nat.zero_le _, ?_, ?_, fun _ _ _ _ => by rw [hrec]; rfl⟩
  · rw [hq]; intro e he; cases he
  · rw [hd]; intro d hd; cases hd

theorem sound_empty (hr : s.segs.recs = []) (hw : writesDue .now s = []) (ok : RepairOk s.repair)
    (hq : s.repair.queue = []) (serve : ServeOk s.serve) (hd : s.disputes = []) : Sound s :=
  sound_fresh (fun i => getRec_eq s i (by simp [segCount, hr])) hw ok hq serve hd

/-- R8: without records there are no writes. -/
theorem writesDue_empty {due : Due} (h : SoundAt due s) (hr : s.segs.recs = []) : writesDue due s = [] := by
  refine List.eq_nil_iff_forall_not_mem.mpr fun w hw => ?_
  have h1 := (h.linked.segment w.2).writes
  rw [getRec_eq s _ (by simp [segCount, hr])] at h1
  have : 0 < (writesDue due s).countP (fun x => decide (x.2 = w.2)) := List.countP_pos_iff.mpr ⟨w, hw, by simp⟩
  simp only [unknownRec] at h1
  omega

/-- Behind no header the state is empty. -/
structure Bare (s : State) : Prop where
  recs : s.segs.recs = []
  queue : s.repair.queue = []
  serve : s.serve.queue = []
  disputes : s.disputes = []
  writes : s.store.writes = []

theorem bare_of {due : Due} (b : Base due s) (ht : started s.start.top = false) : Bare s := by
  have hl : listening s.start.top = false := by
    revert ht; cases s.start.top <;> simp [started, listening]
  have hna : s.start.top ≠ .active := by intro h; rw [h] at ht; cases ht
  have g := b.core
  have hh := g.header
  rw [ht] at hh
  have hr := g.noTable (by simpa using hh)
  refine ⟨hr, g.queue hl, g.serve hna, g.disputes hna, ?_⟩
  have := writesDue_empty b.sound hr
  simp only [writesDue, List.append_eq_nil_iff, List.map_eq_nil_iff] at this
  exact this.2

theorem coldStart_inv : Inv (coldStart s) := by
  have hok : RepairOk (coldStart s).repair :=
    repairOk_empty rfl rfl (fun n => by cases n <;> rfl) (by simp [coldStart, State.reset]) (by simp [coldStart, State.reset])
  constructor
  · exact ⟨by simp [coldStart, State.reset], by simp [coldStart, State.reset, holdsLost]⟩
  · exact ⟨by simp [coldStart, State.reset], by simp [coldStart, State.reset]⟩
  · exact ⟨by simp [coldStart, State.reset], by simp [coldStart, State.reset], by simp [coldStart, State.reset]⟩
  · refine sound_empty rfl rfl hok rfl ?_ rfl
    exact ⟨by simp [coldStart, State.reset], by simp [coldStart, State.reset],
      (by decide : chunkCount 0 ≤ Config.paceLimit), fun _ => rfl, fun _ => rfl⟩
  · constructor <;> simp [coldStart, State.reset, reasonFits, started, listening, isSending, inFlight, sentIdent, engineAtRest]

/-- HALTED keeps the invariant (R168). -/
theorem halt_inv {due : Due} (r : Reason) (hr : r = .badStation ∨ r = .noStore ∨ r = .badHeader) (ht : s.start.top = .starting)
    (hw : s.start.storeWait = false) (hd : s.start.strapsDue = false) (b : Base due s) (hi : writeOf s.store.op = none)
    (ho : ∀ i, s.store.op ≠ .reading .census i)
    (hp : ∀ p, s.store.op ≠ .probing p) (hh : s.store.op ≠ .header)
    (hc : s.store.censusReq = none) : Inv (halt r s) := by
  have hbare := bare_of b (by rw [ht]; rfl)
  unfold halt
  refine inv_raise _ _ _ _ (inv_iff.mpr ⟨?_, ?_⟩)
  · obtain ⟨a, d, bb, ee, g⟩ := b
    refine ⟨a, d, bb, sound_empty hbare.recs (by simp [writesDue, Due.now, hi, hbare.writes]) ee.repair hbare.queue
      ee.serve hbare.disputes, ?_⟩
    have hl : listening s.start.top = false := by rw [ht]; rfl
    have hs : started s.start.top = false := by rw [ht]; rfl
    have hna : s.start.top ≠ .active := by rw [ht]; simp
    refine ⟨by rcases hr with rfl | rfl | rfl <;> rfl, by simp [started], ?_, g.tables, g.noTable, ?_, ?_, g.engine,
      fun _ => g.outbox hna, g.flight, g.clashes, g.rosterSize, fun _ => g.absent hl, by simp [started], ?_,
      fun _ => g.pointer hna, fun _ => g.queue hl, fun _ => g.fetching hna, fun _ => g.serve hna,
      fun _ => g.disputes hna, ?_⟩
    · have := g.header; rw [hs] at this; exact this
    · have := g.receiver; rw [hl] at this; exact this
    · have := g.transmitter; rw [ht] at this; exact this
    · have := g.beacon; rw [ht] at this; exact this
    · simp [hw]
  · refine ⟨?_, ?_, ?_, ?_⟩
    · rintro (⟨p, h⟩ | h)
      · exact absurd h (hp p)
      · exact absurd h hh
    · intro i h; exact absurd h (ho i)
    · simp [hc]
    · intro h; rw [show _ = s.start.strapsDue from rfl, hd] at h; cases h

theorem afterStraps_inv {due : Due} (ht : s.start.top = .starting) (hw : s.start.storeWait = false) (hd : s.start.strapsDue = false)
    (b : Base due s) (hi : writeOf s.store.op = none)
    (ho : ∀ i, s.store.op ≠ .reading .census i) (hp : ∀ p, s.store.op ≠ .probing p) (hh : s.store.op ≠ .header)
    (hc : s.store.censusReq = none) : Inv (afterStraps s) := by
  unfold afterStraps
  split
  · exact halt_inv _ (.inl rfl) ht hw hd b hi ho hp hh hc
  · rename_i hst
    have hbare := bare_of b (by rw [ht]; rfl)
    refine inv_iff.mpr ⟨base_congr b rfl rfl rfl rfl rfl rfl rfl b.events (sound_empty hbare.recs
      (by simp [writesDue, Due.now, probe, writeOf, hbare.writes]) b.sound.repair hbare.queue b.sound.serve hbare.disputes),
      ⟨?_, ?_, ?_, ?_⟩⟩
    · intro _; exact ⟨ht, hw, hst⟩
    · intro i h; simp [probe] at h
    · simp [probe, hc]
    · intro h; have h : s.start.strapsDue = true := h; rw [hd] at h; cases h

theorem censusReq_none (ht : s.start.top ≠ .census) (o : StoreRules s) : s.store.censusReq = none := by
  cases h : s.store.censusReq with
  | none => rfl
  | some i => exact absurd (o.censusReq (by simp [h])) ht

/-- The strap sampling keeps the invariant (R155, R194). -/
theorem sampleStraps_inv (stn : BitVec 4) (r : BitVec 2) (c : Inv s) : Inv (sampleStraps stn r s) := by
  unfold sampleStraps
  split
  · rename_i hd
    obtain ⟨b, o⟩ := inv_iff.mp c
    obtain ⟨h1, h2, h3, h4⟩ := o.straps hd
    have hbare := bare_of b (by rw [h1]; rfl)
    have hwd := writesDue_empty b.sound hbare.recs
    have hi : writeOf s.store.op = none := by
      simp only [writesDue, Due.now, h2, List.append_eq_nil_iff] at hwd
      cases hx : writeOf s.store.op with
      | none => rfl
      | some w => rw [hx] at hwd; simp at hwd
    obtain ⟨a, d, bb, ee, g⟩ := b
    refine afterStraps_inv (due := .now) h1 h2 rfl ⟨a, d, bb, sound_empty hbare.recs
      (by simp only [writesDue] at hwd ⊢; exact hwd) ee.repair hbare.queue ee.serve hbare.disputes, ?_⟩ hi ?_ h3 h4
      (censusReq_none (s := s) (by rw [h1]; simp) o)
    · exact { g with
        station := fun h => by rw [show started _ = started s.start.top from rfl, h1] at h; cases h
        selfEntry := fun h => by rw [show started _ = started s.start.top from rfl, h1] at h; cases h }
    · intro i h
      rcases (o.census i h).1 with h | h
      · rw [h1] at h; cases h
      · rw [h2] at h; cases h
  · exact c

theorem restartGoesOn_inv {due : Due} (ht : s.start.top = .starting) (hd : s.start.strapsDue = false) (b : Base due s)
    (hc : s.store.censusReq = none) : Inv (restartGoesOn s) := by
  have hbare := bare_of b (by rw [ht]; rfl)
  unfold restartGoesOn
  refine afterStraps_inv (due := .now) (by exact ht) rfl hd ?_ rfl (by simp [freeBuffers]) (by simp [freeBuffers])
    (by simp [freeBuffers]) hc
  obtain ⟨a, d, bb, ee, g⟩ := b
  refine ⟨a, d, bb, sound_empty hbare.recs (by simp [writesDue, Due.now, freeBuffers, writeOf, hbare.writes])
    (ee.repair.congr rfl rfl rfl (fun n => by cases n <;> rfl)) hbare.queue ee.serve hbare.disputes,
    { g with waiting := by simp }⟩

theorem waiting_goesOn (hw : s.start.storeWait = true) (c : Inv s) : Inv (restartGoesOn s) := by
  obtain ⟨b, o⟩ := inv_iff.mp c
  have ht := b.core.waiting hw
  refine restartGoesOn_inv ht ?_ b (censusReq_none (by rw [ht]; simp) o)
  cases h : s.start.strapsDue with
  | false => rfl
  | true => have := (o.straps h).2.1; rw [hw] at this; cases this

/-- The base after the clearing of a warm restart, whether it waits or not. -/
theorem restartClears_base (w : Bool) (u : Store) (buf : Option CommitBuffer) (h : HostPort)
    (hu : u.writes = []) (hw : w = true ∨ writeOf u.op = none) (he : h.events = [⟨.restarted, none, none, none⟩]) :
    Base .now { restartClears s with start.storeWait := w, store := u, repair.commit := buf, host := h } := by
  have hok : RepairOk { (restartClears s).repair with commit := buf } :=
    repairOk_empty rfl rfl (fun n => by cases n <;> rfl) (by simp [restartClears, State.reset]) (by simp [restartClears, State.reset])
  constructor
  · simp only [he]; exact ⟨by simp, by simp [holdsLost]⟩
  · exact ⟨by simp [restartClears, State.reset], by simp [restartClears, State.reset]⟩
  · exact ⟨by simp [restartClears, lineOff], by simp [restartClears, lineOff], by simp [restartClears, lineOff]⟩
  · refine sound_empty rfl ?_ hok rfl ?_ rfl
    · simp only [writesDue, Due.now, hu]
      rcases hw with rfl | hw
      · simp
      · simp [hw]
    · exact ⟨by simp [restartClears, State.reset], by simp [restartClears, State.reset],
        (by decide : chunkCount 0 ≤ Config.paceLimit), fun _ => rfl, fun _ => rfl⟩
  · have hs : (restartClears s).line = Line.mk false (isSending s.line.engine)
        (engineOff .afterRestart s.line.engine) 0 [] := rfl
    constructor <;> (try simp only [hs])
    · rfl
    · simp [restartClears, started]
    · rfl
    · simp [restartClears]
    · intro _; rfl
    · rfl
    · cases s.line.engine <;> rfl
    · intro _; cases s.line.engine <;> simp [isSending, engineOff]
    · simp
    · cases s.line.engine <;> simp [sentIdent, inFlight, engineOff]
    · simp
    · simp [restartClears, State.reset]
    · intro _ e he; exact List.eq_of_mem_replicate he
    · simp [restartClears, started]
    · rfl
    · intro _; rfl
    · intro _; rfl
    · intro _; exact ⟨by simp [restartClears, State.reset], rfl, rfl⟩
    · intro _; rfl
    · intro _; rfl
    · intro _; rfl

/-- An accepted RESTART keeps the invariant (R167). -/
theorem restart_inv (ht : s.start.top ≠ .starting) (c : Inv s) : Inv (restartSequence s) := by
  obtain ⟨b, o⟩ := inv_iff.mp c
  have hd : s.start.strapsDue = false := by
    cases h : s.start.strapsDue with
    | false => rfl
    | true => exact absurd (o.straps h).1 ht
  unfold restartSequence
  dsimp only
  split
  · rename_i hop
    refine inv_iff.mpr ⟨restartClears_base true _ _ _ rfl (.inl rfl) rfl, ⟨?_, ?_, ?_, ?_⟩⟩
    · intro h
      exact absurd (o.probing h).1 ht
    · intro i _; exact ⟨.inr rfl, rfl⟩
    · simp [restartClears]
    · intro h; have h : s.start.strapsDue = true := h; rw [hd] at h; cases h
  · rename_i hop
    have hop : s.store.op = .idle := by simpa [restartClears] using hop
    split
    · refine inv_iff.mpr ⟨restartClears_base false _ _ _ rfl (.inr rfl) rfl, ⟨?_, ?_, ?_, ?_⟩⟩
      · intro h; simp [freeBuffers] at h
      · intro i h; simp [freeBuffers] at h
      · simp [freeBuffers, restartClears]
      · intro h; have h : s.start.strapsDue = true := h; rw [hd] at h; cases h
    · exact restartGoesOn_inv rfl hd
        (restartClears_base (s := s) s.start.storeWait _ _ _ rfl (.inr (by rw [show _ = s.store.op from rfl, hop]; rfl)) rfl) rfl

/-- What the part does of its own accord keeps the invariant (R167). -/
theorem startGoesOn_inv (c : Inv s) : Inv (startGoesOn s) := by
  unfold startGoesOn
  split
  · rename_i h
    simp only [haltsNext, Bool.and_eq_true, decide_eq_true_eq, Bool.not_eq_true'] at h
    obtain ⟨⟨⟨⟨ht, _⟩, hd⟩, hw⟩, ho⟩ := h
    obtain ⟨b, o⟩ := inv_iff.mp c
    exact halt_inv (due := .now) _ (.inl rfl) ht hw hd b (by rw [ho]; rfl) (by simp [ho]) (by simp [ho]) (by simp [ho])
      (censusReq_none (by rw [ht]; simp) o)
  · exact c

end Sys2Proof.Machine
end

