-- ==== Sys2Proof/Laws/Storing.lean ====
section
/-! SUPPORT. The ends of store operations, ATTACH and the entries to CENSUS and ACTIVE keep the invariant, one lemma for each
shared operation. -/

namespace Sys2Proof.Machine

variable {due : Due} {s t : State}

/-- BlockRules in ACTIVE of a state reached by inner moves and a beacon set. -/
theorem active_base (w u : State) (h : Inner w u) (ht : w.start.top = .active) (hr : w.start.reason = .none)
    (hst : w.start.station ≠ 0) (hh : w.start.header.isSome = true)
    (htab : ∀ h, w.start.header = some h → w.segs.recs.length = h.count ∧ w.roster.banks.length = h.count / Config.bankSize)
    (hrec : w.line.receiver = true) (htx : w.line.transmitter = true) (hfl : inFlight w.line.outbox = sentIdent w.line.engine)
    (hk : w.line.clashes ≤ Config.clashLimit) (hsz : w.roster.entries.length = 15)
    (hself : rosterEntry w w.start.station = ⟨true, none⟩)
    (hev : EventsOk w.host.events) (hdg : DigestsOk w.segs) (hob : OutboxOk w.line.outbox) (hso : SoundAt due w)
    (hw : w.start.storeWait = false)
    (b : Nat) (k : Nat) : Base due { u with roster.pointer := k, roster.beacon := some b } := by
  have e := h.start
  have h0 := h
  replace h := h.moves
  have hl := h.line
  obtain ⟨hro, hb⟩ := h.roster
  have e1 : u.line.receiver = w.line.receiver := by rw [hl]
  have e2 : u.line.transmitter = w.line.transmitter := by rw [hl]
  have e3 : u.line.engine = w.line.engine := by rw [hl]
  have e4 : u.line.clashes = w.line.clashes := by rw [hl]
  have e5 : u.roster.entries = w.roster.entries := by rw [hro]
  have hn : ∀ {α : Prop}, u.start.top ≠ .active → α := by intro α h; rw [e] at h; exact absurd ht h
  have hsn := h0.sound due hso
  refine ⟨h.events hev, h.digests hdg, h.outboxOk hob,
    hsn.congr rfl (fun h => h) rfl rfl hsn.repair rfl rfl hsn.serve rfl rfl rfl rfl, ?_⟩
  constructor <;> (try simp only [e, ht, hr, e1, e2, e3, e4, e5])
  · rfl
  · intro _; exact hst
  · rw [hh]; rfl
  · intro h' hh'; have := htab h' hh'; rw [h.sizes.1, hb]; exact this
  · intro hn; rw [hn] at hh; cases hh
  · rw [hrec]; rfl
  · rw [htx]; rfl
  · rw [hrec]; simp
  · simp
  · rw [h.flight]; exact hfl
  · exact hk
  · exact hsz
  · simp [listening]
  · intro _
    simpa [rosterEntry, e5] using hself
  · rfl
  · simp
  · simp [listening]
  · simp
  · simp
  · simp
  · simp [hw]

theorem rosterEntry_set (p : Station) (e : RosterEntry) (hp : p ≠ 0) (hl : s.roster.entries.length = 15) :
    rosterEntry (setRoster p e s) p = e := by
  unfold setRoster
  rw [if_neg hp]
  simp only [rosterEntry, if_neg hp]
  have : p.toNat - 1 < s.roster.entries.length := by have := p.isLt; omega
  simp [List.getD_eq_getElem?_getD, List.getElem?_set_self this]

/-- The base holds after the joining of the line (R162, R166). -/
theorem joinLine_base (ht : s.start.top = .active) (hr : s.start.reason = .none)
    (hst : s.start.station ≠ 0) (hh : s.start.header.isSome = true)
    (htab : ∀ h, s.start.header = some h → s.segs.recs.length = h.count ∧ s.roster.banks.length = h.count / Config.bankSize)
    (hrec : s.line.receiver = true) (htx : s.line.transmitter = true) (hfl : inFlight s.line.outbox = sentIdent s.line.engine)
    (hk : s.line.clashes ≤ Config.clashLimit) (hsz : s.roster.entries.length = 15)
    (hev : EventsOk s.host.events) (hdg : DigestsOk s.segs) (hob : OutboxOk s.line.outbox) (hso : SoundAt due s)
    (hw : s.start.storeWait = false) : Base due (joinLine s) := by
  unfold joinLine
  refine base_inner (backfill_inner.trans (takeUpDisputes_inner.trans pick_inner)) ?_
  · unfold startBeacon
    have hset : setRoster s.start.station ⟨true, none⟩ s = { s with roster.entries := s.roster.entries.set (s.start.station.toNat - 1) ⟨true, none⟩ } := by
      unfold setRoster; rw [if_neg hst]
    have hself := rosterEntry_set (s := s) s.start.station ⟨true, none⟩ hst hsz
    have hstart : (setRoster s.start.station ⟨true, none⟩ s).start = s.start := by rw [hset]
    refine active_base (setRoster s.start.station ⟨true, none⟩ s) _ (offer_inner _) ?_ ?_ ?_ ?_ ?_ ?_ ?_ ?_ ?_ ?_ ?_ ?_ ?_ ?_ ?_ ?_ _ _
    all_goals (try rw [hstart])
    all_goals (try assumption)
    all_goals (try (rw [hset]; assumption))
    all_goals (try (rw [hset]; exact hso.congr rfl id rfl rfl hso.repair rfl rfl hso.serve rfl rfl rfl rfl))
    · rw [hset]; simpa using hsz

/-- The joining of the line as moves between two changes of the roster. -/
theorem joinLine_moves (s : State) :
    (setRoster s.start.station ⟨true, none⟩ s).store = s.store ∧ (setRoster s.start.station ⟨true, none⟩ s).start = s.start ∧
      Moves (setRoster s.start.station ⟨true, none⟩ s) (offer (.digest 0) (setRoster s.start.station ⟨true, none⟩ s)) ∧
      Moves (startBeacon (setRoster s.start.station ⟨true, none⟩ s)) (joinLine s) := by
  refine ⟨?_, ?_, (offer_inner _).moves, ?_⟩
  · unfold setRoster; split <;> rfl
  · unfold setRoster; split <;> rfl
  · exact (backfill_inner.trans (takeUpDisputes_inner.trans pick_inner)).moves

theorem joinLine_op (o : StoreRules s) : StoreRules (joinLine s) := by
  obtain ⟨h1, h2, h3, h4⟩ := joinLine_moves s
  have o1 : StoreRules (setRoster s.start.station ⟨true, none⟩ s) :=
    storeRules_congr o h2 (by rw [h1]) (by rw [h1])
  have o2 := storeRules_inner h3 o1
  exact storeRules_inner h4 (storeRules_congr o2 rfl rfl rfl)

theorem joinLine_storeOp (h0 : s.store.op ≠ .idle) :
    (joinLine s).store.op = s.store.op ∧ (joinLine s).store.censusReq = s.store.censusReq ∧ (joinLine s).start = s.start := by
  obtain ⟨h1, h2, h3, h4⟩ := joinLine_moves s
  have q1 := h3.storeOp.1 (by rw [h1]; exact h0)
  have q0 : (startBeacon (setRoster s.start.station ⟨true, none⟩ s)).store = (offer (.digest 0) (setRoster s.start.station ⟨true, none⟩ s)).store := rfl
  have q2 := h4.storeOp.1 (by rw [q0, q1.1, h1]; exact h0)
  refine ⟨?_, ?_, ?_⟩
  · rw [q2.1, q0, q1.1, h1]
  · rw [q2.2, q0, q1.2, h1]
  · rw [h4.start]; exact h3.start.trans h2

/-- An accepted ATTACH keeps the invariant (R166). -/
theorem attach_inv (ht : s.start.top = .detached) (c : Inv s) : Inv (attachSequence s) := by
  obtain ⟨b, o⟩ := inv_iff.mp c
  have g := b.core
  have hs : started s.start.top = true := by rw [ht]; rfl
  have hna : s.start.top ≠ .active := by rw [ht]; simp
  have hw : s.start.storeWait = false := by
    cases h : s.start.storeWait with
    | false => rfl
    | true => have := g.waiting h; rw [ht] at this; cases this
  have hd : s.start.strapsDue = false := by
    cases h : s.start.strapsDue with
    | false => rfl
    | true => have := (o.straps h).1; rw [ht] at this; cases this
  have hob := g.outbox hna
  have hfl := g.flight
  rw [hob] at hfl
  unfold attachSequence
  dsimp only
  have hop : StoreRules ({ receiverOn { s with start.top := .active, start.reason := .none, line.clashes := 0 } with line.transmitter := true }) := by
    constructor
    · intro h; have := (o.probing h).1; rw [ht] at this; cases this
    · intro i h
      rcases (o.census i h).1 with h | h
      · rw [ht] at h; cases h
      · rw [hw] at h; cases h
    · intro h; have := o.censusReq h; rw [ht] at this; cases this
    · intro h; have h : s.start.strapsDue = true := h; rw [hd] at h; cases h
  refine inv_iff.mpr ⟨?_, joinLine_op hop⟩
  refine joinLine_base rfl rfl (g.station hs) ?_ g.tables rfl rfl ?_ (Nat.zero_le _) g.rosterSize b.events b.digests b.outbox ?_ hw
  · exact g.header.trans hs
  · simp only [receiverOn, hob]
    rw [hfl]
    cases he : s.line.engine with
    | sending f id fl => rfl
    | _ => rfl
  · exact b.sound.congr rfl (fun h => by cases h) rfl rfl b.sound.repair rfl rfl b.sound.serve rfl rfl rfl rfl

/-- The requests for writes are among the writes that are due. -/
theorem requests_due (due : Due) (s : State) : (s.store.writes.map fun q => (q.client, q.segment)).Subperm (writesDue due s) :=
  (List.sublist_append_right _ _).subperm

/-- The end of a store operation keeps the invariant when its result kept the base. -/
theorem endOp_inv (b : Base due s) (h1 : s.store.censusReq.isSome = true → s.start.top = .census)
    (h2 : s.start.strapsDue = true → s.start.top = .starting ∧ s.start.storeWait = false) : Inv (endOp s) := by
  unfold endOp
  refine inv_arbitrate (inv_iff.mpr ⟨base_congr b rfl rfl rfl rfl rfl rfl rfl b.events
    (b.sound.storeUnit _ ?_ (List.nil_subperm) ?_), ⟨?_, ?_, h1, ?_⟩⟩)
  · simpa [writesDue, Due.now, writeOf] using requests_due due s
  · rintro k (⟨_, h⟩ | h | h)
    · cases h
    · exact .inr (.inl h)
    · cases h
  · simp
  · simp
  · intro h; exact ⟨(h2 h).1, (h2 h).2, by simp, by simp⟩

theorem not_due (c : Inv s) (ht : s.start.top ≠ .starting ∨ s.start.storeWait = true) : s.start.strapsDue = false := by
  cases h : s.start.strapsDue with
  | false => rfl
  | true =>
    have := c.governed.straps h
    rcases ht with ht | ht
    · exact absurd this.1 ht
    · rw [ht] at this; cases this.2.1

theorem judge_count (l : List Byte) (h : Header) (hj : judgeHeader l = .ok h) : h.count % 64 = 0 := by
  unfold judgeHeader at hj
  dsimp only at hj
  repeat' split at hj
  all_goals first | (simp at hj; done) | skip
  rename_i hc _ _ _
  have := Except.ok.inj hj
  subst this
  simp only [countOk, Bool.not_eq_true', Bool.not_eq_false, Bool.and_eq_true, beq_iff_eq] at hc
  simpa using hc.2

theorem recount_unknown (n b : Nat) : recountDigest (List.replicate n unknownRec) b = 0 := by
  have h : ∀ k, (List.replicate n unknownRec).getD k unknownRec = unknownRec := by
    intro k; rw [List.getD_eq_getElem?_getD, List.getElem?_replicate]; split <;> rfl
  unfold recountDigest
  simp only [h]
  have hz : ∀ i, rotated i (contributed unknownRec) = 0 := by
    intro i; simp [rotated, contributed, unknownRec, BitVec.rotateLeft, BitVec.rotateLeftAux]
  simp only [hz]
  simp

/-- The entry to CENSUS keeps the invariant (R157). -/
theorem enterCensus_inv (h : Header) (hc : h.count % 64 = 0) (ht : s.start.top = .starting) (hst : s.start.station ≠ 0)
    (hop : s.store.op = .idle) (hd : s.start.strapsDue = false) (hw : s.start.storeWait = false) (b : Base due s) : Inv (enterCensus h s) := by
  have g := b.core
  have hna : s.start.top ≠ .active := by rw [ht]; simp
  have hl : listening s.start.top = false := by rw [ht]; rfl
  have hbare := bare_of b (by rw [ht]; rfl)
  unfold enterCensus
  dsimp only
  unfold requestCensusRead
  refine inv_arbitrate (inv_iff.mpr ⟨⟨b.events, ?_, b.outbox, sound_fresh (fun k => ?_)
    (by simp [writesDue, Due.now, receiverOn, hop, writeOf, hbare.writes]) b.sound.repair hbare.queue b.sound.serve
    hbare.disputes, ?_⟩, ⟨?_, ?_, ?_, ?_⟩⟩)
  · refine ⟨?_, ?_⟩
    · simp [receiverOn, Config.bankSize]; omega
    · intro k hk
      simp only [receiverOn, List.length_replicate] at hk ⊢
      rw [recount_unknown, List.getD_eq_getElem?_getD, List.getElem?_replicate, if_pos hk]; rfl
  · simp only [getRec, receiverOn]
    rw [List.getD_eq_getElem?_getD, List.getElem?_replicate]; split <;> rfl
  · constructor
    · rfl
    · intro _; exact hst
    · rfl
    · intro h' hh'; obtain rfl := Option.some.inj hh'; simp [receiverOn]
    · intro hn; cases hn
    · rfl
    · have := g.transmitter; rw [ht] at this
      simp only [receiverOn]
      rw [this]; cases s.line.engine <;> rfl
    · intro h; simp [receiverOn] at h
    · intro _; exact g.outbox hna
    · have := g.flight; rw [g.outbox hna] at this
      simp only [receiverOn, g.outbox hna, this]
      cases he : s.line.engine with
      | sending f id fl => rfl
      | _ => rfl
    · exact g.clashes
    · exact g.rosterSize
    · intro h; cases h
    · intro _
      show rosterEntry s s.start.station = _
      simp only [rosterEntry, if_neg hst]
      have hk : s.start.station.toNat - 1 < s.roster.entries.length := by
        rw [g.rosterSize]; have := s.start.station.isLt; omega
      rw [List.getD_eq_getElem?_getD, List.getElem?_eq_getElem hk]
      exact g.absent hl _ (List.getElem_mem hk)
    · have := g.beacon; rw [ht] at this; exact this
    · intro _; exact g.pointer hna
    · intro h; cases h
    · intro _; exact g.fetching hna
    · intro _; exact g.serve hna
    · intro _; exact g.disputes hna
    · intro h; have h : s.start.storeWait = true := h; rw [hw] at h; cases h
  · intro h; have h : (∃ p, s.store.op = .probing p) ∨ s.store.op = .header := h; rw [hop] at h; simp at h
  · intro i h; have h : s.store.op = .reading .census i := h; rw [hop] at h; cases h
  · intro _; rfl
  · intro h; have h : s.start.strapsDue = true := h; rw [hd] at h; cases h

/-- The end of the header read keeps the invariant (R143, R156). -/
theorem headerRead_inv (l : List Byte) (c : Inv s) : Inv (headerRead l s) := by
  unfold headerRead
  split
  · rename_i h
    have hp := c.governed.probing (.inr h.1)
    obtain ⟨b, o⟩ := inv_iff.mp c
    have hd : s.start.strapsDue = false := by
      cases hh : s.start.strapsDue with
      | false => rfl
      | true => exact absurd h.1 (o.straps hh).2.2.2
    have b1 : Base .now { s with store.op := .idle } := base_congr b rfl rfl rfl rfl rfl rfl rfl b.events
      (b.sound.storeUnit _ (by simpa [writesDue, Due.now, writeOf] using requests_due .now s) (.refl _) ?_)
    rotate_left
    · rintro k (⟨_, h⟩ | h)
      · cases h
      · exact .inr h
    split
    · rename_i hj
      exact enterCensus_inv _ (judge_count _ _ hj) hp.1 hp.2.2 rfl hd hp.2.1 b1
    · exact halt_inv _ (.inr (.inr rfl)) hp.1 hp.2.1 hd b1 rfl (by simp) (by simp) (by simp) (censusReq_none (s := s) (by rw [hp.1]; simp) o)
  · exact c

/-! ### Writes -/

/-- The result of a slot write is being applied. -/
def Due.result (w : WriteOp) : Due :=
  ⟨true, [], none, if w.client = .commit then [(.commit, w.segment)] else []⟩

theorem writesDue_now {w : WriteOp} (hop : writeOf s.store.op = some w) (hw : s.start.storeWait = false) :
    writesDue .now s = (w.client, w.segment) :: writesDue (.result w) s := by
  simp [writesDue, Due.now, Due.result, hop, hw]

/-- The segment of a write in progress is COMMITTING. -/
theorem written_committing {w : WriteOp} (h : Sound s) (hop : writeOf s.store.op = some w) (hw : s.start.storeWait = false) :
    (getRec s w.segment).state = .committing ∧
      (writesDue (.result w) s).countP (·.2 = w.segment) + 1 ≤ (getRec s w.segment).pendingWrites := by
  have hl := h.linked.segment w.segment
  have := hl.writes
  rw [writesDue_now hop hw, List.countP_cons_of_pos (by simp)] at this
  exact ⟨hl.record.committing.mpr (by omega), this⟩

/-- The record of a segment whose write has ended, before its settle. -/
theorem written_loose {w : WriteOp} (h : Sound s) (hop : writeOf s.store.op = some w) (hw : s.start.storeWait = false)
    (f : SegRec → SegRec) (hf : ∀ r, (f r).state = r.state ∧ (f r).pendingWrites = r.pendingWrites - 1)
    (hm : ∀ r, (f r).mark = true → r.mark = true ∧ (f r).stamp = r.stamp) :
    Loose (.result w) w.segment (modifyRec w.segment f s) := by
  obtain ⟨hst, hc⟩ := written_committing h hop hw
  have hl := h.linked.segment w.segment
  have hlt : w.segment < segCount s := by
    by_cases hi : w.segment < segCount s
    · exact hi
    · rw [getRec_eq s _ hi] at hst; cases hst
  have hself : getRec (modifyRec w.segment f s) w.segment = f (getRec s w.segment) := getRec_modifyRec_self s _ f hlt
  obtain ⟨f1, f2⟩ := hf (getRec s w.segment)
  have hwd := writesDue_now hop hw
  have hcd : commitsDue (.result w) s = commitsDue .now s := by
    simp only [commitsDue, hwd]
    cases hcl : w.client <;> simp [Due.result, Due.now, hcl]
  have hcensus : ∀ k, censusAt (.result w) s.store k → censusAt .now s.store k := by
    rintro k (⟨h, _⟩ | h)
    · cases h
    · exact .inr h
  have hbut : SoundBut (.result w) w.segment s := by
    refine ⟨h.repair, h.serve, h.disputes, fun j _ => ?_, by rw [hcd]; exact h.linked.commit⟩
    refine (h.linked.segment j).mono rfl rfl id ?_ (fun d hd hs => ⟨d, hd, hs⟩) (fun d hd _ => hd) hcensus
    rw [hwd]; exact (List.sublist_cons_self _ _).countP_le
  refine ⟨hbut.record _, ?_, ?_, ?_, ?_, ?_, ?_, ?_⟩ <;> (try rw [hself]) <;> (try rw [f1]) <;> (try rw [f2])
  · intro hu; rw [hst] at hu; cases hu
  · have := hl.record.count; omega
  · intro hk
    obtain ⟨m1, m2⟩ := hm _ hk
    rw [m2]; exact hl.record.mark m1
  · rw [show writesDue (.result w) (modifyRec w.segment f s) = writesDue (.result w) s from
      writesDue_congr (by simp) (by simp) (by simp)]
    omega
  · rintro ⟨e, he, hs⟩
    have := (hl.repair e (by simpa using he) hs).state
    rw [hst] at this; simp at this
  · intro d hd hs
    have := (hl.dispute d (by simpa using hd) hs).state
    rw [hst] at this; cases this
  · intro ht k hk hki
    have := hl.census (by simpa using ht) k (hcensus k (by simpa using hk)) hki
    rw [hst] at this; cases this

/-- The host port says nothing of a segment. -/
theorem Loose.host {i : Nat} (h : Loose due i s) (p : HostPort) : Loose due i { s with host := p } :=
  ⟨h.but.change rfl id (fun _ _ => rfl) (fun _ _ => Nat.le_refl _) (fun d hd _ => ⟨d, hd, rfl⟩) (fun _ hd _ => hd)
    (fun _ hk => hk) h.but.repair h.but.serve h.but.disputes h.but.commit, h.unknown, h.count, h.mark, h.writes, h.repair,
    h.dispute, h.census⟩

theorem Loose.loseCopy {i : Nat} (h : Loose due i s) : SoundAt due (loseCopy i s) := by
  unfold Machine.loseCopy
  split
  · rename_i hu; exact h.copyUnusable hu
  · exact h.settled

theorem loseCopy_moves (i : Nat) (s : State) : Moves s (loseCopy i s) := by
  unfold loseCopy; split
  · exact copyUnusable_moves i s
  · exact (settle_inner i).moves

/-- R105, R106: the commit buffer becomes free. -/
theorem freeCommit_sound {w : WriteOp} (h : SoundAt (.result w) s) (hc : w.client = .commit) :
    SoundAt ⟨true, [], none, []⟩ (freeCommit s) := by
  refine readyHandOff_inner.sound _ ⟨h.repair.congr rfl rfl rfl (fun n => by cases n <;> rfl), h.serve, h.disputes,
    ⟨fun j => (h.linked.segment j).mono rfl rfl id (Nat.le_refl _) (fun d hd hs => ⟨d, hd, hs⟩) (fun d hd _ => hd)
      (fun _ hk => hk), .inl ?_⟩⟩
  rcases h.linked.commit with h1 | ⟨b, _, h1⟩
  · simp [commitsDue, Due.result, hc] at h1
  · simp only [commitsDue, Due.result, hc, if_true, List.singleton_append, List.cons.injEq] at h1
    exact h1.2

theorem freeCommit_rest (c : Rest s) : Rest (freeCommit s) :=
  rest_moves readyHandOff_inner.moves (rest_congr c rfl rfl rfl rfl ⟨rfl, rfl, rfl⟩ rfl rfl c.events)

theorem result_publish {w : WriteOp} (hc : w.client = .publish) : Due.result w = ⟨true, [], none, []⟩ := by
  simp [Due.result, hc]

/-- The result of a slot write leaves a sound state (R105, R106, R180, R181). -/
theorem applyWrite_sound (w : WriteOp) (f : Option WriteFailure) (h : Sound s) (hop : writeOf s.store.op = some w)
    (hw : s.start.storeWait = false) : SoundAt ⟨true, [], none, []⟩ (applyWrite w f s) := by
  have hfail : Loose (.result w) w.segment (modifyRec w.segment failedRec s) :=
    written_loose h hop hw failedRec (fun _ => ⟨rfl, rfl⟩) (fun _ hm => ⟨hm, rfl⟩)
  unfold applyWrite
  split
  · rename_i hc
    unfold commitSucceeded
    have hcom := h.linked.commit
    rcases hcom with hcom | ⟨b, hb, hcom⟩
    · simp [commitsDue, writesDue_now hop hw, hc] at hcom
    · have hseg : b.segment = w.segment := by
        simp only [commitsDue, Due.now, List.nil_append] at hcom
        rw [show writesDue ⟨false, [], none, []⟩ s = _ from writesDue_now hop hw,
          List.filter_cons_of_pos (by simp [hc])] at hcom
        simp only [List.cons.injEq, Prod.mk.injEq] at hcom
        exact hcom.1.2.symm
      rw [hb]
      dsimp only
      refine freeCommit_sound (w := w) ?_ hc
      rw [hseg]
      exact ((written_loose h hop hw (writtenRec b.stamp b.signature) (fun _ => ⟨rfl, rfl⟩) (fun _ hm => by cases hm)).host _).settled
  · rename_i hc
    exact freeCommit_sound ((Inner.event _ _ _ _ _).sound _ hfail.loseCopy) hc
  · rename_i hc
    rw [← result_publish hc]
    unfold publishSucceeded
    exact (Inner.event _ _ _ _ _).sound _ ((offer_inner _).sound _ ((written_loose h hop hw
      (fun r => { writtenRec w.stamp (w.signature.getD (writeSignature w s)) r with exhausted := false })
      (fun _ => ⟨rfl, rfl⟩) (fun _ hm => by cases hm)).host _).settled)
  · rename_i hc
    rw [← result_publish hc]
    exact (Inner.event _ _ _ _ _).sound _ (hfail.host _).loseCopy

theorem rest_host (c : Rest s) (b : Bool) : Rest { s with host.locked := b } :=
  rest_congr c rfl rfl rfl rfl ⟨rfl, rfl, rfl⟩ rfl rfl c.events

theorem applyWrite_rest (w : WriteOp) (f : Option WriteFailure) (c : Rest s) : Rest (applyWrite w f s) := by
  have event : ∀ {u : State} (k : EventKind) (i : Option Nat) (p : Option Station) (t : Option Stamp), Rest u →
      Rest (raise k i p t u) := fun k i p t c => rest_moves (.event _ _ _ _ _) c
  unfold applyWrite
  split
  · unfold commitSucceeded; split
    · exact c
    · exact freeCommit_rest (rest_moves (settle_inner _).moves (event _ _ _ _ (rest_putRec _ _ c)))
  · exact freeCommit_rest (event _ _ _ _ (rest_moves (loseCopy_moves _ _) (rest_putRec _ _ c)))
  · exact event _ _ _ _ (rest_moves (offer_inner _).moves (rest_moves (settle_inner _).moves (rest_host (rest_putRec _ _ c) _)))
  · exact event _ _ _ _ (rest_moves (loseCopy_moves _ _) (rest_host (rest_putRec _ _ c) _))

/-- An operation in progress goes on, and the start-up state stays. -/
def Quiet (s t : State) : Prop := t.start = s.start ∧ t.store.censusReq = s.store.censusReq ∧ t.store.op = s.store.op
theorem Quiet.trans {u : State} (h1 : Quiet s t) (h2 : Quiet t u) : Quiet s u :=
  ⟨h2.1.trans h1.1, h2.2.1.trans h1.2.1, h2.2.2.trans h1.2.2⟩
theorem Quiet.moves (hop : s.store.op ≠ .idle) (h : Moves s t) : Quiet s t :=
  ⟨h.start, (h.storeOp.1 hop).2, (h.storeOp.1 hop).1⟩
theorem quiet_modify (i : Nat) (f : SegRec → SegRec) (s : State) : Quiet s (modifyRec i f s) := by simp [Quiet, modifyRec]

/-- The result of a slot write leaves the start-up state and the operation under way. -/
theorem applyWrite_quiet (w : WriteOp) (f : Option WriteFailure) (hop : s.store.op ≠ .idle) : Quiet s (applyWrite w f s) := by
  have ne : ∀ {u v : State}, Quiet u v → u.store.op ≠ .idle → v.store.op ≠ .idle := fun h h1 => by rw [h.2.2]; exact h1
  have free : ∀ u : State, u.store.op ≠ .idle → Quiet u (freeCommit u) := fun u hu => by
    have q1 : Quiet u { u with repair.commit := none } := ⟨rfl, rfl, rfl⟩
    exact q1.trans (Quiet.moves hu readyHandOff_inner.moves)
  have lose : ∀ (i : Nat) (u : State), u.store.op ≠ .idle → Quiet u (loseCopy i u) :=
    fun i u hu => Quiet.moves hu (loseCopy_moves i u)
  unfold applyWrite
  split
  · unfold commitSucceeded; split
    · exact ⟨rfl, rfl, rfl⟩
    · rename_i b hb
      have q1 := quiet_modify (s := s) b.segment (writtenRec b.stamp b.signature)
      generalize modifyRec b.segment (writtenRec b.stamp b.signature) s = u at q1
      have q2 : Quiet u (raise .committed (some b.segment) b.supplier (some b.stamp) u) := ⟨rfl, rfl, rfl⟩
      generalize raise .committed (some b.segment) b.supplier (some b.stamp) u = v at q2
      have n2 := ne q2 (ne q1 hop)
      have q3 := Quiet.moves n2 (settle_inner b.segment).moves
      exact (q1.trans q2).trans (q3.trans (free _ (ne q3 n2)))
  · unfold commitFailed
    have q1 := quiet_modify (s := s) w.segment failedRec
    generalize modifyRec w.segment failedRec s = u at q1
    have q2 := lose w.segment u (ne q1 hop)
    have n2 := ne q2 (ne q1 hop)
    generalize loseCopy w.segment u = v at q2 n2
    have q3 : Quiet v (raise .damaged (some w.segment) none (some w.stamp) v) := ⟨rfl, rfl, rfl⟩
    exact (q1.trans q2).trans (q3.trans (free _ (ne q3 n2)))
  · unfold publishSucceeded
    dsimp only
    have q1 := quiet_modify (s := s) w.segment (fun r => { writtenRec w.stamp (w.signature.getD (writeSignature w s)) r with exhausted := false })
    generalize modifyRec w.segment (fun r => { writtenRec w.stamp (w.signature.getD (writeSignature w s)) r with exhausted := false }) s = u at q1
    have q2 : Quiet u { u with host.locked := false } := ⟨rfl, rfl, rfl⟩
    generalize ({ u with host.locked := false } : State) = v at q2
    have n2 := ne q2 (ne q1 hop)
    have q3 := Quiet.moves n2 (settle_inner w.segment).moves
    have n3 := ne q3 n2
    have q4 := Quiet.moves n3 (offer_inner (.news w.segment)).moves
    generalize offer (.news w.segment) (settle w.segment v) = x at q4
    have q5 : Quiet x (raise .published (some w.segment) none (some w.stamp) x) := ⟨rfl, rfl, rfl⟩
    exact (q1.trans q2).trans (q3.trans (q4.trans q5))
  · unfold publishFailed
    dsimp only
    have q1 := quiet_modify (s := s) w.segment failedRec
    generalize modifyRec w.segment failedRec s = u at q1
    have q2 : Quiet u { u with host.locked := false } := ⟨rfl, rfl, rfl⟩
    generalize ({ u with host.locked := false } : State) = v at q2
    have n2 := ne q2 (ne q1 hop)
    have q3 := lose w.segment v n2
    generalize loseCopy w.segment v = x at q3
    have q5 : Quiet x (raise .publishFailed (some w.segment) none (some w.stamp) x) := ⟨rfl, rfl, rfl⟩
    exact (q1.trans q2).trans (q3.trans q5)

/-- The end of a slot write keeps the invariant (R148). -/
theorem endWrite_inv (w : WriteOp) (f : Option WriteFailure) (hop : writeOf s.store.op = some w)
    (c : Inv s) : Inv (endWrite w f s) := by
  obtain ⟨b, o⟩ := inv_iff.mp c
  have hne : s.store.op ≠ .idle := by intro h; rw [h] at hop; cases hop
  unfold endWrite
  split
  · rename_i hw; exact waiting_goesOn hw c
  · rename_i hw
    have q := applyWrite_quiet w f hne
    refine endOp_inv ((applyWrite_rest w f b.rest).base (applyWrite_sound w f b.sound hop (by simpa using hw))) ?_ ?_
    · rw [q.1, q.2.1]; exact o.censusReq
    · rw [q.1]; intro h; exact ⟨(o.straps h).1, (o.straps h).2.1⟩

/-- The segment and the client of the write in progress. -/
def writeKey (op : StoreOp) : Option (WriteClient × Nat) := (writeOf op).map fun w => (w.client, w.segment)

theorem writesDue_key (due : Due) (u : Store) (hk : writeKey u.op = writeKey s.store.op) (hw : u.writes = s.store.writes) :
    writesDue due { s with store := u } = writesDue due s := by
  have h : ∀ op, (writeOf op).toList.map (fun w => (w.client, w.segment)) = (writeKey op).toList := by
    intro op; unfold writeKey; cases writeOf op <;> rfl
  simp only [writesDue, h, hk, hw]

/-- The store's operation goes on in another condition, which is neither of a start nor of the census. -/
theorem setOp_inv (op : StoreOp) (x : Option Signature) (h1 : ∀ p, op ≠ .probing p) (h2 : op ≠ .header)
    (h3 : ∀ i, op ≠ .reading .census i) (hk : writeKey op = writeKey s.store.op)
    (c : Inv s) : Inv { s with store.op := op, store.computed := x } := by
  obtain ⟨b, o⟩ := inv_iff.mp c
  refine inv_iff.mpr ⟨base_congr b rfl rfl rfl rfl rfl rfl rfl b.events (b.sound.storeUnit _ ?_ (.refl _) ?_),
    ⟨?_, ?_, o.censusReq, ?_⟩⟩
  · rw [writesDue_key .now { s.store with op := op, computed := x } hk rfl]
  · rintro k (⟨_, h⟩ | h)
    · exact absurd h (h3 k)
    · exact .inr h
  · rintro (⟨p, h⟩ | h)
    · exact absurd h (h1 p)
    · exact absurd h h2
  · intro i h; exact absurd h (h3 i)
  · intro h; exact ⟨(o.straps h).1, (o.straps h).2.1, h1, h2⟩

theorem probeOp_inv (op : StoreOp) (h : (∃ p, op = .probing p) ∨ op = .header)
    (hs : ∃ p, s.store.op = .probing p) (c : Inv s) : Inv { s with store.op := op } := by
  obtain ⟨b, o⟩ := inv_iff.mp c
  obtain ⟨p, hs⟩ := hs
  refine inv_iff.mpr ⟨base_congr b rfl rfl rfl rfl rfl rfl rfl b.events (b.sound.storeUnit _ ?_ (.refl _) ?_),
    ⟨?_, ?_, o.censusReq, ?_⟩⟩
  · rw [writesDue_key .now { s.store with op := op } (by rw [hs]; rcases h with ⟨q, rfl⟩ | rfl <;> rfl) rfl]
  · rintro k (⟨_, h0⟩ | h0)
    · rcases h with ⟨q, rfl⟩ | rfl <;> cases h0
    · exact .inr h0
  · intro _; exact o.probing (.inl ⟨p, hs⟩)
  · intro i hi; rcases h with ⟨q, rfl⟩ | rfl <;> simp at hi
  · intro hd; exact absurd hs ((o.straps hd).2.2.1 p)

/-- The probe ends without a store device (R142). -/
theorem noStore_inv {p : Option Nat} (hp : s.store.op = .probing p) (c : Inv s) :
    Inv (halt .noStore { s with store.op := .idle }) := by
  obtain ⟨b, o⟩ := inv_iff.mp c
  have h1 := o.probing (.inl ⟨p, hp⟩)
  have b1 : Base .now { s with store.op := .idle } := base_congr b rfl rfl rfl rfl rfl rfl rfl b.events
    (b.sound.storeUnit _ (by simpa [writesDue, Due.now, writeOf] using requests_due .now s) (.refl _) (by
      rintro k (⟨_, h⟩ | h)
      · cases h
      · exact .inr h))
  refine halt_inv _ (.inr (.inl rfl)) h1.1 h1.2.1 ?_ b1 rfl (by simp) (by simp) (by simp)
    (censusReq_none (s := s) (by rw [h1.1]; simp) o)
  show s.start.strapsDue = false
  cases hh : s.start.strapsDue with
  | false => rfl
  | true => exact absurd hp ((o.straps hh).2.2.1 p)

/-- A status value keeps the invariant (R142, R145, R146). -/
theorem statusRead_inv (v : Byte) (c : Inv s) : Inv (statusRead v s) := by
  have set : ∀ op, (∀ p, op ≠ .probing p) → op ≠ .header → (∀ i, op ≠ .reading .census i) →
      writeKey op = writeKey s.store.op → Inv { s with store.op := op } :=
    fun op h1 h2 h3 hk => setOp_inv op s.store.computed h1 h2 h3 hk c
  unfold statusRead
  split
  · rename_i p hp
    split
    · exact noStore_inv hp c
    · split
      · exact probeOp_inv _ (.inl ⟨_, rfl⟩) ⟨p, hp⟩ c
      · exact probeOp_inv _ (.inr rfl) ⟨p, hp⟩ c
  · rename_i w hw
    repeat' split
    · exact endWrite_inv _ _ (by simp [hw, writeOf]) c
    · exact set _ (by simp) (by simp) (by simp) (by rw [hw]; rfl)
    · exact set _ (by simp) (by simp) (by simp) (by rw [hw]; rfl)
  · rename_i w hw
    unfold judgePolling
    repeat' split
    · exact endWrite_inv _ _ (by simp [hw, writeOf]) c
    · exact set _ (by simp) (by simp) (by simp) (by rw [hw]; rfl)
    · exact endWrite_inv _ _ (by simp [hw, writeOf]) c
    · exact c
    · exact set _ (by simp) (by simp) (by simp) (by rw [hw]; rfl)
  · rename_i w f hw
    split
    · exact c
    · exact endWrite_inv _ _ (by simp [hw, writeOf]) c
  · exact c

/-- The end of the 20 ms of polling keeps the invariant. -/
theorem pollTimeout_inv (c : Inv s) : Inv (pollTimeout s) := by
  unfold pollTimeout
  split
  · split
    · rename_i p hp; exact probeOp_inv _ (.inr rfl) ⟨p, hp⟩ c
    · rename_i w hw; exact endWrite_inv _ _ (by simp [hw, writeOf]) c
    · rename_i w hw
      exact setOp_inv _ s.store.computed (by simp) (by simp) (by simp) (by rw [hw]; rfl) c
    · rename_i w f hw; exact endWrite_inv _ _ (by simp [hw, writeOf]) c
    · exact c
  · exact c

/-- The end of a write sequence keeps the invariant (R145). -/
theorem writeSequenceEnd_inv (c : Inv s) : Inv (writeSequenceEnd s) := by
  unfold writeSequenceEnd
  split
  · rename_i w hw
    exact setOp_inv _ _ (by simp) (by simp) (by simp) (by rw [hw]; rfl) c
  · exact c

/-- The end of a readback keeps the invariant (R147, R148). -/
theorem readback_inv (l : List Byte) (c : Inv s) : Inv (readback l s) := by
  unfold readback
  split
  · rename_i w hw
    split
    · exact endWrite_inv _ _ (by simp [hw, writeOf]) c
    · exact c
  · exact c

/-! ### Slot reads -/

/-- The record found by the census (R159). -/
theorem found_loose {i : Nat} (r : SlotResult) (h : Sound s) (hop : s.store.op = .reading .census i)
    (ht : s.start.top = .census) (hreq : s.store.censusReq = none) :
    SoundAt ⟨true, [], some (i + 1), []⟩ (settle i (modifyRec i (fun r' => keepNewer (foundRec r r')) s)) := by
  have hl := h.linked.segment i
  have hu := hl.census ht i (.inl ⟨rfl, hop⟩) (Nat.le_refl _)
  have hp := hl.record.pending_zero (by rw [hu]; simp)
  have hwd : writesDue ⟨true, [], some (i + 1), []⟩ s = writesDue .now s := by
    simp [writesDue, Due.now, hop, writeOf]
  have hcensus : ∀ k, censusAt ⟨true, [], some (i + 1), []⟩ s.store k → k = i + 1 := by
    rintro k (⟨h, _⟩ | h | h)
    · cases h
    · rw [hreq] at h; cases h
    · exact (Option.some.inj h).symm
  have h1 : SoundAt ⟨true, [], some (i + 1), []⟩ s := by
    refine ⟨h.repair, h.serve, h.disputes, ⟨fun j => ?_, h.linked.commit.subperm
      (commitsDue_subperm (by rw [hwd]) (.refl _))⟩⟩
    have hj := h.linked.segment j
    exact ⟨hj.record, by rw [hwd]; exact hj.writes, hj.repair, hj.dispute,
      fun _ k hk hkj => hj.census ht i (.inl ⟨rfl, hop⟩) (by have := hcensus k hk; omega)⟩
  by_cases hi : i < segCount s
  · refine Loose.settled ?_
    have hself : getRec (modifyRec i (fun r' => keepNewer (foundRec r r')) s) i = keepNewer (foundRec r (getRec s i)) :=
      getRec_modifyRec_self s i _ hi
    have hf : (keepNewer (foundRec r (getRec s i))).state = .damaged ∧
        (keepNewer (foundRec r (getRec s i))).pendingWrites = (getRec s i).pendingWrites ∧
        (keepNewer (foundRec r (getRec s i))).mark = (getRec s i).mark := by
      unfold keepNewer foundRec
      cases r <;> dsimp only <;> repeat' split
      all_goals exact ⟨rfl, rfl, rfl⟩
    obtain ⟨f1, f2, f3⟩ := hf
    have hmark : (getRec s i).mark = false := by
      cases hm : (getRec s i).mark with
      | false => rfl
      | true => exact absurd hu (hl.record.mark hm).2
    refine ⟨(h1.but i).record _, ?_, ?_, ?_, ?_, ?_, ?_, ?_⟩ <;> (try rw [hself])
    · rw [f1]; simp
    · rw [f2, hp]; simp
    · rw [f3, hmark]; simp
    · rw [f2, show writesDue ⟨true, [], some (i + 1), []⟩ (modifyRec i (fun r' => keepNewer (foundRec r r')) s) =
        writesDue .now s from (writesDue_congr (by simp) (by simp) (by simp)).trans hwd]
      exact hl.writes
    · rintro ⟨e, he, hs⟩
      exact absurd hu (hl.repair e (by simpa using he) hs).not_unknown
    · intro d hd hs
      have := (hl.dispute d (by simpa using hd) hs).state
      rw [hu] at this; cases this
    · intro _ k hk hki
      have := hcensus k (by simpa using hk)
      omega
  · rw [modifyRec_outside s i _ hi]
    exact (settle_inner i).sound _ h1

theorem applyCensus_rest (i : Nat) (r : SlotResult) (c : Rest s) : Rest (applyCensus i r s) := by
  unfold applyCensus
  refine rest_moves (settle_inner _).moves (rest_putRec _ _ ?_)
  unfold censusEvent
  repeat' split
  all_goals first | exact c | exact rest_moves (.event _ _ _ _ _) c

theorem censusEvent_cases (i : Nat) (r : SlotResult) (s : State) :
    censusEvent i r s = s ∨ ∃ t, censusEvent i r s = raise .damaged (some i) none t s := by
  unfold censusEvent
  repeat' split
  all_goals first | exact .inl rfl | exact .inr ⟨_, rfl⟩

theorem applyCensus_quiet (i : Nat) (r : SlotResult) (hne : s.store.op ≠ .idle) : Quiet s (applyCensus i r s) := by
  unfold applyCensus
  have q0 : Quiet s (censusEvent i r s) := by
    rcases censusEvent_cases i r s with h | ⟨_, h⟩ <;> rw [h] <;> exact ⟨rfl, rfl, rfl⟩
  generalize censusEvent i r s = u at q0
  have q1 := quiet_modify (s := u) i (fun r' => keepNewer (foundRec r r'))
  generalize modifyRec i (fun r' => keepNewer (foundRec r r')) u = v at q1
  have hv : v.store.op ≠ .idle := by rw [q1.2.2, q0.2.2]; exact hne
  exact (q0.trans q1).trans (Quiet.moves hv (settle_inner i).moves)

theorem applyCensus_sound {i : Nat} (r : SlotResult) (h : Sound s) (hop : s.store.op = .reading .census i)
    (ht : s.start.top = .census) (hreq : s.store.censusReq = none) :
    SoundAt ⟨true, [], some (i + 1), []⟩ (applyCensus i r s) := by
  unfold applyCensus
  rcases censusEvent_cases i r s with h1 | ⟨t, h1⟩ <;> rw [h1]
  · exact found_loose r h hop ht hreq
  · exact found_loose r ((Inner.event s _ _ _ _).sound _ h) hop ht hreq

/-- The end of the census read of a segment keeps the invariant (R158, R159, R162). -/
theorem censusReadEnd_inv (i : Nat) (r : SlotResult) (hop : s.store.op = .reading .census i)
    (ht : s.start.top = .census) (hw : s.start.storeWait = false) (c : Inv s) : Inv (endOp (censusReadEnd i r s)) := by
  obtain ⟨b, o⟩ := inv_iff.mp c
  have hne : s.store.op ≠ .idle := by simp [hop]
  have hreq := (o.census i hop).2
  have hsd := not_due c (.inl (by rw [ht]; simp))
  have hs := applyCensus_sound r b.sound hop ht hreq
  have hr := applyCensus_rest i r b.rest
  obtain ⟨q1, q2, q3⟩ := applyCensus_quiet i r hne
  unfold censusReadEnd
  dsimp only
  generalize applyCensus i r s = u at hs hr q1 q2 q3
  have g := hr.core
  split
  · have he : endOp (requestCensusRead (i + 1) { u with start.cursor := i + 1 }) =
        endOp { u with start.cursor := i + 1, store.censusReq := some (i + 1) } := by
      unfold requestCensusRead arbitrate
      rw [if_pos]
      show u.store.op ≠ .idle
      rw [q3]; exact hne
    rw [he]
    have hs1 : SoundAt ⟨true, [], none, []⟩ { u with store.censusReq := some (i + 1) } := by
      refine hs.storeUnit _ (List.Perm.refl _).subperm (.refl _) ?_
      rintro k (⟨h, _⟩ | h | h)
      · cases h
      · exact .inr (.inr h)
      · cases h
    have hs2 : SoundAt ⟨true, [], none, []⟩ { u with start.cursor := i + 1, store.censusReq := some (i + 1) } :=
      hs1.congr rfl id rfl rfl hs1.repair rfl rfl hs1.serve rfl rfl rfl rfl
    refine endOp_inv ⟨hr.events, hr.digests, hr.outbox, hs2, { g with }⟩ ?_ ?_
    · intro _; show u.start.top = _; rw [q1]; exact ht
    · intro h; have h : u.start.strapsDue = true := h; rw [q1, hsd] at h; cases h
  · unfold enterActive
    dsimp only
    have hut : u.start.top = .census := by rw [q1]; exact ht
    have hstarted : started u.start.top = true := by rw [hut]; rfl
    have hs1 : SoundAt ⟨true, [], none, []⟩ { u with store := u.store } := by
      refine hs.storeUnit _ (List.Perm.refl _).subperm (.refl _) ?_
      rintro k (h | h | h)
      · exact .inl h
      · exact .inr (.inl h)
      · cases h
    have hj : Base ⟨true, [], none, []⟩ (joinLine { raise .censusDone none none none { u with
        start.cursor := segCount u, start.top := .active, start.reason := .none } with
        line.transmitter := true }) := by
      refine joinLine_base rfl rfl (g.station hstarted) ?_ g.tables ?_ rfl g.flight g.clashes g.rosterSize ?_
        hr.digests hr.outbox ?_ ?_
      · exact g.header.trans hstarted
      · exact g.receiver.trans (by rw [hut]; rfl)
      · exact offerEvent_ok _ _ hr.events
      · exact hs1.congr rfl (fun h => by cases h) rfl rfl hs1.repair rfl rfl hs1.serve rfl rfl rfl rfl
      · show u.start.storeWait = false; rw [q1]; exact hw
    have hjo := joinLine_storeOp (s := { raise .censusDone none none none { u with
        start.cursor := segCount u, start.top := .active, start.reason := .none } with line.transmitter := true })
      (by show u.store.op ≠ .idle; rw [q3]; exact hne)
    refine endOp_inv hj ?_ ?_
    · rw [hjo.2.1]
      intro h; have h : u.store.censusReq.isSome = true := h
      rw [q2, hreq] at h; cases h
    · rw [hjo.2.2]
      intro h; have h : u.start.strapsDue = true := h; rw [q1, hsd] at h; cases h

/-- The result of a slot read handed to its client keeps the invariant (R112, R158, R175). -/
theorem handRead_inv (cl : ReadClient) (i : Nat) (hop : s.store.op = .reading cl i) (hw : s.start.storeWait = false)
    (c : Inv s) : Inv (endOp (handRead cl i s)) := by
  obtain ⟨b, o⟩ := inv_iff.mp c
  have hne : s.store.op ≠ .idle := by simp [hop]
  have hstr : s.start.strapsDue = true → s.start.top = .starting ∧ s.start.storeWait = false :=
    fun h => ⟨(o.straps h).1, (o.straps h).2.1⟩
  have goOn : ∀ u, Inner s u → Inv (endOp u) := fun u h => by
    refine endOp_inv (base_inner h b) ?_ ?_
    · rw [(h.moves.storeOp.1 hne).2, h.start]; exact o.censusReq
    · rw [h.start]; exact hstr
  unfold handRead
  dsimp only
  split
  · exact goOn _ (serveReadEnd_inner i _ _)
  · unfold hostReadEnd
    dsimp only
    have key : ∀ u, Inner s u → ∀ rb k i p t, Inv (endOp (raise k i p t { u with host.readBuffer := rb })) := by
      intro u h rb k i p t
      have bu := base_inner h b
      have b1 : Base .now { u with host.readBuffer := rb } := base_congr bu rfl rfl rfl rfl rfl rfl rfl bu.events
        (bu.sound.congr rfl id rfl rfl bu.sound.repair rfl rfl bu.sound.serve rfl rfl rfl rfl)
      refine endOp_inv (base_inner (.event _ _ _ _ _) b1) ?_ ?_
      · show u.store.censusReq.isSome = true → u.start.top = .census
        rw [(h.moves.storeOp.1 hne).2, h.start]; exact o.censusReq
      · show u.start.strapsDue = true → u.start.top = .starting ∧ u.start.storeWait = false
        rw [h.start]; exact hstr
    split
    · exact key s (.refl s) _ _ _ _ _
    · exact key _ (signatureFailure_inner i) _ _ _ _ _
  · refine censusReadEnd_inv i _ hop ?_ hw c
    rcases (o.census i hop).1 with h | h
    · exact h
    · rw [hw] at h; cases h

/-- The end of a slot read keeps the invariant, for each of its readers (R144). -/
theorem slotRead_inv (l : List Byte) (c : Inv s) : Inv (slotRead l s) := by
  unfold slotRead
  split
  · rename_i cl i hop
    split
    · have c1 : Inv (fillTransfer l s) := inv_congr c rfl rfl rfl rfl rfl rfl rfl c.events rfl rfl rfl
      dsimp only
      split
      · rename_i hw; exact waiting_goesOn hw c1
      · rename_i hw; exact handRead_inv cl i hop (show s.start.storeWait = false by simpa using hw) c1
    · exact c
  · exact c

end Sys2Proof.Machine
end

