-- ==== Sys2Proof/Tests/Slice0.lean ====
section
/-! SUPPORT. The author's own tests: the ill-formed terms WellFormed refuses, the worked examples of the spec, and for
every obligation with hypotheses a witness: concrete states and operands that meet them, clause by clause. -/

namespace Sys2Proof.Tests

/- The theorems below are many and each is elaborated in a thread of its own, whose stacks together pass the memory
the check allows; so they are elaborated one after another. -/
set_option Elab.async false

open Sys2Proof Sys2Proof.Machine

/-! ### States used below -/

/-- A GOOD record. -/
def good (v : BitVec 16) (o : Byte) (x : Signature) : SegRec :=
  { unknownRec with state := .good, usable := true, stamp := ⟨v, o⟩, signature := x }

/-- Evidence of 6/5 with signature 1. -/
def ev65 (holders : StationSet) : Evidence := ⟨⟨6, 5⟩, 1, holders, true⟩

/-- A STALE record at 5/2 with evidence 6/5 held by station 5. -/
def stale : SegRec := { good 5 2 7 with state := .stale, evidence := some (ev65 0x20) }

/-- A DISPUTED record at 5/2. -/
def doubted : SegRec := { good 5 2 7 with state := .disputed, mark := true }

/-- Station 3 in ACTIVE, the line idle: 64 GOOD records at 5/2, B 100 ms, P 20 ms, peers 2 and 5 PRESENT. -/
def on : State := { State.reset with
  start := {
    top := .active, reason := .none, station := 3, rate := .kbit500, strapsDue := false
    header := some ⟨0x21, 64, 10, 20⟩, cursor := 64, storeWait := false }
  line := { receiver := true, transmitter := true, engine := .idle, clashes := 0, outbox := [] }
  roster := {
    entries :=
      (((List.replicate 15 ⟨false, none⟩).set 2 ⟨true, none⟩).set 1 ⟨true, some 400⟩).set 4 ⟨true, some 400⟩
    beacon := some 100, pointer := 0, banks := [⟨none, none⟩] }
  segs := { recs := List.replicate 64 (good 5 2 0x11), digests := [0] } }

/-- The same with a start bit taken. -/
def hearing : State := { on with line.engine := .receiving }

/-- The record of segment `i` replaced. -/
def withRec (i : Nat) (r : SegRec) (s : State) : State := { s with segs.recs := s.segs.recs.set i r }

/-- The outbox replaced. -/
def withBox (box : List Desc) (s : State) : State := { s with line.outbox := box }

/-- The repair queue replaced, with its active job asking. -/
def withJobs (q : List Entry) (s : State) : State :=
  { s with repair := { s.repair with queue := q, cond := some .asking, patience := some 20 } }

/-- The operation in progress replaced. -/
def withOp (op : StoreOp) (s : State) : State := { s with store.op := op }

/-- The dispute table replaced. -/
def withDisputes (ds : List Dispute) (s : State) : State := { s with disputes := ds }

/-- The top state replaced. -/
def withTop (top : TopState) (s : State) : State := { s with start.top := top }

/-- A state in CENSUS. -/
def census (s : State) : State := { s with
  start := { s.start with top := .census, cursor := 1 }
  line.transmitter := false
  roster := { s.roster with beacon := none, entries := s.roster.entries.set 2 ⟨false, none⟩ } }

/-- A waiting descriptor. -/
def waiting (id : FrameId) : Desc := ⟨id, none, false, false⟩

/-- `n` waiting DATA descriptors. -/
def chunks (n : Nat) : List Desc := (List.range n).map fun k => waiting (.data 5 k 0)

/-- The active job for a segment, in slot A. -/
def job (i : Nat) (level : Level) (src : Option Station) : Entry :=
  { freshEntry i level with state := .active, slot := some .a, source := src }

/-- A command is carried out in a state. -/
def Runs (c : Instr) (s : State) : Prop := ∃ t, exec c s = .next t

/-- The state a command leaves. -/
def after (c : Instr) (s : State) : Option State :=
  match exec c s with
  | .next t => some t
  | _ => none

/-- The answer a host command leaves. -/
def answerTo (c : Instr) (s : State) : Option Answer := (after c s).bind (·.host.answer)

/-- The hypothesis `Hears` as one computation. -/
def hearsBool (s : State) (p q : Station) (b : Body) : Bool :=
  s.line.receiver && s.line.engine == .receiving && (⟨p, q, imageTag s, b⟩ : Frame).wellFormed &&
    bodyInRange (segCount s) b && p != s.start.station

theorem hears_of {s : State} {p q : Station} {b : Body} (h : hearsBool s p q b = true) : Hears s p q b := by
  simp only [hearsBool, Bool.and_eq_true, beq_iff_eq, bne_iff_ne, ne_eq] at h
  exact ⟨⟨h.1.1.1.1, h.1.1.1.2⟩, ⟨h.1.1.2, h.1.2⟩, h.2⟩

/-- A valid store header: tag 0x21, N 64, beacon byte 10, patience byte 20. -/
def headerBytes : List Byte :=
  let covered : List Byte := [0xC3, 0xA5, 0x5A, 0x3C, 1, 0x21, 0, 64, 10, 20]
  covered ++ bytes16 (checkOf covered)

/-- `n` event records. -/
def news (n : Nat) : List Event := List.replicate n ⟨.peerJoined, none, some 2, none⟩

/-- A NEWS of segment 1 in transmission. -/
def newsSent : Desc := ⟨.news 1, none, true, false⟩

/-- Its frame. -/
def newsFrame : Frame := ⟨3, 0, 0x21, .news 1 ⟨5, 2⟩ 0x11⟩

/-- A descriptor in transmission between two that wait, at clash count 1. -/
def sending (d : Desc) : State := { on with line := { on.line with
  engine := .sending newsFrame d.ident .attached, clashes := 1
  outbox := waiting (.news 2) :: d :: [waiting (.digest 0)] } }

/-- The same frame being finished after a DETACH or a RESTART, at clash count 1. -/
def finishing (flight : Flight) : State := { on with line := { on.line with
  engine := .sending newsFrame (.news 1) flight, clashes := 1 } }

/-- Chunk 2 of segment 1 for station 5 in transmission. -/
def dataSent : Desc := ⟨.data 5 1 2, none, true, false⟩

/-- The same with the head of the serve queue in SEND. -/
def serving (head : ServeEntry) (out : ChunkMask) : State := { sending dataSent with
  serve := {
    queue := [head], phase := .send, outstanding := out, buffer := some ⟨1, ⟨5, 2⟩, blankSegment⟩
    reading := false } }

/-- The same, renewed. -/
def newsRenewed : Desc := { newsSent with renewed := true }

/-- A line that is not idle. -/
def quiet : State := { on with line.engine := .quiet }

/-- A record at reset after two failures. -/
def heldRec : SegRec := { unknownRec with failures := 2, exhausted := true }

/-- DAMAGED records, and records at work or without a source. -/
def damaged9 : SegRec := { unknownRec with state := .damaged }
def damagedAt52 : SegRec := { damaged9 with stamp := ⟨5, 2⟩ }
def fetching9 : SegRec := { stale with state := .fetching }
def orphan9 : SegRec := { stale with state := .orphan, exhausted := true }

/-- Two entries that wait in CENSUS. -/
def censusQueue : State := { census hearing with repair.queue := [freshEntry 3 .news, freshEntry 4 .sweep] }

/-- Self alone on the line, segment 9 DAMAGED. -/
def alone : State := { withRec 9 damaged9 on with
  roster.entries := (List.replicate 15 ⟨false, none⟩).set 2 ⟨true, none⟩ }

/-- The pin list replaced. -/
def withPins (l : List Nat) (s : State) : State := { s with repair.pins := l }

/-- The read buffer replaced. -/
def withRead (b : ReadBuffer) (s : State) : State := { s with host.readBuffer := b }

/-- A publish in flight. -/
def locked : State := { on with host.locked := true }

/-- An open dispute of segment 9 among stations 2 and 3. -/
def vote9 : Dispute := ⟨9, ⟨5, 2⟩, [(2, 7), (3, 7)], 1, 300⟩

/-- It with other ballots, and in another round. -/
def vote9With (b : List (Station × Signature)) : Dispute := { vote9 with ballots := b }
def vote9In (k : Nat) : Dispute := { vote9 with round := k }

/-- Open disputes of other segments. -/
def other (i : Nat) : Dispute := ⟨i, ⟨1, 1⟩, [], 1, 1⟩

/-- An active job for segment 9 with source 2, after two attempts. -/
def job9 : Entry := { job 9 .news (some 2) with attempts := 2 }

/-- Its slot lacks chunk 7. -/
def slot9 : Slot := ⟨9, ⟨6, 5⟩, 1, 0x7F, blankSegment, none, none⟩

/-- A start bit taken while that job runs, stations 2 and 5 being holders. -/
def run (c : JobCond) : State :=
  { withRec 9 { stale with state := .fetching, evidence := some (ev65 0x24) } hearing with
    repair := { on.repair with
      queue := [freshEntry 8 .demand, job9, freshEntry 3 .sweep], slotA := some slot9
      cond := some c, patience := some 20 } }

/-- Sixteen SIGLIST entries that declare nothing. -/
def noneList : List SigEntry := List.replicate 16 ⟨nullStamp, .none, 0⟩

theorem noneList_others : ∀ (l : Nat) (e' : SigEntry),
    (noneList.set 15 ⟨⟨8, 5⟩, .holds, 7⟩)[l]? = some e' → l ≠ 15 → e'.standing ≠ .holds ∨ e'.stamp = nullStamp := by
  intro l e' h hl
  rw [List.getElem?_set_ne (Ne.symm hl), noneList, List.getElem?_replicate] at h
  split at h
  · cases h; decide
  · cases h

/-- Twelve DATA descriptors, the first in transmission. -/
def chunksSent : List Desc := { waiting (.data 5 0 0) with inTransmission := true } :: (chunks 12).tail

/-- A commit write of 6/5 for segment 9. -/
def commit9 : WriteOp := ⟨.commit, 9, ⟨6, 5⟩, some 1, some 20⟩

/-- A publish write of 7/3 for segment 9. -/
def publish9 : WriteOp := ⟨.publish, 9, ⟨7, 3⟩, some 1, some 20⟩

/-- The commit buffer of that write. -/
def buffer9 : CommitBuffer := ⟨9, ⟨6, 5⟩, 1, blankSegment, some 5⟩

/-- A record that is COMMITTING after one failure. -/
def committing (ev : Option Evidence) : SegRec :=
  { good 5 2 7 with state := .committing, pendingWrites := 1, evidence := ev, failures := 1 }

/-- A state in which segment 9 is being written: the commit buffer occupied, the staging buffer locked, 3 pinned. -/
def writing (op : StoreOp) : State := { withOp op (withRec 9 (committing (some (ev65 0x20))) on) with
  repair := { on.repair with commit := some buffer9, pins := [3] }
  host := { on.host with locked := true, staging := List.replicate 256 9 } }

/-- The same with a STATUS waiting. -/
def queued : State := { on with pending := [.status] }

theorem queued_rec (i : Nat) : getRec queued i = good 5 2 0x11 ∨ getRec queued i = unknownRec := by
  simp only [getRec, queued, on, List.getD_eq_getElem?_getD, List.getElem?_replicate]
  split <;> simp

/-- The invariant holds of it. -/
theorem queued_inv : Inv queued where
  events := ⟨by decide, by decide⟩
  digests := by
    refine ⟨by decide, fun b h => ?_⟩
    have : b = 0 := Nat.lt_one_iff.1 h
    subst this
    decide +kernel
  outbox := ⟨by decide, by decide, by decide⟩
  sound := {
    repair := (coldStart_inv (s := on)).sound.repair
    serve := (coldStart_inv (s := on)).sound.serve
    disputes := (coldStart_inv (s := on)).sound.disputes
    linked := {
      segment := fun i => {
        record := by rcases queued_rec i with h | h <;> rw [h] <;> constructor <;> decide
        writes := Nat.zero_le _
        repair := nofun
        dispute := nofun
        census := nofun }
      commit := .inl rfl } }
  governed := by
    constructor <;> first
      | decide
      | (intro h e; cases e)
      | simp [queued, on, State.reset, engineAtRest]

/-- Segment 9 in dispute, its vote open between two others. -/
def voting (ballots : List (Station × Signature)) : State :=
  withDisputes [other 1, vote9With ballots, other 4] (withRec 9 doubted hearing)

/-- The same while another job runs. -/
def votingBusy : State := withJobs [job 2 .news (some 5), freshEntry 3 .sweep] (voting [(2, 8), (3, 7)])

/-- A serve entry. -/
def serveOne (i : Nat) : ServeEntry := ⟨2, i, ⟨5, 2⟩, 3⟩

/-- It for an older stamp. -/
def serveOld : ServeEntry := { serveOne 2 with stamp := ⟨4, 2⟩ }

/-- A serve queue whose head is in READ. -/
def reading (q : List ServeEntry) (s : State) : State :=
  { s with serve := { queue := q, phase := .read, outstanding := 0, buffer := none, reading := true } }

/-- A slot that checks. -/
def slotBytes (byte : Byte) (t : Stamp) : List Byte :=
  slotImage (List.replicate 256 byte) t (signatureOf t (List.replicate 256 byte))

/-- The job for segment 9 with station 2 as the only holder. -/
def runAlone : State :=
  withRec 9 { stale with state := .fetching, evidence := some (ev65 4) } (run .asking)

/-- The 32 bytes of a chunk. -/
def chunkBytes : List Byte := List.replicate 32 0xAB

/-- The job for segment 9 set aside while another runs. -/
def runAside : State := withJobs [{ job9 with state := .suspended }, job 4 .news (some 5)] (run .asking)

/-- The slot with two chunks to come. -/
def slot9b : Slot := { slot9 with mask := 0x3F }

/-- The job for segment 9 in BACKOFF with that slot. -/
def runBackoff : State := { run .backoff with repair.slotA := some slot9b }

/-- The slot whose signature the last chunk fulfils. -/
def slot9c : Slot := { slot9 with signature := signatureOf ⟨6, 5⟩ (List.replicate 224 0 ++ chunkBytes) }

/-- The job for segment 9 alone, with that slot. -/
def runLast : State :=
  { run .asking with repair := { (run .asking).repair with queue := [job9], slotA := some slot9c } }

/-- The job for segment 9 alone, at its last attempt. -/
def job9d : Entry := { job9 with attempts := 3 }

/-- The same as a state. -/
def runOut : State := { run .asking with repair.queue := [job9d] }

/-- That job with an open dispute of segment 1. -/
def runVote : State := withDisputes [⟨1, ⟨5, 2⟩, [(2, 7), (3, 8)], 1, 300⟩] (run .asking)

/-- A bank entry whose holdoff runs. -/
def holding : State := { hearing with roster.banks := [⟨some 200, some 5⟩] }

/-- Segment 9 in dispute in round `k`, beside three others. -/
def inRound (k : Nat) : State :=
  withDisputes [other 1, vote9In k, other 4, other 5] (withRec 9 doubted on)

/-- A station in DETACHED. -/
def detached : State := { withTop .detached on with
  line := { on.line with receiver := false, transmitter := false, engine := .quiet, clashes := 3 }
  roster := { State.reset.roster with banks := on.roster.banks } }

/-- Station 3 in the STARTING state, past its straps. -/
def starting (op : StoreOp) : State := { withOp op State.reset with
  start := { State.reset.start with station := 3, strapsDue := false } }

/-- A station halted for its number. -/
def halted : State := { State.reset with
  start := { State.reset.start with top := .halted, reason := .badStation, strapsDue := false } }

/-- A station without a number after a RESTART, before it halts again. -/
def restarted : State := restartSequence (sampleStraps 0 0 State.reset)

theorem restarted_inv : Inv restarted :=
  restart_inv (by decide) (sampleStraps_inv 0 0 (coldStart_inv (s := State.reset)))

/-- A DEMAND job. -/
def demandJob : Entry := job 30 .demand (some 5)

/-- Segment 9 as a publish finds it: in dispute at 5/2, with evidence 65535/5 (which 5/2 is newer than). -/
def publishing : State :=
  withDisputes [vote9] (withRec 9 { doubted with evidence := some ⟨⟨65535, 5⟩, 1, 0x20, true⟩ } on)

/-- A slot whose signature fails. -/
def tornBytes : List Byte := slotImage blankSegment ⟨5, 2⟩ 0

/-- The census at slot `i`. -/
def counting (i : Nat) : State := { withOp (.reading .census i) (withRec i unknownRec (census on)) with
  roster := { (census on).roster with banks := [⟨some 3, some 9⟩] } }

/-- Segment 9 being written, without evidence. -/
def failing (op : StoreOp) : State := withRec 9 (committing none) (writing op)

/-- A transfer through the line, the store and the buffers under way. -/
def busyState : State := { writing (.polling commit9) with
  line := (sending newsSent).line
  pending := [.status] }

/-- A SWEEP job for segment 8 in slot A, a start bit taken. -/
def sweeping : State := { withJobs [job 8 .sweep (some 2)] hearing with
  repair := { (withJobs [job 8 .sweep (some 2)] hearing).repair with slotA := some { slot9 with segment := 8 } } }

/-- A NEWS job for segment 2 that runs before a SWEEP entry. -/
def behind (s : State) : State := withJobs [job 2 .news (some 5), freshEntry 3 .sweep] s

/-- Segment 9 in dispute, with another open dispute. -/
def disputed9 : State := withDisputes [other 1, vote9] (withRec 9 doubted hearing)

/-- The job for segment 9 suspended. -/
def aside9 : Entry := { job9 with state := .suspended }

/-- A head in SEND with two chunks outstanding, for a copy at `t`. -/
def pacing (t : Stamp) : State := { hearing with serve := {
  queue := [{ serveOne 2 with stamp := t }, serveOne 1], phase := .send, outstanding := 3, buffer := none
  reading := false } }

/-- A head in READ for all chunks but three, with its serve read in progress. -/
def readHead (mask : ChunkMask) (rest : List ServeEntry) : State :=
  withOp (.reading .serve 9) (reading (⟨5, 9, ⟨5, 2⟩, mask⟩ :: rest) on)

/-- A serve read left over from before a DETACH. -/
def leftOver (queue : List ServeEntry) : State := { withOp (.reading .serve 9) on with
  serve := { queue := queue, phase := .waiting, outstanding := 0, buffer := none, reading := true } }

/-- The job for segment 9 alone, its commit buffer occupied. -/
def runReady : State := { runLast with repair := { runLast.repair with commit := some buffer9 } }

/-- The job for segment 9 alone, its last chunk not fulfilling the signature. -/
def runTorn : State := { runLast with repair := { runLast.repair with slotA := some slot9 } }

/-- That job's state with a serve queue. -/
def runServe (queue : List ServeEntry) (phase : HeadPhase) (busy : Bool) : State := { runVote with
  serve := { queue := queue, phase := phase, outstanding := 0, buffer := none, reading := busy } }

/-- A serve entry of station 5. -/
def serveFive : ServeEntry := { serveOne 1 with requester := 5 }

/-- A SWEEP job for segment 8 set aside in slot B. -/
def aside8 : Entry := { freshEntry 8 .sweep with
  state := .suspended, slot := some .b, source := some 5, tried := 4, attempts := 1 }

/-- Its slot, half full. -/
def slot8 : Slot := { slot9 with segment := 8, mask := 0x0F }

/-- The job for segment 9 at its last attempt before that one. -/
def resuming : State := { withRec 8 fetching9 runOut with
  repair := { runOut.repair with queue := [job9d, aside8], slotB := some slot8, stack := [8] } }

/-- A NEWS job for segment 2 that runs in slot A, and that one set aside, segment 9 ORPHAN. -/
def twoJobs : State := { withRec 9 orphan9 on with
  repair := { on.repair with
    queue := [job 2 .news (some 5), aside8], stack := [8], slotA := some { slot9 with segment := 2 }
    slotB := some slot8, cond := some .asking, patience := some 20 } }

/-- Evidence of 6/5 heard for segment 62 in CENSUS, and entries that wait. -/
def heardOf : State := { withRec 62 { unknownRec with evidence := some (ev65 0x20) } (counting 62) with
  repair.queue := [freshEntry 3 .news, freshEntry 4 .sweep] }

/-- The last census read with a STALE segment waiting. -/
def lastRead : State := { withRec 8 stale (counting 63) with repair.queue := [freshEntry 8 .news] }

/-- A commit write of segment 9 while a verified job for segment 8 waits in READY. -/
def readyBehind : State := { withRec 8 fetching9 (writing (.verifying commit9)) with
  repair := { (writing (.verifying commit9)).repair with
    queue := [{ job 8 .news (some 5) with verified := true }], slotA := some slot8, cond := some .ready } }

/-- R61: a stamp not held yet. -/
theorem outdoes_of {r : SegRec} {t : Stamp} (h : (if r.usable then newer t r.stamp else !newer r.stamp t) = true) :
    OutdoesCopy r t := by
  unfold OutdoesCopy
  split at h <;> simp_all

/-- R110: a record that can be served. -/
theorem servable_of {r : SegRec} {t : Stamp}
    (h : t ≠ nullStamp ∧ r.stamp = t ∧ r.usable = true ∧ r.state ≠ .unknown ∧ r.state ≠ .disputed ∧
      r.state ≠ .damaged) : Servable r t := h

theorem lowest_of {s : State} {h t : StationSet} {l : Option Station} {q : Station}
    (h1 : q ≠ 0 ∧ hasStation h q = true ∧ hasStation t q = false ∧ isPresent s q = true ∧
      q ≠ s.start.station ∧ l ≠ some q)
    (h2 : ∀ q' : Station, q'.toNat < q.toNat →
      hasStation h q' = false ∨ hasStation t q' = true ∨ isPresent s q' = false ∨ q' = s.start.station ∨
        l = some q') : LowestSource s h t l q := ⟨h1, h2⟩

theorem runAlone_noSource : ∀ q, ¬ LowestSource (heard 2 runAlone) 4 job9.tried (some 2) q := by
  intro q k
  have := k.qualifies
  revert this
  clear k
  revert q
  decide +kernel

theorem few_votes : ∀ b ∈ setBallot 5 8 [((3 : Station), (7 : Signature))],
    ((setBallot 5 8 [(3, 7)]).filter (fun b' => b'.2 = b.2)).length < quorum (heard 5 (voting [(3, 7)])) / 2 + 1 := by
  have : setBallot 5 8 [((3 : Station), (7 : Signature))] = [(3, 7), (5, 8)] := by decide
  rw [this]
  simp only [List.forall_mem_cons]
  exact ⟨by decide, by decide, by simp⟩

theorem own_votes : ∀ b ∈ setBallot 5 7 [((3 : Station), (7 : Signature))], b.2 ≠ 7 →
    ((setBallot 5 7 [(3, 7)]).filter (fun b' => b'.2 = b.2)).length < quorum (heard 5 (voting [(3, 7)])) / 2 + 1 := by
  have : setBallot 5 7 [((3 : Station), (7 : Signature))] = [(3, 7), (5, 7)] := by decide
  rw [this]
  simp

theorem other_votes : ∀ b ∈ setBallot 5 8 [((2 : Station), (8 : Signature)), (3, 7)], b.2 ≠ 8 →
    ((setBallot 5 8 [(2, 8), (3, 7)]).filter (fun b' => b'.2 = b.2)).length < quorum (heard 5 votingBusy) / 2 + 1 := by
  have : setBallot 5 8 [((2 : Station), (8 : Signature)), (3, 7)] = [(2, 8), (3, 7), (5, 8)] := by decide
  rw [this]
  simp only [List.forall_mem_cons]
  exact ⟨by simp, fun _ => by decide, by simp, by simp⟩

/-- What the loss of station `p` makes of the roster and the disputes of that job's state. -/
def silenced (p : Station) : State := { runVote with
  roster.entries := runVote.roster.entries.set (p.toNat - 1) ⟨false, none⟩ }

theorem after_loss2 : ∀ d ∈ [(⟨1, ⟨5, 2⟩, [(3, 8)], 1, 300⟩ : Dispute)], ∀ b ∈ d.ballots,
    (d.ballots.filter (fun b' => b'.2 = b.2)).length < quorum (silenced 2) / 2 + 1 := by
  simp only [List.forall_mem_singleton]
  decide

theorem after_loss5 : ∀ d ∈ [(⟨1, ⟨5, 2⟩, [(2, 7), (3, 8)], 1, 300⟩ : Dispute)], ∀ b ∈ d.ballots,
    (d.ballots.filter (fun b' => b'.2 = b.2)).length < quorum (silenced 5) / 2 + 1 := by
  simp only [List.forall_mem_cons]
  exact ⟨⟨by decide, by decide, by simp⟩, by simp⟩

theorem other_stamp : ∀ n slot, getSlot (run .asking) n = some slot →
    slot.segment ≠ (9 : SegNum).toNat ∨ slot.stamp ≠ ⟨7, 5⟩ := by
  intro n slot e
  cases n <;> cases e
  decide

theorem one_slot {s : State} (hb : s.repair.slotB = none) (hc : s.repair.slotC = none) :
    ∀ n' slot', n' ≠ SlotName.a → getSlot s n' = some slot' → slot'.segment ≠ (9 : SegNum).toNat := by
  intro n slot k e
  cases n
  · exact absurd rfl k
  · exact absurd (hb.symm.trans e) (by simp)
  · exact absurd (hc.symm.trans e) (by simp)

theorem old_copy : ∃ t x y, classSlot (slotBytes 7 ⟨4, 2⟩) = .written t x y ∧ t ≠ (⟨5, 2⟩ : Stamp) :=
  ⟨⟨4, 2⟩, signatureOf ⟨4, 2⟩ (List.replicate 256 7), signatureOf ⟨4, 2⟩ (List.replicate 256 7), by decide +kernel,
    by decide⟩

/-- Segment 8 waits in the queue, and no other is to be fetched. -/
theorem lastRead_rest : ∀ j, j < segCount lastRead → j ≠ 63 → waitsForEntry lastRead j = false ∧
    (backfillable (getRec lastRead j) = false ∨ ∃ e ∈ lastRead.repair.queue, e.segment = j) := by
  decide +kernel

/-- In a census with an empty queue there is nothing to do. -/
theorem counting_rest : ∀ j, j < segCount (counting 63) → j ≠ 63 → waitsForEntry (counting 63) j = false ∧
    (backfillable (getRec (counting 63) j) = false ∨ ∃ e ∈ (counting 63).repair.queue, e.segment = j) := by
  decide +kernel

theorem detached_noneWaiting : NoneWaiting detached := by
  unfold NoneWaiting
  decide +kernel

/-! ### Witnesses

Each theorem applies its obligation to concrete states and operands, clause by clause: the proof gives every hypothesis
of the obligation its own proof, almost all by `decide`, and uses the obligation for nothing but the conclusion. -/

theorem witness_StepRunsFrontCommand (h : Obligations.StepRunsFrontCommand) :
    step State.reset = .next State.reset ∧
    step restarted = .next (halt .badStation restarted) :=
  ⟨(h.2 State.reset rfl).2 (by decide), (h.2 restarted rfl).1 (by decide)⟩

theorem witness_EveryStepKeepsInvariant (h : Obligations.EveryStepKeepsInvariant) :
    Inv queued ∧ ∃ t, step queued = .next t ∧ Inv t :=
  ⟨queued_inv, _, rfl, h _ _ queued_inv rfl⟩

theorem witness_DigestsFollowRecords (h : Obligations.DigestsFollowRecords) :
    DigestsOk on.segs ∧ ∃ t, exec (.pin 63) on = .next t ∧ DigestsOk t.segs :=
  ⟨queued_inv.digests, _, rfl, h (.pin 63) on _ queued_inv.digests rfl⟩

/-- A command that brings no change; the end of a readback of segment 9, for segment 8; the end of a host read, and of a
census read for another segment. -/
theorem witness_LocalCopyChanges (h : Obligations.LocalCopyChanges) :
    (∃ t, exec .cleanEnd on = .next t ∧ (getRec t 63).stamp = (getRec on 63).stamp) ∧
    (∃ t, exec (.readbackEnd []) (writing (.verifying commit9)) = .next t ∧
      (getRec t 8).stamp = (getRec (writing (.verifying commit9)) 8).stamp) ∧
    (∃ t, exec (.slotReadEnd []) (withOp (.reading .host 9) on) = .next t ∧
      (getRec t 9).stamp = (getRec on 9).stamp) ∧
    ∃ t, exec (.slotReadEnd []) (withOp (.reading .census 9) on) = .next t ∧
      (getRec t 8).stamp = (getRec on 8).stamp :=
  ⟨⟨_, rfl, ((h.1 .cleanEnd on _ rfl trivial).2 63).1⟩,
    ⟨_, rfl, (h.2.1 [] (writing (.verifying commit9)) _ commit9 rfl rfl (by intro _ b e; cases e; rfl) 8 (by decide)).1⟩,
    ⟨_, rfl, (h.2.2 [] (withOp (.reading .host 9) on) _ .host 9 rfl rfl 9 (.inr (by decide))).1⟩,
    ⟨_, rfl, (h.2.2 [] (withOp (.reading .census 9) on) _ .census 9 rfl rfl 8 (.inl (by decide))).1⟩⟩

theorem witness_TopStateMovesByTable (h : Obligations.TopStateMovesByTable) :
    Inv queued ∧ ∃ t, exec .detach queued = .next t ∧
      ((t.start.top = queued.start.top ∧ t.start.reason = queued.start.reason) ∨
        (queued.start.top, t.start.top, t.start.reason) ∈ topMoves .detach) ∧
    ∃ u, step restarted = .next u ∧ ((u.start.top = .starting ∧ u.start.reason = .none) ∨
      (TopState.starting = .starting ∧ u.start.top = .halted ∧ u.start.reason = .badStation)) :=
  ⟨queued_inv, _, rfl, h.1 .detach queued _ queued_inv rfl, _, rfl, h.2 restarted _ restarted_inv rfl rfl⟩

/-- An EVENTS while a commit write goes on, a segment is pinned and data are staged. -/
theorem witness_BuffersAndPinsKept (h : Obligations.BuffersAndPinsKept) :
    ∃ t, exec (.events 4) (writing (.polling commit9)) = .next t ∧ t.repair.pins = [3] ∧
      t.repair.commit = some buffer9 ∧ t.host.staging = List.replicate 256 9 ∧ t.host.readBuffer = .empty :=
  have k := h (.events 4) (writing (.polling commit9)) _ rfl rfl nofun nofun
  ⟨_, rfl, k.1 nofun nofun, k.2.1 buffer9 rfl nofun nofun nofun, k.2.2.1 nofun, k.2.2.2 nofun nofun nofun⟩

/-- Pairs with d = 3, 32767, 32769, 0 and 32768. -/
theorem witness_StampOrder (h : Obligations.StampOrder) :
    newer ⟨1, 1⟩ nullStamp = true ∧ newer ⟨2, 3⟩ ⟨65535, 3⟩ = true ∧ newer ⟨32768, 3⟩ ⟨1, 3⟩ = true ∧
    newer ⟨1, 3⟩ ⟨32770, 3⟩ = true ∧ (newer ⟨17, 4⟩ ⟨17, 9⟩ = true ↔ 9 < 4) ∧
    (newer ⟨40000, 2⟩ ⟨7232, 5⟩ = true ↔ 5 < 2) ∧ (newer ⟨40000, 5⟩ ⟨7232, 5⟩ = true ↔ 7232 < 40000) :=
  ⟨(h ⟨1, 1⟩ nullStamp (by decide)).2.1 (by decide),
    ((h ⟨2, 3⟩ ⟨65535, 3⟩ (by decide)).2.2 (by decide) (by decide)).1 (by decide),
    ((h ⟨32768, 3⟩ ⟨1, 3⟩ (by decide)).2.2 (by decide) (by decide)).1 (by decide),
    ((h ⟨32770, 3⟩ ⟨1, 3⟩ (by decide)).2.2 (by decide) (by decide)).2.1 (by decide),
    ((h ⟨17, 4⟩ ⟨17, 9⟩ (by decide)).2.2 (by decide) (by decide)).2.2.1 (by decide),
    ((h ⟨40000, 2⟩ ⟨7232, 5⟩ (by decide)).2.2 (by decide) (by decide)).2.2.1 (by decide),
    ((h ⟨40000, 5⟩ ⟨7232, 5⟩ (by decide)).2.2 (by decide) (by decide)).2.2.2 (by decide)⟩

theorem witness_SignatureByRegister (h : Obligations.SignatureByRegister) :
    ∃ l, signatureOf ⟨1, 1⟩ blankSegment = List.foldl signatureFeed 0xFFFFFFFF#32 l :=
  ⟨_, h.2.1 ⟨1, 1⟩ blankSegment (by decide) (by decide +kernel)⟩

/-- An UNKNOWN record and another. -/
theorem witness_SettleTakesFirstLine (h : Obligations.SettleTakesFirstLine) :
    settledState false unknownRec = .unknown ∧ settledState true stale = .fetching :=
  ⟨(h false unknownRec).1 (by decide), ((h true stale).2 (by decide)).1.2 rfl⟩

/-- The last record of bank 0 loses its copy; it stays as it is. -/
theorem witness_RecordChangeUpdatesDigest (h : Obligations.RecordChangeUpdatesDigest) :
    (putRec 63 unknownRec on).roster.banks[1]? = on.roster.banks[1]? ∧
    (putRec 63 (good 5 2 0x11) on).roster.banks[0]? = on.roster.banks[0]? ∧
    ∃ e, (putRec 63 unknownRec on).roster.banks[0]? = some e :=
  ⟨(h on 63 unknownRec (by decide) (by decide)).2.2.2.1 1 (by decide),
    (h on 63 (good 5 2 0x11) (by decide) (by decide)).2.2.2.2.1 (by decide +kernel),
    _, (h on 63 unknownRec (by decide) (by decide)).2.2.2.2.2 ⟨none, none⟩ (by decide) (by decide)⟩

/-- A run of 5, and one of 6 that meets its own value. -/
theorem witness_CheckAndFillers (h : Obligations.CheckAndFillers) :
    (∃ l, addFillers true 5 [true] = true :: l) ∧ ∃ l, addFillers true 6 [true] = false :: l :=
  ⟨⟨_, (h.2.2.1 true true 5 []).2.1 (by decide)⟩, _, (h.2.2.1 true true 5 []).2.2⟩

/-- A NEWS for the last of 64 segments. -/
theorem witness_FrameRoundTrip (h : Obligations.FrameRoundTrip) :
    receiveLine 0x21 64 (lineBits ⟨3, 0, 0x21, .news 63 ⟨17, 4⟩ 0x12345678⟩ ++ []) =
      .ok ⟨3, 0, 0x21, .news 63 ⟨17, 4⟩ 0x12345678⟩ :=
  h ⟨3, 0, 0x21, .news 63 ⟨17, 4⟩ 0x12345678⟩ 64 [] (by decide) (by decide)

theorem witness_ArbitrationLowestWins (h : Obligations.ArbitrationLowestWins) :
    arbitrateByte0 [0x79, 0x44, 0x42] ≠ [] :=
  (h [0x79, 0x44, 0x42] (by decide)).2

theorem witness_HeaderByTable (h : Obligations.HeaderByTable) : judgeHeader headerBytes = .ok ⟨0x21, 64, 10, 20⟩ :=
  ((h headerBytes (by decide)).1 ⟨0x21, 64, 10, 20⟩).2 ⟨fun f _ => by cases f <;> dsimp only <;> decide +kernel,
    by decide +kernel⟩

/-- A vacant trailer, a written one, and one with an origin of 16. -/
theorem witness_SlotByTrailer (h : Obligations.SlotByTrailer) :
    classSlot (blankSegment ++ [0xFF, 0xFF, 0xFF, 0xFF, 0xFF, 0xFF, 0xFF, 0xFF]) = .vacant ∧
    classSlot (blankSegment ++ [0, 17, 4, 0x5A, 1, 2, 3, 4]) =
      .written ⟨17, 4⟩ 0x01020304 (signatureOf ⟨17, 4⟩ blankSegment) ∧
    classSlot (blankSegment ++ [0, 17, 16, 0x5A, 1, 2, 3, 4]) = .damaged :=
  ⟨(h blankSegment 0xFF 0xFF 0xFF 0xFF 0xFF 0xFF 0xFF 0xFF (by decide +kernel)).1 (by decide),
    (h blankSegment 0 17 4 0x5A 1 2 3 4 (by decide +kernel)).2.1 (by decide) (by decide),
    (h blankSegment 0 17 16 0x5A 1 2 3 4 (by decide +kernel)).2.2 (by decide) (by decide)⟩

/-- An offer outside ACTIVE; one of a descriptor in transmission; one more for eleven. -/
theorem witness_OfferMergesOrJoins (h : Obligations.OfferMergesOrJoins) :
    (offerRaw (.news 1) none (withTop .detached on)).1 = withTop .detached on ∧
    (∃ box, offerBox (.ballot 1) (some ⟨5, 2⟩)
      ([waiting (.news 1)] ++ ⟨.ballot 1, some ⟨4, 2⟩, true, false⟩ :: [waiting (.digest 0)]) = (box, none)) ∧
    ∃ box, offerBox (.news 1) none (chunks 11) = (box, none) :=
  ⟨h.1 (.news 1) none (withTop .detached on) (by decide),
    ⟨_, h.2.1 (.ballot 1) (some ⟨5, 2⟩) [waiting (.news 1)] [waiting (.digest 0)] ⟨.ballot 1, some ⟨4, 2⟩, true, false⟩
      (by decide) (by decide)⟩,
    _, h.2.2 (.news 1) none (chunks 11) (by decide +kernel) (by decide) (by decide)⟩

/-- A full outbox of DATA descriptors, the first in transmission: an offer of the greatest code, and one below it. -/
theorem witness_FullOutboxGivesWay (h : Obligations.FullOutboxGivesWay) :
    (∃ g, ∃ d ∈ chunksSent, d.inTransmission = false ∧ codeOf d.ident = g) ∧
    ∃ g, ∃ d ∈ chunksSent, d.inTransmission = false ∧ codeOf d.ident = g :=
  ⟨(h (.data 5 12 0) none chunksSent ⟨by decide, by decide, by decide +kernel⟩ (by decide) (by decide)
      (by decide)).imp fun _ p => p.1,
    (h (.news 1) none chunksSent ⟨by decide, by decide, by decide +kernel⟩ (by decide) (by decide)
      (by decide)).imp fun _ p => p.1⟩

/-- A queue that has lost records, one with a place, one with 15; EVENTS(4) of one record, EVENTS(1) of two. -/
theorem witness_EventQueueFillsAndEmpties (h : Obligations.EventQueueFillsAndEmpties) :
    offerEvent lostEvent [lostEvent] = [lostEvent] ∧ offerEvent lostEvent (news 14) = news 14 ++ [lostEvent] ∧
    offerEvent lostEvent (news 15) = news 15 ++ [lostEvent] ∧
    (∃ t, exec (.events 4) { on with host.events := news 1 } = .next t) ∧
    ∃ t, exec (.events 1) { on with host.events := news 2 } = .next t :=
  ⟨(h.1 lostEvent [lostEvent]).1 (by decide),
    ((h.1 lostEvent (news 14)).2.1 (by decide)).1 (by decide),
    ((h.1 lostEvent (news 15)).2.1 (by decide)).2 (by decide),
    ⟨_, h.2 { on with host.events := news 1 } 4 (news 1) [] (by decide) (by decide) (by decide) (by decide) (by decide)⟩,
    _, h.2 { on with host.events := news 2 } 1 (news 1) (news 1) (by decide) (by decide) (by decide) (by decide)
      (by decide)⟩

/-- Segment 9 without a dispute, with one; without a slot, with one; a DATA of no entry, and one of the serve buffer. -/
theorem witness_BodiesOfTheMoment (h : Obligations.BodiesOfTheMoment) :
    assemble (.poll 9) none on = none ∧
    assemble (.poll 9) none (withDisputes [vote9] on) = some (.poll 9 ⟨5, 2⟩ 0x11) ∧
    assemble (.request 5 9) none on = none ∧
    assemble (.request 2 9) none (run .asking) = some (.request 9 ⟨6, 5⟩ 0x80) ∧
    assemble (.data 5 9 0) none on = none ∧
    assemble (.data 5 1 2) none (serving ⟨5, 1, ⟨5, 2⟩, 0xFC⟩ 0xC) =
      some (.data 1 ⟨5, 2⟩ 2 ((blankSegment.drop 64).take 32)) :=
  ⟨(h on 9 0 5 0 0 nullStamp none).2.1 (by decide),
    (h (withDisputes [vote9] on) 9 0 5 0 0 nullStamp none).2.2.1 vote9 (by decide),
    (h on 9 0 5 0 0 nullStamp none).2.2.2.2.1 (by decide),
    ((h (run .asking) 9 0 2 0 0 nullStamp none).2.2.2.2.2.1 job9 slot9 (by decide +kernel) (by decide +kernel)).trans
      (by decide),
    (h on 9 0 5 0 0 nullStamp none).2.2.2.2.2.2.2.2.1 (by decide),
    ((h (serving ⟨5, 1, ⟨5, 2⟩, 0xFC⟩ 0xC) 1 0 5 2 0 nullStamp none).2.2.2.2.2.2.2.2.2.1 ⟨5, 1, ⟨5, 2⟩, 0xFC⟩
      ⟨1, ⟨5, 2⟩, blankSegment⟩ (by decide) (by decide +kernel)).trans (by decide +kernel)⟩

/-- DETACH; a clash of self's NEWS and a frame with self's number, both at clash count 2. -/
theorem witness_DetachRunsWhole (h : Obligations.DetachRunsWhole) :
    (∃ t, exec .detach on = .next t) ∧
    (∃ t, exec .clash { sending newsSent with line.clashes := 2 } = .next t) ∧
    ∃ t, exec .ownNumberFrame { hearing with line.clashes := 2 } = .next t :=
  ⟨(h on rfl).1.imp' (fun t => answered .done [] t) fun _ p => p.2,
    ((h { sending newsSent with line.clashes := 2 } rfl).2.1 newsFrame (.news 1) .attached rfl (by decide)
      (fun _ => rfl) rfl).imp fun _ p => p.2,
    ((h { hearing with line.clashes := 2 } rfl).2.2 rfl rfl rfl).imp fun _ p => p.2⟩

/-- A station that listens to nothing; a line not idle, an idle one, one in reception; a frame of self's beaten, and one
that is being finished. -/
theorem witness_LineTaken (h : Obligations.LineTaken) :
    Runs .startBit State.reset ∧
    Runs .transmissionStart State.reset ∧
    Runs .lineIdle quiet ∧
    Runs .startBit on ∧
    Runs .startBit hearing ∧
    Runs .arbitrationLoss (sending newsSent) ∧
    Runs .arbitrationLoss (finishing .afterDetach) :=
  ⟨⟨_, (h.1 State.reset rfl).2.1⟩,
    ⟨_, h.2.1 State.reset rfl⟩,
    ⟨_, (h.2.2.1 quiet rfl).1 rfl⟩,
    ⟨_, (h.2.2.1 on rfl).2.1 rfl⟩,
    ⟨_, (h.2.2.1 hearing rfl).2.2 (by decide)⟩,
    ⟨_, h.2.2.2.1 (sending newsSent) newsFrame [waiting (.news 2)] [waiting (.digest 0)] newsSent rfl rfl rfl
      (by decide)⟩,
    ⟨_, h.2.2.2.2 (finishing .afterDetach) newsFrame (.news 1) .afterDetach rfl (by decide)⟩⟩

/-- A POLL whose dispute is gone stands before a DIGEST; then alone. -/
theorem witness_TransmissionTakesHead (h : Obligations.TransmissionTakesHead) :
    Runs .transmissionStart (withBox [waiting (.poll 7), waiting (.digest 0), waiting (.digest 1)] on) ∧
    Runs .transmissionStart (withBox [waiting (.poll 7)] on) :=
  ⟨⟨_, (h (withBox [waiting (.poll 7), waiting (.digest 0), waiting (.digest 1)] on) rfl rfl).1 [waiting (.poll 7)]
        (waiting (.digest 0)) [waiting (.digest 1)] (.digest 0 0) rfl (by decide) rfl (by decide)⟩,
    ⟨_, (h (withBox [waiting (.poll 7)] on) rfl rfl).2 (by decide)⟩⟩

/-- A NEWS in transmission, renewed and not, at clash count 1; one being finished after a DETACH, in DETACHED and in
ACTIVE again; one after a RESTART. -/
theorem witness_FrameEndsForDescriptor (h : Obligations.FrameEndsForDescriptor) :
    Runs .clash (sending newsSent) ∧
    Runs .clash (sending newsRenewed) ∧
    Runs .cleanEnd (finishing .afterDetach) ∧
    Runs .clash (withTop .detached { finishing .afterDetach with line.clashes := 3 }) ∧
    Runs .clash (finishing .afterDetach) ∧
    Runs .clash (finishing .afterRestart) :=
  ⟨⟨_, (h.1 (sending newsSent) newsFrame [waiting (.news 2)] [waiting (.digest 0)] newsSent rfl rfl rfl (by decide)
        rfl).1 (by decide)⟩,
    ⟨_, (h.1 (sending newsRenewed) newsFrame [waiting (.news 2)] [waiting (.digest 0)] newsRenewed rfl rfl rfl
        (by decide) rfl).1 (by decide)⟩,
    ⟨_, ((h.2 (finishing .afterDetach) newsFrame (.news 1)).1 rfl).1⟩,
    ⟨_, ((h.2 (withTop .detached { finishing .afterDetach with line.clashes := 3 }) newsFrame (.news 1)).1 rfl).2
        (by decide)⟩,
    ⟨_, ((h.2 (finishing .afterDetach) newsFrame (.news 1)).1 rfl).2 (by decide)⟩,
    ⟨_, ((h.2 (finishing .afterRestart) newsFrame (.news 1)).2 rfl).2⟩⟩

/-- Chunk 2 of chunks 2 to 7 with chunk 3 outstanding; chunk 2 as the last. -/
theorem witness_DataEndServesNextChunk (h : Obligations.DataEndServesNextChunk) :
    Runs .clash (serving ⟨5, 1, ⟨5, 2⟩, 0xFC⟩ 0xC) ∧
    Runs .clash (serving ⟨5, 1, ⟨5, 2⟩, 4⟩ 4) :=
  ⟨⟨_, (((h (serving ⟨5, 1, ⟨5, 2⟩, 0xFC⟩ 0xC) newsFrame [waiting (.news 2)] [waiting (.digest 0)] dataSent
        ⟨5, 1, ⟨5, 2⟩, 0xFC⟩ 2 rfl (by decide) rfl rfl rfl rfl (by decide) rfl rfl rfl).1 4 [] rfl (by decide)
        (by decide)).2 (by decide))⟩,
    ⟨_, (((h (serving ⟨5, 1, ⟨5, 2⟩, 4⟩ 4) newsFrame [waiting (.news 2)] [waiting (.digest 0)] dataSent
        ⟨5, 1, ⟨5, 2⟩, 4⟩ 2 rfl (by decide) rfl rfl rfl rfl (by decide) rfl rfl rfl).2 rfl (by decide)).2
        (by decide))⟩⟩

/-- A NEWS for segment 64 of 64, a BUSY from sender 0; self's number in ACTIVE, in CENSUS, and on a NEWS. -/
theorem witness_BadAndOwnFramesGoNoFurther (h : Obligations.BadAndOwnFramesGoNoFurther) :
    Runs (Frame.command ⟨5, 0, 0, .news 64 ⟨5, 2⟩ 0⟩) hearing ∧
    Runs (Frame.command ⟨0, 3, 0, .busy 6⟩) hearing ∧
    Runs .ownNumberFrame hearing ∧
    Runs .ownNumberFrame (census hearing) ∧
    Runs (Frame.command ⟨3, 0, 33, .news 63 ⟨5, 2⟩ 0⟩) hearing :=
  ⟨⟨_, (h.1 hearing rfl rfl).2 ⟨5, 0, 0, .news 64 ⟨5, 2⟩ 0⟩ (by decide) (by decide)⟩,
    ⟨_, (h.1 hearing rfl rfl).2 ⟨0, 3, 0, .busy 6⟩ (by decide) (by decide)⟩,
    ⟨_, (h.2 hearing rfl rfl).1 rfl (by decide)⟩,
    ⟨_, (h.2 (census hearing) rfl rfl).2.1 rfl⟩,
    ⟨_, (h.2 hearing rfl rfl).2.2 ⟨3, 0, 0x21, .news 63 ⟨5, 2⟩ 0⟩ (by decide) (by decide) (by decide)⟩⟩

/-- A BUSY for station 5 from station 7; a DIGEST in CENSUS. -/
theorem witness_PresenceNotice (h : Obligations.PresenceNotice) :
    Runs (Frame.command ⟨7, 5, 0, .busy 6⟩) hearing ∧
    Runs (Frame.command ⟨5, 0, 0, .digest 0 6⟩) (census hearing) :=
  ⟨⟨_, h hearing ⟨7, 5, 0, .busy 6⟩ (hears_of (by decide)) (by decide)⟩,
    ⟨_, h (census hearing) ⟨5, 0, 0, .digest 0 6⟩ (hears_of (by decide)) (by decide)⟩⟩

/-- NEWS 6/5 for segment 63 at 5/2, with no job and with a SWEEP job. -/
theorem witness_NewsStartsFetch (h : Obligations.NewsStartsFetch) :
    Runs (.news 5 63 ⟨6, 5⟩ 153) hearing ∧
    Runs (.news 5 63 ⟨6, 5⟩ 153) sweeping :=
  ⟨⟨_, (h hearing 5 63 ⟨6, 5⟩ 0x99 (hears_of (by decide)) (by decide) ⟨rfl, by decide⟩ (by decide) (by decide)
        (by decide) (by decide) (by decide) (by decide) (by decide) (by decide)).1 rfl rfl⟩,
    ⟨_, (h sweeping 5 63 ⟨6, 5⟩ 0x99 (hears_of (by decide)) (by decide) ⟨rfl, by decide⟩ (by decide) (by decide)
        (by decide) (by decide) (by decide) (by decide) (by decide) (by decide)).2 (job 8 .sweep (some 2)) rfl rfl rfl
        (by decide) rfl rfl⟩⟩

/-- Reports that bring nothing new: the null stamp; an equal copy; an older stamp for a DAMAGED record; a holder already
known. -/
theorem witness_NewsByTable_ignored (h : Obligations.NewsByTable) :
    Runs (.news 5 9 nullStamp 153) hearing ∧
    Runs (.news 5 9 ⟨5, 2⟩ 17) hearing ∧
    Runs (.news 5 9 ⟨4, 2⟩ 17) (withRec 9 damagedAt52 hearing) ∧
    Runs (.news 5 9 ⟨6, 5⟩ 1) (withRec 9 stale hearing) :=
  ⟨⟨_, (h hearing 5 9 nullStamp 0x99 (hears_of (by decide))).1 rfl⟩,
    ⟨_, (h hearing 5 9 ⟨5, 2⟩ 0x11 (hears_of (by decide))).2.1 (by decide) (by decide) (by decide)⟩,
    ⟨_, (h (withRec 9 damagedAt52 hearing) 5 9 ⟨4, 2⟩ 0x11 (hears_of (by decide))).2.2.1 (by decide) (by decide)⟩,
    ⟨_, (h (withRec 9 stale hearing) 5 9 ⟨6, 5⟩ 1 (hears_of (by decide))).2.2.2.1 (ev65 0x20) (by decide) (by decide)
        (by decide) (by decide)⟩⟩

/-- Raised evidence of an UNKNOWN record held after two failures, of a COMMITTING one, of an ORPHAN and a DAMAGED one
that are pinned, of a GOOD one in CENSUS, an ORPHAN while a job runs, and a STALE one with an entry at SWEEP. -/
theorem witness_NewsByTable_raised (h : Obligations.NewsByTable) :
    Runs (.news 5 9 ⟨6, 5⟩ 1) (withRec 9 heldRec (census hearing)) ∧
    Runs (.news 5 9 ⟨7, 5⟩ 1) (withRec 9 (committing (some (ev65 0x20))) hearing) ∧
    Runs (.news 5 9 ⟨7, 5⟩ 1) (withPins [9] (withRec 9 orphan9 hearing)) ∧
    Runs (.news 5 9 ⟨7, 5⟩ 1) (withPins [9] (withRec 9 damaged9 hearing)) ∧
    Runs (.news 2 9 ⟨6, 5⟩ 1) censusQueue ∧
    Runs (.news 5 9 ⟨7, 5⟩ 1) (behind (withRec 9 orphan9 hearing)) ∧
    Runs (.news 5 9 ⟨7, 5⟩ 1) (withJobs [job 2 .news (some 5), freshEntry 9 .sweep] (withRec 9 stale hearing)) :=
  ⟨⟨_, ((h (withRec 9 heldRec (census hearing)) 5 9 ⟨6, 5⟩ 1 (hears_of (by decide))).2.2.2.2.1 (by decide)
        (outdoes_of (by decide)) (by decide)).1 (by decide)⟩,
    ⟨_, ((h (withRec 9 (committing (some (ev65 0x20))) hearing) 5 9 ⟨7, 5⟩ 1 (hears_of (by decide))).2.2.2.2.1
        (by decide) (outdoes_of (by decide)) (by intro ev h; cases h; decide)).1 (by decide)⟩,
    ⟨_, (((h (withPins [9] (withRec 9 orphan9 hearing)) 5 9 ⟨7, 5⟩ 1 (hears_of (by decide))).2.2.2.2.1 (by decide)
        (outdoes_of (by decide)) (by intro ev h; cases h; decide)).2.1 (by decide)).1 (by decide)⟩,
    ⟨_, (((h (withPins [9] (withRec 9 damaged9 hearing)) 5 9 ⟨7, 5⟩ 1 (hears_of (by decide))).2.2.2.2.1 (by decide)
        (outdoes_of (by decide)) (by decide)).2.1 (by decide)).1 (by decide)⟩,
    ⟨_, (((h censusQueue 2 9 ⟨6, 5⟩ 1 (hears_of (by decide))).2.2.2.2.1 (by decide) (outdoes_of (by decide))
        (by decide)).2.1 (by decide)).2.1 ⟨by decide, by decide, by decide, .inl rfl⟩ (by decide)⟩,
    ⟨_, (((h (behind (withRec 9 orphan9 hearing)) 5 9 ⟨7, 5⟩ 1 (hears_of (by decide))).2.2.2.2.1 (by decide)
        (outdoes_of (by decide)) (by intro ev h; cases h; decide)).2.1 (by decide)).2.1
        ⟨by decide, by decide, by decide, .inr ⟨rfl, job 2 .news (some 5), by decide, by decide, by decide⟩⟩
        (by decide)⟩,
    ⟨_, (((h (withJobs [job 2 .news (some 5), freshEntry 9 .sweep] (withRec 9 stale hearing)) 5 9 ⟨7, 5⟩ 1
        (hears_of (by decide))).2.2.2.2.1 (by decide) (outdoes_of (by decide))
        (by intro ev h; cases h; decide)).2.1 (by decide)).2.2 (freshEntry 9 .sweep)
        ⟨by decide, by decide, by decide, .inr ⟨rfl, job 2 .news (some 5), by decide, by decide, by decide⟩⟩
        (by decide) (by decide) (by decide) (by decide)⟩⟩

/-- Raised evidence of a DISPUTED record, pinned and while a job runs; of a FETCHING one, suspended and active. -/
theorem witness_NewsByTable_reset (h : Obligations.NewsByTable) :
    Runs (.news 5 9 ⟨6, 5⟩ 1) (withPins [9] disputed9) ∧
    Runs (.news 5 9 ⟨6, 5⟩ 1) (behind disputed9) ∧
    Runs (.news 5 9 ⟨7, 5⟩ 1) runAside ∧
    Runs (.news 5 9 ⟨7, 5⟩ 1) (run .backoff) :=
  ⟨⟨_, (((h (withPins [9] disputed9) 5 9 ⟨6, 5⟩ 1 (hears_of (by decide))).2.2.2.2.1 (by decide)
        (outdoes_of (by decide)) (by decide)).2.2.1 (by decide) (by decide +kernel)).1 (by decide)⟩,
    ⟨_, (((h (behind disputed9) 5 9 ⟨6, 5⟩ 1 (hears_of (by decide))).2.2.2.2.1 (by decide)
        (outdoes_of (by decide)) (by decide)).2.2.1 (by decide) (by decide +kernel)).2
        ⟨by decide, by decide, by decide, .inr ⟨rfl, job 2 .news (some 5), by decide, by decide, by decide⟩⟩
        (by decide)⟩,
    ⟨_, (((h runAside 5 9 ⟨7, 5⟩ 1 (hears_of (by decide))).2.2.2.2.1 (by decide)
        (outdoes_of (by decide)) (by intro ev h; cases h; decide)).2.2.2 (by decide) [] [job 4 .news (some 5)] aside9
        slot9 rfl rfl (by decide) (by decide) rfl rfl).1 (by decide)⟩,
    ⟨_, (((h (run .backoff) 5 9 ⟨7, 5⟩ 1 (hears_of (by decide))).2.2.2.2.1 (by decide)
        (outdoes_of (by decide)) (by intro ev h; cases h; decide)).2.2.2 (by decide) [freshEntry 8 .demand]
        [freshEntry 3 .sweep] job9 slot9 rfl rfl (by decide) (by decide) rfl rfl).2 (by decide) (by decide) rfl
        ⟨rfl, by decide⟩⟩⟩

/-- A new holder of a STALE record, of an ORPHAN one that is pinned and of one while a job runs, and of one whose publish
is in flight; another signature in CENSUS. -/
theorem witness_NewsByTable_holder (h : Obligations.NewsByTable) :
    Runs (.news 2 9 ⟨6, 5⟩ 1) (withRec 9 stale hearing) ∧
    Runs (.news 2 9 ⟨6, 5⟩ 1) (withPins [9] (withRec 9 orphan9 hearing)) ∧
    Runs (.news 2 9 ⟨6, 5⟩ 1) (behind (withRec 9 orphan9 hearing)) ∧
    Runs (.news 2 9 ⟨6, 5⟩ 1) (withOp (.polling publish9) (withRec 9 (committing (some (ev65 0x20))) hearing)) ∧
    Runs (.news 2 9 ⟨5, 2⟩ 1) (census hearing) :=
  ⟨⟨_, ((h (withRec 9 stale hearing) 2 9 ⟨6, 5⟩ 1 (hears_of (by decide))).2.2.2.2.2.1 (ev65 0x20) (by decide)
        (outdoes_of (by decide)) (by decide) (by decide) (by decide) (by decide)).1 (.inr (by decide))⟩,
    ⟨_, ((h (withPins [9] (withRec 9 orphan9 hearing)) 2 9 ⟨6, 5⟩ 1 (hears_of (by decide))).2.2.2.2.2.1 (ev65 0x20)
        (by decide) (outdoes_of (by decide)) (by decide) (by decide) (by decide) (by decide)).1 (.inl (by decide))⟩,
    ⟨_, ((h (behind (withRec 9 orphan9 hearing)) 2 9 ⟨6, 5⟩ 1 (hears_of (by decide))).2.2.2.2.2.1 (ev65 0x20)
        (by decide) (outdoes_of (by decide)) (by decide) (by decide) (by decide) (by decide)).2 (by decide)
        ⟨by decide, by decide, by decide, .inr ⟨rfl, job 2 .news (some 5), by decide, by decide, by decide⟩⟩
        (by decide)⟩,
    ⟨_, ((h (withOp (.polling publish9) (withRec 9 (committing (some (ev65 0x20))) hearing)) 2 9 ⟨6, 5⟩ 1
        (hears_of (by decide))).2.2.2.2.2.1 (ev65 0x20) (by decide) (outdoes_of (by decide)) (by decide) (by decide)
        (by decide) (by decide)).1 (.inr (by decide))⟩,
    ⟨_, (h (census hearing) 2 9 ⟨5, 2⟩ 1 (hears_of (by decide))).2.2.2.2.2.2 (by decide) (by decide) (by decide)
        (by decide) (by decide) (by decide)⟩⟩

/-- A list whose place 15 is DOUBT; one that HOLDS at place 15 alone, for an UNKNOWN record. -/
theorem witness_SiglistReportsHolds (h : Obligations.SiglistReportsHolds) :
    Runs (.siglist 5 0 1 (noneList.set 15 ⟨⟨8, 5⟩, .doubt, 7⟩)) hearing ∧
    Runs (.siglist 5 0 1 (noneList.set 15 ⟨⟨8, 5⟩, .holds, 7⟩)) (census (withRec 31 unknownRec hearing)) :=
  ⟨⟨_, (h hearing 5 0 1 ((noneList).set 15 ⟨⟨8, 5⟩, .doubt, 7⟩) (hears_of (by decide))).2.1 (by decide)⟩,
    ⟨_, (h (census (withRec 31 unknownRec hearing)) 5 0 1 (noneList.set 15 ⟨⟨8, 5⟩, .holds, 7⟩) (hears_of
        (by decide))).2.2 15 ⟨⟨8, 5⟩, .holds, 7⟩ (by decide) (by decide) (by decide) (by decide) noneList_others
        (by decide)⟩⟩

/-- A mismatch heard as NEWS, as BALLOT from a station below self, as POLL with a full table but for one place; with
a full table, by all three; a POLL that agrees and one in a dispute that waits; a POLL and a BALLOT of another stamp. -/
theorem witness_MismatchAndPoll (h : Obligations.MismatchAndPoll) :
    Runs (.news 5 9 ⟨5, 2⟩ 153) hearing ∧
    Runs (.ballot 2 9 ⟨5, 2⟩ 153) hearing ∧
    Runs (.poll 5 9 ⟨5, 2⟩ 153) (withBox (chunks 10) (withDisputes [other 1, other 2, other 3] hearing)) ∧
    Runs (.news 5 9 ⟨5, 2⟩ 153) (withDisputes [other 1, other 2, other 3, other 4] hearing) ∧
    Runs (.ballot 5 9 ⟨5, 2⟩ 153) (withDisputes [other 1, other 2, other 3, other 4] hearing) ∧
    Runs (.poll 5 9 ⟨5, 2⟩ 153) (withDisputes [other 1, other 2, other 3, other 4] hearing) ∧
    Runs (.poll 5 9 ⟨5, 2⟩ 17) hearing ∧
    Runs (.poll 5 9 ⟨5, 2⟩ 17) (withRec 9 doubted hearing) ∧
    Runs (.poll 5 9 ⟨6, 2⟩ 17) hearing ∧
    Runs (.ballot 5 9 ⟨5, 2⟩ 18) (withRec 9 doubted hearing) :=
  ⟨⟨_, ((h.1 hearing 5 9 0x99 rfl (by decide) (by decide) (by decide) (by decide) (by decide)).1 (by decide)
        (by decide) (by decide)).1 (hears_of (by decide))⟩,
    ⟨_, ((h.1 hearing 2 9 0x99 rfl (by decide) (by decide) (by decide) (by decide) (by decide)).1 (by decide)
        (by decide) (by decide)).2.1 (hears_of (by decide))⟩,
    ⟨_, ((h.1 (withBox (chunks 10) (withDisputes [other 1, other 2, other 3] hearing)) 5 9 0x99 rfl (by decide)
        (by decide) (by decide) (by decide) (by decide)).1 (by decide) (by decide) (by decide)).2.2 (hears_of
        (by decide))⟩,
    ⟨_, ((h.1 (withDisputes [other 1, other 2, other 3, other 4] hearing) 5 9 0x99 rfl (by decide) (by decide)
        (by decide) (by decide) (by decide)).2 (by decide)).1 (hears_of (by decide))⟩,
    ⟨_, ((h.1 (withDisputes [other 1, other 2, other 3, other 4] hearing) 5 9 0x99 rfl (by decide) (by decide)
        (by decide) (by decide) (by decide)).2 (by decide)).2.1 (hears_of (by decide))⟩,
    ⟨_, ((h.1 (withDisputes [other 1, other 2, other 3, other 4] hearing) 5 9 0x99 rfl (by decide) (by decide)
        (by decide) (by decide) (by decide)).2 (by decide)).2.2 (hears_of (by decide)) ⟨rfl, by decide⟩⟩,
    ⟨_, (h.2 hearing 5 9 ⟨5, 2⟩ 0x11 rfl (by decide)).1 (hears_of (by decide)) (by decide) (by decide) (by decide)
        (by decide) ⟨rfl, by decide⟩⟩,
    ⟨_, (h.2 (withRec 9 doubted hearing) 5 9 ⟨5, 2⟩ 0x11 rfl (by decide)).1 (hears_of (by decide)) (by decide)
        (by decide) (by decide) (by decide) ⟨rfl, by decide⟩⟩,
    ⟨_, (h.2 hearing 5 9 ⟨6, 2⟩ 0x11 rfl (by decide)).2.1 (hears_of (by decide)) (by decide)⟩,
    ⟨_, (h.2 (withRec 9 doubted hearing) 5 9 ⟨5, 2⟩ 0x12 rfl (by decide)).2.2 (hears_of (by decide)) (by decide)⟩⟩

/-- Of Q 3 and T 2: one vote each; two for self's own; two for another. -/
theorem witness_BallotDecidesVote (h : Obligations.BallotDecidesVote) :
    Runs (.ballot 5 9 ⟨5, 2⟩ 8) (voting [(3, 7)]) ∧
    Runs (.ballot 5 9 ⟨5, 2⟩ 7) (voting [(3, 7)]) ∧
    Runs (.ballot 5 9 (vote9With [(2, 8), (3, 7)]).stamp 8) votingBusy :=
  ⟨⟨_, (h (voting [(3, 7)]) 5 9 8 [other 1] [other 4] (vote9With [(3, 7)]) rfl (hears_of (by decide)) rfl rfl
        (by decide) (by decide) (by decide) (by decide) (by decide) (by decide) (by decide)).1 few_votes⟩,
    ⟨_, ((h (voting [(3, 7)]) 5 9 7 [other 1] [other 4] (vote9With [(3, 7)]) rfl (hears_of (by decide)) rfl rfl
        (by decide) (by decide) (by decide) (by decide) (by decide) (by decide) (by decide)).2 (by decide +kernel) 7 ⟨(3, 7), by
        decide, rfl⟩ (by decide) own_votes (by decide)).1 (by decide)⟩,
    ⟨_, ((h votingBusy 5 9 8 [other 1] [other 4] (vote9With [(2, 8), (3, 7)]) rfl (hears_of (by decide)) rfl rfl
        (by decide) (by decide) (by decide) (by decide) (by decide) (by decide) (by decide)).2 (by decide +kernel) 8 ⟨(2, 8), by
        decide, rfl⟩ (by decide) other_votes (by decide)).2 (by decide) (job 2 .news (some 5)) (by decide)
        (by decide) (by decide) (by decide)⟩⟩

/-- A stamp self does not hold; four entries held; an empty queue; a fourth entry; more chunks for an entry, and
another stamp for one; in SEND, more chunks for the head, and another stamp with a free store and a busy one. -/
theorem witness_RequestByTable (h : Obligations.RequestByTable) :
    Runs (.request 5 3 9 ⟨6, 2⟩ 1) hearing ∧
    Runs (.request 5 3 9 ⟨5, 2⟩ 1) (reading [serveOne 1, serveOne 2, serveOne 3, serveOne 4] hearing) ∧
    Runs (.request 5 3 9 ⟨5, 2⟩ 1) hearing ∧
    Runs (.request 5 3 9 ⟨5, 2⟩ 1) (reading [serveOne 1, serveOne 2, serveOne 3] hearing) ∧
    Runs (.request 2 3 2 ⟨5, 2⟩ 6) (reading [serveOne 1, serveOne 2, serveOne 3] hearing) ∧
    Runs (.request 2 3 2 ⟨5, 2⟩ 6) (reading [serveOld] hearing) ∧
    Runs (.request 2 3 2 ⟨5, 2⟩ 6) (pacing ⟨5, 2⟩) ∧
    Runs (.request 2 3 2 ⟨5, 2⟩ 6) (pacing ⟨4, 2⟩) ∧
    Runs (.request 2 3 2 ⟨5, 2⟩ 6) (withOp (.reading .host 3) (pacing ⟨4, 2⟩)) :=
  ⟨⟨_, (h hearing 5 9 ⟨6, 2⟩ 1 (hears_of (by decide)) rfl).1 (by unfold Servable; decide) ⟨rfl, by decide⟩⟩,
    ⟨_, (h (reading [serveOne 1, serveOne 2, serveOne 3, serveOne 4] hearing) 5 9 ⟨5, 2⟩ 1 (hears_of (by decide))
        rfl).2.1 (servable_of (by decide)) (by decide) (by decide) ⟨rfl, by decide⟩⟩,
    ⟨_, (h hearing 5 9 ⟨5, 2⟩ 1 (hears_of (by decide)) rfl).2.2.1 (servable_of (by decide)) (by decide) (by decide)
        (by decide) ⟨rfl, rfl, rfl, rfl, rfl⟩⟩,
    ⟨_, (h (reading [serveOne 1, serveOne 2, serveOne 3] hearing) 5 9 ⟨5, 2⟩ 1 (hears_of (by decide)) rfl).2.2.2.1
        (servable_of (by decide)) (.inl rfl) (by decide) (by decide)⟩,
    ⟨_, ((h (reading [serveOne 1, serveOne 2, serveOne 3] hearing) 2 2 ⟨5, 2⟩ 6 (hears_of (by decide)) rfl).2.2.2.2
        [serveOne 1] [serveOne 3] (serveOne 2) (servable_of (by decide)) rfl rfl rfl (by decide)).1 (.inl rfl) nofun⟩,
    ⟨_, ((h (reading [serveOld] hearing) 2 2 ⟨5, 2⟩ 6 (hears_of (by decide)) rfl).2.2.2.2 [] [] serveOld
        (servable_of (by decide)) rfl rfl rfl (by decide)).1 (.inl rfl) nofun⟩,
    ⟨_, ((h (pacing ⟨5, 2⟩) 2 2 ⟨5, 2⟩ 6 (hears_of (by decide)) rfl).2.2.2.2 [] [serveOne 1] (serveOne 2)
        (servable_of (by decide)) rfl rfl rfl (by decide)).1
        (.inr (.inr ⟨rfl, by decide, by intro d e; cases e; decide⟩)) (fun _ _ => rfl)⟩,
    ⟨_, (((h (pacing ⟨4, 2⟩) 2 2 ⟨5, 2⟩ 6 (hears_of (by decide)) rfl).2.2.2.2 [] [serveOne 1] serveOld
        (servable_of (by decide)) rfl rfl rfl (by decide)).2 rfl rfl (by decide) rfl).1
        ⟨rfl, rfl, rfl, rfl, rfl⟩⟩,
    ⟨_, (((h (withOp (.reading .host 3) (pacing ⟨4, 2⟩)) 2 2 ⟨5, 2⟩ 6 (hears_of (by decide)) rfl).2.2.2.2 []
        [serveOne 1] serveOld (servable_of (by decide)) rfl rfl rfl (by decide)).2 rfl rfl (by decide) rfl).2
        (by decide)⟩⟩

/-- Chunks 0 and 4 to 7 to send, with ten descriptors held; chunk 7 alone, with eleven; another stamp, with no other
entry and with one; a signature that fails; a read left over, with no entry and with one. -/
theorem witness_ServeReadSendsChunks (h : Obligations.ServeReadSendsChunks) :
    Runs (.slotReadEnd (slotBytes 7 ⟨5, 2⟩)) (withBox (chunks 10) (readHead 0xF1 [serveOne 1])) ∧
    Runs (.slotReadEnd (slotBytes 7 ⟨5, 2⟩)) (withBox (chunks 11) (readHead 0x80 [])) ∧
    Runs (.slotReadEnd (slotBytes 7 ⟨4, 2⟩)) (readHead 0xF1 []) ∧
    Runs (.slotReadEnd (slotBytes 7 ⟨4, 2⟩)) (readHead 0xF1 [serveOne 1]) ∧
    Runs (.slotReadEnd tornBytes) (readHead 0xF1 []) ∧
    Runs (.slotReadEnd (List.replicate 264 0xFF)) (leftOver []) ∧
    Runs (.slotReadEnd (slotBytes 7 ⟨4, 2⟩)) (leftOver [serveOne 1]) :=
  ⟨⟨_, ((((h (withBox (chunks 10) (readHead 0xF1 [serveOne 1])) (slotBytes 7 ⟨5, 2⟩) 9 rfl rfl ⟨rfl, rfl, rfl, rfl⟩
        (by decide +kernel) rfl).1 ⟨5, 9, ⟨5, 2⟩, 0xF1⟩ [serveOne 1] rfl rfl rfl).1
        (signatureOf ⟨5, 2⟩ (List.replicate 256 7)) 0 (by decide +kernel) (by decide)).1 4 (by decide) (by decide))⟩,
    ⟨_, ((((h (withBox (chunks 11) (readHead 0x80 [])) (slotBytes 7 ⟨5, 2⟩) 9 rfl rfl ⟨rfl, rfl, rfl, rfl⟩
        (by decide +kernel) rfl).1 ⟨5, 9, ⟨5, 2⟩, 0x80⟩ [] rfl rfl rfl).1
        (signatureOf ⟨5, 2⟩ (List.replicate 256 7)) 7 (by decide +kernel) (by decide)).2 (by decide) (by decide))⟩,
    ⟨_, ((((h (readHead 0xF1 []) (slotBytes 7 ⟨4, 2⟩) 9 rfl rfl ⟨rfl, rfl, rfl, rfl⟩ (by decide +kernel) rfl).1
        ⟨5, 9, ⟨5, 2⟩, 0xF1⟩ [] rfl rfl rfl).2 ⟨rfl, by decide⟩).1 (.inr old_copy)).1 rfl⟩,
    ⟨_, ((((h (readHead 0xF1 [serveOne 1]) (slotBytes 7 ⟨4, 2⟩) 9 rfl rfl ⟨rfl, rfl, rfl, rfl⟩ (by decide +kernel)
        rfl).1 ⟨5, 9, ⟨5, 2⟩, 0xF1⟩ [serveOne 1] rfl rfl rfl).2 ⟨rfl, by decide⟩).1 (.inr old_copy)).2 (serveOne 1) []
        rfl (servable_of (by decide))⟩,
    ⟨_, (((h (readHead 0xF1 []) tornBytes 9 rfl rfl ⟨rfl, rfl, rfl, rfl⟩ (by decide +kernel) rfl).1
        ⟨5, 9, ⟨5, 2⟩, 0xF1⟩ [] rfl rfl rfl).2 ⟨rfl, by decide⟩).2
        (.inr ⟨0, signatureOf ⟨5, 2⟩ blankSegment, by decide +kernel, by decide +kernel⟩) rfl (by decide) (by decide)
        (by decide) (by decide) (by decide) (by decide) (by decide)⟩,
    ⟨_, ((h (leftOver []) (List.replicate 264 0xFF) 9 rfl rfl ⟨rfl, rfl, rfl, rfl⟩ (by decide +kernel) rfl).2 rfl
        (.inl (by decide +kernel))).1 rfl⟩,
    ⟨_, ((h (leftOver [serveOne 1]) (slotBytes 7 ⟨4, 2⟩) 9 rfl rfl ⟨rfl, rfl, rfl, rfl⟩ (by decide +kernel) rfl).2 rfl
        (.inr ⟨⟨4, 2⟩, signatureOf ⟨4, 2⟩ (List.replicate 256 7), signatureOf ⟨4, 2⟩ (List.replicate 256 7),
          by decide +kernel, fun _ => rfl⟩)).2 (serveOne 1) [] rfl (servable_of (by decide))⟩⟩

/-- A NOHAVE in READY, of another station, and of the source; a BUSY in BACKOFF, with another source, and with none.
-/
theorem witness_RefusedSourceMovesOn (h : Obligations.RefusedSourceMovesOn) :
    Runs (.nohave 2 3 9 ⟨6, 5⟩) (run .ready) ∧
    Runs (.nohave 5 3 9 ⟨6, 5⟩) (run .asking) ∧
    Runs (.nohave 2 3 9 ⟨6, 5⟩) (run .backoff) ∧
    Runs (.busy 2 3 9) (run .backoff) ∧
    Runs (.busy 2 3 9) (run .asking) ∧
    Runs (.busy 2 3 9) runAlone :=
  ⟨⟨_, (h.1 (run .ready) 2 9 ⟨6, 5⟩ (hears_of (by decide)) rfl).1 (by decide)⟩,
    ⟨_, (h.1 (run .asking) 5 9 ⟨6, 5⟩ (hears_of (by decide)) rfl).1 (by decide)⟩,
    ⟨_, (h.1 (run .backoff) 2 9 ⟨6, 5⟩ (hears_of (by decide)) rfl).2 [freshEntry 8 .demand] [freshEntry 3 .sweep]
        job9 (ev65 0x24) 5 rfl rfl rfl rfl (by decide) (by decide) (by decide) (lowest_of (by decide) (by decide))
        ⟨rfl, by decide⟩⟩,
    ⟨_, (h.2 (run .backoff) 2 9 (hears_of (by decide)) rfl).1 (by decide)⟩,
    ⟨_, ((h.2 (run .asking) 2 9 (hears_of (by decide)) rfl).2 [freshEntry 8 .demand] [freshEntry 3 .sweep] job9 (ev65
        0x24) rfl rfl rfl rfl (by decide) (by decide) (by decide) (by decide)).1 5 (lowest_of (by decide)
        (by decide)) ⟨rfl, by decide⟩⟩,
    ⟨_, ((h.2 runAlone 2 9 (hears_of (by decide)) rfl).2 [freshEntry 8 .demand] [freshEntry 3 .sweep] job9 (ev65 4)
        rfl rfl rfl rfl (by decide) (by decide) (by decide) (by decide)).2 runAlone_noSource (lowest_of (by decide)
        (by decide))⟩⟩

/-- A stamp no slot wants; a chunk already held; chunk 7 for a slot set aside; chunk 7 of a job in BACKOFF. -/
theorem witness_DataStoresChunk (h : Obligations.DataStoresChunk) :
    Runs (.data 5 3 9 ⟨7, 5⟩ 7 chunkBytes) (run .asking) ∧
    Runs (.data 5 3 9 ⟨6, 5⟩ 6 chunkBytes) (run .asking) ∧
    Runs (.data 5 3 9 ⟨6, 5⟩ 7 chunkBytes) runAside ∧
    Runs (.data 5 3 9 ⟨6, 5⟩ 7 chunkBytes) runBackoff :=
  ⟨⟨_, (h (run .asking) 5 9 ⟨7, 5⟩ 7 chunkBytes (hears_of (by decide)) rfl).1 other_stamp⟩,
    ⟨_, ((h (run .asking) 5 9 ⟨6, 5⟩ 6 chunkBytes (hears_of (by decide)) rfl).2 .a slot9 rfl rfl rfl (one_slot rfl
        rfl)).1 (by decide)⟩,
    ⟨_, (((h runAside 5 9 ⟨6, 5⟩ 7 chunkBytes (hears_of (by decide)) rfl).2 .a slot9 rfl rfl rfl (one_slot rfl
        rfl)).2 (by decide)).1 (by decide)⟩,
    ⟨_, (((h runBackoff 5 9 ⟨6, 5⟩ 7 chunkBytes (hears_of (by decide)) rfl).2 .a slot9b rfl rfl rfl (one_slot rfl
        rfl)).2 (by decide)).2 (by decide) ⟨job9, rfl, rfl⟩ (by decide)⟩⟩

/-- Chunk 7 of a slot that holds 0 to 6: with the commit buffer free and occupied, and with a signature that fails. -/
theorem witness_LastChunkHandsOff (h : Obligations.LastChunkHandsOff) :
    Runs (.data 5 3 9 ⟨6, 5⟩ 7 chunkBytes) runLast ∧
    Runs (.data 5 3 9 ⟨6, 5⟩ 7 chunkBytes) runReady ∧
    Runs (.data 5 3 9 ⟨6, 5⟩ 7 chunkBytes) runTorn :=
  ⟨⟨_, ((h runLast 5 9 ⟨6, 5⟩ 7 chunkBytes job9 slot9c (hears_of (by decide)) rfl rfl rfl rfl rfl rfl rfl rfl rfl rfl
        (by decide) (by decide) (by decide)).1 (by decide +kernel)).1 rfl ⟨rfl, rfl, rfl, rfl, rfl⟩
        ⟨by decide +kernel, rfl⟩ (by decide)⟩,
    ⟨_, ((h runReady 5 9 ⟨6, 5⟩ 7 chunkBytes job9 slot9c (hears_of (by decide)) rfl rfl rfl rfl rfl rfl rfl rfl rfl rfl
        (by decide) (by decide) (by decide)).1 (by decide +kernel)).2 rfl⟩,
    ⟨_, (h runTorn 5 9 ⟨6, 5⟩ 7 chunkBytes job9 slot9 (hears_of (by decide)) rfl rfl rfl rfl rfl rfl rfl rfl rfl rfl
        (by decide) (by decide) (by decide)).2 (by decide +kernel) 2 5 (ev65 0x24) rfl (by decide) (by decide)
        (lowest_of (by decide) (by decide)) ⟨rfl, by decide⟩⟩⟩

/-- Station 5, which no job asks: without serve entries, behind a head, and as the head with a read outstanding, with a
free store and with a busy one; station 2, the source of a job. -/
theorem witness_SilenceLosesPeer (h : Obligations.SilenceLosesPeer) :
    Runs (.silenceTimerExpiry 5) runVote ∧
    Runs (.silenceTimerExpiry 5) (runServe [serveOne 2, serveFive] .read true) ∧
    Runs (.silenceTimerExpiry 5) (runServe [serveFive, serveOne 2] .read true) ∧
    Runs (.silenceTimerExpiry 5) (withOp (.reading .host 3) (runServe [serveFive, serveOne 2] .send false)) ∧
    Runs (.silenceTimerExpiry 5) (runServe [serveFive, serveOne 2] .send false) ∧
    Runs (.silenceTimerExpiry 2) runVote :=
  ⟨⟨_, ((h runVote 5 400 (by decide) (by decide) after_loss5).1 (by decide)).1 nofun (.inl rfl)⟩,
    ⟨_, ((h (runServe [serveOne 2, serveFive] .read true) 5 400 (by decide) (by decide) after_loss5).1
        (by decide)).1 (by intro d e; cases e; decide) (.inr (.inl rfl))⟩,
    ⟨_, (((h (runServe [serveFive, serveOne 2] .read true) 5 400 (by decide) (by decide) after_loss5).1
        (by decide)).2 ⟨serveFive, rfl, rfl⟩).1 (.inr rfl)⟩,
    ⟨_, ((((h (withOp (.reading .host 3) (runServe [serveFive, serveOne 2] .send false)) 5 400 (by decide) (by decide)
        after_loss5).1 (by decide)).2 ⟨serveFive, rfl, rfl⟩).2 (serveOne 2) [] rfl rfl rfl
        (servable_of (by decide))).1 (by decide)⟩,
    ⟨_, ((((h (runServe [serveFive, serveOne 2] .send false) 5 400 (by decide) (by decide)
        after_loss5).1 (by decide)).2 ⟨serveFive, rfl, rfl⟩).2 (serveOne 2) [] rfl rfl rfl
        (servable_of (by decide))).2 ⟨rfl, rfl, rfl, rfl, rfl⟩⟩,
    ⟨_, (h runVote 2 400 (by decide) (by decide) after_loss2).2 [freshEntry 8 .demand] [freshEntry 3 .sweep] job9
        (ev65 0x24) 5 rfl rfl rfl rfl (by decide) (by decide) (by decide) (lowest_of (by decide) (by decide)) ⟨rfl, by
        decide⟩⟩⟩

/-- BACKOFF; ASKING at the third attempt with a source left; ASKING at the fourth, alone and before a suspended job. -/
theorem witness_PatienceTriesOrEnds (h : Obligations.PatienceTriesOrEnds) :
    Runs .patienceTimerExpiry (run .backoff) ∧
    Runs .patienceTimerExpiry (run .asking) ∧
    Runs .patienceTimerExpiry runOut ∧
    Runs .patienceTimerExpiry resuming :=
  ⟨⟨_, (h (run .backoff) 20 [freshEntry 8 .demand] [freshEntry 3 .sweep] job9 (ev65 0x24) 2 rfl rfl rfl rfl rfl
        (by decide) (by decide)).1 (by decide) ⟨rfl, by decide⟩⟩,
    ⟨_, (h (run .asking) 20 [freshEntry 8 .demand] [freshEntry 3 .sweep] job9 (ev65 0x24) 2 rfl rfl rfl rfl rfl
        (by decide) (by decide)).2.1 (by decide) (by decide) 5 (lowest_of (by decide) (by decide)) ⟨rfl, by decide⟩⟩,
    ⟨_, ((h runOut 20 [] [] job9d (ev65 0x24) 2 rfl rfl rfl rfl rfl (by decide) (by decide)).2.2 (by decide) (.inl
        (by decide)) slot9 rfl rfl (by decide +kernel) (by decide) (by decide) (by decide)).1 rfl rfl⟩,
    ⟨_, ((h resuming 20 [] [aside8] job9d (ev65 0x24) 2 rfl rfl rfl rfl rfl (by decide) (by decide)).2.2 (by decide)
        (.inl (by decide)) slot9 rfl rfl (by decide +kernel) (by decide) (by decide) (by decide)).2 aside8 slot8
        (ev65 0x20) 5 rfl rfl rfl rfl rfl (by decide) rfl rfl (by decide) (by decide) (by decide) (by decide)
        (by decide) (by decide) ⟨rfl, by decide⟩⟩⟩

/-- An equal digest; one that differs, with a place and with none; a query with eight descriptors held; the beacon
with a place and with none. -/
theorem witness_BankExchange (h : Obligations.BankExchange) :
    Runs (.digest 5 0 0) hearing ∧
    Runs (.digest 5 0 1) hearing ∧
    Runs (.digest 5 0 1) (withBox (chunks 12) hearing) ∧
    Runs (.sigquery 5 3 0) (withBox (chunks 8) hearing) ∧
    Runs .beaconTimerExpiry on ∧
    Runs (.beaconTimerExpiry) (withBox (chunks 12) on) :=
  ⟨⟨_, (h.1.1 hearing 5 0 0 ⟨none, none⟩ (hears_of (by decide)) rfl rfl).1 (by decide)⟩,
    ⟨_, ((h.1.1 hearing 5 0 1 ⟨none, none⟩ (hears_of (by decide)) rfl rfl).2 (by decide) rfl).1 ⟨rfl, by decide⟩⟩,
    ⟨_, ((h.1.1 (withBox (chunks 12) hearing) 5 0 1 ⟨none, none⟩ (hears_of (by decide)) rfl rfl).2 (by decide) rfl).2
        (by decide) (by decide)⟩,
    ⟨_, h.1.2 (withBox (chunks 8) hearing) 5 0 (hears_of (by decide)) rfl (by decide)⟩,
    ⟨_, (h.2 on 100 rfl rfl).1 ⟨rfl, by decide⟩⟩,
    ⟨_, (h.2 (withBox (chunks 12) on) 100 rfl rfl).2 (by decide) (by decide)⟩⟩

/-- Round 2; round 3 with no other dispute waiting, and with one. -/
theorem witness_DeadlineRaisesRoundOrAbandons (h : Obligations.DeadlineRaisesRoundOrAbandons) :
    Runs (.disputeDeadlineExpiry 9) (inRound 2) ∧
    Runs (.disputeDeadlineExpiry 9) (inRound 3) ∧
    Runs (.disputeDeadlineExpiry 9) (withRec 20 doubted (inRound 3)) :=
  ⟨⟨_, h.1 (inRound 2) 9 [other 1] [other 4, other 5] (vote9In 2) rfl rfl (by decide) (by decide) ⟨rfl, by decide⟩⟩,
    ⟨_, (h.2 (inRound 3) 9 [other 1] [other 4, other 5] (vote9In 3) rfl rfl (by decide) rfl (by decide) (by decide)
        rfl (by decide)).1 (by decide +kernel)⟩,
    ⟨_, (h.2 (withRec 20 doubted (inRound 3)) 9 [other 1] [other 4, other 5] (vote9In 3) rfl rfl (by decide) rfl
        (by decide) (by decide) rfl (by decide)).2 20 (by decide) (by decide) (by decide +kernel) (by decide +kernel)
        (by decide) ⟨rfl, by decide⟩⟩⟩

/-- A FRESHEN in HALTED and in ACTIVE; a PIN of segment 64 of 64; EVENTS(5); a code that is none; a STAGE that lacks a byte. -/
theorem witness_CommandChecks (h : Obligations.CommandChecks) :
    Runs (.freshen 9) (withTop .halted on) ∧
    Runs (.freshen 9) on ∧
    Runs (.pin 64) on ∧
    Runs (.events 5) on ∧
    Runs (.unknownCommand 0) on ∧
    Runs (.stage 0 2 [1]) on ∧
    Runs .attach on ∧
    Runs (.freshen 63) detached ∧
    clockedOut ⟨.done, [5]⟩ 1 = 5 ∧ clockedOut ⟨.done, [5]⟩ 2 = 0 :=
  ⟨⟨_, (h.1 (.freshen 9) [.active, .detached] (withTop .halted on) rfl).1 (by decide)⟩,
    ((h.1 (.freshen 9) [.active, .detached] on rfl).2 (by decide) rfl).imp fun _ ⟨_, p, _⟩ => p,
    ⟨_, (h.2.2.1 on).1 (.pin 64) 64 [.active, .detached] rfl (by decide) rfl (by decide)⟩,
    ⟨_, (h.2.2.1 on).2.1 5 (by decide) (by decide)⟩,
    ⟨_, (h.2.2.1 on).2.2.1 0 (by decide)⟩,
    ⟨_, (h.2.2.1 on).2.2.2.2 0 2 [1] (by decide) (by decide) (by decide) (by decide)⟩,
    ⟨_, (h.2.2.2 on).1 rfl⟩,
    ⟨_, ((h.2.2.2 detached).2 rfl).2 63 (by decide)⟩,
    (h.2.1 ⟨.done, [5]⟩ 0).2.1 5 rfl, (h.2.1 ⟨.done, [5]⟩ 1).2.2 (by decide)⟩

/-- READ without a usable copy, with a buffer taken, with a free store and a busy one; TAKE of a complete buffer and
of an empty one. -/
theorem witness_ReadAndTake (h : Obligations.ReadAndTake) :
    Runs (.read 9) (withRec 9 unknownRec on) ∧
    Runs (.read 9) (withRead (.reading 3) detached) ∧
    Runs (.read 63) on ∧
    Runs (.read 9) (withOp (.reading .serve 3) on) ∧
    Runs (.take) (withRead (.complete 3 true ⟨5, 2⟩ .good blankSegment) detached) ∧
    Runs .take on :=
  ⟨⟨_, (h.1 (withRec 9 unknownRec on) 9 (by decide) (by decide)).1 (by decide)⟩,
    ⟨_, (h.1 (withRead (.reading 3) detached) 9 (by decide) (by decide)).2.1 (by decide) (by decide)⟩,
    ⟨_, ((h.1 on 63 (by decide) (by decide)).2.2 (by decide) (by decide)).1 ⟨rfl, rfl, rfl, rfl, rfl⟩⟩,
    ⟨_, ((h.1 (withOp (.reading .serve 3) on) 9 (by decide) (by decide)).2.2 (by decide) (by decide)).2 (by decide)⟩,
    ⟨_, (h.2 (withRead (.complete 3 true ⟨5, 2⟩ .good blankSegment) detached) (by decide)).1 3 true ⟨5, 2⟩ .good
        blankSegment rfl⟩,
    ⟨_, (h.2 on (by decide)).2 (.inl rfl)⟩⟩

/-- A publish in flight; a free store and a busy one. -/
theorem witness_PublishChoosesStamp (h : Obligations.PublishChoosesStamp) :
    Runs (.publish 9) locked ∧
    Runs (.publish 9) publishing ∧
    Runs (.publish 9) (withOp (.reading .serve 3) publishing) :=
  ⟨⟨_, (h locked 9 (by decide) (by decide)).1 (by decide)⟩,
    ⟨_, ((h publishing 9 (by decide) (by decide)).2 (by decide) (by decide) (by decide) (by decide)
        (by decide +kernel)).1 ⟨rfl, rfl, rfl, rfl, rfl⟩⟩,
    ⟨_, ((h (withOp (.reading .serve 3) publishing) 9 (by decide) (by decide)).2 (by decide) (by decide) (by decide)
        (by decide) (by decide +kernel)).2 (by decide)⟩⟩

/-- DETACHED; GOOD; pinned; DAMAGED alone on the line and beside a peer; a job that runs; an ORPHAN with an entry,
without one, before a NEWS job that runs, and with a full queue. -/
theorem witness_FreshenByTable (h : Obligations.FreshenByTable) :
    Runs (.freshen 9) detached ∧
    Runs (.freshen 9) on ∧
    Runs (.freshen 9) (withPins [9] (withRec 9 stale on)) ∧
    Runs (.freshen 9) alone ∧
    Runs (.freshen 9) (withRec 9 damaged9 on) ∧
    Runs (.freshen 9) (withJobs [freshEntry 4 .news, job 9 .sweep (some 5), freshEntry 3 .sweep] (withRec 9 fetching9
        on)) ∧
    Runs (.freshen 9) (withJobs [demandJob, freshEntry 9 .sweep] (withRec 9 orphan9 on)) ∧
    Runs (.freshen 9) (withJobs [demandJob, freshEntry 3 .sweep] (withRec 9 orphan9 on)) ∧
    Runs (.freshen 9) twoJobs ∧
    Runs (.freshen 9) (withJobs ((List.range 32).map fun k => freshEntry (k + 20) .news) (withRec 9 orphan9 on)) :=
  ⟨⟨_, (h detached 9 (by decide)).1 (by decide)⟩,
    ⟨_, ((h on 9 (by decide)).2 (by decide)).1 (by decide)⟩,
    ⟨_, (((h (withPins [9] (withRec 9 stale on)) 9 (by decide)).2 (by decide)).2 (by decide)).1 (by decide)⟩,
    ⟨_, (((((h alone 9 (by decide)).2 (by decide)).2 (by decide)).2 (by decide) (by decide)).1 (by decide)
        (by decide)).1 (by decide)⟩,
    ⟨_, (((((h (withRec 9 damaged9 on) 9 (by decide)).2 (by decide)).2 (by decide)).2 (by decide) (by decide)).1
        (by decide) (by decide)).2 2 (by decide) (by decide) (by decide) ⟨rfl, by decide⟩⟩,
    ⟨_, ((((h (withJobs [freshEntry 4 .news, job 9 .sweep (some 5), freshEntry 3 .sweep] (withRec 9 fetching9 on)) 9
        (by decide)).2 (by decide)).2 (by decide)).2 (by decide) (by decide)).2.1 (job 9 .sweep (some 5)) (by decide)
        (by decide) (by decide) (by decide)⟩,
    ⟨_, (((((h (withJobs [demandJob, freshEntry 9 .sweep] (withRec 9 orphan9 on)) 9 (by decide)).2 (by decide)).2
        (by decide)).2 (by decide) (by decide)).2.2.1 demandJob (by decide) (by decide) (by decide) (by decide)).1
        (freshEntry 9 .sweep) (by decide) (by decide) (by decide)⟩,
    ⟨_, (((((h (withJobs [demandJob, freshEntry 3 .sweep] (withRec 9 orphan9 on)) 9 (by decide)).2 (by decide)).2
        (by decide)).2 (by decide) (by decide)).2.2.1 demandJob (by decide) (by decide) (by decide) (by decide)).2
        (by decide) (by decide)⟩,
    ⟨_, ((((h twoJobs 9 (by decide)).2 (by decide)).2 (by decide)).2 (by decide) (by decide)).2.2.2.1
        (job 2 .news (some 5)) aside8 (ev65 0x20) 5 (by decide) rfl rfl rfl rfl rfl rfl (by decide) (by decide) rfl rfl
        rfl (by decide) (lowest_of (by decide) (by decide)) ⟨rfl, by decide⟩⟩,
    ⟨_, ((((h (withJobs ((List.range 32).map fun k => freshEntry (k + 20) .news) (withRec 9 orphan9 on)) 9
        (by decide)).2 (by decide)).2 (by decide)).2 (by decide) (by decide)).2.2.2.2 (by decide) (by decide)
        (by decide) (by decide)⟩⟩

/-- PIN and UNPIN of a pinned segment; UNPIN of another; PIN on a full list, on one with a place, and of a segment
that waits; ACCEPT of a GOOD record and of a DISPUTED one. -/
theorem witness_PinUnpinAccept (h : Obligations.PinUnpinAccept) :
    Runs (.pin 9) (withPins [9] (withRec 9 stale on)) ∧
    Runs (.unpin 9) (withPins [9] on) ∧
    Runs (.unpin 9) on ∧
    Runs (.pin 9) (withPins [1, 2, 3, 4, 5, 6, 7, 8] on) ∧
    Runs (.pin 9) (withPins [1, 2, 3, 4, 5, 6, 7] on) ∧
    Runs (.pin 9) (withJobs [demandJob, freshEntry 9 .news] (withRec 9 stale on)) ∧
    Runs (.accept 9) on ∧
    Runs (.accept 9) (withDisputes [vote9] (withRec 9 doubted on)) :=
  ⟨⟨_, ((h.1 (withPins [9] (withRec 9 stale on)) 9 (by decide) (by decide)).1 (by decide)).1⟩,
    ⟨_, ((h.1 (withPins [9] on) 9 (by decide) (by decide)).1 (by decide)).2 (by decide)⟩,
    ⟨_, ((h.1 on 9 (by decide) (by decide)).2 (by decide)).1⟩,
    ⟨_, ((h.1 (withPins [1, 2, 3, 4, 5, 6, 7, 8] on) 9 (by decide) (by decide)).2 (by decide)).2.1 (by decide)⟩,
    ⟨_, (((h.1 (withPins [1, 2, 3, 4, 5, 6, 7] on) 9 (by decide) (by decide)).2 (by decide)).2.2 (by decide)).1
        (by decide)⟩,
    ⟨_, (((h.1 (withJobs [demandJob, freshEntry 9 .news] (withRec 9 stale on)) 9 (by decide) (by decide)).2
        (by decide)).2.2 (by decide)).2 (freshEntry 9 .news) demandJob (by decide) (by decide) (by decide)
        (by decide) (by decide) (by decide) ⟨by decide +kernel, rfl⟩ (by decide) (by decide) (by decide) (by decide)
        (by decide)⟩,
    ⟨_, (h.2 on 9 (by decide) (by decide)).1 (by decide)⟩,
    ⟨_, (h.2 (withDisputes [vote9] (withRec 9 doubted on)) 9 (by decide) (by decide)).2 (by decide) (by decide)
        (by decide) (by decide) (by decide) (by decide +kernel)⟩⟩

/-- ATTACH in ACTIVE; DETACH and ATTACH in DETACHED. -/
theorem witness_AttachReturnsToActive (h : Obligations.AttachReturnsToActive) :
    Runs .attach on ∧
    Runs .detach detached ∧
    Runs .attach detached :=
  ⟨⟨_, (h on).1 rfl⟩,
    ⟨_, ((h detached).2 rfl).1⟩,
    ⟨_, ((h detached).2 rfl).2 (by decide) rfl rfl rfl rfl (by decide +kernel) detached_noneWaiting⟩⟩

/-- With an idle store and a number; without a number; with a store at work, with and without a number. -/
theorem witness_RestartClearsAndWaits (h : Obligations.RestartClearsAndWaits) :
    Runs .restart on ∧
    Runs .restart halted ∧
    (∃ t, exec .restartStoreWaitEnd (answered .done [] (restartSequence halted)) = .next t) ∧
    Runs .restart busyState ∧
    Runs .restart { busyState with start.station := 0 } :=
  ⟨⟨_, (h on (by decide)).1 (by decide) (by decide)⟩,
    ⟨_, ((h halted (by decide)).2.1 (by decide) (by decide)).1⟩,
    ⟨_, (((h halted (by decide)).2.1 (by decide) (by decide)).2 rfl).2⟩,
    ⟨_, ((h busyState (by decide)).2.2 (by decide)).1⟩,
    ⟨_, ((h { busyState with start.station := 0 } (by decide)).2.2 (by decide)).1⟩⟩

/-- Slot 62; slot 62 with newer evidence heard, with it reached, and damaged; the last slot, with an empty queue and with
a waiting entry. -/
theorem witness_CensusSetsRecord (h : Obligations.CensusSetsRecord) :
    Runs (.slotReadEnd (slotBytes 7 ⟨8, 5⟩)) (counting 62) ∧
    Runs (.slotReadEnd (slotBytes 7 ⟨5, 2⟩)) heardOf ∧
    Runs (.slotReadEnd (slotBytes 7 ⟨6, 5⟩)) heardOf ∧
    Runs (.slotReadEnd tornBytes) heardOf ∧
    Runs (.slotReadEnd (slotBytes 7 ⟨8, 5⟩)) (counting 63) ∧
    Runs (.slotReadEnd (slotBytes 7 ⟨8, 5⟩)) lastRead :=
  ⟨⟨_, ((h (counting 62) (slotBytes 7 ⟨8, 5⟩) 62 none rfl rfl ⟨rfl, rfl, rfl, rfl⟩ (by decide +kernel) rfl (by decide)
        (by decide) nofun).1 (by decide)).1 (.inl (by decide +kernel))⟩,
    ⟨_, ((h heardOf (slotBytes 7 ⟨5, 2⟩) 62 (some (ev65 0x20)) rfl rfl ⟨rfl, rfl, rfl, rfl⟩ (by decide +kernel) rfl
        (by decide) (by decide) (by decide)).1 (by decide)).2 (ev65 0x20) (by decide +kernel) (by decide)
        (by decide)⟩,
    ⟨_, ((h heardOf (slotBytes 7 ⟨6, 5⟩) 62 (some (ev65 0x20)) rfl rfl ⟨rfl, rfl, rfl, rfl⟩ (by decide +kernel) rfl
        (by decide) (by decide) (by decide)).1 (by decide)).1 (.inl (by decide +kernel))⟩,
    ⟨_, ((h heardOf tornBytes 62 (some (ev65 0x20)) rfl rfl ⟨rfl, rfl, rfl, rfl⟩ (by decide +kernel) rfl (by decide)
        (by decide) (by decide)).1 (by decide)).2 (ev65 0x20) (by decide +kernel) (by decide) (by decide)⟩,
    ⟨_, ((h (counting 63) (slotBytes 7 ⟨8, 5⟩) 63 none rfl rfl ⟨rfl, rfl, rfl, rfl⟩ (by decide +kernel) rfl (by decide)
        (by decide) nofun).2 (by decide) rfl (by decide) rfl rfl counting_rest).1 rfl⟩,
    ⟨_, ((h lastRead (slotBytes 7 ⟨8, 5⟩) 63 none rfl rfl ⟨rfl, rfl, rfl, rfl⟩ (by decide +kernel) rfl (by decide)
        (by decide) (by decide)).2 (by decide) rfl (by decide) rfl rfl lastRead_rest).2 (freshEntry 8 .news) []
        (ev65 0x20) 5 rfl nofun (by decide) rfl rfl (by decide) (by decide) (lowest_of (by decide) (by decide))⟩⟩

/-- The wait before the write sequence, its end for each client, POLLING with an error, free and busy, its time-out,
one that cannot come yet, and RECOVERING. -/
theorem witness_WriteFollowsStatus (h : Obligations.WriteFollowsStatus) :
    Runs (.storeStatusReadEnd 0) (writing (.writing commit9 false)) ∧
    Runs .writeSequenceEnd (writing (.writing commit9 true)) ∧
    Runs .writeSequenceEnd (writing (.writing publish9 true)) ∧
    Runs (.storeStatusReadEnd 33) (writing (.polling commit9)) ∧
    Runs (.storeStatusReadEnd 0) (writing (.polling commit9)) ∧
    Runs (.storeStatusReadEnd 1) (writing (.polling commit9)) ∧
    Runs .storePollTimeout (writing (.polling commit9)) ∧
    Runs .storePollTimeout (writing (.writing { commit9 with timer := none } false)) ∧
    Runs (.storeStatusReadEnd 1) (writing (.recovering commit9 .error)) :=
  ⟨⟨_, (h (writing (.writing commit9 false)) commit9 0 rfl).1 rfl (by decide)⟩,
    ⟨_, (h (writing (.writing commit9 true)) commit9 0 rfl).2.1 buffer9 rfl rfl rfl⟩,
    ⟨_, (h (writing (.writing publish9 true)) publish9 0 rfl).2.2.1 rfl rfl⟩,
    ⟨_, ((h (writing (.polling commit9)) commit9 0x21 rfl).2.2.2.1 rfl (by decide)).1 (by decide) (by decide)⟩,
    ⟨_, ((h (writing (.polling commit9)) commit9 0 rfl).2.2.2.1 rfl (by decide)).2.1 (by decide) (by decide)⟩,
    ⟨_, ((h (writing (.polling commit9)) commit9 1 rfl).2.2.2.1 rfl (by decide)).2.2 (by decide) (by decide)⟩,
    ⟨_, (h (writing (.polling commit9)) commit9 1 rfl).2.2.2.2.1 rfl rfl⟩,
    ⟨_, (h (writing (.writing { commit9 with timer := none } false)) { commit9 with timer := none } 1
        rfl).2.2.2.2.2.1 (.inl rfl) rfl⟩,
    ⟨_, (h (writing (.recovering commit9 .error)) commit9 1 rfl).2.2.2.2.2.2 .error rfl (by decide)⟩⟩

/-- A commit write with evidence it reaches, alone and before a READY job; a publish write in DETACHED and in ACTIVE. -/
theorem witness_WriteSuccessSetsRecord (h : Obligations.WriteSuccessSetsRecord) :
    Runs (.readbackEnd (slotImage buffer9.data commit9.stamp 1)) (writing (.verifying commit9)) ∧
    Runs (.readbackEnd (slotImage buffer9.data commit9.stamp 1)) readyBehind ∧
    Runs (.readbackEnd (slotImage (withTop .detached (writing (.verifying publish9))).host.staging publish9.stamp 1))
        (withTop .detached (writing (.verifying publish9))) ∧
    Runs (.readbackEnd (slotImage (writing (.verifying publish9)).host.staging publish9.stamp 1)) (writing
        (.verifying publish9)) :=
  ⟨⟨_, (h.1 (writing (.verifying commit9)) commit9 buffer9 1 rfl rfl rfl rfl rfl rfl rfl (by decide +kernel) rfl
        ⟨rfl, rfl, rfl, rfl⟩ (by decide) (by decide) (by decide) (by decide)
        (by intro ev e; cases e; decide)).1 (by decide)⟩,
    ⟨_, (h.1 readyBehind commit9 buffer9 1 rfl rfl rfl rfl rfl rfl rfl (by decide +kernel) rfl
        ⟨rfl, rfl, rfl, rfl⟩ (by decide) (by decide) (by decide) (by decide)
        (by intro ev e; cases e; decide)).2 { job 8 .news (some 5) with verified := true } slot8 rfl rfl rfl rfl rfl rfl
        (by decide) (by decide +kernel) (by decide)⟩,
    ⟨_, (h.2 (withTop .detached (writing (.verifying publish9))) publish9 1 rfl rfl rfl (by decide +kernel) rfl
        ⟨rfl, rfl, rfl, rfl⟩ (by decide) (by decide) (by decide) (by decide) (by intro ev e; cases e; decide)).1 rfl⟩,
    ⟨_, (h.2 (writing (.verifying publish9)) publish9 1 rfl rfl rfl (by decide +kernel) rfl ⟨rfl, rfl, rfl, rfl⟩
        (by decide) (by decide) (by decide) (by decide) (by intro ev e; cases e; decide)).2 ⟨rfl, by decide⟩⟩⟩

/-- Busy before the write sequence; an error in POLLING; the end of RECOVERING; a readback that differs. -/
theorem witness_WriteFailureLosesCopy (h : Obligations.WriteFailureLosesCopy) :
    Runs .storePollTimeout (failing (.writing commit9 false)) ∧
    Runs (.storeStatusReadEnd 32) (failing (.polling commit9)) ∧
    Runs (.storeStatusReadEnd 32) (failing (.recovering publish9 .error)) ∧
    Runs (.readbackEnd (List.replicate 264 0)) (failing (.verifying publish9)) :=
  ⟨⟨_, (h (failing (.writing commit9 false)) commit9 .storePollTimeout rfl ⟨rfl, rfl, rfl, rfl⟩ (by decide)
        (by decide) (by decide) (by decide) (.inl ⟨rfl, .inr ⟨rfl, rfl⟩⟩) (by decide) (by decide) (by decide)).1 rfl⟩,
    ⟨_, (h (failing (.polling commit9)) commit9 (.storeStatusReadEnd 0x20) rfl ⟨rfl, rfl, rfl, rfl⟩ (by decide)
        (by decide) (by decide) (by decide) (.inr (.inl ⟨rfl, 0x20, rfl, by decide⟩)) (by decide) (by decide)
        (by decide)).1 rfl⟩,
    ⟨_, (h (failing (.recovering publish9 .error)) publish9 (.storeStatusReadEnd 0x20) rfl ⟨rfl, rfl, rfl, rfl⟩
        (by decide) (by decide) (by decide) (by decide) (.inr (.inr (.inl ⟨⟨_, rfl⟩, .inr ⟨0x20, rfl, by decide⟩⟩)))
        (by decide) (by decide) (by decide)).2 rfl⟩,
    ⟨_, (h (failing (.verifying publish9)) publish9 (.readbackEnd (List.replicate 264 0)) rfl ⟨rfl, rfl, rfl, rfl⟩
        (by decide) (by decide) (by decide) (by decide) (.inr (.inr (.inr
        ⟨rfl, _, rfl, by decide +kernel, by decide +kernel⟩))) (by decide) (by decide) (by decide)).2 rfl⟩⟩

/-- A vacant slot; one that checks; one damaged, and one whose signature fails, of a copy not usable and of a usable
one. -/
theorem witness_HostReadFillsBuffer (h : Obligations.HostReadFillsBuffer) :
    Runs (.slotReadEnd (List.replicate 264 255)) (withOp (.reading .host 9) on) ∧
    Runs (.slotReadEnd (slotBytes 7 ⟨8, 5⟩)) (withOp (.reading .host 9) on) ∧
    Runs (.slotReadEnd (List.replicate 264 0)) (withOp (.reading .host 9) (withRec 9 unknownRec on)) ∧
    Runs (.slotReadEnd (List.replicate 264 0)) (withOp (.reading .host 9) on) ∧
    Runs (.slotReadEnd tornBytes) (withOp (.reading .host 9) (withRec 9 unknownRec on)) ∧
    Runs (.slotReadEnd tornBytes) (withOp (.reading .host 9) on) :=
  ⟨⟨_, (h (withOp (.reading .host 9) on) (List.replicate 264 0xFF) 9 rfl rfl ⟨rfl, rfl, rfl, rfl⟩
        (by decide +kernel)).1 (by decide +kernel)⟩,
    ⟨_, (h (withOp (.reading .host 9) on) (slotBytes 7 ⟨8, 5⟩) 9 rfl rfl ⟨rfl, rfl, rfl, rfl⟩
        (by decide +kernel)).2.1 ⟨8, 5⟩ (signatureOf ⟨8, 5⟩ (List.replicate 256 7)) (by decide +kernel)⟩,
    ⟨_, ((h (withOp (.reading .host 9) (withRec 9 unknownRec on)) (List.replicate 264 0) 9 rfl rfl
        ⟨rfl, rfl, rfl, rfl⟩ (by decide +kernel)).2.2.1 (by decide)).1 (by decide +kernel)⟩,
    ⟨_, ((h (withOp (.reading .host 9) on) (List.replicate 264 0) 9 rfl rfl ⟨rfl, rfl, rfl, rfl⟩
        (by decide +kernel)).2.2.2 (by decide) (by decide) (by decide) (by decide) (by decide) (by decide)
        (by decide)).1 (by decide +kernel)⟩,
    ⟨_, ((h (withOp (.reading .host 9) (withRec 9 unknownRec on)) tornBytes 9 rfl rfl ⟨rfl, rfl, rfl, rfl⟩
        (by decide +kernel)).2.2.1 (by decide)).2 ⟨5, 2⟩ 0 (signatureOf ⟨5, 2⟩ blankSegment) (by decide +kernel)
        (by decide +kernel)⟩,
    ⟨_, ((h (withOp (.reading .host 9) on) tornBytes 9 rfl rfl ⟨rfl, rfl, rfl, rfl⟩ (by decide +kernel)).2.2.2
        (by decide) (by decide) (by decide) (by decide) (by decide) (by decide) (by decide)).2 ⟨5, 2⟩ 0
        (signatureOf ⟨5, 2⟩ blankSegment) (by decide +kernel) (by decide +kernel)⟩⟩

/-- The holdoff of bank 0 runs out; then a DIGEST that differs. -/
theorem witness_HoldoffEndsQuery (h : Obligations.HoldoffEndsQuery) :
    Runs (.queryHoldoffExpiry 0) holding ∧ Runs (.digest 5 0 1) { holding with roster.banks := [⟨none, none⟩] } :=
  ⟨⟨_, (h holding 0 200 (some 5) rfl).1⟩,
    (((h holding 0 200 (some 5) rfl).2 5 1 (hears_of (by decide)) rfl).2 (by decide) ⟨rfl, by decide⟩).imp
      fun _ p => p.1⟩

/-- ROSTER and SEGINFO of the last segment in DETACHED. -/
theorem witness_QueriesReport (h : Obligations.QueriesReport) : Runs .roster detached ∧ Runs (.seginfo 63) detached :=
  ⟨((h detached).2 (.inr (.inr rfl))).1.imp' (fun b => answered .done (bytes16 b) detached) fun _ p => p.1,
    (((h detached).2 (.inr (.inr rfl))).2 63 (by decide)).imp' (fun d => answered .done d detached) fun _ p => p.1⟩

/-- Length 33; two bytes from offset 255 on; one byte there, with the buffer locked and not. -/
theorem witness_StageWritesBytes (h : Obligations.StageWritesBytes) :
    Runs (.stage 255 33 []) on ∧ Runs (.stage 255 2 [1, 2]) on ∧
    Runs (.stage 255 1 [1]) locked ∧ Runs (.stage 255 1 [1]) on :=
  ⟨⟨_, (h on 255 33 [] (by decide)).1 (by decide)⟩,
    ⟨_, ((h on 255 2 [1, 2] (by decide)).2 (by decide) (by decide) (by decide)).1 (by decide)⟩,
    ⟨_, (((h locked 255 1 [1] (by decide)).2 (by decide) (by decide) (by decide)).2
      (by decide)).1 rfl⟩,
    (((h on 255 1 [1] (by decide)).2 (by decide) (by decide) (by decide)).2 (by decide)).2 rfl (by decide +kernel)
      |>.imp' (fun b => answered .done [] { on with host.staging := b }) fun _ p => p.1⟩

/-- Straps 3 and 0 after a cold start, and straps past it. -/
theorem witness_ColdStartSamplesStraps (h : Obligations.ColdStartSamplesStraps) :
    Runs (.strapSampling 3 2) { State.reset with pending := [.status] } ∧
    Runs (.strapSampling 0 3) { State.reset with pending := [.status] } ∧ Runs (.strapSampling 4 0) on :=
  ⟨⟨_, (h busyState 3 2).2.1 (by decide)⟩, ⟨_, (h busyState 0 3).2.2.1 rfl⟩, ⟨_, (h on 4 0).2.2.2 rfl⟩⟩

/-- The probe reads 0xFF first, busy first, 0xFF later; polls for 20 ms; a header with a bad check, and a good one. -/
theorem witness_ProbeAndHeader (h : Obligations.ProbeAndHeader) :
    Runs (.storeStatusReadEnd 0xFF) (starting (.probing none)) ∧
    Runs (.storeStatusReadEnd 1) (starting (.probing none)) ∧
    Runs (.storeStatusReadEnd 0xFF) (starting (.probing (some 20))) ∧
    Runs (.storeStatusReadEnd 0xFE) (starting (.probing (some 20))) ∧
    Runs .storePollTimeout (starting (.probing (some 20))) ∧
    Runs (.headerReadEnd (headerBytes.take 10 ++ [0, 0])) (starting .header) ∧
    Runs (.headerReadEnd headerBytes) (starting .header) :=
  ⟨⟨_, (h.1 (starting (.probing none))).1 rfl⟩,
    ⟨_, ((h.1 (starting (.probing none))).2.1 1 (.inl ⟨rfl, by decide⟩)).1 (by decide)⟩,
    ⟨_, ((h.1 (starting (.probing (some 20)))).2.1 0xFF (.inr ⟨20, rfl⟩)).1 (by decide)⟩,
    ⟨_, ((h.1 (starting (.probing (some 20)))).2.1 0xFE (.inr ⟨20, rfl⟩)).2 (by decide)⟩,
    ⟨_, (h.1 (starting (.probing (some 20)))).2.2.1 20 rfl⟩,
    ⟨_, (h.1 (starting .header)).2.2.2 (headerBytes.take 10 ++ [0, 0]) .check rfl (by decide +kernel)
      (by decide +kernel)⟩,
    ⟨_, h.2 (starting .header) headerBytes ⟨0x21, 64, 10, 20⟩ rfl (by decide +kernel) (by decide +kernel) rfl rfl rfl
      rfl rfl⟩⟩

/-! ### What WellFormed refuses -/

/-- R139, R144, R147: a header read of 12 bytes, slot reads of 264. -/
theorem test_wellFormed_store_bytes :
    (Instr.headerReadEnd (List.replicate 12 0)).wellFormed = true ∧
    (Instr.headerReadEnd (List.replicate 11 0)).wellFormed = false ∧
    (Instr.readbackEnd (List.replicate 263 0)).wellFormed = false ∧
    (Instr.slotReadEnd (List.replicate 265 0)).wellFormed = false := by decide +kernel

/-- R31: a sender of 0, a stamp of version 0, an origin of 16. -/
theorem test_wellFormed_broadcast :
    (Instr.news 5 9 ⟨17, 4⟩ 0).wellFormed = true ∧ (Instr.news 0 9 ⟨17, 4⟩ 0).wellFormed = false ∧
    (Instr.poll 5 9 ⟨0, 4⟩ 0).wellFormed = false ∧ (Instr.ballot 5 9 ⟨17, 16⟩ 0).wellFormed = false ∧
    (Instr.digest 0 1 0).wellFormed = false ∧
    (Instr.siglist 5 0 0 (List.replicate 15 ⟨nullStamp, .none, 0⟩)).wellFormed = false ∧
    (Instr.siglist 5 0 0 (List.replicate 16 ⟨⟨17, 0⟩, .none, 0⟩)).wellFormed = false := by decide

/-- R31: a target of 0 on a targeted kind, a chunk mask of 0; R24: a chunk of 31 bytes. -/
theorem test_wellFormed_targeted :
    (Instr.request 5 3 9 ⟨17, 4⟩ 1).wellFormed = true ∧ (Instr.request 5 3 9 ⟨17, 4⟩ 0).wellFormed = false ∧
    (Instr.request 5 0 9 ⟨17, 4⟩ 1).wellFormed = false ∧ (Instr.nohave 5 0 9 ⟨17, 4⟩).wellFormed = false ∧
    (Instr.busy 0 3 9).wellFormed = false ∧ (Instr.sigquery 5 0 1).wellFormed = false ∧
    (Instr.data 5 3 9 ⟨17, 4⟩ 7 (List.replicate 31 0)).wellFormed = false := by decide

/-- R41: no timer for station 0; R192: a known code is no unknown command; R177: a STAGE comes with its bytes, and one
with a length out of range with none. -/
theorem test_wellFormed_host :
    (Instr.silenceTimerExpiry 0).wellFormed = false ∧ (Instr.unknownCommand 0x00).wellFormed = true ∧
    (commandCodes.all fun c => !(Instr.unknownCommand c).wellFormed) = true ∧
    (Instr.stage 0 2 [1]).wellFormed = false ∧ (Instr.stage 0 33 [1]).wellFormed = false := by decide

/-! ### Worked examples of the spec -/

/-- The table "Examples of the stamp order" (chapter 1). -/
theorem test_stamp_order :
    newer ⟨17, 4⟩ ⟨16, 9⟩ = true ∧ newer ⟨2, 3⟩ ⟨65535, 3⟩ = true ∧ newer ⟨17, 9⟩ ⟨17, 4⟩ = true ∧
    newer ⟨17, 4⟩ ⟨17, 4⟩ = false ∧ newer ⟨40000, 5⟩ ⟨7232, 5⟩ = true ∧ newer ⟨7232, 5⟩ ⟨40000, 5⟩ = false ∧
    newer ⟨7232, 5⟩ ⟨40000, 2⟩ = true ∧ newer ⟨100, 1⟩ ⟨33000, 1⟩ = true ∧ newer ⟨1, 1⟩ nullStamp = true := by decide

/-- The table "the first steps of a signature" (chapter 1). -/
theorem test_signature_steps :
    signatureFeed 0xFFFFFFFF 1 = 0x72D1B84C ∧ signatureFeed 0x72D1B84C 1 = 0xE5A37099 ∧
    signatureFeed 0xE5A37099 0 = 0x4668A681 := by decide

/-- "Incremental digest update" (chapter 1): segments 65 and 97 of bank 1, then 97 at a new signature. -/
theorem test_digest_of_bank :
    rotated 65 0x80000001 = 0x00000003 ∧ rotated 97 0x80000001 = 0x00000003 ∧ rotated 97 0x00010000 = 0x00020000 ∧
    (putRec 33 { good 6 2 0 with signature := 0x00010000 }
      { on with segs := {
          recs := (on.segs.recs.set 1 (good 5 2 0x80000001)).set 33 (good 5 2 0x80000001), digests := [0] } }).segs.digests
      = [0x00020003] := by decide +kernel

/-- Chapter 3, section 3.6: segment 209 of bank 3. -/
theorem test_digest_rotation : rotated 209 0x11110000 = 0x00002222 ∧ rotated 209 0x22220000 = 0x00004444 := by decide

/-- "Three stations start together" (chapter 2). -/
theorem test_arbitration : arbitrateByte0 [0x79, 0x44, 0x42] = [0x42] := by decide

/-- The table of frame kinds (chapter 2): frame bytes before filler. -/
theorem test_frame_lengths :
    ([Body.news 1 ⟨17, 4⟩ 0, .poll 1 ⟨17, 4⟩ 0, .ballot 1 ⟨17, 4⟩ 0, .request 1 ⟨17, 4⟩ 1, .nohave 1 ⟨17, 4⟩, .busy 1,
      .data 1 ⟨17, 4⟩ 0 chunkBytes, .sigquery 0, .siglist 0 0 noneList, .digest 0 0].map fun b =>
        (frameBytes ⟨3, 0, 1, b⟩).length) = [14, 14, 14, 11, 10, 7, 43, 6, 135, 10] := by decide +kernel

/-- A REQUEST and a SIGQUERY come back from their line bits; one bit turned is no good frame. -/
theorem test_frames_received :
    (receiveLine 0x21 64 (lineBits ⟨9, 3, 0x21, .request 63 ⟨65535, 15⟩ 0x80⟩)) =
      .ok ⟨9, 3, 0x21, .request 63 ⟨65535, 15⟩ 0x80⟩ ∧
    (receiveLine 0x21 64 ((lineBits ⟨9, 3, 0x21, .sigquery 0⟩).set 30 true)) ≠ .ok ⟨9, 3, 0x21, .sigquery 0⟩ := by
  decide +kernel

/-- The table of bit rates (chapter 2): idle intervals in microseconds. -/
theorem test_idle_intervals :
    [0, 1, 2, 3].map (fun straps => idleUs (rateOf straps)) = [96, 48, 24, 12] := by decide

/-- "A full outbox" (chapter 2), steps 1 and 2: whom the POLL and the SIGQUERY put out, and where they stand. -/
theorem test_full_outbox :
    let box : List Desc := [waiting (.news 12), waiting (.request 3 100), waiting (.nohave 8 7),
      ⟨.data 5 40 0, none, true, false⟩, waiting (.data 5 40 1), waiting (.data 11 300 2), waiting (.data 11 300 3),
      waiting (.siglist 1 0), waiting (.siglist 1 1), waiting (.siglist 1 2), waiting (.siglist 1 3),
      waiting (.digest 2)]
    ((offerBox (.sigquery 4 3) none (offerBox (.poll 55) none box).1).1.map (·.ident)) =
      [.news 12, .poll 55, .request 3 100, .nohave 8 7, .data 5 40 0, .data 5 40 1, .data 11 300 2, .data 11 300 3,
        .sigquery 4 3, .siglist 1 0, .siglist 1 1, .siglist 1 2] := by decide

/-- "Classing trailers" (chapter 8). -/
theorem test_trailers :
    [[0xFF, 0xFF, 0xFF, 0xFF, 0xFF, 0xFF, 0xFF, 0xFF], [0, 0x11, 4, 0, 0x3C, 0x3C, 0x3C, 0x3C],
      [0, 0, 4, 0x5A, 0x3C, 0x3C, 0x3C, 0x3C], [0, 0x11, 0x13, 0x5A, 0x3C, 0x3C, 0x3C, 0x3C],
      [0xFF, 0xFF, 0xFF, 0xFF, 0xFF, 0xFF, 0xFF, 0]].map (fun t => classSlot (blankSegment ++ t)) =
      [.vacant, .damaged, .damaged, .damaged, .damaged] ∧
    classSlot (blankSegment ++ [0, 0x11, 4, 0x5A, 0x3C, 0x3C, 0x3C, 0x3C]) =
      .written ⟨17, 4⟩ 0x3C3C3C3C (signatureOf ⟨17, 4⟩ blankSegment) := by decide +kernel

/-- "An overflowing queue" (chapter 10): the 16th place takes LOST, and nothing follows it. -/
theorem test_overflow :
    let q := offerEvent ⟨.peerLost, none, some 4, none⟩ (news 15)
    q.length = 16 ∧ q.getLast? = some lostEvent ∧ offerEvent ⟨.orphaned, some 61, none, none⟩ q = q ∧
    offerEvent ⟨.committed, some 62, none, none⟩ (q.drop 4) = q.drop 4 ∧
    offerEvent ⟨.disputeOpened, some 70, none, none⟩ [] = [⟨.disputeOpened, some 70, none, none⟩] := by decide

/-- "A publish behind a commit" (chapter 10): 10/5 on 8/3, 9/6, none, 9/6. -/
theorem test_publish_stamp :
    nextStamp (newest [some ⟨8, 3⟩, some ⟨9, 6⟩, none, some ⟨9, 6⟩]) 5 = ⟨10, 5⟩ := by decide

/-- "One record through a run of reports" (chapter 4): a SIGLIST that raises evidence, then a NEWS that adds a holder. -/
theorem test_run_of_reports :
    let s1 := report 9 10 ⟨13, 9⟩ 0x0A0A0A0A false (withRec 10 (good 12 3 7) (census on))
    let s2 := report 4 10 ⟨13, 9⟩ 0x0A0A0A0A true s1
    let s3 := report 2 10 ⟨14, 2⟩ 0x0C0C0C0C true (report 5 10 ⟨13, 9⟩ 0x0B0B0B0B false s2)
    ((getRec s2 10).state, (getRec s2 10).evidence) = (.stale, some ⟨⟨13, 9⟩, 0x0A0A0A0A, 0x210, false⟩) ∧
    s2.repair.queue.map (·.level) = [.sweep] ∧
    (getRec s3 10).evidence = some ⟨⟨14, 2⟩, 0x0C0C0C0C, 0x004, true⟩ ∧ s3.repair.queue.map (·.level) = [.news] := by
  decide +kernel

/-- "A full queue" (chapter 4), steps 1 and 2: 610 puts 428 out and stands behind 130; 20 at SWEEP is refused. -/
theorem test_full_queue :
    let s : State := withJobs ([job 71 .news (some 5), freshEntry 130 .news,
      { freshEntry 3 .sweep with state := .suspended, slot := some .b }] ++
        (List.range 29).map fun k => freshEntry (400 + k) .sweep) { on with segs.recs := List.replicate 1024 (good 5 2 7) }
    let t := report 5 610 ⟨6, 5⟩ 1 true s
    (t.repair.queue.map (·.segment)).take 5 = [71, 130, 610, 3, 400] ∧
    t.repair.queue.getLast?.map (·.segment) = some 427 ∧ (getRec t 610).state = .stale ∧
    (report 2 20 ⟨6, 5⟩ 1 false t).repair.queue = t.repair.queue := by decide +kernel

/-- Section 5.9: station 2 is busy, so station 5 is asked and an attempt is counted, station 2 staying untried. -/
theorem test_busy_source :
    ((after (.busy 2 3 9) (run .asking)).map fun t => t.repair.queue.map fun e => (e.source, e.attempts, e.tried)) =
      some [(none, 0, 0), (some 5, 3, 0), (none, 0, 0)] := by decide

/-- A fetch of 8/5 from station 5 under way. -/
def racing : State := { withJobs [job 40 .news (some 5)]
  (withRec 40 { good 7 2 7 with state := .fetching, evidence := some ⟨⟨8, 5⟩, 5, 0x20, true⟩ } hearing) with
  repair := { on.repair with
    queue := [job 40 .news (some 5)], cond := some .asking, patience := some 20
    slotA := some ⟨40, ⟨8, 5⟩, 5, 0x07, blankSegment, some 5, none⟩ } }

/-- Section 12.1: 8/8 reaches a fetch of 8/5: the slot is reset and station 8 asked. -/
theorem test_publish_race :
    let t := (after (.news 8 40 ⟨8, 8⟩ 8) racing).getD State.reset
    t.repair.queue.map (·.source) = [some 8] ∧ t.line.outbox.map (·.ident) = [.request 8 40] ∧
    t.repair.slotA.map (fun u => (u.stamp, u.signature, u.mask)) = some (⟨8, 8⟩, 8, 0) := by decide +kernel

/-- Section 12.2, happening 5: FRESHEN of an ORPHAN sets the NEWS job aside and starts in slot C. -/
theorem test_preempted_in_turn :
    let s : State := { withJobs [job 33 .news (some 5), { job 21 .sweep (some 2) with state := .suspended, slot := some .b }]
      (withRec 51 { good 5 2 7 with state := .orphan, exhausted := true, evidence := some (ev65 0x20) }
        (withRec 33 { stale with state := .fetching } (withRec 21 { stale with state := .fetching } on))) with
      repair := {
        (withJobs [job 33 .news (some 5), { job 21 .sweep (some 2) with state := .suspended, slot := some .b }] on).repair with
        stack := [21], slotA := some ⟨33, ⟨6, 5⟩, 1, 0x1F, blankSegment, none, none⟩
        slotB := some ⟨21, ⟨6, 5⟩, 1, 0x0F, blankSegment, none, none⟩ } }
    ((after (.freshen 51) s).map fun t => (t.repair.queue.map (fun e => (e.segment, e.state, e.slot)), t.repair.stack,
      (getRec t 51).state)) =
      some ([(51, .active, some .c), (33, .suspended, some .a), (21, .suspended, some .b)], [33, 21], .fetching) := by
  decide +kernel

/-- Section 12.4: a torn slot: the record DAMAGED and the event with the trailer's stamp. -/
theorem test_torn_slot :
    ((after (.slotReadEnd ((slotBytes 7 ⟨5, 2⟩).set 0 8)) (counting 20)).map fun t =>
      ((getRec t 20).state, (getRec t 20).usable, (getRec t 20).stamp, t.host.events, t.start.cursor)) =
      some (.damaged, false, nullStamp, [⟨.damaged, some 20, none, some ⟨5, 2⟩⟩], 21) := by decide +kernel

/-- R173: the 29 bytes of SEGINFO for a record in dispute, pinned, with evidence and a suspended entry. -/
theorem test_seginfo_bytes :
    (answerTo (.seginfo 9) (withDisputes [⟨9, ⟨5, 2⟩, [(3, 7)], 2, 300⟩]
      { withRec 9 { doubted with evidence := some (ev65 0x20), rounds := 3 } on with
        repair := { on.repair with
          queue := [{ freshEntry 9 .news with state := .suspended, tried := 0x12 }], pins := [9] } })) =
      some ⟨.done, [6, 1, 0, 5, 2, 0, 0, 0, 7, 0x7E, 3, 0, 0, 0, 6, 5, 0, 0, 0, 1, 0, 0x20, 2, 3, 0, 0, 0x12, 2, 1]⟩ := by
  decide +kernel

/-- R178, R1: after 65535/5 comes version 1. -/
theorem test_publish_wraps :
    answerTo (.publish 9) (withRec 9 { good 65534 2 7 with evidence := some ⟨⟨65535, 5⟩, 1, 0x20, true⟩ } on) =
      some ⟨.accepted, [0, 1, 3]⟩ := by decide +kernel

/-- R177: one byte at offset 255, from the last place on. -/
theorem test_stage_last_byte :
    (after (.stage 255 1 [9]) on).map (·.host.staging) = some (List.replicate 255 0 ++ [9]) := by decide +kernel

/-- The rows give no bits, so no word spells a command. -/
theorem test_no_word : decodeTableWord 8 0x01 = none ∧ (State.reset.withFetchWord 8 0x01) = State.reset := by decide +kernel

end Sys2Proof.Tests
end

section
/-! PROOFS. Stamps and their order (R2, R3), the signature register (R4), the settle rule (R15) and the change of one
record (R17, R18, R54). -/

namespace Sys2Proof.Machine

/-! ### The order of stamps (R2) -/

/-- R2: how far version `a` stands ahead of version `b`, modulo 65536. -/
def versionGap (a b : Stamp) : Nat := (a.version.toNat + 65536 - b.version.toNat) % 65536

theorem versionGap_eq (a b : Stamp) : (a.version - b.version).toNat = versionGap a b := by
  have := b.version.isLt
  rw [BitVec.toNat_sub, versionGap]
  congr 1
  omega

theorem stamp_ne_iff (a b : Stamp) :
    a ≠ b ↔ a.version.toNat ≠ b.version.toNat ∨ a.origin.toNat ≠ b.origin.toNat := by
  cases a
  cases b
  simp only [ne_eq, Stamp.mk.injEq, BitVec.toNat_eq]
  omega

theorem newer_null (b : Stamp) : newer nullStamp b = false := by
  unfold newer
  split <;> simp

theorem newer_than_null (a : Stamp) (h : a ≠ nullStamp) : newer a nullStamp = true := by
  simp [newer, h]

/-- R2: the table for two non-null stamps, in the numbers it compares. -/
theorem newer_iff {a b : Stamp} (hab : a ≠ b) (ha : a ≠ nullStamp) (hb : b ≠ nullStamp) :
    newer a b = true ↔
      (1 ≤ versionGap a b ∧ versionGap a b < 32768) ∨
      ((versionGap a b = 0 ∨ versionGap a b = 32768 ∧ a.origin.toNat ≠ b.origin.toNat) ∧
        b.origin.toNat < a.origin.toNat) ∨
      (versionGap a b = 32768 ∧ a.origin.toNat = b.origin.toNat ∧ b.version.toNat < a.version.toNat) := by
  simp only [newer, hab, ha, hb, if_false, versionGap_eq, BitVec.toNat_eq (x := a.origin)]
  split_ifs <;> simp only [decide_eq_true_eq, true_iff, false_iff] <;> omega

/-- R2: of two stamps that are not the same, exactly one is newer. -/
theorem newer_eq_not (a b : Stamp) (hab : a ≠ b) : newer a b = !newer b a := by
  by_cases ha : a = nullStamp
  · subst ha
    rw [newer_null, newer_than_null b (Ne.symm hab)]
    rfl
  · by_cases hb : b = nullStamp
    · subst hb
      rw [newer_null, newer_than_null a ha]
      rfl
    · rw [Bool.eq_iff_iff, Bool.not_eq_true', ← Bool.not_eq_true, newer_iff hab ha hb,
        newer_iff (Ne.symm hab) hb ha]
      have hne := (stamp_ne_iff a b).mp hab
      have h1 := a.version.isLt
      have h2 := b.version.isLt
      unfold versionGap
      omega

/-- Settles O10: the four lines of the table read off `newer_iff`. -/
theorem stampOrder : Obligations.StampOrder := by
  intro a b hab
  refine ⟨newer_eq_not a b hab, fun hb => hb ▸ newer_than_null a (hb ▸ hab), fun ha hb => ?_⟩
  have hne := (stamp_ne_iff a b).mp hab
  have h1 := a.version.isLt
  have h2 := b.version.isLt
  simp only [newer_iff hab ha hb, newer_iff (Ne.symm hab) hb ha, versionGap, ne_eq, BitVec.toNat_eq (x := a.origin)]
  refine ⟨?_, ?_, ?_, ?_⟩ <;> omega

/-! ### The newest of a list (R3) -/

/-- Absent entries leave the running choice. -/
theorem foldl_newestStep_filterMap (l : List (Option Stamp)) (c : Option Stamp) :
    l.foldl newestStep c = ((l.filterMap id).map some).foldl newestStep c := by
  induction l generalizing c with
  | nil => rfl
  | cons x rest ih =>
    cases x with
    | none => cases c <;> exact ih _
    | some t => exact ih _

theorem newestStep_some (t u : Stamp) : newestStep (some t) (some u) = some (if newer u t then u else t) :=
  (apply_ite some _ _ _).symm

/-- Settles O11: the fold of R3, one entry at a time. -/
theorem newestOfList : Obligations.NewestOfList := by
  refine ⟨fun l => congrArg (Option.getD · nullStamp) (foldl_newestStep_filterMap l none), rfl, fun _ => rfl,
    fun t u l => congrArg (Option.getD · nullStamp) ?_⟩
  calc (List.map some (t :: u :: l)).foldl newestStep none
      = (l.map some).foldl newestStep (newestStep (some t) (some u)) := rfl
    _ = (l.map some).foldl newestStep (some (if newer u t then u else t)) := by rw [newestStep_some]
    _ = (List.map some ((if newer u t then u else t) :: l)).foldl newestStep none := rfl

/-! ### The signature register (R4) -/

/-- R4: the words of `2n` data bytes, byte `2k` the upper one of word `k`. -/
theorem dataWords_eq_map (n : Nat) : ∀ data : List Byte, data.length = 2 * n →
    dataWords data = (List.range n).map fun k => data.getD (2 * k) 0 ++ data.getD (2 * k + 1) 0 := by
  induction n with
  | zero =>
    intro data h
    obtain rfl := List.eq_nil_of_length_eq_zero h
    rfl
  | succ n ih =>
    intro data h
    match data, h with
    | hi :: lo :: rest, h =>
      have hlen : rest.length = 2 * n := by simpa [Nat.mul_succ] using h
      rw [dataWords, ih rest hlen, List.range_succ_eq_map, List.map_cons, List.map_map]
      rfl

/-- R4: one step of the register. -/
theorem signatureFeed_eq (reg : Signature) (w : BitVec 16) :
    signatureFeed reg w = (reg <<< 1) ^^^ (if reg.getLsbD 31 then 0x8D2E47B3#32 else 0#32) ^^^ (0#16 ++ w) := by
  have hw : w.setWidth 32 = 0#16 ++ w := BitVec.setWidth_eq_append (by decide)
  unfold signatureFeed
  rw [hw]
  split
  · rfl
  · simp

/-- Settles O12: the step of the register, and the words it is fed. -/
theorem signatureByRegister : Obligations.SignatureByRegister := by
  refine ⟨signatureFeed_eq, fun t data ht hlen => ?_, fun data => by simp [signatureOf]⟩
  have horigin : t.origin.setWidth 16 = 0#8 ++ t.origin := BitVec.setWidth_eq_append (by decide)
  rw [signatureOf, if_neg ht, horigin, dataWords_eq_map 128 data hlen]
  rfl

/-! ### The settle rule (R15) -/

/-- Settles O13: each line of R15 in turn. -/
theorem settleTakesFirstLine : Obligations.SettleTakesFirstLine := by
  intro slotHeld r
  refine ⟨fun h => by simp [settledState, h], fun h => ?_⟩
  unfold settledState
  rw [if_neg h]
  cases slotHeld with
  | true => simp
  | false =>
    by_cases hp : r.pendingWrites = 0
    · cases hu : r.usable with
      | false => simp [hp]
      | true =>
        cases he : r.evidence with
        | none => cases hm : r.mark <;> simp [hp]
        | some ev => cases hx : r.exhausted <;> simp [hp]
    · simp [hp, Nat.pos_of_ne_zero hp]

/-! ### The change of one record (R17, R18, R54) -/

theorem changeDigest_banks (b : Nat) (delta : Signature) (s : State) :
    (changeDigest b delta s).roster.banks =
      if delta = 0 then s.roster.banks else stopHoldoff b (s.segs.digests.getD b 0 ^^^ delta) s.roster.banks := by
  unfold changeDigest
  split <;> rfl

/-- R54: only the bank whose digest changed loses its holdoff. -/
theorem stopHoldoff_other (b k : Nat) (d : Signature) (banks : List BankEntry) (h : k ≠ b) :
    (stopHoldoff b d banks)[k]? = banks[k]? := by
  unfold stopHoldoff
  split
  · split
    · exact List.getElem?_set_ne (Ne.symm h)
    · rfl
  · rfl

theorem stopHoldoff_self (b : Nat) (d : Signature) (banks : List BankEntry) (e : BankEntry) (h : banks[b]? = some e) :
    (stopHoldoff b d banks)[b]? =
      some (if e.holdoff.isSome = true ∧ e.copy = some d then ⟨none, none⟩ else e) := by
  have hb : b < banks.length := (List.getElem?_eq_some_iff.mp h).1
  simp only [stopHoldoff, h]
  split
  · simp [hb]
  · exact h

theorem changeDigest_frame (b : Nat) (delta : Signature) (s : State) :
    changeDigest b delta s =
      { s with segs := (changeDigest b delta s).segs, roster.banks := (changeDigest b delta s).roster.banks } := by
  unfold changeDigest
  split <;> rfl

/-- A rotation loses no bit: bit `i` of the word stands at `i + r`, wrapped at the width. -/
theorem rotateLeft_injective {w : Nat} (r : Nat) {x y : BitVec w} (h : x.rotateLeft r = y.rotateLeft r) : x = y := by
  ext i hi
  have hr : r % w < w := Nat.mod_lt _ (by omega)
  by_cases hwrap : i + r % w < w
  · have := congrArg (fun z : BitVec w => z[i + r % w]) h
    simpa [BitVec.getElem_rotateLeft] using this
  · have hlt : i - (w - r % w) < r % w := by omega
    have hback : w - r % w + (i - (w - r % w)) = i := by omega
    have := congrArg (fun z : BitVec w => z[i - (w - r % w)]) h
    simpa [BitVec.getElem_rotateLeft, hlt, hback] using this

/-- R18: a digest changes exactly when the contributed signature does. -/
theorem rotated_change_eq_zero (i : Nat) (x y : Signature) : rotated i x ^^^ rotated i y = 0 ↔ x = y :=
  BitVec.xor_eq_zero_iff.trans ⟨rotateLeft_injective _, fun h => by rw [h]⟩

theorem putRec_eq (i : Nat) (r : SegRec) (s : State) (h : i < segCount s) :
    putRec i r s = changeDigest (i / Config.bankSize)
      (rotated i (contributed (getRec s i)) ^^^ rotated i (contributed r))
      { s with segs.recs := s.segs.recs.set i r } := if_pos h

/-- Settles O14: a record in the table is written by one change of its bank's digest. -/
theorem recordChangeUpdatesDigest : Obligations.RecordChangeUpdatesDigest := by
  intro s i r hi _
  have hput := putRec_eq i r s hi
  have hdelta := rotated_change_eq_zero i (contributed (getRec s i)) (contributed r)
  refine ⟨?_, putRec_recs s i r, ?_, fun b hb => ?_, fun hsame => ?_, fun e he hdiff => ?_⟩
  · rw [hput]
    exact changeDigest_frame _ _ _
  · rw [hput, changeDigest_digests, ← BitVec.xor_assoc]
    rfl
  · rw [hput, changeDigest_banks]
    split
    · rfl
    · exact stopHoldoff_other _ _ _ _ hb
  · rw [hput, changeDigest_banks, if_pos (hdelta.mpr hsame.symm)]
  · rw [hput, changeDigest_banks, if_neg fun h => hdiff (hdelta.mp h).symm]
    rw [← BitVec.xor_assoc]
    exact stopHoldoff_self _ _ _ _ he

end Sys2Proof.Machine
end

section
/-! PROOFS. What a command does to the local copies (R8) and the bank digests (R18): every operation keeps the size of
the table, the digests right and the copies of the segments it does not touch, and so does every command but the starts
and the header read, which build the table anew. -/

namespace Sys2Proof.Machine

variable {keep : Nat → Prop} {s t u : State}

/-- From `s` to `t` the table keeps its size, its digests stay right (R18), and the segments in `keep` keep their local
stamp and local signature (R8). -/
structure KeepsCopies (keep : Nat → Prop) (s t : State) : Prop where
  count : segCount t = segCount s
  copy : ∀ i, keep i → (getRec t i).stamp = (getRec s i).stamp ∧ (getRec t i).signature = (getRec s i).signature
  digests : DigestsOk s.segs → DigestsOk t.segs

namespace KeepsCopies

theorem trans (h1 : KeepsCopies keep s t) (h2 : KeepsCopies keep t u) : KeepsCopies keep s u where
  count := h2.count.trans h1.count
  copy i hi := ⟨(h2.copy i hi).1.trans (h1.copy i hi).1, (h2.copy i hi).2.trans (h1.copy i hi).2⟩
  digests ok := h2.digests (h1.digests ok)

/-- What does not touch the Segment Table. -/
theorem of_segs (h : t.segs = s.segs) : KeepsCopies keep s t where
  count := by rw [segCount, h, segCount]
  copy i _ := by rw [getRec, h, getRec]; exact ⟨rfl, rfl⟩
  digests ok := by rw [h]; exact ok

theorem refl (s : State) : KeepsCopies keep s s := of_segs rfl

theorem of_moves (h : Moves s t) : KeepsCopies keep s t := ⟨h.sizes.1, fun i _ => h.copies i, h.digests⟩

theorem of_inner (h : Inner s t) : KeepsCopies keep s t := of_moves h.moves

/-- A record rewritten, its copy kept or its segment not among those in `keep`. -/
theorem of_modifyRec (i : Nat) (f : SegRec → SegRec)
    (hf : keep i → ∀ r, (f r).stamp = r.stamp ∧ (f r).signature = r.signature) :
    KeepsCopies keep s (modifyRec i f s) where
  count := segCount_putRec s i _
  copy j hj := by
    by_cases hij : i = j
    · subst hij
      by_cases hi : i < segCount s
      · rw [getRec_modifyRec_self s i f hi]
        exact hf hj _
      · rw [modifyRec_outside s i f hi]
        exact ⟨rfl, rfl⟩
    · rw [getRec_modifyRec_other s i j f hij]
      exact ⟨rfl, rfl⟩
  digests := putRec_digestsOk s i _

/-- Every record rewritten alike, with its copy and its contributed signature. -/
theorem of_mapRecs (f : SegRec → SegRec) (hf : ∀ r, (f r).stamp = r.stamp ∧ (f r).signature = r.signature)
    (hc : ∀ r, contributed (f r) = contributed r) :
    KeepsCopies keep s { s with segs.recs := s.segs.recs.map f } where
  count := by simp [segCount]
  copy i _ := by
    by_cases hi : i < segCount s
    · rw [getRec_map f s i hi]
      exact hf _
    · rw [getRec_eq s i hi, getRec_eq _ i (by simpa [segCount] using hi)]
      exact ⟨rfl, rfl⟩
  digests := digestsOk_map s.segs f hc

end KeepsCopies

open KeepsCopies

/-! ### Operations that leave the Segment Table alone -/

@[simp] theorem presence_segs (p : Station) (s : State) : (presence p s).segs = s.segs := by
  unfold presence
  dsimp only
  split <;> simp

@[simp] theorem endOp_segs (s : State) : (endOp s).segs = s.segs := by simp [endOp]

@[simp] theorem afterStraps_segs (s : State) : (afterStraps s).segs = s.segs := by
  unfold afterStraps
  split <;> rfl

@[simp] theorem restartGoesOn_segs (s : State) : (restartGoesOn s).segs = s.segs := by simp [restartGoesOn, freeBuffers]

@[simp] theorem finishedFrame_segs (s : State) : (finishedFrame s).segs = s.segs := rfl

@[simp] theorem startTransmission_segs (s : State) : (startTransmission s).segs = s.segs := by
  unfold startTransmission
  repeat' split
  all_goals rfl

@[simp] theorem loseArbitration_segs (s : State) : (loseArbitration s).segs = s.segs := by
  unfold loseArbitration
  split <;> rfl

@[simp] theorem writeSequenceEnd_segs (s : State) : (writeSequenceEnd s).segs = s.segs := by
  unfold writeSequenceEnd
  split <;> rfl

@[simp] theorem holdoffExpiry_segs (b : Nat) (s : State) : (holdoffExpiry b s).segs = s.segs := by
  unfold holdoffExpiry
  repeat' split
  all_goals rfl

@[simp] theorem startGoesOn_segs (s : State) : (startGoesOn s).segs = s.segs := by
  unfold startGoesOn
  split <;> rfl

@[simp] theorem sampleStraps_segs (stn : BitVec 4) (rate : BitVec 2) (s : State) :
    (sampleStraps stn rate s).segs = s.segs := by
  unfold sampleStraps
  split <;> simp

@[simp] theorem censusEvent_segs (i : Nat) (r : SlotResult) (s : State) : (censusEvent i r s).segs = s.segs := by
  rcases censusEvent_cases i r s with h | ⟨_, h⟩ <;> rw [h]
  rfl

/-! ### DETACH, the clash count and the entry to ACTIVE -/

theorem forgetEvidence_copy (r : SegRec) :
    (forgetEvidence r).stamp = r.stamp ∧ (forgetEvidence r).signature = r.signature :=
  ⟨clearExhausted_stamp { r with evidence := none }, clearExhausted_signature { r with evidence := none }⟩

theorem disputesOff_keeps (s : State) : KeepsCopies keep s (disputesOff s) :=
  (of_inner (roundsOff_inner s.disputes)).trans (of_segs rfl)

/-- R164: the records lose their evidence, not their copies. -/
theorem detachSequence_keeps (r : Reason) (s : State) : KeepsCopies keep s (detachSequence r s) := by
  unfold detachSequence
  refine KeepsCopies.trans (KeepsCopies.trans ?_ (disputesOff_keeps _))
    ((of_mapRecs forgetEvidence forgetEvidence_copy contributed_forget).trans (of_segs rfl))
  exact of_segs rfl

theorem countClash_keeps (s : State) : KeepsCopies keep s (countClash s) := by
  have count : KeepsCopies keep s { s with line.clashes := min Config.clashLimit (s.line.clashes + 1) } := of_segs rfl
  unfold countClash
  dsimp only
  split
  · exact count.trans (detachSequence_keeps _ _)
  · exact count

theorem ownNumber_keeps (s : State) : KeepsCopies keep s (ownNumber s) := by
  unfold ownNumber
  split
  · exact countClash_keeps s
  · exact refl s

/-- R162, R166: the joining of the line makes inner moves between two changes of the roster. -/
theorem joinLine_keeps (s : State) : KeepsCopies keep s (joinLine s) := by
  obtain ⟨_, _, offered, worked⟩ := joinLine_moves s
  have beacon : KeepsCopies keep (offer (.digest 0) (setRoster s.start.station ⟨true, none⟩ s))
    (startBeacon (setRoster s.start.station ⟨true, none⟩ s)) := of_segs rfl
  exact (of_segs (setRoster_segs s _ _)).trans ((of_moves offered).trans (beacon.trans (of_moves worked)))

theorem attachSequence_keeps (s : State) : KeepsCopies keep s (attachSequence s) := by
  unfold attachSequence
  refine KeepsCopies.trans ?_ (joinLine_keeps _)
  exact of_segs rfl

theorem enterActive_keeps (s : State) : KeepsCopies keep s (enterActive s) := by
  unfold enterActive
  refine KeepsCopies.trans ?_ (joinLine_keeps _)
  exact of_segs rfl

/-! ### The end of a transmission -/

theorem clashed_keeps (s : State) : KeepsCopies keep s (clashed s) := by
  unfold clashed
  split
  · refine KeepsCopies.trans ?_ ((of_inner (tellEnd_inner _)).trans (countClash_keeps _))
    exact of_segs rfl
  · exact (of_segs (finishedFrame_segs s)).trans (countClash_keeps _)
  · exact of_segs rfl
  · exact refl s

theorem endedCleanly_keeps (s : State) : KeepsCopies keep s (endedCleanly s) := by
  unfold endedCleanly
  split
  · refine KeepsCopies.trans ?_ (of_inner (tellEnd_inner _))
    exact of_segs rfl
  · exact of_segs rfl
  · exact of_segs rfl
  · exact refl s

/-! ### Frames received -/

theorem receiveFrame_keeps (p q : Station) (b : Body) (f : State → State)
    (hf : ∀ u, p ≠ u.start.station → KeepsCopies keep u (f u)) (s : State) :
    KeepsCopies keep s (receiveFrame p q b f s) := by
  have ended : KeepsCopies keep s (endReception s) := of_segs rfl
  unfold receiveFrame
  split
  · exact refl s
  · dsimp only
    split
    · exact ended
    · split
      · exact ended.trans (ownNumber_keeps _)
      · rename_i hp
        have noted : KeepsCopies keep s (presence p (endReception s)) := of_segs (by simp)
        split
        · exact noted.trans (hf _ (by rw [presence_start]; exact hp))
        · exact noted

theorem inActive_keeps (f : State → State) (hf : s.start.top = .active → KeepsCopies keep s (f s)) :
    KeepsCopies keep s (inActive f s) := by
  unfold inActive
  split
  · rename_i h
    exact hf h
  · exact refl s

/-- R60, R61: a NEWS body of another station makes inner moves. -/
theorem deliverNews_inner (p : Station) (i : Nat) (t : Stamp) (x : Signature) (hp : p ≠ s.start.station) :
    Inner s (deliverNews p i t x s) := by
  unfold deliverNews
  split
  · exact .refl s
  · rename_i hn
    exact report_inner p i t x true hp hn

/-- R124: a POLL body at the Segment Table first. -/
theorem pollTableFirst_inner (p : Station) (i : Nat) (t : Stamp) (x : Signature) (ht : s.start.top = .active)
    (hp : p ≠ s.start.station) : Inner s (disputePoll p i t x (disputePathReport p i t x s)) := by
  have table := disputePathReport_inner (s := s) p i t x hp
  exact table.trans (disputePoll_inner p i t x (by rw [table.start]; exact ht) (by rw [table.start]; exact hp))

/-- R124: a POLL body at the Dispute Unit first. -/
theorem pollDisputeFirst_inner (p : Station) (i : Nat) (t : Stamp) (x : Signature) (ht : s.start.top = .active)
    (hp : p ≠ s.start.station) : Inner s (disputePathReport p i t x (disputePoll p i t x s)) := by
  have vote := disputePoll_inner (s := s) p i t x ht hp
  exact vote.trans (disputePathReport_inner p i t x (by rw [vote.start]; exact hp))

/-- R33, R124: in either order a POLL body makes inner moves, but for the model's count of free orders (log 18). -/
theorem deliverPoll_inner (p : Station) (i : Nat) (t : Stamp) (x : Signature) (ht : s.start.top = .active)
    (hp : p ≠ s.start.station) : ∃ u n, Inner s u ∧ deliverPoll p i t x s = { u with freeOrders := n } := by
  unfold deliverPoll
  dsimp only
  split
  · split
    · exact ⟨_, _, pollTableFirst_inner p i t x ht hp, rfl⟩
    · exact ⟨_, _, pollDisputeFirst_inner p i t x ht hp, rfl⟩
  · exact ⟨_, _, pollTableFirst_inner p i t x ht hp, rfl⟩

theorem deliverPoll_keeps (p : Station) (i : Nat) (t : Stamp) (x : Signature) (ht : s.start.top = .active)
    (hp : p ≠ s.start.station) : KeepsCopies keep s (deliverPoll p i t x s) := by
  obtain ⟨u, n, hu, heq⟩ := deliverPoll_inner (s := s) p i t x ht hp
  rw [heq]
  exact (of_inner hu).trans (of_segs rfl)

/-- R125: a BALLOT body makes inner moves. -/
theorem deliverBallot_inner (p : Station) (i : Nat) (t : Stamp) (x : Signature) (ht : s.start.top = .active)
    (hp : p ≠ s.start.station) : Inner s (deliverBallot p i t x s) := by
  have table := disputePathReport_inner (s := s) p i t x hp
  exact table.trans (disputeBallot_inner p i t x (by rw [table.start]; exact ht) (by rw [table.start]; exact hp))

/-- R96: a BUSY body makes inner moves. -/
theorem deliverBusy_inner (p : Station) (i : Nat) (ht : s.start.top = .active) : Inner s (deliverBusy p i s) := by
  unfold deliverBusy
  split
  · exact sourceBusy_inner p i ht
  · exact .refl s

/-- R55: the answer to a SIGQUERY is four offers. -/
theorem deliverSigquery_inner (b : Nat) : Inner s (deliverSigquery b s) :=
  (offer_inner _).trans ((offer_inner _).trans ((offer_inner _).trans (offer_inner _)))

theorem deliverDigest_keeps (p : Station) (b : Nat) (x : Signature) (s : State) :
    KeepsCopies keep s (deliverDigest p b x s) := by
  unfold deliverDigest
  repeat' split
  · exact refl s
  · exact refl s
  · exact (of_inner (offer_inner _)).trans (of_segs rfl)

/-! ### Timers -/

/-- R128: a lost station's ballots are removed, and the open disputes evaluated. -/
theorem disputeStationLost_keeps (p : Station) (s : State) : KeepsCopies keep s (disputeStationLost p s) := by
  unfold disputeStationLost
  refine KeepsCopies.trans ?_ (of_inner (foldAny_inner _ (fun u i => evaluate_inner (s := u) i) _ _))
  exact of_segs rfl

theorem silenceExpiry_keeps (p : Station) (s : State) : KeepsCopies keep s (silenceExpiry p s) := by
  unfold silenceExpiry
  split
  · have noted : KeepsCopies keep s (raise .peerLost none (some p) none (setRoster p ⟨false, none⟩ s)) :=
      of_segs (by simp)
    refine noted.trans ((of_mapRecs (dropHolder p) (fun _ => ⟨rfl, rfl⟩) (fun _ => rfl)).trans ?_)
    exact (of_inner ((engineStationLost_inner p).trans (serveStationLost_inner p))).trans (disputeStationLost_keeps p _)
  · exact refl s

theorem beaconExpiry_keeps (s : State) : KeepsCopies keep s (beaconExpiry s) := by
  unfold beaconExpiry
  split
  · exact (of_inner (offer_inner _)).trans (of_segs rfl)
  · exact refl s

/-! ### Host commands -/

theorem takeCommand_keeps (f : TopState → Bool) (g : State → Bool) (rule : State → State)
    (hr : f s.start.top = true → KeepsCopies keep s (rule s)) : KeepsCopies keep s (takeCommand f g rule s) := by
  unfold takeCommand
  repeat' split
  · exact of_segs rfl
  · exact of_segs rfl
  · rename_i h _
    exact hr (by simpa using h)

/-- The answer of a command leaves the copies. -/
theorem KeepsCopies.answered (h : KeepsCopies keep s t) (k : ResultCode) (d : List Byte) :
    KeepsCopies keep s (answer k d t) := h.trans (of_segs rfl)

theorem readRule_keeps (i : Nat) (s : State) : KeepsCopies keep s (readRule i s) := by
  unfold readRule requestHostRead
  repeat' split
  all_goals exact of_segs (by simp)

theorem takeRule_keeps (s : State) : KeepsCopies keep s (takeRule s) := by
  unfold takeRule
  split <;> exact of_segs rfl

theorem stageRule_keeps (o : Nat) (b : List Byte) (s : State) : KeepsCopies keep s (stageRule o b s) := by
  unfold stageRule
  split <;> exact of_segs rfl

/-- R178: a PUBLISH counts its write and changes no copy until the write has ended. -/
theorem publishRule_keeps (i : Nat) (s : State) : KeepsCopies keep s (publishRule i s) := by
  unfold publishRule
  split
  · exact of_segs rfl
  · have requested := of_moves (keep := keep) (requestWrite_moves ⟨.publish, i, publishStamp i s⟩
      { publishClose i (publishCancel i (modifyRec i counted s)) with host.locked := true })
    have locked : KeepsCopies keep (publishClose i (publishCancel i (modifyRec i counted s)))
      { publishClose i (publishCancel i (modifyRec i counted s)) with host.locked := true } := of_segs rfl
    exact ((of_moves (publish_moves i s)).trans (locked.trans requested)).answered _ _

theorem askBank_inner (i : Nat) : Inner s (askBank i s) := by
  unfold askBank
  split
  · exact offer_inner _
  · exact .refl s

theorem freshenable_state {r : SegRec} (h : freshenable r = true) : r.state ≠ .unknown := by
  intro hu
  simp [freshenable, hu] at h

/-- R80: a record that a FRESHEN has taken can be fetched. -/
theorem wanted_freshenRec {r : SegRec} (h : freshenable r = true) : Wanted (freshenRec r) := by
  rw [freshenRec_eq]
  simp only [freshenable, Bool.or_eq_true, Bool.and_eq_true, decide_eq_true_eq] at h
  rcases h with (h | h) | ⟨h, he⟩
  · exact .inl (by simp [h])
  · exact .inl (by simp [h])
  · exact .inr (.inr ⟨by simp [h], he⟩)

/-- R80: a record that a FRESHEN takes is rewritten and its entry admitted or raised by inner moves. -/
theorem freshenEnter_inner (i : Nat) (ht : listening s.start.top = true) (hpin : pinned s i = false)
    (hf : freshenable (getRec s i) = true) : Inner s (enterQueue .demand i (modifyRec i freshenRec s)) := by
  have hi : i < segCount s := by
    by_contra hi
    exact freshenable_state hf (by rw [getRec_eq s i hi]; rfl)
  refine (freshenRec_inner i hf).trans (enterQueue_inner .demand i ?_ ?_ ?_)
  · simpa [pinned] using hpin
  · rw [getRec_modifyRec_self s i _ hi]
    exact wanted_freshenRec hf
  · simpa using ht

/-- R80: FRESHEN by the lines of its table. -/
theorem freshenActive_keeps (i : Nat) (ht : listening s.start.top = true) : KeepsCopies keep s (freshenActive i s) := by
  unfold freshenActive
  dsimp only
  split
  · exact of_segs rfl
  · split
    · exact of_segs rfl
    · rename_i hrefuse
      have hpin : pinned s i = false := by simpa using (not_or.mp hrefuse).1
      split
      · exact (of_inner (askBank_inner i)).answered _ _
      · split
        · rename_i hf
          exact (of_inner (enterQueue_inner .demand i hpin (.inr (.inl hf)) ht)).answered _ _
        · split
          · rename_i hf
            exact (of_inner (freshenEnter_inner i ht hpin hf.1)).answered _ _
          · exact of_segs rfl

theorem freshenRule_keeps (i : Nat) (ht : inRunning s.start.top = true) : KeepsCopies keep s (freshenRule i s) := by
  unfold freshenRule
  split
  · exact of_segs rfl
  · rename_i hd
    refine freshenActive_keeps i ?_
    revert ht hd
    cases s.start.top <;> simp [inRunning, listening]

theorem pinCancel_keeps (i : Nat) (s : State) : KeepsCopies keep s (pinCancel i s) := by
  unfold pinCancel cancelEntry
  split
  · exact of_inner ((dropEntry_inner i).trans ((settle_inner i).trans (backfill_inner.trans pick_inner)))
  · exact refl s

theorem pinRule_keeps (i : Nat) (s : State) : KeepsCopies keep s (pinRule i s) := by
  have listed : KeepsCopies keep s { s with repair.pins := s.repair.pins ++ [i] } := of_segs rfl
  unfold pinRule
  repeat' split
  · exact of_segs rfl
  · exact of_segs rfl
  · exact (listed.trans (pinCancel_keeps i _)).answered _ _

theorem unpinRule_keeps (i : Nat) (s : State) : KeepsCopies keep s (unpinRule i s) := by
  have unlisted : KeepsCopies keep s { s with repair.pins := s.repair.pins.filter (fun j => j ≠ i) } := of_segs rfl
  unfold unpinRule
  split
  · exact (unlisted.trans (of_inner (offerRepair_inner i))).answered _ _
  · exact of_segs rfl

theorem acceptRule_keeps (i : Nat) (s : State) : KeepsCopies keep s (acceptRule i s) := by
  unfold acceptRule
  split
  · exact (of_inner ((closeSettle_inner i).trans (takeUpIf_inner _))).answered _ _
  · exact of_segs rfl

theorem detachRule_keeps (s : State) : KeepsCopies keep s (detachRule s) := by
  unfold detachRule
  split
  · exact (detachSequence_keeps _ s).answered _ _
  · exact of_segs rfl

theorem attachRule_keeps (s : State) : KeepsCopies keep s (attachRule s) := by
  unfold attachRule
  split
  · exact (attachSequence_keeps s).answered _ _
  · exact of_segs rfl

/-! ### Ends of store operations -/

/-- R106, R181: a failed write counts a failure and leaves stamp and signature. -/
theorem failedWrite_keeps (i : Nat) (s : State) : KeepsCopies keep s (modifyRec i failedRec s) :=
  of_modifyRec i failedRec fun _ _ => ⟨rfl, rfl⟩

theorem freeCommit_keeps (s : State) : KeepsCopies keep s (freeCommit s) := by
  have freed : KeepsCopies keep s { s with repair.commit := none } := of_segs rfl
  exact freed.trans (of_inner readyHandOff_inner)

/-- R105: a commit write that succeeded changes the copy of the commit buffer's segment. -/
theorem commitSucceeded_keeps (hk : ∀ b, s.repair.commit = some b → ¬ keep b.segment) :
    KeepsCopies keep s (commitSucceeded s) := by
  unfold commitSucceeded
  split
  · exact refl s
  · rename_i b hb
    have written : KeepsCopies keep s (modifyRec b.segment (writtenRec b.stamp b.signature) s) :=
      of_modifyRec _ _ fun h => absurd h (hk b hb)
    exact written.trans ((of_inner ((Inner.event _ _ _ _ _).trans (settle_inner _))).trans (freeCommit_keeps _))

theorem commitFailed_keeps (w : WriteOp) (s : State) : KeepsCopies keep s (commitFailed w s) :=
  (failedWrite_keeps _ s).trans
    ((of_moves ((loseCopy_moves _ _).trans (.event _ _ _ _ _))).trans (freeCommit_keeps _))

/-- R180: a publish write that succeeded changes the copy of its segment. -/
theorem publishSucceeded_keeps (w : WriteOp) (hk : ¬ keep w.segment) : KeepsCopies keep s (publishSucceeded w s) := by
  have written : KeepsCopies keep s (modifyRec w.segment (fun r =>
      { writtenRec w.stamp (w.signature.getD (writeSignature w s)) r with exhausted := false }) s) :=
    of_modifyRec _ _ fun h => absurd h hk
  refine written.trans (KeepsCopies.trans ?_
    (of_inner ((settle_inner w.segment).trans ((offer_inner (.news w.segment)).trans (Inner.event _ _ _ _ _)))))
  exact of_segs rfl

theorem publishFailed_keeps (w : WriteOp) (s : State) : KeepsCopies keep s (publishFailed w s) := by
  refine (failedWrite_keeps w.segment s).trans (KeepsCopies.trans ?_
    (of_moves ((loseCopy_moves w.segment _).trans (.event _ _ _ _ _))))
  exact of_segs rfl

/-- The segments whose copies the end of the write `w` cannot change. -/
def SparedByWrite (w : WriteOp) (s : State) (i : Nat) : Prop :=
  i ≠ w.segment ∧ ∀ b, w.client = .commit → s.repair.commit = some b → i ≠ b.segment

theorem applyWrite_keeps (w : WriteOp) (f : Option WriteFailure)
    (hk : f = none → ∀ i, keep i → SparedByWrite w s i) : KeepsCopies keep s (applyWrite w f s) := by
  unfold applyWrite
  split
  · rename_i hc
    exact commitSucceeded_keeps fun b hb h => (hk rfl _ h).2 b hc hb rfl
  · exact commitFailed_keeps w s
  · exact publishSucceeded_keeps w fun h => (hk rfl _ h).1 rfl
  · exact publishFailed_keeps w s

theorem endWrite_keeps (w : WriteOp) (f : Option WriteFailure)
    (hk : f = none → ∀ i, keep i → SparedByWrite w s i) : KeepsCopies keep s (endWrite w f s) := by
  unfold endWrite
  split
  · exact of_segs (restartGoesOn_segs s)
  · exact (applyWrite_keeps w f hk).trans (of_segs (endOp_segs _))

/-- A write that ended with a failure changes no copy. -/
theorem failedEnd_keeps (w : WriteOp) (f : WriteFailure) (s : State) : KeepsCopies keep s (endWrite w (some f) s) :=
  endWrite_keeps w (some f) fun h => by cases h

/-- R146: a status value read in POLLING. -/
theorem judgePolling_keeps (w : WriteOp) (v : Byte) (s : State) : KeepsCopies keep s (judgePolling w v s) := by
  unfold judgePolling
  repeat' split
  · exact failedEnd_keeps w .error s
  · exact of_segs rfl
  · exact failedEnd_keeps w .error s
  · exact refl s
  · exact of_segs rfl

/-- R145, R146: a status value can end a write with a failure alone. -/
theorem statusRead_keeps (v : Byte) (s : State) : KeepsCopies keep s (statusRead v s) := by
  unfold statusRead
  split
  · repeat' split
    all_goals exact of_segs rfl
  · rename_i w _
    repeat' split
    · exact failedEnd_keeps w .error s
    · exact of_segs rfl
    · exact of_segs rfl
  · exact judgePolling_keeps _ v s
  · split
    · exact refl s
    · exact failedEnd_keeps _ _ s
  · exact refl s

/-- R145, R146: so can a status polling that runs out. -/
theorem pollTimeout_keeps (s : State) : KeepsCopies keep s (pollTimeout s) := by
  unfold pollTimeout
  repeat' split
  · exact of_segs rfl
  · exact failedEnd_keeps _ .timeout s
  · exact of_segs rfl
  · exact failedEnd_keeps _ _ s
  · exact refl s
  · exact refl s

theorem readback_keeps (l : List Byte) (hk : ∀ w, s.store.op = .verifying w → ∀ i, keep i → SparedByWrite w s i) :
    KeepsCopies keep s (readback l s) := by
  unfold readback
  split
  · rename_i w hw
    split
    · exact endWrite_keeps w _ fun _ => hk w hw
    · exact refl s
  · exact refl s

/-- R159: the census changes the copy of the segment read. -/
theorem applyCensus_keeps (i : Nat) (r : SlotResult) (hk : ¬ keep i) : KeepsCopies keep s (applyCensus i r s) := by
  have found : KeepsCopies keep (censusEvent i r s)
      (modifyRec i (fun r' => keepNewer (foundRec r r')) (censusEvent i r s)) :=
    of_modifyRec _ _ fun h => absurd h hk
  exact (of_segs (censusEvent_segs i r s)).trans (found.trans (of_inner (settle_inner i)))

theorem censusReadEnd_keeps (i : Nat) (r : SlotResult) (hk : ¬ keep i) :
    KeepsCopies keep s (censusReadEnd i r s) := by
  have applied := applyCensus_keeps (s := s) i r hk
  unfold censusReadEnd requestCensusRead
  dsimp only
  split
  · exact applied.trans (of_segs (by simp))
  · refine applied.trans (KeepsCopies.trans ?_ (enterActive_keeps _))
    exact of_segs rfl

theorem hostReadEnd_keeps (i : Nat) (r : SlotResult) (data : List Byte) (s : State) :
    KeepsCopies keep s (hostReadEnd i r data s) := by
  have judged : KeepsCopies keep s (if (hostVerdict r).1 then s else signatureFailure i s) := by
    split
    · exact refl s
    · exact of_inner (signatureFailure_inner i)
  exact judged.trans (of_segs rfl)

theorem handRead_keeps (client : ReadClient) (i : Nat) (hk : client = .census → ¬ keep i) :
    KeepsCopies keep s (handRead client i s) := by
  cases client with
  | serve => exact of_inner (serveReadEnd_inner i _ _)
  | host => exact hostReadEnd_keeps i _ _ s
  | census => exact censusReadEnd_keeps i _ (hk rfl)

theorem slotRead_keeps (l : List Byte) (hk : ∀ i, s.store.op = .reading .census i → ¬ keep i) :
    KeepsCopies keep s (slotRead l s) := by
  unfold slotRead
  split
  · rename_i client i hop
    have filled : KeepsCopies keep s (fillTransfer l s) := of_segs rfl
    split
    · dsimp only
      split
      · exact filled.trans (of_segs (restartGoesOn_segs _))
      · exact filled.trans ((handRead_keeps client i fun hc => hk i (hc ▸ hop)).trans (of_segs (endOp_segs _)))
    · exact refl s
  · exact refl s

/-! ### Every command -/

/-- The commands that build the Segment Table anew: the starts and the header read (R13, R156). -/
def buildsTable : Instr → Bool
  | .coldStart | .restart | .headerReadEnd _ => true
  | _ => false

/-- R8: segment `i` keeps its local stamp and local signature under a command that does not build the table: the end of
a readback can change the copy written, the end of a slot read the copy the census reads. -/
def Spared (c : Instr) (s : State) (i : Nat) : Prop :=
  match c with
  | .readbackEnd _ => ∀ w, s.store.op = .verifying w → SparedByWrite w s i
  | .slotReadEnd _ => s.store.op ≠ .reading .census i
  | _ => True

/-- What holds of the state a meaning answers holds of the next state. -/
theorem of_next {P : State → Prop} {v : State} (hv : P v) : ∀ t, (Host.Outcome.next v : Result) = .next t → P t := by
  rintro _ ⟨⟩
  exact hv

/-- A meaning that changes the Line Interface alone, or nothing. -/
theorem lineChange_keeps (b : Prop) [Decidable b] (l : Line) (s : State) :
    KeepsCopies keep s (if b then { s with line := l } else s) := by
  split <;> exact of_segs rfl

/-- R8, R18: every command that does not build the table, in the order of the opcode table. -/
theorem exec_keepsCopies (c : Instr) (s : State) (hc : buildsTable c = false) :
    ∀ t, exec c s = .next t → KeepsCopies (Spared c s) s t := by
  cases c with
  | coldStart | headerReadEnd _ | restart => cases hc
  | strapSampling stn rate => exact of_next (of_segs (sampleStraps_segs stn rate s))
  | storeStatusReadEnd v => exact of_next (statusRead_keeps v s)
  | storePollTimeout => exact of_next (pollTimeout_keeps s)
  | writeSequenceEnd => exact of_next (of_segs (writeSequenceEnd_segs s))
  | readbackEnd l => exact of_next (readback_keeps l fun w hw i hi => hi w hw)
  | slotReadEnd l => exact of_next (slotRead_keeps l fun i hop hi => hi hop)
  | restartStoreWaitEnd =>
    refine of_next ?_
    split
    · exact of_segs (restartGoesOn_segs s)
    · exact of_segs (startGoesOn_segs s)
  | lineIdle => exact of_next (lineChange_keeps _ _ s)
  | startBit => exact of_next (lineChange_keeps _ _ s)
  | transmissionStart => exact of_next (of_segs (startTransmission_segs s))
  | arbitrationLoss => exact of_next (of_segs (loseArbitration_segs s))
  | clash => exact of_next (clashed_keeps s)
  | cleanEnd => exact of_next (endedCleanly_keeps s)
  | frameDiscarded _ => exact of_next (lineChange_keeps _ _ s)
  | ownNumberFrame =>
    have ended : KeepsCopies (Spared .ownNumberFrame s) s (endReception s) := of_segs rfl
    refine of_next ?_
    split
    · exact ended.trans (ownNumber_keeps _)
    · exact refl s
  | news p i t x =>
    exact of_next (receiveFrame_keeps _ _ _ _ (fun u hp => of_inner (deliverNews_inner p _ t x hp)) s)
  | poll p i t x =>
    exact of_next (receiveFrame_keeps _ _ _ _
      (fun u hp => inActive_keeps _ fun ht => deliverPoll_keeps p _ t x ht hp) s)
  | ballot p i t x =>
    exact of_next (receiveFrame_keeps _ _ _ _
      (fun u hp => inActive_keeps _ fun ht => of_inner (deliverBallot_inner p _ t x ht hp)) s)
  | request p q i t m =>
    exact of_next (receiveFrame_keeps _ _ _ _
      (fun u _ => inActive_keeps _ fun ht => of_inner (takeRequest_inner p _ t m ht)) s)
  | nohave p q i t =>
    exact of_next (receiveFrame_keeps _ _ _ _
      (fun u _ => inActive_keeps _ fun _ => of_inner (deliverNohave_inner p _)) s)
  | busy p q i =>
    exact of_next (receiveFrame_keeps _ _ _ _
      (fun u _ => inActive_keeps _ fun ht => of_inner (deliverBusy_inner p _ ht)) s)
  | data p q i t ch bytes =>
    exact of_next (receiveFrame_keeps _ _ _ _
      (fun u _ => inActive_keeps _ fun ht => of_inner (deliverData_inner p _ t ch bytes ht)) s)
  | sigquery p q b =>
    exact of_next (receiveFrame_keeps _ _ _ _
      (fun u _ => inActive_keeps _ fun _ => of_inner (deliverSigquery_inner _)) s)
  | siglist p b k entries =>
    exact of_next (receiveFrame_keeps _ _ _ _ (fun u hp => of_inner (listEntries_inner p entries _ u hp)) s)
  | digest p b x =>
    exact of_next (receiveFrame_keeps _ _ _ _
      (fun u _ => inActive_keeps _ fun _ => deliverDigest_keeps p _ x u) s)
  | silenceTimerExpiry p => exact of_next (silenceExpiry_keeps p s)
  | beaconTimerExpiry => exact of_next (beaconExpiry_keeps s)
  | queryHoldoffExpiry b => exact of_next (of_segs (holdoffExpiry_segs b.toNat s))
  | patienceTimerExpiry => exact of_next (of_inner patienceExpiry_inner)
  | disputeDeadlineExpiry i => exact of_next (of_inner (deadlineExpiry_inner i.toNat))
  | transactionCutShort => exact of_next (refl s)
  | unknownCommand code =>
    refine of_next ?_
    split <;> exact of_segs rfl
  | status => exact of_next (takeCommand_keeps _ _ _ fun _ => of_segs rfl)
  | seginfo i => exact of_next (takeCommand_keeps _ _ _ fun _ => of_segs rfl)
  | roster => exact of_next (takeCommand_keeps _ _ _ fun _ => of_segs rfl)
  | read i => exact of_next (takeCommand_keeps _ _ _ fun _ => readRule_keeps _ s)
  | take => exact of_next (takeCommand_keeps _ _ _ fun _ => takeRule_keeps s)
  | stage o n bytes =>
    refine of_next ?_
    split
    · exact refl s
    · exact takeCommand_keeps _ _ _ fun _ => stageRule_keeps _ _ s
  | publish i => exact of_next (takeCommand_keeps _ _ _ fun _ => publishRule_keeps _ s)
  | freshen i => exact of_next (takeCommand_keeps _ _ _ fun ht => freshenRule_keeps _ ht)
  | pin i => exact of_next (takeCommand_keeps _ _ _ fun _ => pinRule_keeps _ s)
  | unpin i => exact of_next (takeCommand_keeps _ _ _ fun _ => unpinRule_keeps _ s)
  | accept i => exact of_next (takeCommand_keeps _ _ _ fun _ => acceptRule_keeps _ s)
  | events n => exact of_next (takeCommand_keeps _ _ _ fun _ => of_segs rfl)
  | detach => exact of_next (takeCommand_keeps _ _ _ fun _ => detachRule_keeps s)
  | attach => exact of_next (takeCommand_keeps _ _ _ fun _ => attachRule_keeps s)

/-- Settles O6: the segments each command spares are all of them, all but the one written, all but the one read. -/
theorem localCopyChanges : Obligations.LocalCopyChanges := by
  refine ⟨fun c s t h hc => ?_, fun bytes s t w h hop hb i hi => ?_, fun bytes s t k j h hop i hi => ?_⟩
  · have hbuilds : buildsTable c = false := by
      revert hc
      cases c <;> simp [buildsTable]
    have kept := exec_keepsCopies c s hbuilds t h
    refine ⟨kept.count, fun i => kept.copy i ?_⟩
    cases c <;> trivial
  · refine (exec_keepsCopies (.readbackEnd bytes) s rfl t h).copy i fun w' hop' => ?_
    obtain rfl : w = w' := by rw [hop] at hop'; injection hop'
    exact ⟨hi, fun b hc hcommit => by rw [hb hc b hcommit]; exact hi⟩
  · refine (exec_keepsCopies (.slotReadEnd bytes) s rfl t h).copy i fun hop' => ?_
    rw [hop] at hop'
    injection hop' with hk hj
    exact hi.elim (fun hne => hne hj.symm) (fun hne => hne hk)

/-! ### The starts and the header read -/

theorem digestsOk_empty : DigestsOk State.reset.segs := ⟨rfl, fun _ hb => absurd hb (Nat.not_lt_zero _)⟩

/-- R156: the table built at the header read: every record UNKNOWN, every digest 0. -/
theorem digestsOk_unknown (n : Nat) (hn : n % Config.bankSize = 0) :
    DigestsOk ⟨List.replicate n unknownRec, List.replicate (n / Config.bankSize) 0⟩ := by
  refine ⟨?_, fun b hb => ?_⟩
  · simp only [List.length_replicate]
    exact (Nat.mul_div_cancel' (Nat.dvd_of_mod_eq_zero hn)).symm
  · rw [recount_unknown, List.getD_eq_getElem?_getD, List.getElem?_replicate]
    split <;> rfl

@[simp] theorem restartSequence_segs (s : State) : (restartSequence s).segs = State.reset.segs := by
  unfold restartSequence
  dsimp only
  repeat' split
  · rfl
  · rfl
  · exact restartGoesOn_segs _

theorem enterCensus_segs (h : Header) (s : State) : (enterCensus h s).segs =
    ⟨List.replicate h.count unknownRec, List.replicate (h.count / Config.bankSize) 0⟩ := by
  simp [enterCensus, requestCensusRead]

theorem headerRead_digests (l : List Byte) (ok : DigestsOk s.segs) : DigestsOk (headerRead l s).segs := by
  unfold headerRead
  split
  · split
    · rename_i h hj
      rw [enterCensus_segs]
      exact digestsOk_unknown h.count (judge_count l h hj)
    · exact ok
  · exact ok

theorem restart_digests (ok : DigestsOk s.segs) :
    DigestsOk (takeCommand inHaltedOn noArgs (fun s => answer .done [] (restartSequence s)) s).segs := by
  unfold takeCommand
  repeat' split
  · exact ok
  · exact ok
  · rw [answer_segs, restartSequence_segs]
    exact digestsOk_empty

/-- Settles O5: the digests follow every record written (`exec_keepsCopies`), and a table built anew starts with them
right. -/
theorem digestsFollowRecords : Obligations.DigestsFollowRecords := by
  intro c s t ok h
  cases hc : buildsTable c with
  | false => exact (exec_keepsCopies c s hc t h).digests ok
  | true =>
    revert t
    cases c with
    | coldStart => exact of_next (P := fun t => DigestsOk t.segs) digestsOk_empty
    | headerReadEnd l => exact of_next (P := fun t => DigestsOk t.segs) (headerRead_digests l ok)
    | restart => exact of_next (P := fun t => DigestsOk t.segs) (restart_digests ok)
    | _ => cases hc

end Sys2Proof.Machine
end

section
/-! PROOFS. Every step keeps the invariant of the whole part: the laws of the shared operations, command by command. -/

namespace Sys2Proof.Machine

variable {s : State}

/-! ### Meanings of the bit engine -/

theorem lineIdle_inv (c : Inv s) : Inv (lineIdle s) := by
  unfold lineIdle
  split
  · rename_i h
    exact engine_inv .idle (.inr ⟨h.1, .inl rfl⟩) (by rw [h.2]; rfl) c
  · exact c

theorem startBit_inv (c : Inv s) :
    Inv (if s.line.receiver ∧ s.line.engine = .idle then { s with line.engine := .receiving } else s) := by
  split
  · rename_i h
    exact engine_inv .receiving (.inr ⟨h.1, .inr rfl⟩) (by rw [h.2]; rfl) c
  · exact c

theorem frameDiscarded_inv (c : Inv s) : Inv (if receiving s then endReception s else s) := by
  split
  · rename_i h
    exact endReception_inv (receiving_facts h c).1 c
  · exact c

theorem ownNumberFrame_inv (c : Inv s) : Inv (if receiving s then ownNumber (endReception s) else s) := by
  split
  · rename_i h
    exact ownNumber_inv (endReception_inv (receiving_facts h c).1 c)
  · exact c

/-! ### Frame kinds received -/

/-- The model's own count of free orders bears on no rule (log 18). -/
theorem inv_freeOrders (n : Nat) (c : Inv s) : Inv { s with freeOrders := n } :=
  inv_congr c rfl rfl rfl rfl rfl rfl rfl c.events rfl rfl rfl

theorem deliverPoll_inv (p : Station) (i : Nat) (t : Stamp) (x : Signature) (ht : s.start.top = .active)
    (hp : p ≠ s.start.station) (c : Inv s) : Inv (deliverPoll p i t x s) := by
  obtain ⟨u, n, hu, heq⟩ := deliverPoll_inner (s := s) p i t x ht hp
  rw [heq]
  exact inv_freeOrders n (inv_inner hu c)

/-- A frame acted on in ACTIVE alone keeps the invariant when what its body does there keeps it (R32). -/
theorem receiveActive_inv (p q : Station) (b : Body) (f : State → State)
    (hf : ∀ u, Inv u → u.start.top = .active → p ≠ u.start.station → Inv (f u)) (c : Inv s) :
    Inv (receiveFrame p q b (inActive f) s) := by
  refine receiveFrame_inv p q b (inActive f) (fun u cu _ hp => ?_) c
  unfold inActive
  split
  · rename_i ht
    exact hf u cu ht hp
  · exact cu

/-! ### Host commands -/

theorem argument_inRange {i : SegNum} (h : segmentArgOk s i = true) : i.toNat < segCount s := by
  simpa [segmentArgOk] using h

theorem detachRule_inv (c : Inv s) : Inv (detachRule s) := by
  unfold detachRule
  split
  · rename_i ht
    exact inv_answer _ _ (detach_inv .host (.inl rfl) ht c)
  · exact inv_answer _ _ c

theorem attachRule_inv (c : Inv s) : Inv (attachRule s) := by
  unfold attachRule
  split
  · rename_i ht
    exact inv_answer _ _ (attach_inv ht c)
  · exact inv_answer _ _ c

theorem restart_taken (h : inHaltedOn s.start.top = true) : s.start.top ≠ .starting := by
  intro ht
  rw [ht] at h
  cases h

/-! ### Every command -/

/-- Every command keeps the invariant, in the order of the opcode table. -/
theorem exec_inv (c : Instr) (s : State) (hs : Inv s) : ∀ t, exec c s = .next t → Inv t := by
  cases c with
  | coldStart => exact of_next coldStart_inv
  | strapSampling stn rate => exact of_next (sampleStraps_inv stn rate hs)
  | storeStatusReadEnd v => exact of_next (statusRead_inv v hs)
  | storePollTimeout => exact of_next (pollTimeout_inv hs)
  | headerReadEnd l => exact of_next (headerRead_inv l hs)
  | writeSequenceEnd => exact of_next (writeSequenceEnd_inv hs)
  | readbackEnd l => exact of_next (readback_inv l hs)
  | slotReadEnd l => exact of_next (slotRead_inv l hs)
  | restartStoreWaitEnd =>
    refine of_next ?_
    split
    · rename_i hw
      exact waiting_goesOn hw hs
    · exact startGoesOn_inv hs
  | lineIdle => exact of_next (lineIdle_inv hs)
  | startBit => exact of_next (startBit_inv hs)
  | transmissionStart => exact of_next (startTransmission_inv hs)
  | arbitrationLoss => exact of_next (loseArbitration_inv hs)
  | clash => exact of_next (clashed_inv hs)
  | cleanEnd => exact of_next (endedCleanly_inv hs)
  | frameDiscarded _ => exact of_next (frameDiscarded_inv hs)
  | ownNumberFrame => exact of_next (ownNumberFrame_inv hs)
  | news p i t x =>
    exact of_next (receiveFrame_inv _ _ _ _ (fun u cu _ hp => inv_inner (deliverNews_inner p _ t x hp) cu) hs)
  | poll p i t x => exact of_next (receiveActive_inv _ _ _ _ (fun u cu ht hp => deliverPoll_inv p _ t x ht hp cu) hs)
  | ballot p i t x =>
    exact of_next (receiveActive_inv _ _ _ _ (fun u cu ht hp => inv_inner (deliverBallot_inner p _ t x ht hp) cu) hs)
  | request p q i t m =>
    exact of_next (receiveActive_inv _ _ _ _ (fun u cu ht _ => inv_inner (takeRequest_inner p _ t m ht) cu) hs)
  | nohave p q i t =>
    exact of_next (receiveActive_inv _ _ _ _ (fun u cu _ _ => inv_inner (deliverNohave_inner p _) cu) hs)
  | busy p q i =>
    exact of_next (receiveActive_inv _ _ _ _ (fun u cu ht _ => inv_inner (deliverBusy_inner p _ ht) cu) hs)
  | data p q i t ch bytes =>
    exact of_next (receiveActive_inv _ _ _ _ (fun u cu ht _ => inv_inner (deliverData_inner p _ t ch bytes ht) cu) hs)
  | sigquery p q b =>
    exact of_next (receiveActive_inv _ _ _ _ (fun u cu _ _ => inv_inner (deliverSigquery_inner _) cu) hs)
  | siglist p b k entries =>
    exact of_next (receiveFrame_inv _ _ _ _ (fun u cu _ hp => inv_inner (listEntries_inner p entries _ u hp) cu) hs)
  | digest p b x => exact of_next (receiveActive_inv _ _ _ _ (fun u cu _ _ => deliverDigest_inv p _ x cu) hs)
  | silenceTimerExpiry p => exact of_next (silenceExpiry_inv p hs)
  | beaconTimerExpiry => exact of_next (beaconExpiry_inv hs)
  | queryHoldoffExpiry b => exact of_next (holdoffExpiry_inv b.toNat hs)
  | patienceTimerExpiry => exact of_next (inv_inner patienceExpiry_inner hs)
  | disputeDeadlineExpiry i => exact of_next (inv_inner (deadlineExpiry_inner i.toNat) hs)
  | transactionCutShort => exact of_next hs
  | unknownCommand code =>
    refine of_next ?_
    split
    · exact hs
    · exact inv_answer _ _ hs
  | status => exact of_next (take_inv _ _ _ (fun _ _ => inv_answer _ _ hs) hs)
  | seginfo i => exact of_next (take_inv _ _ _ (fun _ _ => inv_answer _ _ hs) hs)
  | roster => exact of_next (take_inv _ _ _ (fun _ _ => inv_answer _ _ hs) hs)
  | read i => exact of_next (take_inv _ _ _ (fun _ _ => read_inv _ hs) hs)
  | take => exact of_next (take_inv _ _ _ (fun _ _ => takeRule_inv hs) hs)
  | stage o n bytes =>
    refine of_next ?_
    split
    · exact hs
    · exact take_inv _ _ _ (fun _ _ => stageRule_inv _ _ hs) hs
  | publish i => exact of_next (take_inv _ _ _ (fun ht hi => publish_inv _ (argument_inRange hi) ht hs) hs)
  | freshen i => exact of_next (take_inv _ _ _ (fun ht _ => freshen_inv _ ht hs) hs)
  | pin i => exact of_next (take_inv _ _ _ (fun _ _ => pin_inv _ hs) hs)
  | unpin i => exact of_next (take_inv _ _ _ (fun _ _ => unpin_inv _ hs) hs)
  | accept i => exact of_next (take_inv _ _ _ (fun _ _ => accept_inv _ hs) hs)
  | events n => exact of_next (take_inv _ _ _ (fun _ _ => events_inv _ hs) hs)
  | detach => exact of_next (take_inv _ _ _ (fun _ _ => detachRule_inv hs) hs)
  | attach => exact of_next (take_inv _ _ _ (fun _ _ => attachRule_inv hs) hs)
  | restart =>
    exact of_next (take_inv _ _ _ (fun ht _ => inv_answer _ _ (restart_inv (restart_taken ht) hs)) hs)

/-- The commands that wait bear on no rule. -/
theorem inv_pending (l : List Instr) (c : Inv s) : Inv { s with pending := l } :=
  inv_congr c rfl rfl rfl rfl rfl rfl rfl c.events rfl rfl rfl

/-- Settles O4: a step is the command at the front of the queue (`exec_inv`), or what the part does of its own
accord. -/
theorem everyStepKeepsInvariant : Obligations.EveryStepKeepsInvariant := by
  intro s t hs
  unfold step
  split
  · exact of_next (startGoesOn_inv hs) t
  · exact exec_inv _ _ (inv_pending _ hs) t

end Sys2Proof.Machine
end

section
/-! PROOFS. The frames of the line at the level of bits and bytes: the check and the fillers (R21, R25), the arbitration
on byte 0 (R20, R27), and the reception of what `lineBits` puts on the line (R22, R24, R31, R188). -/

namespace Sys2Proof.Machine

/- Theorems elaborated side by side pass the memory the check allows (as in Tests/Slice0.lean). -/
set_option Elab.async false

/-! ### The frame check (R25) -/

theorem checkBit_eq (reg : BitVec 16) (b : Bool) :
    checkBit reg b = (reg <<< 1) ^^^ (if reg.getLsbD 15 = b then 0#16 else 0x5935#16) := by
  unfold checkBit Config.checkPoly
  cases reg.getLsbD 15 <;> cases b <;> simp

/-! ### Fillers (R21) -/

/-- The equal bits at the end of a line that ended in `run` bits `last`, once `b` has followed them. -/
def runAfter (last : Bool) (run : Nat) (b : Bool) : Nat := if b = last then run + 1 else 1

theorem addFillers_cons (last b : Bool) (run : Nat) (rest : List Bool) (h : run ≠ 6) :
    addFillers last run (b :: rest) = b :: addFillers b (runAfter last run b) rest := by
  simp [addFillers, h, runAfter]

/-- R21: the filler goes first, and is itself the first bit of a run. -/
theorem addFillers_filler (last b : Bool) (rest : List Bool) :
    addFillers last 6 (b :: rest) = (!last) :: addFillers (!last) 1 (b :: rest) := by
  simp [addFillers]

/-- No run of equal bits grows past six on a line that goes on after `run` bits `last`. -/
def RunsToSix : Bool → Nat → List Bool → Prop
  | _, _, [] => True
  | last, run, b :: rest => runAfter last run b ≤ 6 ∧ RunsToSix b (runAfter last run b) rest

theorem addFillers_runsToSix (bits : List Bool) :
    ∀ (last : Bool) (run : Nat), run ≤ 6 → RunsToSix last run (addFillers last run bits) := by
  induction bits with
  | nil => exact fun _ _ _ => trivial
  | cons b rest ih =>
    have plain : ∀ (last : Bool) (run : Nat), run < 6 → RunsToSix last run (addFillers last run (b :: rest)) := by
      intro last run h
      have hrun : runAfter last run b ≤ 6 := by unfold runAfter; split <;> omega
      rw [addFillers_cons last b run rest (by omega)]
      exact ⟨hrun, ih b _ hrun⟩
    intro last run h
    by_cases h6 : run = 6
    · subst h6
      have hfill : runAfter last 6 (!last) = 1 := by simp [runAfter]
      rw [addFillers_filler]
      exact ⟨by omega, by rw [hfill]; exact plain _ 1 (by omega)⟩
    · exact plain last run (by omega)

theorem runsToSix_replicate (n : Nat) (b : Bool) (after : List Bool) :
    ∀ run, run ≤ 6 → RunsToSix b run (List.replicate n b ++ after) → run + n ≤ 6 := by
  induction n with
  | zero => exact fun _ h _ => h
  | succ n ih =>
    intro run _ h
    rw [List.replicate_succ] at h
    obtain ⟨hrun, hrest⟩ := h
    have hnext : runAfter b run b = run + 1 := if_pos rfl
    rw [hnext] at hrun hrest
    have := ih (run + 1) hrun hrest
    omega

theorem runsToSix_ne (before after : List Bool) (b : Bool) :
    ∀ (last : Bool) (run : Nat), ¬ RunsToSix last run (before ++ List.replicate 7 b ++ after) := by
  induction before with
  | nil =>
    rintro last run ⟨hrun, hrest⟩
    have := runsToSix_replicate 6 b after _ hrun hrest
    have : 1 ≤ runAfter last run b := by unfold runAfter; split <;> omega
    omega
  | cons x rest ih => exact fun _ _ h => ih _ _ h.2

/-- Settles O9: the register's step, the layout of a frame, the two rules of the fillers, and the runs they leave. -/
theorem checkAndFillers : Obligations.CheckAndFillers := by
  refine ⟨fun bytes => ?_, fun f => ⟨coveredBytes f, rfl, rfl, rfl⟩, fun last b run rest => ?_,
    fun f before after b h => ?_⟩
  · have hstep : checkBit = fun (reg : BitVec 16) bit =>
        (reg <<< 1) ^^^ (if reg.getLsbD 15 = bit then 0#16 else 0x5935#16) :=
      funext₂ checkBit_eq
    unfold checkOf
    rw [hstep]
    rfl
  · exact ⟨by simp [addFillers], addFillers_cons last b run rest, addFillers_filler last b rest⟩
  · have hruns : RunsToSix false 0 (lineBits f) := ⟨by decide, addFillers_runsToSix _ false 1 (by omega)⟩
    rw [h] at hruns
    exact runsToSix_ne before after b _ _ hruns

/-! ### Arbitration on byte 0 (R20, R27) -/

/-- The bytes of `l` that are least among them in their bits from `k` upwards. -/
def leastFrom (l : List Byte) (k : Nat) : List Byte :=
  l.filter fun b => l.all fun c => b.toNat / 2 ^ k ≤ c.toNat / 2 ^ k

theorem mem_leastFrom {l : List Byte} {k : Nat} {b : Byte} :
    b ∈ leastFrom l k ↔ b ∈ l ∧ ∀ c ∈ l, b.toNat / 2 ^ k ≤ c.toNat / 2 ^ k := by
  simp [leastFrom]

theorem leastFrom_eight (l : List Byte) : leastFrom l 8 = l := by
  refine List.filter_eq_self.mpr fun b _ => List.all_eq_true.mpr fun c _ => ?_
  have := b.isLt
  simp only [decide_eq_true_eq]
  omega

/-- The bits from `k` upwards are those above `k` and bit `k` itself. -/
theorem upper_bits (b : Byte) (k : Nat) :
    b.toNat / 2 ^ k = 2 * (b.toNat / 2 ^ (k + 1)) + (if b.getLsbD k then 1 else 0) := by
  have hbit : b.getLsbD k = decide (b.toNat / 2 ^ k % 2 = 1) := by
    rw [BitVec.getLsbD, Nat.testBit_eq_decide_div_mod_eq]
  rw [hbit, Nat.pow_succ, ← Nat.div_div_eq_div_mul]
  simp only [decide_eq_true_eq]
  split <;> omega

theorem lineLevel_true {k : Nat} {cs : List Byte} :
    lineLevel (cs.map fun b => b.getLsbD k) = true ↔ ∀ c ∈ cs, c.getLsbD k = true := by
  simp [lineLevel]

/-- R27: a contender goes on when it sends dominant, or when all of them send recessive. -/
theorem arbitrateBit_eq (k : Nat) (cs : List Byte) :
    arbitrateBit k cs = cs.filter fun b => !b.getLsbD k || lineLevel (cs.map fun b => b.getLsbD k) := by
  simp only [arbitrateBit, losesBit, Bool.not_and, Bool.not_not]

theorem arbitrateBit_leastFrom (l : List Byte) (k : Nat) : arbitrateBit k (leastFrom l (k + 1)) = leastFrom l k := by
  rw [arbitrateBit_eq]
  conv_lhs => arg 2; rw [leastFrom]
  rw [List.filter_filter, leastFrom]
  refine List.filter_congr fun b hb => ?_
  rw [Bool.eq_iff_iff, Bool.and_eq_true, Bool.or_eq_true, lineLevel_true, List.all_eq_true, List.all_eq_true]
  simp only [decide_eq_true_eq, Bool.not_eq_true']
  have hbits := upper_bits b k
  constructor
  · rintro ⟨hgoes, htop⟩ c hc
    have hcbits := upper_bits c k
    have hle := htop c hc
    rcases hgoes with hdominant | hall
    · simp only [hdominant, Bool.false_eq_true, if_false] at hbits
      omega
    · rcases Nat.lt_or_eq_of_le hle with hlt | heq
      · split at hbits <;> omega
      · have := hall c (mem_leastFrom.mpr ⟨hc, fun d hd => heq ▸ htop d hd⟩)
        simp only [this, if_true] at hcbits
        split at hbits <;> omega
  · intro hleast
    have htop : ∀ c ∈ l, b.toNat / 2 ^ (k + 1) ≤ c.toNat / 2 ^ (k + 1) := fun c hc => by
      simpa [Nat.pow_succ, Nat.div_div_eq_div_mul] using Nat.div_le_div_right (c := 2) (hleast c hc)
    refine ⟨?_, htop⟩
    cases hb1 : b.getLsbD k with
    | false => exact .inl rfl
    | true =>
      refine .inr fun c hc => ?_
      obtain ⟨hcl, hcleast⟩ := mem_leastFrom.mp hc
      have hcbits := upper_bits c k
      have h1 := hleast c hcl
      have h2 := hcleast b hb
      cases hc1 : c.getLsbD k with
      | true => rfl
      | false =>
        simp only [hb1, hc1, if_true, Bool.false_eq_true, if_false] at hbits hcbits
        omega

theorem arbitrateBit_ne_nil {k : Nat} {cs : List Byte} (h : cs ≠ []) : arbitrateBit k cs ≠ [] := by
  obtain ⟨a, ha⟩ := List.exists_mem_of_ne_nil cs h
  by_cases hall : lineLevel (cs.map fun b => b.getLsbD k) = true
  · exact List.ne_nil_of_mem (by rw [arbitrateBit_eq]; exact List.mem_filter.mpr ⟨ha, by simp [hall]⟩)
  · rw [lineLevel_true] at hall
    push Not at hall
    obtain ⟨c, hc, hdominant⟩ := hall
    exact List.ne_nil_of_mem (by rw [arbitrateBit_eq]; exact List.mem_filter.mpr ⟨hc, by simp [hdominant]⟩)

theorem foldl_arbitrateBit_ne_nil (ks : List Nat) :
    ∀ cs : List Byte, cs ≠ [] → ks.foldl (fun cs k => arbitrateBit k cs) cs ≠ [] := by
  induction ks with
  | nil => exact fun _ h => h
  | cons k rest ih => exact fun cs h => ih _ (arbitrateBit_ne_nil h)

theorem arbitrateByte0_eq_leastFrom (l : List Byte) : arbitrateByte0 l = leastFrom l 0 := by
  unfold arbitrateByte0
  conv_lhs => rw [← leastFrom_eight l]
  simp only [List.foldl_cons, List.foldl_nil, arbitrateBit_leastFrom]

/-- Settles O16: bit by bit, from the most significant, the contenders are those least in the bits sent. -/
theorem arbitrationLowestWins : Obligations.ArbitrationLowestWins := by
  intro l hl
  refine ⟨?_, foldl_arbitrateBit_ne_nil _ l hl⟩
  rw [arbitrateByte0_eq_leastFrom, leastFrom]
  simp only [Nat.pow_zero, Nat.div_one]

/-! ### What the receiver makes of the fillers (R22) -/

theorem takeBits_bit (n : Nat) (last b : Bool) (run : Nat) (rest : List Bool) (h : run ≠ 6) :
    takeBits (n + 1) last run (b :: rest) =
      (takeBits n b (runAfter last run b) rest).map fun t => { t with bits := b :: t.bits } := by
  simp [takeBits, h, runAfter]

theorem takeBits_filler (n : Nat) (last : Bool) (rest : List Bool) :
    takeBits (n + 1) last 6 ((!last) :: rest) = takeBits (n + 1) (!last) 1 rest := by
  simp [takeBits]

/-- R22: the fillers that `addFillers` puts in are taken out again, and the receiver stands where the sender did. -/
theorem takeBits_addFillers (xs ys rest : List Bool) : ∀ (last : Bool) (run : Nat), ∃ last' run',
    takeBits xs.length last run (addFillers last run (xs ++ ys) ++ rest) =
      some ⟨xs, last', run', addFillers last' run' ys ++ rest⟩ := by
  induction xs with
  | nil => exact fun last run => ⟨last, run, rfl⟩
  | cons b xs ih =>
    have plain : ∀ (last : Bool) (run : Nat), run ≠ 6 → ∃ last' run',
        takeBits (xs.length + 1) last run (addFillers last run (b :: (xs ++ ys)) ++ rest) =
          some ⟨b :: xs, last', run', addFillers last' run' ys ++ rest⟩ := by
      intro last run h
      obtain ⟨last', run', htaken⟩ := ih b (runAfter last run b)
      refine ⟨last', run', ?_⟩
      rw [addFillers_cons _ _ _ _ h, List.cons_append, takeBits_bit _ _ _ _ _ h, htaken]
      rfl
    intro last run
    by_cases h6 : run = 6
    · subst h6
      rw [List.cons_append, addFillers_filler, List.length_cons, List.cons_append, takeBits_filler]
      exact plain _ 1 (by decide)
    · exact plain last run h6

/-! ### Bits, bytes and values -/

theorem byteBits_length (b : Byte) : (byteBits b).length = 8 := rfl

theorem bytesBits_cons (b : Byte) (l : List Byte) : bytesBits (b :: l) = byteBits b ++ bytesBits l := List.flatMap_cons

theorem bytesBits_length (l : List Byte) : (bytesBits l).length = 8 * l.length := by
  induction l with
  | nil => rfl
  | cons b rest ih => rw [bytesBits_cons, List.length_append, byteBits_length, ih, List.length_cons]; omega

theorem bitsByte_byteBits (b : Byte) : bitsByte (byteBits b) = b := by
  revert b
  decide

theorem bitsBytes_bytesBits (l : List Byte) : bitsBytes l.length (bytesBits l) = l := by
  induction l with
  | nil => rfl
  | cons b rest ih =>
    rw [bytesBits_cons, List.length_cons, bitsBytes, ← byteBits_length b, List.take_left, List.drop_left,
      bitsByte_byteBits, ih]

theorem append_extract {m n : Nat} (x : BitVec (m + n)) : x.extractLsb' n m ++ x.extractLsb' 0 n = x := by
  rw [BitVec.extractLsb'_append_extractLsb'_eq_extractLsb' (by omega)]
  simp

theorem extract_upper {m n : Nat} (a : BitVec m) (b : BitVec n) : (a ++ b).extractLsb' n m = a := by
  ext i hi
  simp [BitVec.getLsbD_append, BitVec.getLsbD_eq_getElem hi]

theorem extract_lower {m n : Nat} (a : BitVec m) (b : BitVec n) : (a ++ b).extractLsb' 0 n = b := by
  ext i hi
  simp [BitVec.getLsbD_append, hi]

theorem be16_bytes (x : BitVec 16) : be16 (x.extractLsb' 8 8) (x.extractLsb' 0 8) = x :=
  append_extract (m := 8) (n := 8) x

theorem be32_bytes (x : BitVec 32) :
    be32 ((x.extractLsb' 16 16).extractLsb' 8 8) ((x.extractLsb' 16 16).extractLsb' 0 8)
      ((x.extractLsb' 0 16).extractLsb' 8 8) ((x.extractLsb' 0 16).extractLsb' 0 8) = x := by
  rw [be32, be16_bytes, be16_bytes]
  exact append_extract (m := 16) (n := 16) x

theorem stampOf_bytes (t : Stamp) (h : stampOk t = true) :
    stampOf (t.version.extractLsb' 8 8) (t.version.extractLsb' 0 8) t.origin = some t := by
  simp only [stampOf, be16_bytes, h, if_true]

theorem standingOf_byte (st : Standing) : standingOf (standingByte st) = some st := by
  cases st <;> decide

/-- The SIGLIST entries are read back from their bytes (R188). -/
theorem entriesOf_bytes (es : List SigEntry) (h : ∀ e ∈ es, stampOk e.stamp = true) :
    entriesOf (es.flatMap entryBytes) = some es := by
  induction es with
  | nil => rfl
  | cons e rest ih =>
    have hrest := ih fun d hd => h d (List.mem_cons_of_mem e hd)
    have hstamp := stampOf_bytes e.stamp (h e List.mem_cons_self)
    rw [List.flatMap_cons]
    simp only [entryBytes, stampBytes, bytes16, bytes32, List.cons_append, List.nil_append, entriesOf, hstamp,
      standingOf_byte, hrest, be32_bytes]

theorem entryBytes_length (es : List SigEntry) : (es.flatMap entryBytes).length = 8 * es.length := by
  induction es with
  | nil => rfl
  | cons e rest ih => rw [List.flatMap_cons, List.length_append, ih, List.length_cons, Nat.mul_succ, Nat.add_comm]; rfl

/-! ### Bodies and frames (R24, R188) -/

/-- R24: the body of each kind has the length of its kind. -/
theorem bodyLength_kindCode (b : Body) (h : b.wellFormed = true) :
    bodyLength (kindCode b) = some (bodyBytes b).length := by
  cases b with
  | data i t c bytes =>
    simp only [Body.wellFormed, Bool.and_eq_true, beq_iff_eq] at h
    simp [bodyBytes, stampBytes, bytes16, h.2, kindCode, bodyLength]
  | siglist b k es =>
    simp only [Body.wellFormed, Bool.and_eq_true, beq_iff_eq] at h
    simp only [bodyBytes, List.length_cons, entryBytes_length, h.1]
    rfl
  | _ => rfl

theorem segmentStampSignature_bytes (mk : SegNum → Stamp → Signature → Body) (i : SegNum) (t : Stamp) (x : Signature)
    (h : stampOk t = true) :
    segmentStampSignature mk (bytes16 i ++ stampBytes t ++ bytes32 x) = some (mk i t x) := by
  simp only [segmentStampSignature, bytes16, stampBytes, bytes32, List.cons_append, List.nil_append,
    stampOf_bytes t h, Option.map_some, be16_bytes, be32_bytes]

/-- R188: a body in range is read back from its bytes. -/
theorem bodyOf_bodyBytes (b : Body) (h : b.wellFormed = true) : bodyOf (kindCode b) (bodyBytes b) = some b := by
  cases b with
  | news i t x => exact segmentStampSignature_bytes .news i t x h
  | poll i t x => exact segmentStampSignature_bytes .poll i t x h
  | ballot i t x => exact segmentStampSignature_bytes .ballot i t x h
  | request i t m =>
    simp only [Body.wellFormed, Bool.and_eq_true, bne_iff_ne] at h
    obtain ⟨ht, hm⟩ := h
    simp [bodyOf, kindCode, bodyBytes, bytes16, stampBytes, stampOf_bytes t ht, be16_bytes, hm]
  | nohave i t => simp [bodyOf, kindCode, bodyBytes, bytes16, stampBytes, stampOf_bytes t h, be16_bytes]
  | busy i => simp [bodyOf, kindCode, bodyBytes, bytes16, be16_bytes]
  | data i t c bytes =>
    simp only [Body.wellFormed, Bool.and_eq_true, beq_iff_eq] at h
    obtain ⟨ht, hlen⟩ := h
    have hc : c.toNat % 256 ≤ 7 := by have := c.isLt; omega
    simp [bodyOf, kindCode, bodyBytes, bytes16, stampBytes, stampOf_bytes t ht, be16_bytes, hlen, hc]
  | sigquery b => rfl
  | siglist b k es =>
    simp only [Body.wellFormed, Bool.and_eq_true, beq_iff_eq, List.all_eq_true] at h
    obtain ⟨hlen, hstamps⟩ := h
    have hk : k.toNat % 256 ≤ 3 := by have := k.isLt; omega
    simp [bodyOf, kindCode, bodyBytes, entriesOf_bytes es hstamps, hlen, hk]
  | digest b x => exact congrArg (fun y => some (Body.digest b y)) (be32_bytes x)

/-- R31: the bytes of a well-formed frame in range pass every test. -/
theorem judgeBytes_frameBytes (f : Frame) (n : Nat) (h : f.wellFormed = true) (hr : bodyInRange n f.body = true) :
    judgeBytes f.tag n (frameBytes f) = .ok f := by
  simp only [Frame.wellFormed, Bool.and_eq_true, bne_iff_ne, ne_eq, beq_iff_eq] at h
  obtain ⟨⟨hsender, htarget⟩, hbody⟩ := h
  simp only [frameBytes, coveredBytes, List.cons_append, judgeBytes, extract_upper, extract_lower,
    bodyLength_kindCode f.body hbody, Option.getD_some, List.take_left, List.drop_left, bodyOf_bodyBytes f.body hbody,
    BitVec.ofNat_eq_ofNat, hsender, htarget, hr, if_true, if_false, ne_eq, not_true_eq_false]

theorem frameBytes_length (f : Frame) : (frameBytes f).length = (bodyBytes f.body).length + 5 := by
  simp [frameBytes, coveredBytes, bytes16]

/-- R22, R24: the bits of a frame, fillers and all, are received as its bytes, and judged. -/
theorem receiveBits_frameBytes (f : Frame) (tag : Byte) (n : Nat) (rest : List Bool) (h : f.body.wellFormed = true) :
    receiveBits tag n (addFillers false 1 (bytesBits (frameBytes f)) ++ rest) = judgeBytes tag n (frameBytes f) := by
  obtain ⟨b0, tail, hbytes⟩ : ∃ b0 tail, frameBytes f = b0 :: tail := ⟨_, _, rfl⟩
  have hb0 : b0 = kindCode f.body ++ f.sender := (List.cons.inj hbytes).1.symm
  have htail : tail.length = (bodyBytes f.body).length + 4 := by
    have := frameBytes_length f
    rw [hbytes, List.length_cons] at this
    omega
  obtain ⟨last, run, hfirst⟩ := takeBits_addFillers (byteBits b0) (bytesBits tail) rest false 1
  obtain ⟨last', run', hothers⟩ := takeBits_addFillers (bytesBits tail) [] rest last run
  rw [byteBits_length] at hfirst
  rw [List.append_nil, bytesBits_length, htail] at hothers
  have hcode : b0.extractLsb' 4 4 = kindCode f.body := by rw [hb0]; exact extract_upper _ _
  rw [hbytes, bytesBits_cons]
  simp only [receiveBits, hfirst, bitsByte_byteBits, hcode, bodyLength_kindCode f.body h, hothers]
  rw [← htail, bitsBytes_bytesBits]

/-- Settles O15: the fillers come out as they went in, and the bytes pass every test. -/
theorem frameRoundTrip : Obligations.FrameRoundTrip := by
  intro f n rest h hr
  have hbody : f.body.wellFormed = true := (Bool.and_eq_true_iff.mp h).2
  calc receiveLine f.tag n (lineBits f ++ rest)
      = receiveBits f.tag n (addFillers false 1 (bytesBits (frameBytes f)) ++ rest) := rfl
    _ = judgeBytes f.tag n (frameBytes f) := receiveBits_frameBytes f f.tag n rest hbody
    _ = .ok f := judgeBytes_frameBytes f n h hr

end Sys2Proof.Machine
end

section
/-! PROOFS. The outbox after an offer: merged, joined, dropped, or given a place by an eviction (R34 to R36). -/

namespace Sys2Proof.Machine

/- Theorems elaborated side by side pass the memory the check allows (as in Tests/Slice0.lean). -/
set_option Elab.async false

/-- R35: the descriptor an offer adds. -/
def freshDesc (id : FrameId) (b : Option Stamp) : Desc := ⟨id, b, false, false⟩

/-- R34: in order of kind code. -/
def InCodeOrder (box : List Desc) : Prop := box.Pairwise fun d e => codeOf d.ident ≤ codeOf e.ident

/-! ### The four outcomes of an offer -/

theorem offerBox_present {id : FrameId} {box : List Desc} (b : Option Stamp) (h : ∃ d ∈ box, d.ident = id) :
    offerBox id b box = (box.map fun d => if d.ident = id then mergeDesc b d else d, none) := by
  unfold offerBox
  rw [if_pos (by simpa using h)]

theorem offerBox_absent {id : FrameId} {box : List Desc} (b : Option Stamp) (h : ∀ d ∈ box, d.ident ≠ id) :
    offerBox id b box =
      if box.length < Config.outboxCapacity then (insertDesc (freshDesc id b) box, none)
      else if greatestCode box ≤ codeOf id then (box, notice id)
      else
        (insertDesc (freshDesc id b)
          (removeLast (fun d => !d.inTransmission && codeOf d.ident == greatestCode box) box),
          (youngestWaiting (greatestCode box) box).bind fun d => notice d.ident) := by
  conv_lhs => unfold offerBox
  rw [if_neg (by simpa using h)]
  rfl

theorem offerBox_join {id : FrameId} {box : List Desc} (b : Option Stamp) (h : ∀ d ∈ box, d.ident ≠ id)
    (hroom : box.length < Config.outboxCapacity) : offerBox id b box = (insertDesc (freshDesc id b) box, none) := by
  rw [offerBox_absent b h, if_pos hroom]

/-- An outbox with a place drops and evicts nothing. -/
theorem offerBox_room (id : FrameId) (b : Option Stamp) (box : List Desc) (h : box.length < Config.outboxCapacity) :
    (offerBox id b box).2 = none := by
  by_cases hp : ∃ d ∈ box, d.ident = id
  · rw [offerBox_present b hp]
  · rw [offerBox_join b (fun d hd hid => hp ⟨d, hd, hid⟩) h]

/-! ### Merging and joining (R35) -/

theorem mergeDesc_eq (b : Option Stamp) (d : Desc) : mergeDesc b d =
    { d with ballotStamp := if b.isSome then b else d.ballotStamp, renewed := d.renewed || d.inTransmission } := by
  unfold mergeDesc
  cases b <;> cases d.inTransmission <;> simp

theorem map_merge_others (id : FrameId) (b : Option Stamp) {box : List Desc} (h : ∀ d ∈ box, d.ident ≠ id) :
    (box.map fun d => if d.ident = id then mergeDesc b d else d) = box := by
  rw [List.map_congr_left (g := fun d => d) fun d hd => if_neg (h d hd), List.map_id']

/-- R35: a new descriptor stands behind those of its code and below, and before those above it. -/
theorem insertDesc_eq_filter (d : Desc) {box : List Desc} (h : InCodeOrder box) :
    insertDesc d box = box.filter (fun e => codeOf e.ident ≤ codeOf d.ident) ++ d ::
      box.filter (fun e => codeOf d.ident < codeOf e.ident) := by
  induction box with
  | nil => rfl
  | cons x rest ih =>
    obtain ⟨hx, hrest⟩ := List.pairwise_cons.mp h
    by_cases hle : codeOf x.ident ≤ codeOf d.ident
    · simp [insertDesc, hle, Nat.not_lt.mpr hle, ih hrest]
    · have hlater : ∀ e ∈ rest, codeOf d.ident < codeOf e.ident := fun e he => by have := hx e he; omega
      have hnone : rest.filter (fun e => codeOf e.ident ≤ codeOf d.ident) = [] :=
        List.filter_eq_nil_iff.mpr fun e he => by simpa using hlater e he
      have hall : rest.filter (fun e => codeOf d.ident < codeOf e.ident) = rest :=
        List.filter_eq_self.mpr fun e he => by simpa using hlater e he
      simp [insertDesc, hle, Nat.not_le.mp hle, hnone, hall]

/-- Settles O19: the three outcomes of an offer that evicts nothing. -/
theorem offerMergesOrJoins : Obligations.OfferMergesOrJoins := by
  refine ⟨fun id b s h => by rw [offerRaw, if_pos h], fun id b pre post d hnodup hid => ?_,
    fun id b box hsorted hnew hroom => ?_⟩
  · rw [List.map_append, List.map_cons, List.nodup_append, List.nodup_cons] at hnodup
    obtain ⟨_, ⟨hpost, _⟩, hpre⟩ := hnodup
    have hpre : ∀ e ∈ pre, e.ident ≠ id := fun e he =>
      hid ▸ hpre _ (List.mem_map_of_mem he) _ List.mem_cons_self
    have hpost : ∀ e ∈ post, e.ident ≠ id := fun e he heq => hpost (hid ▸ heq ▸ List.mem_map_of_mem he)
    rw [offerBox_present b ⟨d, by simp, hid⟩, List.map_append, List.map_cons, map_merge_others id b hpre,
      map_merge_others id b hpost, if_pos hid, mergeDesc_eq]
  · rw [offerBox_join b hnew hroom, insertDesc_eq_filter _ hsorted]
    rfl

/-! ### The full outbox (R36) -/

theorem codeOf_pos (id : FrameId) : 0 < codeOf id := by cases id <;> exact Nat.succ_pos _

theorem codeOf_le_greatest {box : List Desc} {d : Desc} (hd : d ∈ box) (hw : d.inTransmission = false) :
    codeOf d.ident ≤ greatestCode box := by
  have bound : ∀ (l : List Desc) (g : Nat), g ≤ l.foldl (fun g d => max g (codeOf d.ident)) g ∧
      ∀ d ∈ l, codeOf d.ident ≤ l.foldl (fun g d => max g (codeOf d.ident)) g := by
    intro l
    induction l with
    | nil => simp
    | cons a rest ih =>
      intro g
      obtain ⟨hbase, hrest⟩ := ih (max g (codeOf a.ident))
      rw [List.foldl_cons]
      refine ⟨by omega, fun d hd => ?_⟩
      rcases List.mem_cons.mp hd with rfl | hd
      · omega
      · exact hrest d hd
  exact (bound _ 0).2 d (List.mem_filter.mpr ⟨hd, by simp [hw]⟩)

/-- The last element that meets `p` divides the list in two; without it the two stand together. -/
theorem removeLast_split {α : Type} (p : α → Bool) {l : List α} (h : l.any p = true) : ∃ pre a post,
    l = pre ++ a :: post ∧ p a = true ∧ (∀ b ∈ post, p b = false) ∧ removeLast p l = pre ++ post := by
  obtain ⟨a, ha, hp⟩ := List.any_eq_true.mp h
  obtain ⟨b, later, earlier, hlater, hb, hl, herase⟩ := List.exists_of_eraseP (List.mem_reverse.mpr ha) hp
  refine ⟨earlier.reverse, b, later.reverse, ?_, hb, fun c hc => ?_, ?_⟩
  · simpa using congrArg List.reverse hl
  · simpa using hlater c (List.mem_reverse.mp hc)
  · rw [removeLast, herase, List.reverse_append]

theorem youngestWaiting_split {g : Nat} {pre post : List Desc} {d : Desc} (hd : d.inTransmission = false)
    (hg : codeOf d.ident = g) (hpost : ∀ e ∈ post, (!e.inTransmission && codeOf e.ident == g) = false) :
    youngestWaiting g (pre ++ d :: post) = some d := by
  have hnone : post.reverse.find? (fun e => !e.inTransmission && codeOf e.ident == g) = none :=
    List.find?_eq_none.mpr fun e he => by simp [hpost e (List.mem_reverse.mp he)]
  simp [youngestWaiting, List.find?_append, hnone, hd, hg]

/-- With at most one descriptor in transmission, some descriptor of a full outbox waits. -/
theorem full_waiting {box : List Desc} (hlen : box.length = 12) (hone : (box.filter (·.inTransmission)).length ≤ 1) :
    ∃ d ∈ box, d.inTransmission = false := by
  by_contra hnone
  push Not at hnone
  rw [List.filter_eq_self.mpr fun d hd => by simpa using hnone d hd] at hone
  omega

/-- Settles O20: G is the greatest code of the descriptors that wait, and the last of that code gives way. -/
theorem fullOutboxGivesWay : Obligations.FullOutboxGivesWay := by
  intro id b box ⟨_, _, hsorted⟩ hlen hone hnew
  obtain ⟨w, hw, hwaits⟩ := full_waiting hlen hone
  have hpos : 0 < greatestCode box := Nat.lt_of_lt_of_le (codeOf_pos _) (codeOf_le_greatest hw hwaits)
  obtain ⟨pre, d, post, hbox, hd, hpost, hremoved⟩ := removeLast_split _ (greatestCode_pos box 0 hpos)
  simp only [Bool.and_eq_true, Bool.not_eq_true', beq_iff_eq] at hd
  obtain ⟨hdwaits, hdcode⟩ := hd
  have hfull : ¬ box.length < Config.outboxCapacity := by rw [hlen]; decide
  refine ⟨greatestCode box, ⟨d, by simp [hbox], hdwaits, hdcode⟩, fun e he hew => codeOf_le_greatest he hew,
    fun hle => ?_, fun hlt => ⟨pre, d, post, hbox, hdwaits, hdcode, fun e he => ?_, ?_⟩⟩
  · rw [offerBox_absent b hnew, if_neg hfull, if_pos hle]
    rfl
  · have := hpost e he
    simp only [Bool.and_eq_false_iff, Bool.not_eq_false', beq_eq_false_iff_ne] at this
    exact this
  · have hrest : InCodeOrder (pre ++ post) := by
      rw [← hremoved]
      exact hsorted.sublist (removeLast_sublist _ _)
    have hyoungest : youngestWaiting (greatestCode box) box = some d := by
      conv_lhs => arg 2; rw [hbox]
      exact youngestWaiting_split hdwaits hdcode hpost
    rw [offerBox_absent b hnew, if_neg hfull, if_neg (Nat.not_le.mpr hlt), hremoved, hyoungest,
      insertDesc_eq_filter _ hrest]
    rfl

end Sys2Proof.Machine
end

section
/-! PROOFS. The bit engine: idle and start bits, the frames that go no further, the start of a transmission and its end
(R23, R26 to R32, R39). -/

namespace Sys2Proof.Machine

/- Theorems elaborated side by side pass the memory the check allows (as in Tests/Slice0.lean). -/
set_option Elab.async false

variable {s : State}

/-! ### Reception (R31, R32) -/

/-- The target a frame kind's command names: that of the frame, or 0 for a kind meant for all (R24). -/
def commandTarget (f : Frame) : Station := if targeted (kindCode f.body) then f.target else 0

theorem commandTarget_eq {f : Frame} (h : targeted (kindCode f.body) = false → f.target = 0) :
    commandTarget f = f.target := by
  unfold commandTarget
  split
  · rfl
  · rename_i hall
    exact (h (by simpa using hall)).symm

/-- Each frame kind's command is the reception of its body; what the body then does differs by kind (R33). -/
theorem exec_command (f : Frame) : ∃ deliver : State → State, ∀ s,
    exec f.command s = .next (receiveFrame f.sender (commandTarget f) f.body deliver s) := by
  obtain ⟨p, q, tag, body⟩ := f
  cases body <;> exact ⟨_, fun _ => rfl⟩

theorem receiving_of (hr : s.line.receiver = true) (he : s.line.engine = .receiving) : receiving s = true := by
  simp [receiving, hr, he]

theorem receiving_off (h : s.line.receiver = false) : receiving s = false := by simp [receiving, h]

theorem receiveFrame_off (p q : Station) (b : Body) (f : State → State) (h : receiving s = false) :
    receiveFrame p q b f s = s := by
  simp [receiveFrame, h]

theorem receiveFrame_bad {p q : Station} {b : Body} (f : State → State) (h : receiving s = true)
    (hbad : goodFrame s p q b = false) : receiveFrame p q b f s = endReception s := by
  simp [receiveFrame, h, hbad]

theorem receiveFrame_own {p q : Station} {b : Body} (f : State → State) (h : receiving s = true)
    (hgood : goodFrame s p q b = true) (hp : p = s.start.station) :
    receiveFrame p q b f s = ownNumber (endReception s) := by
  subst hp
  simp [receiveFrame, h, hgood]

theorem exec_ownNumberFrame (h : receiving s = true) :
    exec .ownNumberFrame s = .next (ownNumber (endReception s)) := by
  show Host.Outcome.next _ = _
  rw [if_pos h]

/-! ### The clash count (R29) -/

/-- Below the limit, and outside ACTIVE, a clash is counted and no more. -/
theorem countClash_counts (h : s.start.top ≠ .active ∨ s.line.clashes < 2) :
    countClash s = { s with line.clashes := min 3 (s.line.clashes + 1) } := by
  refine if_neg fun hlimit => ?_
  obtain ⟨hcount, htop⟩ := hlimit
  rcases h with h | h
  · exact h htop
  · simp only [Config.clashLimit] at hcount
    omega

theorem countClash_below (h : s.line.clashes < 2) :
    countClash s = { s with line.clashes := s.line.clashes + 1 } := by
  rw [countClash_counts (.inr h), Nat.min_eq_right (by omega)]

/-- Settles O28: a bad frame ends its reception, and one with self's number is counted whatever its kind. -/
theorem badAndOwnFramesGoNoFurther : Obligations.BadAndOwnFramesGoNoFurther := by
  refine ⟨fun s hr he => ?_, fun s hr he => ?_⟩
  · have hrec := receiving_of hr he
    refine ⟨fun d => ?_, fun f htarget hbad => ?_⟩
    · show Host.Outcome.next _ = _
      rw [if_pos hrec]
      rfl
    · obtain ⟨deliver, hf⟩ := exec_command f
      have hbad' : goodFrame s f.sender f.target f.body = false := Bool.and_eq_false_iff.mpr hbad
      rw [hf, commandTarget_eq htarget, receiveFrame_bad deliver hrec hbad']
      rfl
  · have hrec := receiving_of hr he
    refine ⟨fun ht hc => ?_, fun ht => ?_, fun f hwf hrange hself => ?_⟩
    · have hcount := countClash_below (s := endReception s) hc
      have htop : (endReception s).start.top = .active := ht
      rw [exec_ownNumberFrame hrec, ownNumber, if_pos htop, hcount]
      rfl
    · have hnot : (endReception s).start.top ≠ .active := by rw [endReception_start, ht]; simp
      rw [exec_ownNumberFrame hrec, ownNumber, if_neg hnot]
      rfl
    · obtain ⟨deliver, hf⟩ := exec_command f
      have htarget : targeted (kindCode f.body) = false → f.target = 0 := by
        intro hall
        simp only [Frame.wellFormed, hall, Bool.and_eq_true, beq_iff_eq] at hwf
        simpa using hwf.1.2
      have hgood : goodFrame s f.sender f.target f.body = true := Bool.and_eq_true_iff.mpr ⟨hwf, hrange⟩
      rw [hf, commandTarget_eq htarget, receiveFrame_own deliver hrec hgood hself, exec_ownNumberFrame hrec]

/-! ### The line taken and lost (R23, R27) -/

theorem map_waiting (f : Desc → Desc) {l : List Desc} (h : ∀ d ∈ l, d.inTransmission = false) :
    (l.map fun d => if d.inTransmission then f d else d) = l := by
  rw [List.map_congr_left (g := fun d => d) fun d hd => by simp [h d hd], List.map_id']

/-- Settles O22: each happening of the line by the state of the receiver and of the bit engine. -/
theorem lineTaken : Obligations.LineTaken := by
  refine ⟨fun s hr => ?_, fun s ht => ?_, fun s hr => ⟨fun he => ?_, fun he => ?_, fun he => ?_⟩,
    fun s f pre post d he hbox hd hothers => ?_, fun s f id flight he hflight => ?_⟩
  · have hrec : receiving s = false := receiving_off hr
    refine ⟨?_, ?_, ?_, fun d => ?_, fun f => ?_⟩
    · simp [exec, execLineIdle, lineIdle, hr]
    · simp [exec, execStartBit, hr]
    · simp [exec, execOwnNumberFrame, hrec]
    · simp [exec, execFrameDiscarded, hrec]
    · obtain ⟨deliver, hf⟩ := exec_command f
      rw [hf, receiveFrame_off _ _ _ _ hrec]
  · simp [exec, execTransmissionStart, startTransmission, ht]
  · simp [exec, execLineIdle, lineIdle, hr, he]
  · simp [exec, execStartBit, hr, he]
  · simp [exec, execStartBit, he]
  · obtain ⟨hpre, hpost⟩ := List.forall_mem_append.mp hothers
    simp [exec, execArbitrationLoss, loseArbitration, he, hbox, map_waiting _ hpre, map_waiting _ hpost, hd, returnDesc]
  · cases flight with
    | attached => exact absurd rfl hflight
    | afterDetach | afterRestart =>
      simp only [exec, execArbitrationLoss, loseArbitration, he]
      rfl

/-! ### The start of a transmission (R26, R34) -/

/-- R37: a waiting descriptor whose subject is gone. -/
def SubjectGone (s : State) (d : Desc) : Prop := d.inTransmission = false ∧ assemble d.ident d.ballotStamp s = none

theorem selectHead_gone {gone rest : List Desc} (h : ∀ d ∈ gone, SubjectGone s d) :
    selectHead s (gone ++ rest) = selectHead s rest := by
  induction gone with
  | nil => rfl
  | cons d gone ih =>
    obtain ⟨⟨hwaits, hnone⟩, hrest⟩ := List.forall_mem_cons.mp h
    simp [selectHead, hwaits, hnone, ih hrest]

theorem selectHead_body {d : Desc} {body : Body} (rest : List Desc) (hwaits : d.inTransmission = false)
    (hbody : assemble d.ident d.ballotStamp s = some body) :
    selectHead s (d :: rest) = ({ d with inTransmission := true, renewed := false } :: rest, some (d.ident, body)) := by
  simp [selectHead, hwaits, hbody]

/-- Settles O23: `selectHead` passes over the descriptors whose subject is gone. -/
theorem transmissionTakesHead : Obligations.TransmissionTakesHead := by
  intro s hon hidle
  refine ⟨fun gone d rest body hbox hgone hwaits hbody => ?_, fun hgone => ?_⟩
  · have hsel := (selectHead_gone hgone).trans (selectHead_body rest hwaits hbody)
    rw [← hbox] at hsel
    simp [exec, execTransmissionStart, startTransmission, hon, hidle, hsel]
  · have hsel := selectHead_gone (rest := []) hgone
    rw [List.append_nil] at hsel
    simp [exec, execTransmissionStart, startTransmission, hon, hidle, hsel, selectHead]

/-! ### The end of a transmission (R28, R30, R35) -/

theorem endDesc_waiting {l : List Desc} (h : ∀ d ∈ l, d.inTransmission = false) : endDesc l = l := by
  induction l with
  | nil => rfl
  | cons d rest ih =>
    obtain ⟨hd, hrest⟩ := List.forall_mem_cons.mp h
    rw [endDesc_cons, ih hrest]
    simp [hd]

theorem endDesc_append (l m : List Desc) : endDesc (l ++ m) = endDesc l ++ endDesc m := List.filterMap_append

/-- R28, R30: the one descriptor in transmission leaves, or returns to its place. -/
theorem endDesc_split {pre post : List Desc} {d : Desc} (hd : d.inTransmission = true)
    (hothers : ∀ e ∈ pre ++ post, e.inTransmission = false) :
    endDesc (pre ++ d :: post) = if d.renewed then pre ++ returnDesc d :: post else pre ++ post := by
  obtain ⟨hpre, hpost⟩ := List.forall_mem_append.mp hothers
  rw [endDesc_append, endDesc_cons, endDesc_waiting hpre, endDesc_waiting hpost, if_pos hd]
  split <;> rfl

theorem tellEnd_other {id : FrameId} (h : isData id = false) (s : State) : tellEnd id s = s := by
  simp [tellEnd, notice, h]

section Ends

variable {f : Frame} {id : FrameId}

theorem exec_clash_attached (he : s.line.engine = .sending f id .attached) :
    exec .clash s = .next (countClash (tellEnd id
      { s with line.engine := .quiet, line.outbox := endDesc s.line.outbox })) := by
  simp only [exec, execClash, clashed, he]

theorem exec_cleanEnd_attached (he : s.line.engine = .sending f id .attached) :
    exec .cleanEnd s = .next (tellEnd id
      { s with line.engine := .quiet, line.clashes := 0, line.outbox := endDesc s.line.outbox }) := by
  simp only [exec, execCleanEnd, endedCleanly, he]

theorem exec_clash_afterDetach (he : s.line.engine = .sending f id .afterDetach) :
    exec .clash s = .next (countClash (finishedFrame s)) := by
  simp only [exec, execClash, clashed, he]

theorem exec_cleanEnd_afterDetach (he : s.line.engine = .sending f id .afterDetach) :
    exec .cleanEnd s = .next { finishedFrame s with line.clashes := 0 } := by
  simp only [exec, execCleanEnd, endedCleanly, he]

theorem exec_clash_afterRestart (he : s.line.engine = .sending f id .afterRestart) :
    exec .clash s = .next (finishedFrame s) := by
  simp only [exec, execClash, clashed, he]

theorem exec_cleanEnd_afterRestart (he : s.line.engine = .sending f id .afterRestart) :
    exec .cleanEnd s = .next (finishedFrame s) := by
  simp only [exec, execCleanEnd, endedCleanly, he]

/-- R28, R30: a clean end and a clash below the limit do the same to the outbox and the Serve Unit, whatever the clash
count; they differ in what they make of the count. -/
theorem exec_frameEnds {box : List Desc} {serve : ServeUnit} (he : s.line.engine = .sending f id .attached)
    (told : ∀ n, tellEnd id
      { s with line.engine := .quiet, line.clashes := n, line.outbox := endDesc s.line.outbox } =
        { s with line.engine := .quiet, line.outbox := box, line.clashes := n, serve := serve }) :
    exec .cleanEnd s = .next
      { s with line.engine := .quiet, line.outbox := box, line.clashes := 0, serve := serve } ∧
    (s.line.clashes < 2 → exec .clash s = .next
      { s with line.engine := .quiet, line.outbox := box, line.clashes := s.line.clashes + 1, serve := serve }) := by
  refine ⟨(exec_cleanEnd_attached he).trans (congrArg _ (told 0)), fun hlimit => ?_⟩
  rw [exec_clash_attached he]
  exact congrArg _ ((congrArg countClash (told s.line.clashes)).trans (countClash_below hlimit))

end Ends

/-- Settles O25: the end of the descriptor (`endDesc_split`) and the clash count (`countClash_counts`). -/
theorem frameEndsForDescriptor : Obligations.FrameEndsForDescriptor := by
  refine ⟨fun s f pre post d he hbox hd hothers hkind => And.symm ?_,
    fun s f id => ⟨fun he => ⟨exec_cleanEnd_afterDetach he, fun hlimit => ?_⟩,
      fun he => ⟨exec_cleanEnd_afterRestart he, exec_clash_afterRestart he⟩⟩⟩
  · refine exec_frameEnds (serve := s.serve) he fun n => ?_
    rw [tellEnd_other hkind, hbox, endDesc_split hd hothers]
    rfl
  · rw [exec_clash_afterDetach he]
    exact congrArg _ (countClash_counts (s := finishedFrame s) hlimit)

end Sys2Proof.Machine
end

section
/-! PROOFS. The bodies of the moment (R37), one equation per kind, and the standing of a record in a SIGLIST (R19). -/

namespace Sys2Proof.Machine

/- Theorems elaborated side by side pass the memory the check allows (as in Tests/Slice0.lean). -/
set_option Elab.async false

/-- R19: the entry of a record, by the first line of the standing table. -/
theorem sigEntry_eq (r : SegRec) : sigEntry r =
    if r.state = .disputed then ⟨r.stamp, .doubt, r.signature⟩
    else if (r.state = .good ∨ r.state = .stale ∨ r.state = .orphan ∨ r.state = .fetching ∨ r.state = .committing) ∧
        r.usable = true ∧ r.stamp ≠ nullStamp then ⟨r.stamp, .holds, r.signature⟩
    else ⟨nullStamp, .none, 0⟩ := by
  by_cases hd : r.state = .disputed
  · simp [sigEntry, standing, hd]
  · by_cases hh : (r.state = .good ∨ r.state = .stale ∨ r.state = .orphan ∨ r.state = .fetching ∨
        r.state = .committing) ∧ r.usable = true ∧ r.stamp ≠ nullStamp
    · have hs : standing r = .holds := by
        obtain ⟨hstate, hu, hn⟩ := hh
        unfold standing
        rw [if_neg hd, if_pos]
        simpa [hu, hn, or_assoc] using hstate
      rw [if_neg hd, if_pos hh, sigEntry, hs]
    · have hs : standing r = .none := by
        unfold standing
        rw [if_neg hd, if_neg]
        rintro h
        simp only [Bool.and_eq_true, Bool.or_eq_true, decide_eq_true_eq, bne_iff_ne, or_assoc] at h
        exact hh ⟨h.2, h.1⟩
      rw [if_neg hd, if_neg hh, sigEntry, hs]

variable (s : State) (i : Nat) (p : Station) (bt : Option Stamp)

theorem assemble_poll : assemble (.poll i) bt s =
    (findDispute s i).map fun d => .poll (.ofNat 16 i) d.stamp (getRec s i).signature := rfl

/-- R37: a ballot is for the copy the record has, so its stamp is the one asked for. -/
theorem assemble_ballot (t : Stamp) : assemble (.ballot i) (some t) s =
    if ((getRec s i).state = .good ∨ (getRec s i).state = .disputed) ∧ (getRec s i).usable = true ∧
        (getRec s i).stamp = t then some (.ballot (.ofNat 16 i) t (getRec s i).signature) else none := by
  simp only [assemble, Option.some.injEq]
  split
  · rename_i h
    rw [h.2.2]
  · rfl

theorem assemble_request_gone (h : slotOf s i = none) : assemble (.request p i) bt s = none := by
  simp [assemble, h]

/-- R37, R188: a request asks for the chunks that the slot's mask lacks. -/
theorem assemble_request {e : Entry} {slot : Slot} (he : findEntry s i = some e) (hs : slotOf s i = some slot) :
    assemble (.request p i) bt s =
      if slot.mask = 0xFF#8 ∨ e.source ≠ some p then none
      else some (.request (.ofNat 16 i) slot.stamp (slot.mask ^^^ 0xFF#8)) := by
  have hlacks : ~~~ slot.mask = slot.mask ^^^ 0xFF#8 := by
    rw [show 0xFF#8 = BitVec.allOnes 8 from rfl, BitVec.xor_allOnes]
  simp only [assemble, he, hs, hlacks]
  rfl

theorem assemble_data_gone (c : Chunk) (h : ∀ e ∈ s.serve.queue, e.requester = p → e.segment ≠ i) :
    assemble (.data p i c) bt s = none := by
  have hnone : s.serve.queue.find? (fun e => e.requester = p && e.segment = i) = none :=
    List.find?_eq_none.mpr fun e he => by simpa using h e he
  simp only [assemble, hnone]

theorem assemble_data {e : ServeEntry} {u : ServeBuffer} (c : Chunk)
    (he : s.serve.queue.find? (fun e => e.requester = p && e.segment = i) = some e) (hu : s.serve.buffer = some u) :
    assemble (.data p i c) bt s =
      if u.segment = i ∧ u.stamp = e.stamp then
        some (.data (.ofNat 16 i) u.stamp c ((u.data.drop (32 * c.toNat)).take 32)) else none := by
  simp only [assemble, he, hu]
  rfl

/-- Settles O24: the equation of each kind, and the sixteen entries of a SIGLIST by `sigEntry_eq`. -/
theorem bodiesOfTheMoment : Obligations.BodiesOfTheMoment := by
  intro s i b p c k t bt
  refine ⟨rfl, fun h => ?_, fun d h => ?_, assemble_ballot s i t, assemble_request_gone s i p bt,
    fun e slot he hs => assemble_request s i p bt he hs, rfl, rfl, assemble_data_gone s i p bt c,
    fun e u he hu => assemble_data s i p bt c he hu, rfl, rfl, _, rfl, by simp, fun j hj => ?_⟩
  · rw [assemble_poll, h]
    rfl
  · rw [assemble_poll, h]
    rfl
  · rw [List.getElem?_map, List.getElem?_range hj, Option.map_some, sigEntry_eq]
    rfl

end Sys2Proof.Machine
end

section
/-! PROOFS. The end of a DATA frame: its chunk ends, and the Serve Unit paces the next or lets a complete head go (R38,
R113 to R115). -/

namespace Sys2Proof.Machine

/- Theorems elaborated side by side pass the memory the check allows (as in Tests/Slice0.lean). -/
set_option Elab.async false

variable {s : State}

/-! ### Chunk masks -/

theorem chunkCount_dropChunk {m : ChunkMask} {c : Chunk} (h : hasChunk m c = true) :
    chunkCount (dropChunk m c) + 1 = chunkCount m := by
  revert m c
  decide +kernel

theorem chunkCount_addChunk {m : ChunkMask} {c : Chunk} (h : hasChunk m c = false) :
    chunkCount (addChunk m c) = chunkCount m + 1 := by
  revert m c
  decide +kernel

theorem dropChunk_oneChunk (c : Chunk) : dropChunk (oneChunk c) c = 0 := by
  revert c
  decide

theorem nextChunk_some {remaining outstanding : ChunkMask} {k : Chunk}
    (h : nextChunk remaining outstanding = some k) : hasChunk remaining k = true ∧ hasChunk outstanding k = false := by
  simpa using List.find?_some h

theorem ne_zero_of_hasChunk {m : ChunkMask} {k : Chunk} (h : hasChunk m k = true) : m ≠ 0 := by
  rintro rfl
  simp [hasChunk] at h

/-! ### The work of the Serve Unit, action by action -/

theorem serveRun_told (n : Nat) (id : FrameId) (s : State) :
    serveRun (n + 1) (some id) s = serveRun n none (endChunk id s) := rfl

theorem serveRun_step {r : State × Option FrameId} (n : Nat) (h : serveStep s = some r) :
    serveRun (n + 1) none s = serveRun n r.2 r.1 := by
  simp only [serveRun, h]

theorem serveRun_rest (n : Nat) (h : serveStep s = none) : serveRun n none s = s := by
  cases n with
  | zero => rfl
  | succ n => simp only [serveRun, h]

theorem serveStep_empty (hq : s.serve.queue = []) : serveStep s = none := by
  simp only [serveStep, hq]

theorem serveStep_complete {head : ServeEntry} {rest : List ServeEntry} (hq : s.serve.queue = head :: rest)
    (hp : s.serve.phase = .send) (hr : head.remaining = 0) : serveStep s = some (leaveHead s, none) := by
  simp only [serveStep, hq, hp, if_pos hr]

/-- R35: in ACTIVE an outbox with a place takes a descriptor and loses none. -/
theorem offerRaw_room (id : FrameId) (ht : s.start.top = .active)
    (hroom : s.line.outbox.length < Config.outboxCapacity) :
    offerRaw id none s = ({ s with line.outbox := boxWith id s.line.outbox }, none) := by
  rw [offerRaw, if_neg (by simp [ht])]
  exact congrArg _ (offerBox_room id none _ hroom)

/-- R113: with fewer than two chunks outstanding the next is offered. -/
theorem serveStep_paced {head : ServeEntry} {rest : List ServeEntry} {k : Chunk} (hq : s.serve.queue = head :: rest)
    (hp : s.serve.phase = .send) (hc : chunkCount s.serve.outstanding < 2)
    (hk : nextChunk head.remaining s.serve.outstanding = some k) (ht : s.start.top = .active)
    (hroom : s.line.outbox.length < Config.outboxCapacity) :
    serveStep s = some ({ s with
      line.outbox := boxWith (.data head.requester head.segment k) s.line.outbox
      serve.outstanding := addChunk s.serve.outstanding k }, none) := by
  have hr : head.remaining ≠ 0 := ne_zero_of_hasChunk (nextChunk_some hk).1
  have hpace : chunkCount s.serve.outstanding < Config.paceLimit := hc
  simp only [serveStep, hq, hp, if_neg hr, if_pos hpace, hk, Option.map_some]
  exact congrArg some (offerRaw_room _ ht hroom)

/-- R113: with two chunks outstanding the head waits for one to end. -/
theorem serveStep_full {head : ServeEntry} {rest : List ServeEntry} (hq : s.serve.queue = head :: rest)
    (hp : s.serve.phase = .send) (hr : head.remaining ≠ 0) (hc : chunkCount s.serve.outstanding = 2) :
    serveStep s = none := by
  have hpace : ¬ chunkCount s.serve.outstanding < Config.paceLimit := by rw [hc]; decide
  simp only [serveStep, hq, hp, if_neg hr, if_neg hpace]

/-- A chunk of the head is outstanding (R108, R113). -/
structure Outstanding (s : State) (head : ServeEntry) (rest : List ServeEntry) (c : Chunk) : Prop where
  queue : s.serve.queue = head :: rest
  phase : s.serve.phase = .send
  chunk : hasChunk s.serve.outstanding c = true

/-- R114: the state in which a chunk of the head has just ended. -/
def chunkEnded (head : ServeEntry) (rest : List ServeEntry) (c : Chunk) (s : State) : State :=
  { s with
    serve.queue := { head with remaining := dropChunk head.remaining c } :: rest
    serve.outstanding := dropChunk s.serve.outstanding c }

/-- R38, R114: told of the end of an outstanding chunk, the Serve Unit ends it and goes on. -/
theorem tellEnd_outstanding {head : ServeEntry} {rest : List ServeEntry} {c : Chunk}
    (h : Outstanding s head rest c) :
    tellEnd (.data head.requester head.segment c) s = serveRun 511 none (chunkEnded head rest c s) := by
  have hends : endsChunk (.data head.requester head.segment c) s = true := by
    simp [endsChunk, h.queue, h.phase, h.chunk]
  have hended : endChunk (.data head.requester head.segment c) s = chunkEnded head rest c s := by
    simp only [endChunk, hends, h.queue, if_true, chunkEnded]
  calc tellEnd (.data head.requester head.segment c) s
      = tellServe (.data head.requester head.segment c) s := rfl
    _ = serveRun (511 + 1) (some (.data head.requester head.segment c)) s := if_pos hends
    _ = serveRun 511 none (chunkEnded head rest c s) := by rw [serveRun_told, hended]

/-- R113, R114: of two outstanding chunks one ends, and the lowest that is left is offered in its stead. -/
theorem tellEnd_offersNext {head : ServeEntry} {rest : List ServeEntry} {c k : Chunk}
    (h : Outstanding s head rest c) (ht : s.start.top = .active)
    (hroom : s.line.outbox.length < Config.outboxCapacity) (htwo : chunkCount s.serve.outstanding = 2)
    (hk : nextChunk (dropChunk head.remaining c) (dropChunk s.serve.outstanding c) = some k) :
    tellEnd (.data head.requester head.segment c) s = { s with
      line.outbox := boxWith (.data head.requester head.segment k) s.line.outbox
      serve := { s.serve with
        queue := { head with remaining := dropChunk head.remaining c } :: rest
        outstanding := addChunk (dropChunk s.serve.outstanding c) k } } := by
  have hone := chunkCount_dropChunk h.chunk
  obtain ⟨hleft, hfree⟩ := nextChunk_some hk
  have hpaced := serveStep_paced (s := chunkEnded head rest c s) rfl h.phase (by simp only [chunkEnded]; omega) hk ht
    hroom
  have hagain : chunkCount (addChunk (dropChunk s.serve.outstanding c) k) = 2 := by
    rw [chunkCount_addChunk hfree]
    omega
  rw [tellEnd_outstanding h, serveRun_step 510 hpaced]
  exact serveRun_rest 510 (serveStep_full rfl h.phase (ne_zero_of_hasChunk hleft) hagain)

/-- R114, R115: with its last chunk ended the only head leaves, and the Serve Unit is at rest. -/
theorem tellEnd_emptiesQueue {head : ServeEntry} {c : Chunk} (h : Outstanding s head [] c)
    (hlast : head.remaining = oneChunk c) :
    tellEnd (.data head.requester head.segment c) s =
      { s with serve := { s.serve with queue := [], phase := .waiting, outstanding := 0 } } := by
  have hzero : dropChunk head.remaining c = 0 := by rw [hlast, dropChunk_oneChunk]
  rw [tellEnd_outstanding h,
    serveRun_step 510 (serveStep_complete (s := chunkEnded head [] c s) rfl h.phase hzero)]
  exact serveRun_rest 510 (serveStep_empty rfl)

/-- Settles O26: the frame's descriptor leaves (`endDesc_split`), and the Serve Unit is told of its chunk. -/
theorem dataEndServesNextChunk : Obligations.DataEndServesNextChunk := by
  intro s f pre post d head c ht hlen he hbox hd hrenewed hothers hid hphase hchunk
  have hend : endDesc s.line.outbox = pre ++ post := by
    rw [hbox, endDesc_split hd hothers, hrenewed]
    rfl
  have hroom : (pre ++ post).length < Config.outboxCapacity := by
    rw [hbox, List.length_append, List.length_cons] at hlen
    rw [List.length_append, Config.outboxCapacity]
    omega
  rw [hid] at he
  refine ⟨fun k rest hq htwo hk => exec_frameEnds he fun n => ?_, fun hq hlast => exec_frameEnds he fun n => ?_⟩
  · rw [hend]
    exact tellEnd_offersNext ⟨hq, hphase, hchunk⟩ ht hroom htwo hk
  · rw [hend]
    exact tellEnd_emptiesQueue ⟨hq, hphase, hchunk⟩ hlast

end Sys2Proof.Machine
end

section
/-! PROOFS. The DETACH sequence, block by block (R119, R136, R164), and the three happenings that run it (R29, R32,
R163). -/

namespace Sys2Proof.Machine

/- Theorems elaborated side by side pass the memory the check allows (as in Tests/Slice0.lean). -/
set_option Elab.async false

variable {s : State}

/-! ### The records at DETACH (R136, R164) -/

/-- A change that leaves the contributed signature leaves the digests and the bank table (R18, R54). -/
theorem modifyRec_contributed (i : Nat) {f : SegRec → SegRec} (hf : ∀ r, contributed (f r) = contributed r)
    (s : State) : modifyRec i f s = { s with segs.recs := s.segs.recs.set i (f (getRec s i)) } := by
  by_cases hi : i < segCount s
  · rw [modifyRec, putRec_eq i _ s hi, hf, BitVec.xor_self]
    exact if_pos rfl
  · rw [modifyRec_outside s i f hi, List.set_eq_of_length_le (Nat.not_lt.mp hi)]

/-- R136: a record whose dispute entry is freed. -/
def withoutRounds (r : SegRec) : SegRec := { r with rounds := 0 }

/-- R136: every record with a dispute entry in `l` loses its rounds. -/
def clearRounds (l : List Dispute) (s : State) : State :=
  l.foldl (fun s d => modifyRec d.segment withoutRounds s) s

theorem disputesOff_eq (s : State) : disputesOff s = { clearRounds s.disputes s with disputes := [] } := rfl

theorem clearRounds_frame (l : List Dispute) :
    ∀ s : State, clearRounds l s = { s with segs.recs := (clearRounds l s).segs.recs } := by
  induction l with
  | nil => exact fun _ => rfl
  | cons d rest ih =>
    intro s
    have hfirst := modifyRec_contributed d.segment (f := withoutRounds) (fun _ => rfl) s
    calc clearRounds (d :: rest) s
        = clearRounds rest (modifyRec d.segment withoutRounds s) := rfl
      _ = { modifyRec d.segment withoutRounds s with segs.recs := (clearRounds (d :: rest) s).segs.recs } := ih _
      _ = { s with segs.recs := (clearRounds (d :: rest) s).segs.recs } := by rw [hfirst]

theorem clearRounds_segCount (l : List Dispute) : ∀ s : State, segCount (clearRounds l s) = segCount s := by
  induction l with
  | nil => exact fun _ => rfl
  | cons d rest ih => exact fun s => (ih _).trans (segCount_putRec s d.segment _)

theorem clearRounds_getRec {i : Nat} (l : List Dispute) : ∀ s : State, i < segCount s →
    getRec (clearRounds l s) i = if ∃ d ∈ l, d.segment = i then withoutRounds (getRec s i) else getRec s i := by
  induction l with
  | nil => exact fun _ _ => by simp [clearRounds]
  | cons d rest ih =>
    intro s hi
    have hrest := ih (modifyRec d.segment withoutRounds s) (by rw [modifyRec, segCount_putRec]; exact hi)
    change getRec (clearRounds rest _) i = _
    by_cases hd : d.segment = i
    · subst hd
      rw [hrest, getRec_modifyRec_self s d.segment _ hi]
      simp [withoutRounds]
    · rw [hrest, getRec_modifyRec_other s d.segment i _ hd]
      simp [hd]

theorem findDispute_isSome {i : Nat} : (findDispute s i).isSome = true ↔ ∃ d ∈ s.disputes, d.segment = i := by
  simp [findDispute]

/-- R15, R164: a record without its evidence is settled to its state off the line. -/
theorem forgetEvidence_eq (r : SegRec) : forgetEvidence r =
    { r with
      evidence := none
      exhausted := if held r then r.exhausted else false
      state := offLineState r } := by
  unfold forgetEvidence
  rw [clearExhausted_eq]
  simp only [settledState, offLineState, held, Bool.false_eq_true, if_false, Option.isSome_none, Bool.false_and]
  cases r.usable <;> rfl

/-! ### The whole sequence (R164) -/

/-- R119, R150: only a serve read that is the store operation in progress stays outstanding. -/
theorem serveOff_reading (s : State) :
    (serveOff s).serve.reading = true ↔ ∃ i, s.store.op = .reading .serve i := by
  unfold serveOff
  dsimp only
  split
  · rename_i i hop
    exact ⟨fun _ => ⟨i, hop⟩, fun _ => rfl⟩
  · rename_i hother
    exact ⟨nofun, fun ⟨i, hop⟩ => absurd hop (hother i)⟩

/-- R164: the blocks turned off, before the records are gone through. -/
def blocksOff (reason : Reason) (s : State) : State :=
  repairOff <| serveOff <| clearBanks <| clearRoster <|
    lineOff .afterDetach { s with start.top := .detached, start.reason := reason }

theorem detachSequence_eq (reason : Reason) (s : State) : detachSequence reason s =
    raise .detached none (if reason = .clash then some s.start.station else none) none
      { blocksOff reason s with
        segs.recs := (clearRounds s.disputes (blocksOff reason s)).segs.recs.map forgetEvidence
        disputes := [] } := by
  unfold detachSequence
  dsimp only
  rw [disputesOff_eq, clearRounds_frame]
  rfl

theorem detachSequence_getRec (reason : Reason) {i : Nat} (hi : i < segCount s) :
    getRec (detachSequence reason s) i =
      forgetEvidence (if (findDispute s i).isSome then withoutRounds (getRec s i) else getRec s i) := by
  have hcount : i < segCount (clearRounds s.disputes (blocksOff reason s)) := by
    rw [clearRounds_segCount]
    exact hi
  calc getRec (detachSequence reason s) i
      = forgetEvidence (getRec (clearRounds s.disputes (blocksOff reason s)) i) := by
        rw [detachSequence_eq]
        exact getRec_map forgetEvidence _ i hcount
    _ = _ := by
        rw [clearRounds_getRec s.disputes (blocksOff reason s) hi]
        simp only [findDispute_isSome]
        rfl

theorem detachSequence_leaves (reason : Reason) (s : State) : LeftTheLine reason s (detachSequence reason s) where
  start := by rw [detachSequence_eq]; rfl
  line := by rw [detachSequence_eq]; rfl
  roster := by
    rw [detachSequence_eq, ← List.map_const']
    rfl
  serve := by rw [detachSequence_eq]; exact ⟨rfl, rfl, rfl, rfl⟩
  serveRead := by
    rw [detachSequence_eq]
    exact serveOff_reading (clearBanks (clearRoster (lineOff .afterDetach s)))
  repair := by rw [detachSequence_eq]; rfl
  disputes := by rw [detachSequence_eq]; rfl
  digests := by rw [detachSequence_eq]; rfl
  count := by
    have hcount := clearRounds_segCount s.disputes (blocksOff reason s)
    rw [detachSequence_eq, ← show segCount (blocksOff reason s) = segCount s from rfl, ← hcount]
    exact List.length_map _
  records i hi := by
    rw [detachSequence_getRec reason hi, forgetEvidence_eq]
    cases (findDispute s i).isSome with
    | false => rfl
    | true => rfl
  store := by rw [detachSequence_eq]; rfl
  host := by rw [detachSequence_eq]; rfl
  pending := by rw [detachSequence_eq]; rfl

theorem countClash_limit (ht : s.start.top = .active) (h : s.line.clashes = 2) :
    countClash s = detachSequence .clash { s with line.clashes := 3 } := by
  unfold countClash
  rw [h]
  exact if_pos ⟨rfl, ht⟩

theorem exec_detach (ht : s.start.top = .active) :
    exec .detach s = .next (answered .done [] (detachSequence .host s)) := by
  simp only [exec, execDetach, takeCommand, ht, detachRule]
  rfl

/-- Settles O27: whichever of the three begins it, the sequence is `detachSequence` and leaves what
`detachSequence_leaves` says; it sets the outbox and the transmitter anew, so what the frame's end made of them does not
matter. -/
theorem detachRunsWhole : Obligations.DetachRunsWhole := by
  intro s ht
  refine ⟨⟨_, detachSequence_leaves .host s, exec_detach ht⟩, fun f id flight he hnot hkind hcount => ?_,
    fun hr he hcount => ?_⟩
  · refine ⟨_, detachSequence_leaves .clash _, ?_⟩
    cases flight with
    | attached =>
      rw [exec_clash_attached he, tellEnd_other (hkind rfl)]
      exact congrArg _ (countClash_limit ht hcount)
    | afterDetach =>
      rw [exec_clash_afterDetach he]
      exact congrArg _ (countClash_limit ht hcount)
    | afterRestart => exact absurd rfl hnot
  · refine ⟨_, detachSequence_leaves .clash _, ?_⟩
    rw [exec_ownNumberFrame (receiving_of hr he), ownNumber, if_pos (show (endReception s).start.top = .active from ht)]
    exact congrArg _ (countClash_limit ht hcount)

end Sys2Proof.Machine
end

section
/-! PROOFS. Good frames of other stations: the presence notice and the delivery of the body (R32, R33, R42). -/

namespace Sys2Proof.Machine

/- Theorems elaborated side by side pass the memory the check allows (as in Tests/Slice0.lean). -/
set_option Elab.async false

variable {s : State} {p q : Station} {body : Body}

/-! ### The presence notice (R42) -/

theorem setRoster_station (e : RosterEntry) (hp : p ≠ 0) :
    setRoster p e s = { s with roster.entries := s.roster.entries.set (p.toNat - 1) e } := if_neg hp

theorem presence_endReception (hp : p ≠ 0) : presence p (endReception s) = heard p s := by
  have hpresent : isPresent (endReception s) p = isPresent s p := rfl
  unfold presence heard
  rw [setRoster_station _ hp, hpresent]
  split <;> rfl

/-! ### The delivery of a body (R32) -/

theorem Hears.sender_ne_zero (h : Hears s p q body) : p ≠ 0 := by
  have hwf := h.good.1
  simp only [Frame.wellFormed, Bool.and_eq_true, bne_iff_ne] at hwf
  exact hwf.1.1

/-- R24: a frame names a target exactly when its kind is meant for one station. -/
theorem Hears.targeted_iff (h : Hears s p q body) : targeted (kindCode body) = true ↔ q ≠ 0 := by
  have hwf := h.good.1
  simp only [Frame.wellFormed, Bool.and_eq_true, beq_iff_eq] at hwf
  rw [hwf.1.2, bne_iff_ne]
  rfl

/-- R32, R42: a good frame of another station is noted, and its body delivered when it is meant for self. -/
theorem Hears.receiveFrame (h : Hears s p q body) (deliver : State → State) :
    receiveFrame p q body deliver s = if forSelf s q then deliver (heard p s) else heard p s := by
  have hrec : receiving s = true := receiving_of h.reception.1 h.reception.2
  have hgood : goodFrame s p q body = true := Bool.and_eq_true_iff.mpr h.good
  unfold Machine.receiveFrame
  simp only [hrec, hgood, Bool.not_true, Bool.false_eq_true, if_false, if_neg h.other,
    presence_endReception h.sender_ne_zero]

theorem forSelf_iff : forSelf s q = true ↔ q = 0 ∨ q = s.start.station := by simp [forSelf]

theorem Hears.delivered (h : Hears s p q body) (deliver : State → State) (hq : q = 0 ∨ q = s.start.station) :
    Machine.receiveFrame p q body deliver s = deliver (heard p s) := by
  rw [h.receiveFrame deliver, if_pos (forSelf_iff.mpr hq)]

theorem Hears.notForSelf (h : Hears s p q body) (deliver : State → State) (h0 : q ≠ 0) (hq : q ≠ s.start.station) :
    Machine.receiveFrame p q body deliver s = heard p s := by
  rw [h.receiveFrame deliver, if_neg fun hf => (forSelf_iff.mp hf).elim h0 hq]

theorem inActive_active (f : State → State) (ht : s.start.top = .active) : inActive f s = f s := if_pos ht

theorem inActive_otherwise (f : State → State) (ht : s.start.top ≠ .active) : inActive f s = s := if_neg ht

/-- R32: the bodies of all kinds but NEWS and SIGLIST are acted on in ACTIVE alone. -/
theorem exec_command_inActive (f : Frame) (hnews : kindCode f.body ≠ 1) (hlist : kindCode f.body ≠ 9) :
    ∃ act : State → State, ∀ s,
      exec f.command s = .next (receiveFrame f.sender (commandTarget f) f.body (inActive act) s) := by
  obtain ⟨p, q, tag, body⟩ := f
  cases body with
  | news => exact absurd rfl hnews
  | siglist => exact absurd rfl hlist
  | _ => exact ⟨_, fun _ => rfl⟩

theorem commandTarget_of_hears {f : Frame} (h : Hears s f.sender f.target f.body) : commandTarget f = f.target :=
  commandTarget_eq fun hall => by
    by_contra hne
    rw [h.targeted_iff.mpr hne] at hall
    cases hall

/-- Settles O29: a frame for a third station is not delivered, and in CENSUS the other kinds are not acted on. -/
theorem presenceNotice : Obligations.PresenceNotice := by
  rintro s f h (⟨h0, hself⟩ | ⟨ht, hnews, hlist⟩)
  · obtain ⟨deliver, hf⟩ := exec_command f
    rw [hf, commandTarget_of_hears h, h.notForSelf deliver h0 hself]
  · obtain ⟨act, hf⟩ := exec_command_inActive f hnews hlist
    have hidle : inActive act (heard f.sender s) = heard f.sender s :=
      inActive_otherwise act (show s.start.top ≠ .active by simp [ht])
    rw [hf, commandTarget_of_hears h, h.receiveFrame, hidle, ite_self]

end Sys2Proof.Machine
end

section
/-! PROOFS. Offers to an outbox with a place and to a full one (R35, R36), and what they carry for the bank exchange:
DIGEST, SIGQUERY, the beacon and the query holdoff (R49, R52, R53, R55). -/

namespace Sys2Proof.Machine

/- Theorems elaborated side by side pass the memory the check allows (as in Tests/Slice0.lean). -/
set_option Elab.async false

variable {s : State} {p : Station} {b : Nat} {x : Signature} {id : FrameId} {box : List Desc}

/-! ### Offers (R35, R36) -/

theorem any_ident : (box.any fun d => d.ident = id) = true ↔ ∃ d ∈ box, d.ident = id := by simp

theorem Takes.tells_none (h : Takes s id) (t : Option Stamp) : (offerBox id t s.line.outbox).2 = none := by
  rcases h.place with hany | hroom
  · rw [offerBox_present t (any_ident.mp hany)]
  · exact offerBox_room id t _ hroom

/-- R35: in ACTIVE an outbox with a place, or with the same descriptor, takes the offer and tells the Serve Unit
nothing. -/
theorem offerWith_takes (t : Option Stamp) (h : Takes s id) :
    offerWith id t s = { s with line.outbox := (offerBox id t s.line.outbox).1 } := by
  have hraw : offerRaw id t s = ({ s with line.outbox := (offerBox id t s.line.outbox).1 }, none) := by
    rw [offerRaw, if_neg (by simp [h.active])]
    exact congrArg _ (h.tells_none t)
  rw [offerWith, hraw]

theorem offer_takes (h : Takes s id) : offer id s = { s with line.outbox := boxWith id s.line.outbox } :=
  offerWith_takes none h

theorem greatestCode_le {n : Nat} (h : ∀ d ∈ box, codeOf d.ident ≤ n) : greatestCode box ≤ n := by
  by_contra hlt
  obtain ⟨d, hd, hcode⟩ := List.any_eq_true.mp (greatestCode_pos box n (Nat.lt_of_not_le hlt))
  simp only [Bool.and_eq_true, beq_iff_eq] at hcode
  have := h d hd
  omega

/-- R36: a full outbox of no greater code drops a new descriptor, and one that is not DATA is told to nobody. -/
theorem offer_dropped (ht : s.start.top = .active) (hlen : s.line.outbox.length = 12)
    (hnew : ∀ d ∈ s.line.outbox, d.ident ≠ id) (hcode : ∀ d ∈ s.line.outbox, codeOf d.ident ≤ codeOf id)
    (hdata : isData id = false) : offer id s = s := by
  have hfull : ¬ s.line.outbox.length < Config.outboxCapacity := by rw [hlen]; decide
  have hbox : offerBox id none s.line.outbox = (s.line.outbox, none) := by
    rw [offerBox_absent none hnew, if_neg hfull, if_pos (greatestCode_le hcode), notice, hdata]
    rfl
  have hraw : offerRaw id none s = (s, none) := by
    rw [offerRaw, if_neg (by simp [ht]), hbox]
  rw [offer, offerWith, hraw]

theorem boxWith_length_le (h : box.length < Config.outboxCapacity) : (boxWith id box).length ≤ box.length + 1 := by
  unfold boxWith
  by_cases hp : ∃ d ∈ box, d.ident = id
  · rw [offerBox_present none hp, List.length_map]
    omega
  · rw [offerBox_join none (fun d hd hid => hp ⟨d, hd, hid⟩) h, (insertDesc_perm _ _).length_eq, List.length_cons]

/-- R35: with a place for each, offers in a row are all taken, in their order. -/
theorem offers_room (ids : List FrameId) : ∀ s : State, s.start.top = .active →
    s.line.outbox.length + ids.length ≤ Config.outboxCapacity →
    ids.foldl (fun u id => offer id u) s =
      { s with line.outbox := ids.foldl (fun box id => boxWith id box) s.line.outbox } := by
  induction ids with
  | nil => exact fun _ _ _ => rfl
  | cons id rest ih =>
    intro s ht hroom
    rw [List.length_cons] at hroom
    have hplace : s.line.outbox.length < Config.outboxCapacity := by omega
    have hgrown := boxWith_length_le (id := id) hplace
    rw [List.foldl_cons, offer_takes ⟨ht, .inr hplace⟩]
    exact ih { s with line.outbox := boxWith id s.line.outbox } ht (by dsimp only; omega)

/-! ### DIGEST (R52) -/

/-- R52: the state in which the bank's query holdoff has started at 2B, with the digest heard as its copy. -/
def holdoffStarted (b : Nat) (x : Signature) (s : State) : State :=
  { s with roster.banks := s.roster.banks.set b ⟨some (2 * beaconMs s), some x⟩ }

theorem deliverDigest_ignored {e : BankEntry} (he : s.roster.banks[b]? = some e)
    (h : x = s.segs.digests.getD b 0 ∨ e.holdoff.isSome = true) : deliverDigest p b x s = s := by
  simp only [deliverDigest, he, if_pos h]

theorem deliverDigest_asks {e : BankEntry} (he : s.roster.banks[b]? = some e) (hx : x ≠ s.segs.digests.getD b 0)
    (hoff : e.holdoff = none) : deliverDigest p b x s = holdoffStarted b x (offer (.sigquery p b) s) := by
  have hasks : ¬ (x = s.segs.digests.getD b 0 ∨ e.holdoff.isSome = true) := not_or.mpr ⟨hx, by simp [hoff]⟩
  simp only [deliverDigest, he, if_neg hasks, holdoffStarted]

theorem exec_digest {bank : Byte} (h : Hears s p 0 (.digest bank x)) (ht : s.start.top = .active) :
    exec (.digest p bank x) s = .next (deliverDigest p bank.toNat x (heard p s)) := by
  calc exec (.digest p bank x) s
      = .next (receiveFrame p 0 (.digest bank x) (inActive (deliverDigest p bank.toNat x)) s) := rfl
    _ = .next (deliverDigest p bank.toNat x (heard p s)) := by
      rw [h.delivered _ (.inl rfl), inActive_active _ (show (heard p s).start.top = .active from ht)]

/-- R52: what a DIGEST in ACTIVE does to a bank without a running holdoff, whose digest differs. -/
theorem exec_digest_asks {bank : Byte} {e : BankEntry} (h : Hears s p 0 (.digest bank x)) (ht : s.start.top = .active)
    (he : s.roster.banks[bank.toNat]? = some e) (hx : x ≠ s.segs.digests.getD bank.toNat 0) (hoff : e.holdoff = none) :
    exec (.digest p bank x) s = .next (holdoffStarted bank.toNat x (offer (.sigquery p bank.toNat) (heard p s))) := by
  rw [exec_digest h ht, deliverDigest_asks (s := heard p s) he hx hoff]

theorem exec_digest_ignored {bank : Byte} {e : BankEntry} (h : Hears s p 0 (.digest bank x))
    (ht : s.start.top = .active) (he : s.roster.banks[bank.toNat]? = some e)
    (hx : x = s.segs.digests.getD bank.toNat 0 ∨ e.holdoff.isSome = true) :
    exec (.digest p bank x) s = .next (heard p s) := by
  rw [exec_digest h ht, deliverDigest_ignored (s := heard p s) he hx]

theorem takes_heard (h : Takes s id) : Takes (heard p s) id := ⟨h.active, h.place⟩

/-! ### SIGQUERY (R55) and the beacon (R49) -/

theorem deliverSigquery_eq_foldl (b : Nat) (s : State) :
    deliverSigquery b s = ([0, 1, 2, 3].map (FrameId.siglist b)).foldl (fun u id => offer id u) s := by
  simp only [deliverSigquery, List.map_cons, List.map_nil, List.foldl_cons, List.foldl_nil]

theorem exec_sigquery {bank : Byte} (h : Hears s p s.start.station (.sigquery bank)) (ht : s.start.top = .active)
    (hlen : s.line.outbox.length ≤ 8) :
    exec (.sigquery p s.start.station bank) s = .next { heard p s with
      line := { (heard p s).line with
        outbox := [0, 1, 2, 3].foldl (fun box k => boxWith (.siglist bank.toNat k) box) s.line.outbox } } := by
  have htop : (heard p s).start.top = .active := ht
  have hroom : (heard p s).line.outbox.length + 4 ≤ Config.outboxCapacity := Nat.add_le_add_right hlen 4
  calc exec (.sigquery p s.start.station bank) s
      = .next (receiveFrame p s.start.station (.sigquery bank) (inActive (deliverSigquery bank.toNat)) s) := rfl
    _ = .next (([0, 1, 2, 3].map (FrameId.siglist bank.toNat)).foldl (fun u id => offer id u) (heard p s)) := by
      rw [h.delivered _ (.inr rfl), inActive_active _ htop, deliverSigquery_eq_foldl]
    _ = _ := by
      rw [offers_room ([0, 1, 2, 3].map _) _ htop hroom, List.foldl_map]
      rfl

/-- R49: the state in which the pointer has moved on and the beacon timer runs again. -/
def beaconTurned (s : State) : State :=
  { s with
    roster.pointer := (s.roster.pointer + 1) % s.roster.banks.length
    roster.beacon := some (beaconMs s) }

/-- R49: whatever the outbox answers, so long as it evicts nothing. -/
theorem exec_beacon {n : Nat} {box : List Desc} (ht : s.start.top = .active) (hn : s.roster.beacon = some n)
    (hoffer : offer (.digest s.roster.pointer) s = { s with line.outbox := box }) :
    exec .beaconTimerExpiry s = .next { beaconTurned s with line.outbox := box } := by
  have hruns : s.roster.beacon.isSome = true ∧ s.start.top = .active := ⟨by rw [hn]; rfl, ht⟩
  calc exec .beaconTimerExpiry s = .next (beaconExpiry s) := rfl
    _ = _ := by
      rw [beaconExpiry, if_pos hruns]
      simp only [hoffer]
      rfl

theorem codeOf_le_digest (id : FrameId) (b : Nat) : codeOf id ≤ codeOf (.digest b) := by
  cases id <;> simp [codeOf]

/-- Settles O42: each exchange is an offer, taken (`offer_takes`) or dropped (`offer_dropped`), beside a change of the
Roster Unit. -/
theorem bankExchange : Obligations.BankExchange := by
  refine ⟨⟨fun s p b x e h ht he =>
      ⟨exec_digest_ignored h ht he, fun hx hoff => ⟨fun htakes => ?_, fun hlen hlow => ?_⟩⟩,
    fun s p b h ht hlen => exec_sigquery h ht hlen⟩,
    fun s n ht hn => ⟨fun htakes => exec_beacon ht hn (offer_takes htakes), fun hlen hnew => ?_⟩⟩
  · rw [exec_digest_asks h ht he hx hoff, offer_takes (takes_heard htakes)]
    rfl
  · have hdropped : offer (.sigquery p b.toNat) (heard p s) = heard p s := by
      refine offer_dropped (s := heard p s) ht hlen (fun d hd hid => ?_) (fun d hd => Nat.le_of_lt (hlow d hd)) rfl
      have := hlow d hd
      rw [hid] at this
      exact absurd this (Nat.lt_irrefl 8)
    rw [exec_digest_asks h ht he hx hoff, hdropped]
    rfl
  · exact exec_beacon ht hn (offer_dropped ht hlen hnew (fun d _ => codeOf_le_digest d.ident _) rfl)

/-! ### The end of a query holdoff (R53) -/

theorem holdoffExpiry_ends {n : Nat} {copy : Option Signature} (h : s.roster.banks[b]? = some ⟨some n, copy⟩) :
    holdoffExpiry b s = { s with roster.banks := s.roster.banks.set b ⟨none, none⟩ } := by
  simp only [holdoffExpiry, h, Option.isSome_some, if_true]

/-- Settles O43: with the holdoff cleared, the DIGEST heard next is judged as `exec_digest_ignored` and
`exec_digest_asks` say. -/
theorem holdoffEndsQuery : Obligations.HoldoffEndsQuery := by
  intro s b n copy hbank
  have hplace : b.toNat < s.roster.banks.length := (List.getElem?_eq_some_iff.mp hbank).1
  have hcleared : (s.roster.banks.set b.toNat ⟨none, none⟩)[b.toNat]? = some (⟨none, none⟩ : BankEntry) :=
    List.getElem?_set_self hplace
  refine ⟨congrArg _ (holdoffExpiry_ends hbank), fun p x h ht => ?_⟩
  have hears : Hears { s with roster.banks := s.roster.banks.set b.toNat ⟨none, none⟩ } p 0 (.digest b x) :=
    ⟨h.reception, h.good, h.other⟩
  refine ⟨fun hx => exec_digest_ignored hears ht hcleared (.inl hx), fun hx htakes => ?_⟩
  have htakes' : Takes (heard p { s with roster.banks := s.roster.banks.set b.toNat ⟨none, none⟩ })
      (.sigquery p b.toNat) := ⟨htakes.active, htakes.place⟩
  refine ⟨_, exec_digest_asks hears ht hcleared hx rfl, ?_, ?_⟩
  · rw [offer_takes htakes']
    rfl
  · rw [offer_takes htakes']
    exact List.getElem?_set_self (by rw [heard, List.length_set]; exact hplace)

end Sys2Proof.Machine
end

section
/-! PROOFS. A SIGLIST body: its entries in offset order, and the report of a single copy (R57, R58, R61, R63). -/

namespace Sys2Proof.Machine

/- Theorems elaborated side by side pass the memory the check allows (as in Tests/Slice0.lean). -/
set_option Elab.async false

variable {s : State} {p : Station}

/-! ### The entries in order (R57) -/

/-- R58: an entry that is no report: it declares no copy held. -/
def DeclaresNone (e : SigEntry) : Prop := e.standing ≠ .holds ∨ e.stamp = nullStamp

theorem listEntry_declaresNone {e : SigEntry} (i : Nat) (s : State) (h : DeclaresNone e) : listEntry p i e s = s :=
  if_neg fun hholds => h.elim (fun hne => hne hholds.1) hholds.2

/-- R57: the entry at offset `j` of a list that describes the segments from `i` on. -/
def listEntryAt (p : Station) (i : Nat) (es : List SigEntry) (u : State) (j : Nat) : State :=
  match es[j]? with
  | some e => listEntry p (i + j) e u
  | none => u

theorem listEntryAt_succ (i : Nat) (e : SigEntry) (rest : List SigEntry) :
    (fun u j => listEntryAt p i (e :: rest) u (j + 1)) = listEntryAt p (i + 1) rest := by
  funext u j
  simp only [listEntryAt, List.getElem?_cons_succ, Nat.add_right_comm i 1 j, Nat.add_assoc]

/-- R57: the offsets in rising order. -/
theorem listEntries_eq_foldl (es : List SigEntry) : ∀ (i : Nat) (s : State),
    listEntries p i es s = (List.range es.length).foldl (listEntryAt p i es) s := by
  induction es with
  | nil => exact fun _ _ => rfl
  | cons e rest ih =>
    intro i s
    calc listEntries p i (e :: rest) s
        = (List.range rest.length).foldl (listEntryAt p (i + 1) rest) (listEntry p i e s) := ih _ _
      _ = (List.range (e :: rest).length).foldl (listEntryAt p i (e :: rest)) s := by
        rw [List.length_cons, List.range_succ_eq_map, List.foldl_cons, List.foldl_map, listEntryAt_succ]
        rfl

theorem listEntries_declareNone {es : List SigEntry} (h : ∀ e ∈ es, DeclaresNone e) :
    ∀ (i : Nat) (s : State), listEntries p i es s = s := by
  induction es with
  | nil => exact fun _ _ => rfl
  | cons e rest ih =>
    obtain ⟨he, hrest⟩ := List.forall_mem_cons.mp h
    intro i s
    rw [listEntries, listEntry_declaresNone i s he, ih hrest]

/-- R58: with a single entry that declares a copy held, the list is that entry. -/
theorem listEntries_single {e : SigEntry} (es : List SigEntry) : ∀ (j i : Nat) (s : State), es[j]? = some e →
    (∀ l e', es[l]? = some e' → l ≠ j → DeclaresNone e') → listEntries p i es s = listEntry p (i + j) e s := by
  induction es with
  | nil => exact fun _ _ _ hj _ => by simp at hj
  | cons d rest ih =>
    intro j i s hj hothers
    cases j with
    | zero =>
      obtain rfl : d = e := by simpa using hj
      rw [listEntries]
      refine listEntries_declareNone (fun e' he' => ?_) _ _
      obtain ⟨l, hl⟩ := List.mem_iff_getElem?.mp he'
      exact hothers (l + 1) e' hl (by omega)
    | succ j =>
      rw [listEntries, listEntry_declaresNone i s (hothers 0 d rfl (by omega)), Nat.add_comm j 1, ← Nat.add_assoc]
      exact ih j (i + 1) s hj fun l e' hl hne => hothers (l + 1) e' hl (by omega)

/-! ### The report of an UNKNOWN record (R61, R63) -/

theorem withEvidence_contributed (ev : Evidence) (r : SegRec) : contributed (withEvidence ev r) = contributed r := by
  rw [withEvidence_eq]
  rfl

/-- R61, R63: a report for a record as it stands at a start raises its evidence, and no more. -/
theorem report_unknownRec {i : Nat} (t : Stamp) (x : Signature) (fromNews : Bool) (h : getRec s i = unknownRec) :
    report p i t x fromNews s = { s with
      segs.recs := s.segs.recs.set i { unknownRec with evidence := some ⟨t, x, oneStation p, fromNews⟩ } } := by
  have hnewer : newer unknownRec.stamp t = false := newer_null t
  calc report p i t x fromNews s
      = raiseEvidence p i t x fromNews s := by
        simp only [report, h, hnewer]
        rfl
    _ = modifyRec i (withEvidence ⟨t, x, oneStation p, fromNews⟩) s := by
        simp only [raiseEvidence, h]
        rfl
    _ = _ := by
        rw [modifyRec_contributed i (withEvidence_contributed _) s, h, withEvidence_eq]
        rfl

theorem exec_siglist {bank : Byte} {part : BitVec 2} {es : List SigEntry} (h : Hears s p 0 (.siglist bank part es)) :
    exec (.siglist p bank part es) s =
      .next (listEntries p (64 * bank.toNat + 16 * part.toNat) es (heard p s)) :=
  congrArg Host.Outcome.next (h.delivered _ (.inl rfl))

theorem siglist_length {bank : Byte} {part : BitVec 2} {es : List SigEntry}
    (h : Hears s p 0 (.siglist bank part es)) : es.length = 16 := by
  have hwf := h.good.1
  simp only [Frame.wellFormed, Body.wellFormed, Bool.and_eq_true, beq_iff_eq] at hwf
  exact hwf.2.1

/-- Settles O32: the list is a fold over its offsets, and a single report for an UNKNOWN record is evidence raised. -/
theorem siglistReportsHolds : Obligations.SiglistReportsHolds := by
  intro s p b k es h
  refine ⟨?_, fun hnone => ?_, fun j e hj hholds hstamp hrec hothers _ => ?_⟩
  · rw [exec_siglist h, listEntries_eq_foldl, siglist_length h]
    rfl
  · rw [exec_siglist h, listEntries_declareNone hnone]
  · rw [exec_siglist h, listEntries_single es j _ _ hj hothers, listEntry, if_pos ⟨hholds, hstamp⟩]
    exact congrArg _ (report_unknownRec (s := heard p s) _ _ _ hrec)

end Sys2Proof.Machine
end

section
/-! PROOFS. A silent peer is lost to every block in turn: the roster, the evidence, the active job, the serve queue and
the open disputes (R43, R44, R67, R97, R118, R128). -/

namespace Sys2Proof.Machine

/- Theorems elaborated side by side pass the memory the check allows (as in Tests/Slice0.lean). -/
set_option Elab.async false

variable {s : State} {p q : Station}

/-! ### The roster and the evidence (R43, R67) -/

/-- R43, R67: the state of which the Repair Unit, the Serve Unit and the Dispute Unit are told. -/
def lostPeer (p : Station) (s : State) : State :=
  raise .peerLost none (some p) none { s with
    roster.entries := s.roster.entries.set (p.toNat - 1) ⟨false, none⟩
    segs.recs := s.segs.recs.map (dropHolder p) }

theorem silenceExpiry_lost {n : Nat} (hp : p ≠ 0) (h : rosterEntry s p = ⟨true, some n⟩) :
    silenceExpiry p s = disputeStationLost p (serveStationLost p (engineStationLost p (lostPeer p s))) := by
  have hruns : isPresent s p = true ∧ (rosterEntry s p).silence.isSome = true := by
    rw [isPresent, h]
    exact ⟨rfl, rfl⟩
  rw [silenceExpiry, if_pos hruns, setRoster_station _ hp]
  rfl

theorem lostPeer_absent (hp : p ≠ 0) : isPresent (lostPeer p s) p = false := by
  have hentry : rosterEntry (lostPeer p s) p =
      (s.roster.entries.set (p.toNat - 1) ⟨false, none⟩).getD (p.toNat - 1) ⟨false, none⟩ := if_neg hp
  rw [isPresent, hentry, List.getD_eq_getElem?_getD, List.getElem?_set_self']
  cases s.roster.entries[p.toNat - 1]? <;> rfl

theorem lostPeer_getRec (i : Nat) : getRec (lostPeer p s) i = dropHolder p (getRec s i) := by
  by_cases hi : i < segCount s
  · exact getRec_map (dropHolder p) s i hi
  · rw [getRec_eq s i hi, getRec_eq (lostPeer p s) i (by simpa [segCount, lostPeer] using hi)]
    rfl

/-! ### The open disputes (R128) -/

/-- R128: the lost station's ballots are gone. -/
def withoutBallots (p : Station) (s : State) : State :=
  { s with disputes := s.disputes.map fun d => { d with ballots := d.ballots.filter fun b => b.1 ≠ p } }

/-- R128: no signature has reached the threshold in any open dispute. -/
def Undecided (s : State) : Prop :=
  ∀ d ∈ s.disputes, ∀ b ∈ d.ballots, (d.ballots.filter fun b' => b'.2 = b.2).length < threshold s

theorem evaluate_undecided (h : Undecided s) (i : Nat) : evaluate i s = s := by
  unfold evaluate
  split
  · rfl
  · rename_i d hd
    have hnone : winner (threshold s) d.ballots = none := by
      rw [winner, Option.map_eq_none_iff]
      refine List.find?_eq_none.mpr fun b hb => ?_
      have hfew : (ballotsFor b.2 d.ballots).length < threshold s := h d (findDispute_some hd).1 b hb
      rw [decide_eq_true_eq]
      exact Nat.not_le.mpr hfew
    rw [hnone]

theorem disputeStationLost_undecided (h : Undecided (withoutBallots p s)) :
    disputeStationLost p s = withoutBallots p s :=
  List.foldl_fixed' (f := fun u i => evaluate i u) (evaluate_undecided h) _

/-! ### The serve queue (R118) -/

theorem serveWork_rest (h : serveStep s = none) : serveWork s = s := serveRun_rest _ h

/-- R111: while a serve read is outstanding a waiting head stays where it is. -/
theorem serveStep_reading (hp : s.serve.phase = .waiting) (hr : s.serve.reading = true) : serveStep s = none := by
  unfold serveStep
  split
  · rfl
  · simp [hp, hr]

theorem serveStep_inRead (hp : s.serve.phase = .read) : serveStep s = none := by
  unfold serveStep
  split
  · rfl
  · simp [hp]

theorem serveStep_occupied (h : Occupied s.serve) : serveStep s = none := by
  rcases h with hread | ⟨hwaiting, hreading⟩ | ⟨hsend, hcount, hhead⟩
  · exact serveStep_inRead hread
  · exact serveStep_reading hwaiting hreading
  · cases hq : s.serve.queue with
    | nil => exact serveStep_empty hq
    | cons head rest => exact serveStep_full hq hsend (hhead head (by rw [hq]; rfl)) hcount

/-- R118: the serve queue without the entries of a lost requester. -/
def otherRequesters (p : Station) (s : State) : List ServeEntry := s.serve.queue.filter fun e => e.requester ≠ p

theorem otherRequesters_head {head : ServeEntry} {rest : List ServeEntry} (hq : s.serve.queue = head :: rest)
    (hhead : head.requester ≠ p) : (otherRequesters p s).head? = some head := by
  rw [otherRequesters, hq, List.filter_cons_of_pos (by simpa using hhead)]
  rfl

theorem occupied_otherRequesters (hhead : ∀ h ∈ s.serve.queue.head?, h.requester ≠ p) (h : Occupied s.serve) :
    Occupied { s.serve with queue := otherRequesters p s } := by
  rcases h with hread | hwaiting | ⟨hsend, hcount, hremaining⟩
  · exact .inl hread
  · exact .inr (.inl hwaiting)
  · refine .inr (.inr ⟨hsend, hcount, fun h hh => hremaining h ?_⟩)
    cases hq : s.serve.queue with
    | nil => simp [otherRequesters, hq] at hh
    | cons head rest =>
      rw [otherRequesters_head hq (hhead head (by rw [hq]; rfl))] at hh
      exact hh

theorem headLost_iff : (s.serve.queue.head?.any fun e => e.requester = p) = true ↔
    ∃ h ∈ s.serve.queue.head?, h.requester = p := by
  simp [Option.any_eq_true]

/-- R118: a head that is not the lost station's stays in service. -/
theorem serveStationLost_headStays (hhead : ∀ h ∈ s.serve.queue.head?, h.requester ≠ p)
    (hrest : s.serve.queue = [] ∨ Occupied s.serve) :
    serveStationLost p s = { s with serve := { s.serve with queue := otherRequesters p s } } := by
  have hstays : (s.serve.queue.head?.any fun e => e.requester = p) = false :=
    Bool.eq_false_iff.mpr fun hlost => by
      obtain ⟨h, hh, hp⟩ := headLost_iff.mp hlost
      exact hhead h hh hp
  have hstep : serveStep { s with serve := { s.serve with queue := otherRequesters p s } } = none := by
    rcases hrest with hempty | hoccupied
    · exact serveStep_empty (by simp [otherRequesters, hempty])
    · exact serveStep_occupied (occupied_otherRequesters hhead hoccupied)
  simp only [serveStationLost, hstays]
  exact serveWork_rest hstep

theorem serveStationLost_empty (h : s.serve.queue = []) : serveStationLost p s = s := by
  have hsame : otherRequesters p s = s.serve.queue := by simp [otherRequesters, h]
  rw [serveStationLost_headStays (by simp [h]) (.inl h), hsame]

/-- R118: the lost station's head leaves its phase, and its chunks are outstanding no more. -/
def headless (p : Station) (s : State) : State :=
  { s with serve := { s.serve with queue := otherRequesters p s, phase := .waiting, outstanding := 0 } }

theorem serveStationLost_headLost (hhead : ∃ h ∈ s.serve.queue.head?, h.requester = p) :
    serveStationLost p s = serveWork (headless p s) := by
  simp only [serveStationLost, headLost_iff.mpr hhead]
  rfl

theorem standing_servable {r : SegRec} {t : Stamp} (h : Servable r t) : standing r = .holds := by
  obtain ⟨hnull, hstamp, husable, hunknown, hdisputed, hdamaged⟩ := h
  have hother : r.state = .good ∨ r.state = .stale ∨ r.state = .orphan ∨ r.state = .fetching ∨
      r.state = .committing := by
    revert hunknown hdisputed hdamaged
    cases r.state <;> simp
  have hstamp : r.stamp ≠ nullStamp := hstamp ▸ hnull
  simp only [standing, if_neg hdisputed]
  rw [if_pos (by simpa [husable, hstamp, or_assoc] using hother)]

theorem serves_servable {r : SegRec} {t : Stamp} (h : Servable r t) : serves r t = true := by
  simp [serves, standing_servable h, h.2.1]

/-- R111: in ACTIVE, with no serve read outstanding, a waiting head that self can serve is taken into service. -/
theorem serveWork_takesHead {head : ServeEntry} {rest : List ServeEntry} (hq : s.serve.queue = head :: rest)
    (hp : s.serve.phase = .waiting) (hr : s.serve.reading = false) (ht : s.start.top = .active)
    (hs : serves (getRec s head.segment) head.stamp = true) :
    serveWork s = requestServeRead head.segment { s with serve.phase := .read } := by
  have hstep : serveStep s = some (requestServeRead head.segment { s with serve.phase := .read }, none) := by
    simp [serveStep, hq, hp, hr, ht, hs]
  have hread : (requestServeRead head.segment { s with serve.phase := .read }).serve.phase = .read := by
    simp [requestServeRead]
  rw [serveWork, Config.serveFuel, serveRun_step 511 hstep, serveRun_rest 511 (serveStep_inRead hread)]

/-- R149: behind an operation in progress the serve read waits. -/
theorem requestServeRead_busy (i : Nat) (h : s.store.op ≠ .idle) :
    requestServeRead i s = { s with store.serveReq := some i, serve.reading := true } := if_pos h

/-- R149: with the store free and nothing pending the serve read begins at once. -/
theorem requestServeRead_free (i : Nat) (h : StoreFree s.store) :
    requestServeRead i s = { s with store.op := .reading .serve i, serve.reading := true } := by
  obtain ⟨hop, hwrites, hserve, _, _⟩ := h
  simp [requestServeRead, arbitrate, hop, hwrites, hserve]

/-! ### The active job (R97) -/

theorem engineStationLost_other (h : ∀ e ∈ s.repair.queue, e.state = .active → e.source ≠ some p) :
    engineStationLost p s = s := by
  unfold engineStationLost
  split
  · rename_i e he
    obtain ⟨hmem, hactive⟩ := activeEntry_some e he
    rw [if_neg (by simp [activeFrom, he, h e hmem hactive])]
  · rfl

/-- The active job `e` and the entries around it: no other is active or for its segment (R69, R82). -/
structure JobAt (s : State) (pre post : List Entry) (e : Entry) : Prop where
  queue : s.repair.queue = pre ++ e :: post
  active : e.state = .active
  others : ∀ e' ∈ pre ++ post, e'.segment ≠ e.segment ∧ e'.state ≠ .active

section
variable {pre post : List Entry} {e : Entry}

theorem JobAt.activeEntry (h : JobAt s pre post e) : activeEntry s = some e := by
  have hnone : pre.find? (fun e => e.state = .active) = none :=
    List.find?_eq_none.mpr fun e' he' => by simpa using (h.others e' (List.mem_append_left post he')).2
  simp [Machine.activeEntry, h.queue, List.find?_append, hnone, h.active]

theorem JobAt.setEntry (h : JobAt s pre post e) (f : Entry → Entry) :
    setEntry e.segment f s = { s with repair.queue := pre ++ f e :: post } := by
  have hpre := changed_absent (fun e' he' => (h.others e' (List.mem_append_left post he')).1) f
  have hpost := changed_absent (fun e' he' => (h.others e' (List.mem_append_right pre he')).1) f
  unfold changed at hpre hpost
  rw [Machine.setEntry, h.queue, List.map_append, List.map_cons, hpre, hpost, if_pos rfl]

/-- The job with an entry in its place that differs in what the fetch engine notes of it. -/
theorem JobAt.changed {u : State} {d : Entry} (h : JobAt s pre post e) (hq : u.repair.queue = pre ++ d :: post)
    (hseg : d.segment = e.segment) (hact : d.state = e.state) : JobAt u pre post d :=
  ⟨hq, hact.trans h.active, fun e' he' => hseg ▸ h.others e' he'⟩

/-- R89: the state in which the job `e`, in its place in the queue, has asked station `q`. -/
def asked (pre post : List Entry) (e : Entry) (q : Station) (s : State) : State :=
  { s with
    repair := { s.repair with
      queue := pre ++ { e with source := some q } :: post
      cond := some .asking, patience := some (patienceMs s) }
    line.outbox := boxWith (.request q e.segment) s.line.outbox }

theorem JobAt.askSource (h : JobAt s pre post e) (hplace : Takes s (.request q e.segment)) :
    askSource q e.segment s = asked pre post e q s := by
  have htakes : Takes { s with repair.queue := pre ++ { e with source := some q } :: post } (.request q e.segment) :=
    ⟨hplace.active, hplace.place⟩
  simp only [Machine.askSource, h.setEntry, offer_takes htakes]
  rfl

end

theorem pick_active {e : Entry} (h : activeEntry s = some e) : pick s = s := by
  have hbusy : s.start.top ≠ .active ∨ (activeEntry s).isSome = true := .inr (by rw [h]; rfl)
  rw [pick, Config.pickFuel, pickLoop, if_pos hbusy]

/-! ### The lowest source (R88) -/

theorem stations_place (p : Station) (hp : p ≠ 0) : stations[p.toNat - 1]? = some p := by
  revert p
  decide

theorem stations_toNat : ∀ j : Fin 15, (stations.get j).toNat = j.val + 1 := by decide

/-- The search through the stations in rising order finds the lowest that qualifies. -/
theorem stations_find (f : Station → Bool) (hp : p ≠ 0) (hf : f p = true)
    (hlow : ∀ q : Station, q.toNat < p.toNat → f q = false) : stations.find? f = some p := by
  obtain ⟨hplace, hget⟩ := List.getElem?_eq_some_iff.mp (stations_place p hp)
  refine List.find?_eq_some_iff_getElem.mpr ⟨hf, p.toNat - 1, hplace, hget, fun j hj => ?_⟩
  have hnum : stations[j].toNat = j + 1 := stations_toNat ⟨j, Nat.lt_trans hj hplace⟩
  rw [hlow _ (by omega)]
  rfl

theorem bestSource_lowest {e : Entry} {ev : Evidence} {left : Option Station}
    (hev : (getRec s e.segment).evidence = some ev) (h : LowestSource s ev.holders e.tried left q) :
    bestSource s e left = some q := by
  obtain ⟨h0, hholds, huntried, hpresent, hself, hleft⟩ := h.qualifies
  refine stations_find _ h0 ?_ fun q' hlt => ?_
  · simp [eligible, hev, hholds, huntried, hpresent, hself, hleft]
  · rcases h.lowest q' hlt with hno | hno | hno | hno | hno <;> simp [eligible, hev, hno]

theorem hasStation_oneStation (p q : Station) : hasStation (oneStation p) q = decide (q = p) := by
  revert p q
  decide

theorem hasStation_dropStation (set : StationSet) (p q : Station) :
    hasStation (dropStation set p) q = (hasStation set q && !decide (q = p)) := by
  rw [← hasStation_oneStation p q]
  simp [hasStation, dropStation, q.isLt]

theorem hasStation_addStation (set : StationSet) (p q : Station) :
    hasStation (addStation set p) q = (hasStation set q || decide (q = p)) := by
  rw [← hasStation_oneStation p q]
  simp [hasStation, addStation]

/-- R67, R97: an ABSENT station is no source, so its leaving the holders and joining the tried changes no choice. -/
theorem LowestSource.withoutAbsent {holders tried : StationSet} {left : Option Station}
    (h : LowestSource s holders tried left q) (hp : isPresent s p = false) :
    LowestSource s (dropStation holders p) (addStation tried p) left q := by
  obtain ⟨h0, hholds, huntried, hpresent, hself, hleft⟩ := h.qualifies
  have hne : q ≠ p := by
    rintro rfl
    rw [hp] at hpresent
    cases hpresent
  refine ⟨⟨h0, ?_, ?_, hpresent, hself, hleft⟩, fun q' hlt => ?_⟩
  · simp [hasStation_dropStation, hholds, hne]
  · simp [hasStation_addStation, huntried, hne]
  · rcases h.lowest q' hlt with hno | hno | hno
    · exact .inl (by simp [hasStation_dropStation, hno])
    · exact .inr (.inl (by simp [hasStation_addStation, hno]))
    · exact .inr (.inr hno)

/-- R88, R89: the active job asks the lowest source. -/
theorem JobAt.chooseSource {pre post : List Entry} {e : Entry} {ev : Evidence} {left : Option Station}
    (h : JobAt s pre post e) (hev : (getRec s e.segment).evidence = some ev)
    (hlow : LowestSource s ev.holders e.tried left q) (hplace : Takes s (.request q e.segment)) :
    chooseSource left s = asked pre post e q s := by
  simp only [Machine.chooseSource, h.activeEntry, bestSource_lowest hev hlow, h.askSource hplace]

/-- R95, R97: the active job's source is marked tried, and the lowest that is left is asked. -/
theorem JobAt.giveUpSource {pre post : List Entry} {e : Entry} {ev : Evidence} (h : JobAt s pre post e)
    (hev : (getRec s e.segment).evidence = some ev)
    (hlow : LowestSource s ev.holders (addStation e.tried p) none q) (hplace : Takes s (.request q e.segment)) :
    giveUpSource p e.segment s = asked pre post { e with tried := addStation e.tried p } q s := by
  have hstopped : JobAt (stopPatience s) pre post e := ⟨h.queue, h.active, h.others⟩
  have hmarked : markTried p e.segment (stopPatience s) =
      { stopPatience s with repair.queue := pre ++ { e with tried := addStation e.tried p } :: post } :=
    hstopped.setEntry _
  have hchosen : Machine.chooseSource none (markTried p e.segment (stopPatience s)) =
      asked pre post { e with tried := addStation e.tried p } q s := by
    rw [hmarked]
    exact JobAt.chooseSource (h.changed rfl rfl rfl) hev ⟨hlow.qualifies, hlow.lowest⟩ ⟨hplace.active, hplace.place⟩
  have hagain : JobAt (asked pre post { e with tried := addStation e.tried p } q s) pre post
      { e with tried := addStation e.tried p, source := some q } := h.changed rfl rfl rfl
  rw [Machine.giveUpSource, hchosen, pick_active hagain.activeEntry]

/-- R97: the active job that asks the lost station gives it up. -/
theorem engineStationLost_asksNext {pre post : List Entry} {e : Entry} {ev : Evidence} (hjob : JobAt s pre post e)
    (hsource : e.source = some p) (hcond : s.repair.cond = some .asking ∨ s.repair.cond = some .backoff)
    (hev : (getRec s e.segment).evidence = some ev)
    (hlow : LowestSource s ev.holders (addStation e.tried p) none q) (hplace : Takes s (.request q e.segment)) :
    engineStationLost p s = asked pre post { e with tried := addStation e.tried p } q s := by
  have hfrom : activeFrom p e.segment [.asking, .backoff] s = true := by
    rcases hcond with hcond | hcond <;> simp [activeFrom, hjob.activeEntry, hsource, hcond]
  simp only [engineStationLost, hjob.activeEntry, hfrom, if_true, hjob.giveUpSource hev hlow hplace]

/-! ### The whole notice (R44) -/

/-- R44, R128: with no vote decided, the notice leaves what the Serve Unit made of it, less the station's ballots. -/
theorem exec_silence_undecided {n : Nat} {w v : State} (hp : p ≠ 0) (hentry : rosterEntry s p = ⟨true, some n⟩)
    (hvotes : Undecided (withoutBallots p (lostPeer p s)))
    (hengine : engineStationLost p (lostPeer p s) = w) (hserve : serveStationLost p w = v)
    (hdisputes : v.disputes = s.disputes) (hroster : v.roster = (lostPeer p s).roster) :
    exec (.silenceTimerExpiry p) s = .next (withoutBallots p v) := by
  have hvotes' : Undecided (withoutBallots p v) := by
    intro d hd b hb
    have hthreshold : threshold (withoutBallots p v) = threshold (lostPeer p s) := by
      simp only [threshold, quorum, withoutBallots, hroster]
    rw [withoutBallots, hdisputes] at hd
    rw [hthreshold]
    exact hvotes d hd b hb
  calc exec (.silenceTimerExpiry p) s
      = .next (silenceExpiry p s) := rfl
    _ = .next (disputeStationLost p v) := by rw [silenceExpiry_lost hp hentry, hengine, hserve]
    _ = .next (withoutBallots p v) := by rw [disputeStationLost_undecided hvotes']

theorem dropped_evidence {i : Nat} {ev : Evidence} (h : (getRec s i).evidence = some ev) :
    (getRec (lostPeer p s) i).evidence = some { ev with holders := dropStation ev.holders p } := by
  rw [lostPeer_getRec, dropHolder, h]
  rfl

/-- R118: the next head of a lost one is served from the same record. -/
theorem headless_serves {e : ServeEntry} (h : Servable (getRec s e.segment) e.stamp) :
    serves (getRec (headless p (lostPeer p s)) e.segment) e.stamp = true := by
  have hrec : getRec (headless p (lostPeer p s)) e.segment = dropHolder p (getRec s e.segment) :=
    lostPeer_getRec e.segment
  rw [hrec]
  exact serves_servable h

/-- Settles O40: the station is lost to the roster and the evidence (`lostPeer`), then to the active job, the serve
queue and the open disputes, none of which is decided. -/
theorem silenceLosesPeer : Obligations.SilenceLosesPeer := by
  intro s p n hp hentry after lost u rest hvotes
  refine ⟨fun hidle => ?_, fun pre post e ev q hserve hqueue hactive hsource hothers hcond hev hlow hplace => ?_⟩
  · have hengine : engineStationLost p (lostPeer p s) = lostPeer p s := engineStationLost_other hidle
    refine ⟨fun hhead hrest => ?_, fun hhead => ?_⟩
    · have hstays := serveStationLost_headStays (s := lostPeer p s) hhead hrest
      exact (exec_silence_undecided hp hentry hvotes hengine hstays rfl rfl :)
    · have hlost : serveStationLost p (lostPeer p s) = serveWork (headless p (lostPeer p s)) :=
        serveStationLost_headLost hhead
      refine ⟨fun hrest => ?_, fun next others hnext hreading ht hservable => ?_⟩
      · have hstep : serveStep (headless p (lostPeer p s)) = none :=
          hrest.elim (fun hempty => serveStep_empty hempty) (fun hreading => serveStep_reading rfl hreading)
        exact (exec_silence_undecided hp hentry hvotes hengine (hlost.trans (serveWork_rest hstep)) rfl rfl :)
      · have htaken := serveWork_takesHead (s := headless p (lostPeer p s)) hnext rfl hreading ht
          (headless_serves hservable)
        refine ⟨fun hbusy => ?_, fun hfree => ?_⟩
        · have hread := hlost.trans (htaken.trans (requestServeRead_busy next.segment hbusy))
          exact (exec_silence_undecided hp hentry hvotes hengine hread rfl rfl :)
        · have hread := hlost.trans (htaken.trans (requestServeRead_free next.segment hfree))
          exact (exec_silence_undecided hp hentry hvotes hengine hread rfl rfl :)
  · have hlow' : LowestSource (lostPeer p s) ev.holders e.tried none q := ⟨hlow.qualifies, hlow.lowest⟩
    have hasks := engineStationLost_asksNext (s := lostPeer p s) ⟨hqueue, hactive, hothers⟩ hsource hcond
      (dropped_evidence hev) (hlow'.withoutAbsent (lostPeer_absent hp)) ⟨hplace.active, hplace.place⟩
    exact (exec_silence_undecided hp hentry hvotes hasks (serveStationLost_empty hserve) rfl rfl :)

end Sys2Proof.Machine
end

section
/-! PROOFS. What holds still: the pin list, an occupied commit buffer, the staging buffer and the read buffer, command
by command (R77, R84, R174, R177). -/

namespace Sys2Proof.Machine

/- Theorems elaborated side by side pass the memory the check allows (as in Tests/Slice0.lean). -/
set_option Elab.async false

/-- What holds still under most commands. -/
inductive Kept where
  | pins
  | commit
  | staging
  | read

variable {may : Kept → Prop} {s t u : State}

/-- From `s` to `t` nothing but what `may` names has changed: the pin list, an occupied commit buffer, the staging
buffer, the read buffer. -/
structure HoldsStill (may : Kept → Prop) (s t : State) : Prop where
  pins : ¬ may .pins → t.repair.pins = s.repair.pins
  commit : ¬ may .commit → ∀ b, s.repair.commit = some b → t.repair.commit = some b
  staging : ¬ may .staging → t.host.staging = s.host.staging
  read : ¬ may .read → t.host.readBuffer = s.host.readBuffer

namespace HoldsStill

theorem trans (h1 : HoldsStill may s t) (h2 : HoldsStill may t u) : HoldsStill may s u where
  pins hm := (h2.pins hm).trans (h1.pins hm)
  commit hm b hb := h2.commit hm b (h1.commit hm b hb)
  staging hm := (h2.staging hm).trans (h1.staging hm)
  read hm := (h2.read hm).trans (h1.read hm)

theorem of_fields (hp : t.repair.pins = s.repair.pins) (hc : t.repair.commit = s.repair.commit)
    (hs : t.host.staging = s.host.staging) (hr : t.host.readBuffer = s.host.readBuffer) : HoldsStill may s t :=
  ⟨fun _ => hp, fun _ _ hb => hc.trans hb, fun _ => hs, fun _ => hr⟩

/-- What touches neither the Repair Unit nor the Host Port. -/
theorem of_units (hr : t.repair = s.repair) (hh : t.host = s.host) : HoldsStill may s t :=
  of_fields (by rw [hr]) (by rw [hr]) (by rw [hh]) (by rw [hh])

theorem refl (s : State) : HoldsStill may s s := of_units rfl rfl

/-- R77, R84: the moves inside a happening touch no pin and no occupied commit buffer, and of the Host Port the event
queue alone. -/
theorem of_moves (h : Moves s t) : HoldsStill may s t where
  pins _ := h.pins
  commit _ := h.commit
  staging _ := by rw [h.host]
  read _ := by rw [h.host]

theorem of_inner (h : Inner s t) : HoldsStill may s t := of_moves h.moves

theorem of_modifyRec (i : Nat) (f : SegRec → SegRec) : HoldsStill may s (modifyRec i f s) :=
  of_units (modifyRec_repair s i f) (modifyRec_host s i f)

theorem of_setRoster (p : Station) (e : RosterEntry) : HoldsStill may s (setRoster p e s) :=
  of_units (setRoster_repair s p e) (setRoster_host s p e)

/-- The answer of a command leaves all four. -/
theorem answered (h : HoldsStill may s t) (k : ResultCode) (d : List Byte) : HoldsStill may s (answer k d t) :=
  h.trans (of_fields rfl rfl rfl rfl)

end HoldsStill

open HoldsStill

/-! ### The life of the station -/

/-- R76, R101: DETACH keeps the pin list and the commit buffer. -/
theorem detachSequence_holdsStill (r : Reason) (s : State) : HoldsStill may s (detachSequence r s) := by
  have emptied : HoldsStill may s (repairOff (serveOff (clearBanks (clearRoster (lineOff .afterDetach
    { s with start.top := .detached, start.reason := r }))))) := of_fields rfl rfl rfl rfl
  have closed (u : State) : HoldsStill may u (disputesOff u) :=
    (of_inner (roundsOff_inner u.disputes)).trans (of_fields rfl rfl rfl rfl)
  exact emptied.trans ((closed _).trans (of_fields rfl rfl rfl rfl))

theorem countClash_holdsStill (s : State) : HoldsStill may s (countClash s) := by
  have count : HoldsStill may s { s with line.clashes := min Config.clashLimit (s.line.clashes + 1) } :=
    of_units rfl rfl
  unfold countClash
  dsimp only
  split
  · exact count.trans (detachSequence_holdsStill _ _)
  · exact count

theorem ownNumber_holdsStill (s : State) : HoldsStill may s (ownNumber s) := by
  unfold ownNumber
  split
  · exact countClash_holdsStill s
  · exact refl s

theorem joinLine_holdsStill (s : State) : HoldsStill may s (joinLine s) := by
  obtain ⟨_, _, offered, worked⟩ := joinLine_moves s
  have beacon : HoldsStill may (offer (.digest 0) (setRoster s.start.station ⟨true, none⟩ s))
    (startBeacon (setRoster s.start.station ⟨true, none⟩ s)) := of_units rfl rfl
  exact (of_setRoster _ _).trans ((of_moves offered).trans (beacon.trans (of_moves worked)))

theorem attachSequence_holdsStill (s : State) : HoldsStill may s (attachSequence s) := by
  unfold attachSequence
  refine HoldsStill.trans ?_ (joinLine_holdsStill _)
  exact of_units rfl rfl

theorem enterActive_holdsStill (s : State) : HoldsStill may s (enterActive s) := by
  unfold enterActive
  refine HoldsStill.trans ?_ (joinLine_holdsStill _)
  exact of_fields rfl rfl rfl rfl

theorem halt_holdsStill (r : Reason) (s : State) : HoldsStill may s (halt r s) := of_fields rfl rfl rfl rfl

theorem afterStraps_holdsStill (s : State) : HoldsStill may s (afterStraps s) := by
  unfold afterStraps
  split
  · exact halt_holdsStill _ s
  · exact of_units rfl rfl

theorem sampleStraps_holdsStill (stn : BitVec 4) (rate : BitVec 2) (s : State) :
    HoldsStill may s (sampleStraps stn rate s) := by
  unfold sampleStraps
  split
  · refine HoldsStill.trans ?_ (afterStraps_holdsStill _)
    exact of_units rfl rfl
  · exact refl s

theorem startGoesOn_holdsStill (s : State) : HoldsStill may s (startGoesOn s) := by
  unfold startGoesOn
  split
  · exact halt_holdsStill _ s
  · exact refl s

/-- R156: the header read builds the tables and leaves the buffers. -/
theorem enterCensus_holdsStill (h : Header) (s : State) : HoldsStill may s (enterCensus h s) := by
  unfold enterCensus requestCensusRead
  refine HoldsStill.trans ?_ (of_moves (.arbiter _))
  exact of_units rfl rfl

theorem headerRead_holdsStill (l : List Byte) (s : State) : HoldsStill may s (headerRead l s) := by
  have ended : HoldsStill may s { s with store.op := .idle } := of_units rfl rfl
  unfold headerRead
  split
  · split
    · exact ended.trans (enterCensus_holdsStill _ _)
    · exact ended.trans (halt_holdsStill _ _)
  · exact refl s

/-! ### The line -/

/-- A meaning that changes the Line Interface alone, or nothing. -/
theorem lineChange_holdsStill (b : Prop) [Decidable b] (l : Line) (s : State) :
    HoldsStill may s (if b then { s with line := l } else s) := by
  split <;> exact of_units rfl rfl

theorem startTransmission_holdsStill (s : State) : HoldsStill may s (startTransmission s) := by
  unfold startTransmission
  repeat' split
  all_goals exact of_units rfl rfl

theorem loseArbitration_holdsStill (s : State) : HoldsStill may s (loseArbitration s) := by
  unfold loseArbitration
  split <;> exact of_units rfl rfl

theorem finishedFrame_holdsStill (s : State) : HoldsStill may s (finishedFrame s) := of_units rfl rfl

theorem clashed_holdsStill (s : State) : HoldsStill may s (clashed s) := by
  unfold clashed
  split
  · refine HoldsStill.trans ?_ ((of_inner (tellEnd_inner _)).trans (countClash_holdsStill _))
    exact of_units rfl rfl
  · exact (finishedFrame_holdsStill s).trans (countClash_holdsStill _)
  · exact finishedFrame_holdsStill s
  · exact refl s

theorem endedCleanly_holdsStill (s : State) : HoldsStill may s (endedCleanly s) := by
  unfold endedCleanly
  split
  · refine HoldsStill.trans ?_ (of_inner (tellEnd_inner _))
    exact of_units rfl rfl
  · exact of_units rfl rfl
  · exact finishedFrame_holdsStill s
  · exact refl s

/-! ### Frames received -/

theorem presence_holdsStill (p : Station) (s : State) : HoldsStill may s (presence p s) := by
  unfold presence
  dsimp only
  split
  · exact of_setRoster _ _
  · exact (of_setRoster _ _).trans (of_moves (.event _ _ _ _ _))

theorem receiveFrame_holdsStill (p q : Station) (b : Body) (f : State → State)
    (hf : ∀ u, p ≠ u.start.station → HoldsStill may u (f u)) (s : State) :
    HoldsStill may s (receiveFrame p q b f s) := by
  have ended : HoldsStill may s (endReception s) := of_units rfl rfl
  unfold receiveFrame
  split
  · exact refl s
  · dsimp only
    split
    · exact ended
    · split
      · exact ended.trans (ownNumber_holdsStill _)
      · rename_i hp
        have noted := ended.trans (presence_holdsStill (may := may) p (endReception s))
        split
        · exact noted.trans (hf _ (by rw [presence_start]; exact hp))
        · exact noted

theorem inActive_holdsStill (f : State → State) (hf : s.start.top = .active → HoldsStill may s (f s)) :
    HoldsStill may s (inActive f s) := by
  unfold inActive
  split
  · rename_i h
    exact hf h
  · exact refl s

theorem deliverPoll_holdsStill (p : Station) (i : Nat) (t : Stamp) (x : Signature) (ht : s.start.top = .active)
    (hp : p ≠ s.start.station) : HoldsStill may s (deliverPoll p i t x s) := by
  obtain ⟨u, n, hu, heq⟩ := deliverPoll_inner (s := s) p i t x ht hp
  rw [heq]
  exact (of_inner hu).trans (of_units rfl rfl)

theorem deliverDigest_holdsStill (p : Station) (b : Nat) (x : Signature) (s : State) :
    HoldsStill may s (deliverDigest p b x s) := by
  unfold deliverDigest
  repeat' split
  · exact refl s
  · exact refl s
  · exact (of_inner (offer_inner _)).trans (of_units rfl rfl)

/-! ### Timers -/

theorem disputeStationLost_holdsStill (p : Station) (s : State) : HoldsStill may s (disputeStationLost p s) := by
  unfold disputeStationLost
  refine HoldsStill.trans ?_ (of_inner (foldAny_inner _ (fun u i => evaluate_inner (s := u) i) _ _))
  exact of_units rfl rfl

theorem silenceExpiry_holdsStill (p : Station) (s : State) : HoldsStill may s (silenceExpiry p s) := by
  unfold silenceExpiry
  split
  · have noted : HoldsStill may s (raise .peerLost none (some p) none (setRoster p ⟨false, none⟩ s)) :=
      (of_setRoster _ _).trans (of_moves (.event _ _ _ _ _))
    have dropped (u : State) : HoldsStill may u (dropHolders p u) := of_units rfl rfl
    have engines (u : State) : HoldsStill may u (serveStationLost p (engineStationLost p u)) :=
      of_inner ((engineStationLost_inner p).trans (serveStationLost_inner p))
    exact noted.trans ((dropped _).trans ((engines _).trans (disputeStationLost_holdsStill p _)))
  · exact refl s

theorem beaconExpiry_holdsStill (s : State) : HoldsStill may s (beaconExpiry s) := by
  unfold beaconExpiry
  split
  · exact (of_inner (offer_inner _)).trans (of_units rfl rfl)
  · exact refl s

theorem holdoffExpiry_holdsStill (b : Nat) (s : State) : HoldsStill may s (holdoffExpiry b s) := by
  unfold holdoffExpiry
  repeat' split
  all_goals exact of_units rfl rfl

/-! ### Host commands -/

theorem takeCommand_holdsStill (f : TopState → Bool) (g : State → Bool) (rule : State → State)
    (hr : f s.start.top = true → HoldsStill may s (rule s)) : HoldsStill may s (takeCommand f g rule s) := by
  unfold takeCommand
  repeat' split
  · exact (refl s).answered _ _
  · exact (refl s).answered _ _
  · rename_i h _
    exact hr (by simpa using h)

/-- R174: READ takes the read buffer. -/
theorem readRule_holdsStill (i : Nat) (hm : may .read) (s : State) : HoldsStill may s (readRule i s) := by
  have taken : HoldsStill may s { s with host.readBuffer := .reading i, store.hostReq := some i } :=
    ⟨fun _ => rfl, fun _ _ hb => hb, fun _ => rfl, fun h => absurd hm h⟩
  unfold readRule
  repeat' split
  · exact (refl s).answered _ _
  · exact (refl s).answered _ _
  · exact (taken.trans (of_moves (.arbiter _))).answered _ _

/-- R176: TAKE empties the read buffer. -/
theorem takeRule_holdsStill (hm : may .read) (s : State) : HoldsStill may s (takeRule s) := by
  have emptied : HoldsStill may s { s with host.readBuffer := .empty } :=
    ⟨fun _ => rfl, fun _ _ hb => hb, fun _ => rfl, fun h => absurd hm h⟩
  unfold takeRule
  split
  · exact emptied.answered _ _
  · exact (refl s).answered _ _

/-- R177: STAGE writes the staging buffer. -/
theorem stageRule_holdsStill (o : Nat) (b : List Byte) (hm : may .staging) (s : State) :
    HoldsStill may s (stageRule o b s) := by
  have staged : HoldsStill may s { s with host.staging := overwrite s.host.staging o b } :=
    ⟨fun _ => rfl, fun _ _ hb => hb, fun h => absurd hm h, fun _ => rfl⟩
  unfold stageRule
  split
  · exact (refl s).answered _ _
  · exact staged.answered _ _

/-- R178: a PUBLISH locks the staging buffer and leaves its bytes. -/
theorem publishRule_holdsStill (i : Nat) (s : State) : HoldsStill may s (publishRule i s) := by
  unfold publishRule
  split
  · exact (refl s).answered _ _
  · have locked : HoldsStill may (publishClose i (publishCancel i (modifyRec i counted s)))
      { publishClose i (publishCancel i (modifyRec i counted s)) with host.locked := true } :=
        of_fields rfl rfl rfl rfl
    exact ((of_moves (publish_moves i s)).trans (locked.trans (of_moves (requestWrite_moves _ _)))).answered _ _

theorem freshenActive_holdsStill (i : Nat) (ht : listening s.start.top = true) :
    HoldsStill may s (freshenActive i s) := by
  unfold freshenActive
  dsimp only
  split
  · exact (refl s).answered _ _
  · split
    · exact (refl s).answered _ _
    · rename_i hrefuse
      have hpin : pinned s i = false := by simpa using (not_or.mp hrefuse).1
      split
      · exact (of_inner (askBank_inner i)).answered _ _
      · split
        · rename_i hf
          exact (of_inner (enterQueue_inner .demand i hpin (.inr (.inl hf)) ht)).answered _ _
        · split
          · rename_i hf
            exact (of_inner (freshenEnter_inner i ht hpin hf.1)).answered _ _
          · exact (refl s).answered _ _

theorem freshenRule_holdsStill (i : Nat) (ht : inRunning s.start.top = true) : HoldsStill may s (freshenRule i s) := by
  unfold freshenRule
  split
  · exact (refl s).answered _ _
  · rename_i hd
    refine freshenActive_holdsStill i ?_
    revert ht hd
    cases s.start.top <;> simp [inRunning, listening]

/-- R78: PIN lengthens the pin list. -/
theorem pinRule_holdsStill (i : Nat) (hm : may .pins) (s : State) : HoldsStill may s (pinRule i s) := by
  have listed : HoldsStill may s { s with repair.pins := s.repair.pins ++ [i] } :=
    ⟨fun h => absurd hm h, fun _ _ hb => hb, fun _ => rfl, fun _ => rfl⟩
  have cancelled (u : State) : HoldsStill may u (pinCancel i u) := by
    unfold pinCancel cancelEntry
    split
    · exact of_inner ((dropEntry_inner i).trans ((settle_inner i).trans (backfill_inner.trans pick_inner)))
    · exact refl u
  unfold pinRule
  repeat' split
  · exact (refl s).answered _ _
  · exact (refl s).answered _ _
  · exact (listed.trans (cancelled _)).answered _ _

/-- R79: UNPIN shortens it. -/
theorem unpinRule_holdsStill (i : Nat) (hm : may .pins) (s : State) : HoldsStill may s (unpinRule i s) := by
  have unlisted : HoldsStill may s { s with repair.pins := s.repair.pins.filter (fun j => j ≠ i) } :=
    ⟨fun h => absurd hm h, fun _ _ hb => hb, fun _ => rfl, fun _ => rfl⟩
  unfold unpinRule
  split
  · exact (unlisted.trans (of_inner (offerRepair_inner i))).answered _ _
  · exact (refl s).answered _ _

theorem acceptRule_holdsStill (i : Nat) (s : State) : HoldsStill may s (acceptRule i s) := by
  unfold acceptRule
  split
  · exact (of_inner ((closeSettle_inner i).trans (takeUpIf_inner _))).answered _ _
  · exact (refl s).answered _ _

theorem detachRule_holdsStill (s : State) : HoldsStill may s (detachRule s) := by
  unfold detachRule
  split
  · exact (detachSequence_holdsStill _ s).answered _ _
  · exact (refl s).answered _ _

theorem attachRule_holdsStill (s : State) : HoldsStill may s (attachRule s) := by
  unfold attachRule
  split
  · exact (attachSequence_holdsStill s).answered _ _
  · exact (refl s).answered _ _

/-! ### Ends of store operations -/

theorem endOp_holdsStill (s : State) : HoldsStill may s (endOp s) := by
  have ended : HoldsStill may s { s with store.op := .idle, store.computed := none } := of_units rfl rfl
  exact ended.trans (of_moves (.arbiter _))

/-- R105, R106: the end of a commit write frees the commit buffer. -/
theorem freeCommit_holdsStill (hm : may .commit) (s : State) : HoldsStill may s (freeCommit s) := by
  have freed : HoldsStill may s { s with repair.commit := none } :=
    ⟨fun _ => rfl, fun h => absurd hm h, fun _ => rfl, fun _ => rfl⟩
  exact freed.trans (of_inner readyHandOff_inner)

theorem commitSucceeded_holdsStill (hm : may .commit) (s : State) : HoldsStill may s (commitSucceeded s) := by
  unfold commitSucceeded
  split
  · exact refl s
  · exact (of_modifyRec _ _).trans
      ((of_inner ((Inner.event _ _ _ _ _).trans (settle_inner _))).trans (freeCommit_holdsStill hm _))

theorem commitFailed_holdsStill (w : WriteOp) (hm : may .commit) (s : State) : HoldsStill may s (commitFailed w s) :=
  (of_modifyRec w.segment failedRec).trans
    ((of_moves ((loseCopy_moves _ _).trans (.event _ _ _ _ _))).trans (freeCommit_holdsStill hm _))

/-- R180, R181: the end of a publish write unlocks the staging buffer and leaves its bytes. -/
theorem unlocked_holdsStill (s : State) : HoldsStill may s { s with host.locked := false } :=
  of_fields rfl rfl rfl rfl

theorem publishSucceeded_holdsStill (w : WriteOp) (s : State) : HoldsStill may s (publishSucceeded w s) := by
  unfold publishSucceeded
  exact (of_modifyRec _ _).trans ((unlocked_holdsStill _).trans
    (of_inner ((settle_inner w.segment).trans ((offer_inner (.news w.segment)).trans (Inner.event _ _ _ _ _)))))

theorem publishFailed_holdsStill (w : WriteOp) (s : State) : HoldsStill may s (publishFailed w s) := by
  unfold publishFailed
  exact (of_modifyRec _ _).trans ((unlocked_holdsStill _).trans
    (of_moves ((loseCopy_moves w.segment _).trans (.event _ _ _ _ _))))

theorem applyWrite_holdsStill (w : WriteOp) (f : Option WriteFailure) (hm : may .commit) (s : State) :
    HoldsStill may s (applyWrite w f s) := by
  unfold applyWrite
  split
  · exact commitSucceeded_holdsStill hm s
  · exact commitFailed_holdsStill w hm s
  · exact publishSucceeded_holdsStill w s
  · exact publishFailed_holdsStill w s

/-- R148: with no warm restart waiting, the end of a write is applied and no buffer else is freed. -/
theorem endWrite_holdsStill (w : WriteOp) (f : Option WriteFailure) (hw : s.start.storeWait = false)
    (hm : may .commit) : HoldsStill may s (endWrite w f s) := by
  rw [endWrite, if_neg (by simp [hw])]
  exact (applyWrite_holdsStill w f hm s).trans (endOp_holdsStill _)

theorem judgePolling_holdsStill (w : WriteOp) (v : Byte) (hw : s.start.storeWait = false) (hm : may .commit) :
    HoldsStill may s (judgePolling w v s) := by
  unfold judgePolling
  repeat' split
  · exact endWrite_holdsStill w _ hw hm
  · exact of_units rfl rfl
  · exact endWrite_holdsStill w _ hw hm
  · exact refl s
  · exact of_units rfl rfl

theorem statusRead_holdsStill (v : Byte) (hw : s.start.storeWait = false) (hm : may .commit) :
    HoldsStill may s (statusRead v s) := by
  unfold statusRead
  split
  · repeat' split
    · exact of_fields rfl rfl rfl rfl
    · exact of_units rfl rfl
    · exact of_units rfl rfl
  · repeat' split
    · exact endWrite_holdsStill _ _ hw hm
    · exact of_units rfl rfl
    · exact of_units rfl rfl
  · exact judgePolling_holdsStill _ v hw hm
  · split
    · exact refl s
    · exact endWrite_holdsStill _ _ hw hm
  · exact refl s

theorem pollTimeout_holdsStill (hw : s.start.storeWait = false) (hm : may .commit) :
    HoldsStill may s (pollTimeout s) := by
  unfold pollTimeout
  repeat' split
  · exact of_units rfl rfl
  · exact endWrite_holdsStill _ _ hw hm
  · exact of_units rfl rfl
  · exact endWrite_holdsStill _ _ hw hm
  · exact refl s
  · exact refl s

theorem writeSequenceEnd_holdsStill (s : State) : HoldsStill may s (writeSequenceEnd s) := by
  unfold writeSequenceEnd
  split <;> exact of_units rfl rfl

theorem readback_holdsStill (l : List Byte) (hw : s.start.storeWait = false) (hm : may .commit) :
    HoldsStill may s (readback l s) := by
  unfold readback
  split
  · split
    · exact endWrite_holdsStill _ _ hw hm
    · exact refl s
  · exact refl s

theorem censusReadEnd_holdsStill (i : Nat) (r : SlotResult) (s : State) : HoldsStill may s (censusReadEnd i r s) := by
  have told : HoldsStill may s (censusEvent i r s) := by
    rcases censusEvent_cases i r s with h | ⟨_, h⟩ <;> rw [h]
    · exact refl s
    · exact of_moves (.event _ _ _ _ _)
  have applied : HoldsStill may s (applyCensus i r s) :=
    told.trans ((of_modifyRec _ _).trans (of_inner (settle_inner i)))
  unfold censusReadEnd requestCensusRead
  dsimp only
  split
  · refine applied.trans (HoldsStill.trans ?_ (of_moves (.arbiter _)))
    exact of_units rfl rfl
  · refine applied.trans (HoldsStill.trans ?_ (enterActive_holdsStill _))
    exact of_units rfl rfl

/-- R175: the end of a host read fills the read buffer. -/
theorem hostReadEnd_holdsStill (i : Nat) (r : SlotResult) (data : List Byte) (hm : may .read) (s : State) :
    HoldsStill may s (hostReadEnd i r data s) := by
  have judged : HoldsStill may s (if (hostVerdict r).1 then s else signatureFailure i s) := by
    split
    · exact refl s
    · exact of_inner (signatureFailure_inner i)
  exact judged.trans ⟨fun _ => rfl, fun _ _ hb => hb, fun _ => rfl, fun h => absurd hm h⟩

theorem handRead_holdsStill (k : ReadClient) (i : Nat) (hm : may .read) (s : State) :
    HoldsStill may s (handRead k i s) := by
  unfold handRead
  cases k with
  | serve => exact of_inner (serveReadEnd_inner i _ _)
  | host => exact hostReadEnd_holdsStill i _ _ hm s
  | census => exact censusReadEnd_holdsStill i _ s

theorem slotRead_holdsStill (l : List Byte) (hw : s.start.storeWait = false) (hm : may .read) :
    HoldsStill may s (slotRead l s) := by
  have filled : HoldsStill may s (fillTransfer l s) := of_units rfl rfl
  unfold slotRead
  split
  · split
    · dsimp only
      rw [if_neg (by simp [hw])]
      exact filled.trans ((handRead_holdsStill _ _ hm _).trans (endOp_holdsStill _))
    · exact refl s
  · exact refl s

/-! ### Every command -/

/-- R77, R84, R174, R177: what each command that is no start can change of the four. -/
def mayChange : Instr → Kept → Prop
  | .pin _, .pins | .unpin _, .pins => True
  | .readbackEnd _, .commit | .storeStatusReadEnd _, .commit | .storePollTimeout, .commit => True
  | .stage .., .staging => True
  | .read _, .read | .take, .read | .slotReadEnd _, .read => True
  | _, _ => False

/-- Every command but the two starts, in the order of the opcode table. -/
theorem exec_holdsStill (c : Instr) (s : State) (hw : s.start.storeWait = false) (hcold : c ≠ .coldStart)
    (hrestart : c ≠ .restart) : ∀ t, exec c s = .next t → HoldsStill (mayChange c) s t := by
  cases c with
  | coldStart => exact absurd rfl hcold
  | restart => exact absurd rfl hrestart
  | strapSampling stn rate => exact of_next (sampleStraps_holdsStill stn rate s)
  | storeStatusReadEnd v => exact of_next (statusRead_holdsStill v hw trivial)
  | storePollTimeout => exact of_next (pollTimeout_holdsStill hw trivial)
  | headerReadEnd l => exact of_next (headerRead_holdsStill l s)
  | writeSequenceEnd => exact of_next (writeSequenceEnd_holdsStill s)
  | readbackEnd l => exact of_next (readback_holdsStill l hw trivial)
  | slotReadEnd l => exact of_next (slotRead_holdsStill l hw trivial)
  | restartStoreWaitEnd =>
    refine of_next ?_
    rw [if_neg (by simp [hw])]
    exact startGoesOn_holdsStill s
  | lineIdle => exact of_next (lineChange_holdsStill _ _ s)
  | startBit => exact of_next (lineChange_holdsStill _ _ s)
  | transmissionStart => exact of_next (startTransmission_holdsStill s)
  | arbitrationLoss => exact of_next (loseArbitration_holdsStill s)
  | clash => exact of_next (clashed_holdsStill s)
  | cleanEnd => exact of_next (endedCleanly_holdsStill s)
  | frameDiscarded _ => exact of_next (lineChange_holdsStill _ _ s)
  | ownNumberFrame =>
    have ended : HoldsStill (mayChange .ownNumberFrame) s (endReception s) := of_units rfl rfl
    refine of_next ?_
    split
    · exact ended.trans (ownNumber_holdsStill _)
    · exact refl s
  | news p i t x =>
    exact of_next (receiveFrame_holdsStill _ _ _ _ (fun u hp => of_inner (deliverNews_inner p _ t x hp)) s)
  | poll p i t x =>
    exact of_next (receiveFrame_holdsStill _ _ _ _
      (fun u hp => inActive_holdsStill _ fun ht => deliverPoll_holdsStill p _ t x ht hp) s)
  | ballot p i t x =>
    exact of_next (receiveFrame_holdsStill _ _ _ _
      (fun u hp => inActive_holdsStill _ fun ht => of_inner (deliverBallot_inner p _ t x ht hp)) s)
  | request p q i t m =>
    exact of_next (receiveFrame_holdsStill _ _ _ _
      (fun u _ => inActive_holdsStill _ fun ht => of_inner (takeRequest_inner p _ t m ht)) s)
  | nohave p q i t =>
    exact of_next (receiveFrame_holdsStill _ _ _ _
      (fun u _ => inActive_holdsStill _ fun _ => of_inner (deliverNohave_inner p _)) s)
  | busy p q i =>
    exact of_next (receiveFrame_holdsStill _ _ _ _
      (fun u _ => inActive_holdsStill _ fun ht => of_inner (deliverBusy_inner p _ ht)) s)
  | data p q i t ch bytes =>
    exact of_next (receiveFrame_holdsStill _ _ _ _
      (fun u _ => inActive_holdsStill _ fun ht => of_inner (deliverData_inner p _ t ch bytes ht)) s)
  | sigquery p q b =>
    exact of_next (receiveFrame_holdsStill _ _ _ _
      (fun u _ => inActive_holdsStill _ fun _ => of_inner (deliverSigquery_inner _)) s)
  | siglist p b k entries =>
    exact of_next (receiveFrame_holdsStill _ _ _ _ (fun u hp => of_inner (listEntries_inner p entries _ u hp)) s)
  | digest p b x =>
    exact of_next (receiveFrame_holdsStill _ _ _ _
      (fun u _ => inActive_holdsStill _ fun _ => deliverDigest_holdsStill p _ x u) s)
  | silenceTimerExpiry p => exact of_next (silenceExpiry_holdsStill p s)
  | beaconTimerExpiry => exact of_next (beaconExpiry_holdsStill s)
  | queryHoldoffExpiry b => exact of_next (holdoffExpiry_holdsStill b.toNat s)
  | patienceTimerExpiry => exact of_next (of_inner patienceExpiry_inner)
  | disputeDeadlineExpiry i => exact of_next (of_inner (deadlineExpiry_inner i.toNat))
  | transactionCutShort => exact of_next (refl s)
  | unknownCommand code =>
    refine of_next ?_
    split
    · exact refl s
    · exact (refl s).answered _ _
  | status => exact of_next (takeCommand_holdsStill _ _ _ fun _ => (refl s).answered _ _)
  | seginfo i => exact of_next (takeCommand_holdsStill _ _ _ fun _ => (refl s).answered _ _)
  | roster => exact of_next (takeCommand_holdsStill _ _ _ fun _ => (refl s).answered _ _)
  | read i => exact of_next (takeCommand_holdsStill _ _ _ fun _ => readRule_holdsStill _ trivial s)
  | take => exact of_next (takeCommand_holdsStill _ _ _ fun _ => takeRule_holdsStill trivial s)
  | stage o n bytes =>
    refine of_next ?_
    split
    · exact refl s
    · exact takeCommand_holdsStill _ _ _ fun _ => stageRule_holdsStill _ _ trivial s
  | publish i => exact of_next (takeCommand_holdsStill _ _ _ fun _ => publishRule_holdsStill _ s)
  | freshen i => exact of_next (takeCommand_holdsStill _ _ _ fun ht => freshenRule_holdsStill _ ht)
  | pin i => exact of_next (takeCommand_holdsStill _ _ _ fun _ => pinRule_holdsStill _ trivial s)
  | unpin i => exact of_next (takeCommand_holdsStill _ _ _ fun _ => unpinRule_holdsStill _ trivial s)
  | accept i => exact of_next (takeCommand_holdsStill _ _ _ fun _ => acceptRule_holdsStill _ s)
  | events n => exact of_next (takeCommand_holdsStill _ _ _ fun _ => of_fields rfl rfl rfl rfl)
  | detach => exact of_next (takeCommand_holdsStill _ _ _ fun _ => detachRule_holdsStill s)
  | attach => exact of_next (takeCommand_holdsStill _ _ _ fun _ => attachRule_holdsStill s)

theorem mayChange_pins {c : Instr} (h : mayChange c .pins) : ∃ i, c = .pin i ∨ c = .unpin i := by
  cases c <;> simp_all [mayChange]

theorem mayChange_commit {c : Instr} (h : mayChange c .commit) :
    (∃ l, c = .readbackEnd l) ∨ (∃ v, c = .storeStatusReadEnd v) ∨ c = .storePollTimeout := by
  cases c <;> simp_all [mayChange]

theorem mayChange_staging {c : Instr} (h : mayChange c .staging) : ∃ o n l, c = .stage o n l := by
  cases c <;> simp_all [mayChange]

theorem mayChange_read {c : Instr} (h : mayChange c .read) :
    (∃ i, c = .read i) ∨ c = .take ∨ ∃ l, c = .slotReadEnd l := by
  cases c <;> simp_all [mayChange]

/-- Settles O8: each of the four holds still under every command but those that `mayChange` names for it. -/
theorem buffersAndPinsKept : Obligations.BuffersAndPinsKept := by
  intro c s t h hw hcold hrestart
  have still := exec_holdsStill c s hw hcold hrestart t h
  refine ⟨fun hpin hunpin => still.pins fun hm => ?_, fun b hb hback hstatus hpoll => still.commit (fun hm => ?_) b hb,
    fun hstage => still.staging fun hm => ?_, fun hread htake hslot => still.read fun hm => ?_⟩
  · obtain ⟨i, rfl | rfl⟩ := mayChange_pins hm
    · exact hpin i rfl
    · exact hunpin i rfl
  · rcases mayChange_commit hm with ⟨l, rfl⟩ | ⟨v, rfl⟩ | rfl
    · exact hback l rfl
    · exact hstatus v rfl
    · exact hpoll rfl
  · obtain ⟨o, n, l, rfl⟩ := mayChange_staging hm
    exact hstage o n l rfl
  · rcases mayChange_read hm with ⟨i, rfl⟩ | rfl | ⟨l, rfl⟩
    · exact hread i rfl
    · exact htake rfl
    · exact hslot l rfl

end Sys2Proof.Machine
end

section
/-! PROOFS. A record rewritten with its contributed signature kept: the digests and the bank table stay (R17, R18). -/

namespace Sys2Proof.Machine

/- Theorems elaborated side by side pass the memory the check allows (as in Tests/Slice0.lean). -/
set_option Elab.async false

variable {s : State} {i j : Nat} {r q : SegRec}

/-- The state with `r` for the record of segment `i`. -/
def withRec (i : Nat) (r : SegRec) (s : State) : State := { s with segs.recs := s.segs.recs.set i r }

@[simp] theorem segCount_withRec : segCount (withRec i r s) = segCount s := by simp [segCount, withRec]

theorem getRec_withRec_self (hi : i < segCount s) : getRec (withRec i r s) i = r := by
  unfold segCount at hi
  simp [getRec, withRec, hi]

theorem getRec_withRec_other (h : i ≠ j) : getRec (withRec i r s) j = getRec s j := by
  simp [getRec, withRec, h]

theorem withRec_withRec : withRec i r (withRec i q s) = withRec i r s := by simp [withRec]

theorem withRec_getRec (hi : i < segCount s) : withRec i (getRec s i) s = s := by
  unfold segCount at hi
  simp [withRec, getRec, hi]

theorem modifyRec_eq_withRec {f : SegRec → SegRec} (h : contributed (f (getRec s i)) = contributed (getRec s i)) :
    modifyRec i f s = withRec i (f (getRec s i)) s := by
  by_cases hi : i < segCount s
  · rw [modifyRec, putRec_eq i _ s hi, h, BitVec.xor_self]
    exact if_pos rfl
  · rw [modifyRec_outside s i f hi, withRec, List.set_eq_of_length_le (Nat.not_lt.mp hi)]

theorem modifyRec_withRec {f : SegRec → SegRec} (hi : i < segCount s) (h : contributed (f q) = contributed q) :
    modifyRec i f (withRec i q s) = withRec i (f q) s := by
  have hq : getRec (withRec i q s) i = q := getRec_withRec_self hi
  rw [modifyRec_eq_withRec (by rw [hq]; exact h), hq, withRec_withRec]

/-- R17: the contributed signature turns on the copy and on UNKNOWN alone. -/
theorem contributed_congr (hu : r.state = .unknown ↔ q.state = .unknown) (hc : r.usable = q.usable)
    (hx : r.signature = q.signature) : contributed r = contributed q := by
  simp only [contributed, ne_eq, hu, hc, hx]

end Sys2Proof.Machine
end

section
/-! PROOFS. A repair entry in its place in the queue: the order of the queue, an offer that is admitted with no job
preempted, and a fetch that starts at once (R69 to R72, R83, R86 to R90). -/

namespace Sys2Proof.Machine

/- Theorems elaborated side by side pass the memory the check allows (as in Tests/Slice0.lean). -/
set_option Elab.async false

variable {s : State} {i : Nat} {l pre post : List Entry} {e a : Entry} {level : Level}

/-! ### The order of the queue (R70) -/

/-- R70: in a queue in order an entry stands behind those of its level and above, and before those below. -/
theorem insertEntry_eq (h : l.Pairwise fun d e => levelRank e.level ≤ levelRank d.level) (e : Entry) :
    insertEntry e l = l.filter (fun d => levelRank e.level ≤ levelRank d.level) ++ e ::
      l.filter (fun d => levelRank d.level < levelRank e.level) := by
  induction l with
  | nil => rfl
  | cons x rest ih =>
    obtain ⟨hx, hrest⟩ := List.pairwise_cons.mp h
    unfold insertEntry
    split
    · rename_i hle
      have hnot : ¬ levelRank x.level < levelRank e.level := Nat.not_lt.mpr hle
      rw [ih hrest]
      simp [hle, hnot]
    · rename_i hlt
      have hbelow : ∀ d ∈ x :: rest, levelRank d.level < levelRank e.level := by
        rintro d (_ | ⟨_, hd⟩)
        · exact Nat.lt_of_not_le hlt
        · have := hx d hd
          omega
      rw [List.filter_eq_nil_iff.mpr fun d hd => by simpa using hbelow d hd,
        List.filter_eq_self.mpr fun d hd => by simpa using hbelow d hd]
      rfl

theorem insertEntry_first (h : ∀ d ∈ l, levelRank d.level < levelRank e.level) : insertEntry e l = e :: l := by
  cases l with
  | nil => rfl
  | cons x rest => exact if_neg (Nat.not_le.mpr (h x List.mem_cons_self))

theorem find_insertEntry_other {p : Entry → Bool} (h : p e = false) (l : List Entry) :
    (insertEntry e l).find? p = l.find? p := by
  induction l with
  | nil => simp [insertEntry, h]
  | cons x rest ih =>
    unfold insertEntry
    split
    · rw [List.find?_cons, List.find?_cons, ih]
    · rw [List.find?_cons, h]

theorem find_insertEntry_self {p : Entry → Bool} (h : p e = true) (hl : ∀ d ∈ l, p d = false) :
    (insertEntry e l).find? p = some e := by
  induction l with
  | nil => simp [insertEntry, h]
  | cons x rest ih =>
    unfold insertEntry
    split
    · rw [List.find?_cons, hl x List.mem_cons_self]
      exact ih fun d hd => hl d (List.mem_cons_of_mem x hd)
    · rw [List.find?_cons, h]

/-- The first match is still the first match among those that a filter keeps. -/
theorem find_filter_of_find {p q : Entry → Bool} (h : l.find? p = some a) (hq : q a = true) :
    (l.filter q).find? p = some a := by
  obtain ⟨hp, before, after, rfl, hno⟩ := List.find?_eq_some_iff_append.mp h
  refine List.find?_eq_some_iff_append.mpr ⟨hp, before.filter q, after.filter q, ?_, fun d hd => ?_⟩
  · rw [List.filter_append, List.filter_cons_of_pos hq]
  · exact hno d (List.mem_of_mem_filter hd)

/-! ### An entry in its place -/

/-- The entry `e` in its place in the queue, the only one for its segment (R69). -/
structure EntryAt (s : State) (pre post : List Entry) (e : Entry) : Prop where
  queue : s.repair.queue = pre ++ e :: post
  others : ∀ e' ∈ pre ++ post, e'.segment ≠ e.segment

theorem EntryAt.findEntry (h : EntryAt s pre post e) : findEntry s e.segment = some e := by
  have hnone : pre.find? (fun d => d.segment = e.segment) = none :=
    List.find?_eq_none.mpr fun d hd => by simpa using h.others d (List.mem_append_left post hd)
  simp [Machine.findEntry, h.queue, List.find?_append, hnone]

theorem EntryAt.setEntry (h : EntryAt s pre post e) (f : Entry → Entry) :
    setEntry e.segment f s = { s with repair.queue := pre ++ f e :: post } := by
  have hpre := changed_absent (fun e' he' => h.others e' (List.mem_append_left post he')) f
  have hpost := changed_absent (fun e' he' => h.others e' (List.mem_append_right pre he')) f
  unfold changed at hpre hpost
  rw [Machine.setEntry, h.queue, List.map_append, List.map_cons, hpre, hpost, if_pos rfl]

theorem JobAt.entryAt (h : JobAt s pre post e) : EntryAt s pre post e := ⟨h.queue, fun e' he' => (h.others e' he').1⟩

theorem findEntry_eq_none (h : ∀ e ∈ s.repair.queue, e.segment ≠ i) : findEntry s i = none :=
  List.find?_eq_none.mpr fun e he => by simpa using h e he

/-! ### An offer that preempts nothing (R71, R72) -/

/-- R71, R86, R90: an entry for segment `i` at a level preempts no job and starts none. -/
def Unhurried (level : Level) (i : Nat) (s : State) : Prop :=
  s.start.top ≠ .active ∨ ∃ a, activeEntry s = some a ∧ levelRank level ≤ levelRank a.level ∧ a.segment ≠ i

/-- R71, R86: nothing follows an admission outside ACTIVE, or behind a job of its level or above. -/
theorem afterAdmission_eq (h : s.start.top ≠ .active ∨ ∃ a e, activeEntry s = some a ∧ findEntry s i = some e ∧
    levelRank e.level ≤ levelRank a.level) : afterAdmission i s = s := by
  rcases h with ht | ⟨a, e, ha, he, hle⟩
  · exact if_pos ht
  · simp [afterAdmission, preemptFor, ha, he, Nat.not_lt.mpr hle]

/-- R71: with room in the queue an entry is added, and what follows an admission follows. -/
theorem enterQueue_admits (hnone : findEntry s i = none) (hroom : s.repair.queue.length < 32) :
    enterQueue level i s = afterAdmission i (addEntry level i s) := by
  have hplace : queueRoom s = true := decide_eq_true hroom
  simp only [enterQueue, hnone, admitEntry, hplace, if_true]

theorem findEntry_addEntry (hnone : findEntry s i = none) :
    findEntry (addEntry level i s) i = some (freshEntry i level) :=
  find_insertEntry_self (decide_eq_true rfl) fun d hd => decide_eq_false (findEntry_none i hnone d hd)

theorem activeEntry_addEntry : activeEntry (addEntry level i s) = activeEntry s :=
  find_insertEntry_other (decide_eq_false (by simp [freshEntry])) _

/-- R71: with room in the queue an entry joins that preempts no job. -/
theorem enterQueue_joins (hnone : findEntry s i = none) (hroom : s.repair.queue.length < 32)
    (hcalm : Unhurried level i s) : enterQueue level i s = addEntry level i s := by
  rw [enterQueue_admits hnone hroom]
  refine afterAdmission_eq (hcalm.imp id ?_)
  rintro ⟨a, ha, hle, _⟩
  exact ⟨a, _, activeEntry_addEntry.trans ha, findEntry_addEntry hnone, hle⟩

/-- R72: the state in which the entry `e` has risen to a level, the youngest there. -/
def risen (level : Level) (e : Entry) (s : State) : State :=
  { s with
    repair.queue := insertEntry { e with level := level } (s.repair.queue.filter fun x => x.segment ≠ e.segment) }

/-- R72: an entry that is not suspended rises from below; a running job just goes on. -/
theorem enterQueue_rises (he : findEntry s i = some e) (hstate : e.state ≠ .suspended)
    (hlt : levelRank e.level < levelRank level) : enterQueue level i s =
      if e.state = .active then risen level e s else afterAdmission e.segment (risen level e s) := by
  simp [enterQueue, he, raiseEntry, Nat.not_le.mpr hlt, hstate, risen]

/-- R72: a waiting entry rises to a level that preempts no job. -/
theorem enterQueue_risesCalmly (he : findEntry s i = some e) (hwait : e.state = .waiting)
    (hlt : levelRank e.level < levelRank level) (hcalm : Unhurried level i s) :
    enterQueue level i s = risen level e s := by
  have hseg : e.segment = i := (findEntry_some i e he).2
  have hfound : findEntry (risen level e s) e.segment = some { e with level := level } :=
    find_insertEntry_self (by simp) fun d hd => by simpa using (List.mem_filter.mp hd).2
  have hafter : afterAdmission e.segment (risen level e s) = risen level e s := by
    refine afterAdmission_eq (hcalm.imp id ?_)
    rintro ⟨a, ha, hle, hother⟩
    have hactive : activeEntry (risen level e s) = some a :=
      (find_insertEntry_other (by simp [hwait]) _).trans (find_filter_of_find ha (by simpa [hseg] using hother))
    exact ⟨a, _, hactive, hfound, hle⟩
  rw [enterQueue_rises he (by simp [hwait]) hlt, hafter, ite_self]

/-- R72: the entry of a running job rises, and the job goes on. -/
theorem enterQueue_raisesJob (he : findEntry s i = some e) (hactive : e.state = .active)
    (hlt : levelRank e.level < levelRank level) : enterQueue level i s = risen level e s := by
  rw [enterQueue_rises he (by simp [hactive]) hlt, if_pos hactive]

/-- R72: an entry at the level or above stays as it is. -/
theorem enterQueue_stays (he : findEntry s i = some e) (hle : levelRank level ≤ levelRank e.level) :
    enterQueue level i s = s := by
  simp [enterQueue, he, raiseEntry, hle]

theorem admissible_iff : admissible s i = true ↔
    (s.start.top = .census ∨ s.start.top = .active) ∧ fetchable (getRec s i) = true ∧ i ∉ s.repair.pins := by
  simp [admissible, pinned, and_assoc]

theorem offerRepair_passes (h : admissible s i = true) :
    offerRepair i s = enterQueue (admissionLevel (getRec s i)) i s := if_pos h

theorem offerRepair_refused (h : admissible s i = false) : offerRepair i s = s := by
  rw [offerRepair, h]
  rfl

theorem offerRepair_pinned (h : i ∈ s.repair.pins) : offerRepair i s = s :=
  offerRepair_refused (Bool.eq_false_iff.mpr fun ha => (admissible_iff.mp ha).2.2 h)

/-! ### A fetch that starts at once (R83, R86 to R90) -/

/-- R89: the state in which a job has asked station `q`, by the number of its segment. -/
theorem asked_eq {q : Station} (hseg : e.segment = i) : asked pre post e q s =
    { s with
      repair := { s.repair with
        queue := pre ++ { e with source := some q } :: post
        cond := some .asking, patience := some (patienceMs s) }
      line.outbox := boxWith (.request q i) s.line.outbox } := by
  subst hseg
  rfl

/-- R87: a landing slot just taken for the copy that the evidence names. -/
def slotTaken (i : Nat) (ev : Evidence) : Slot where
  segment := i
  stamp := ev.stamp
  signature := ev.signature
  mask := 0
  data := blankSegment
  supplier := none
  computed := none

/-- R87 to R89: the state in which the fetch of the entry `e`, in its place in the queue, has begun in slot `n`, from
station `q`. -/
def fetchBegun (pre post : List Entry) (e : Entry) (n : SlotName) (ev : Evidence) (q : Station) (s : State) : State :=
  asked pre post { e with state := .active, slot := some n } q
    (withRec e.segment { getRec s e.segment with state := .fetching } (setSlot n (some (slotTaken e.segment ev)) s))

/-- R83, R87, R88: the fetch of segment `i` for the copy its evidence names can start in slot `n` from station `q`. -/
structure FetchReady (s : State) (i : Nat) (n : SlotName) (ev : Evidence) (tried : StationSet) (q : Station) :
    Prop where
  inTable : i < segCount s
  known : (getRec s i).state ≠ .unknown
  evidence : (getRec s i).evidence = some ev
  free : freeSlot s = some n
  source : LowestSource s ev.holders tried none q
  place : Takes s (.request q i)

/-- The entry `e`, in its place in a queue without an active job, can start from station `q` in slot `n`. -/
structure CanStart (s : State) (pre post : List Entry) (e : Entry) (n : SlotName) (ev : Evidence) (q : Station) :
    Prop where
  queue : s.repair.queue = pre ++ e :: post
  others : ∀ e' ∈ pre ++ post, e'.segment ≠ e.segment ∧ e'.state ≠ .active
  fresh : e.slot = none
  ready : FetchReady s e.segment n ev e.tried q

/-- R88: a source is a matter of the roster and the own number. -/
theorem LowestSource.congr {u : State} {holders tried : StationSet} {left : Option Station} {q : Station}
    (h : LowestSource s holders tried left q) (hroster : u.roster = s.roster) (hstart : u.start = s.start) :
    LowestSource u holders tried left q := by
  have hpresent (p : Station) : isPresent u p = isPresent s p := by simp only [isPresent, rosterEntry, hroster]
  exact ⟨by rw [hpresent, hstart]; exact h.qualifies, fun q' hq' => by rw [hpresent, hstart]; exact h.lowest q' hq'⟩

theorem Takes.congr {u : State} {id : FrameId} (h : Takes s id) (hline : u.line = s.line) (hstart : u.start = s.start) :
    Takes u id := ⟨hstart ▸ h.active, hline ▸ h.place⟩

/-- A change of the Repair Unit alone that leaves the free slot free. -/
theorem FetchReady.congr {n : SlotName} {ev : Evidence} {tried : StationSet} {q : Station}
    (h : FetchReady s i n ev tried q) (v : RepairUnit) (hfree : freeSlot { s with repair := v } = some n) :
    FetchReady { s with repair := v } i n ev tried q :=
  ⟨h.inTable, h.known, h.evidence, hfree, h.source.congr rfl rfl, h.place.congr rfl rfl⟩

theorem setSlot_fields (n : SlotName) (v : Option Slot) :
    (setSlot n v s).segs = s.segs ∧ (setSlot n v s).roster = s.roster ∧ (setSlot n v s).start = s.start ∧
      (setSlot n v s).line = s.line := by
  cases n <;> exact ⟨rfl, rfl, rfl, rfl⟩

section
variable {n : SlotName} {ev : Evidence} {q : Station}

theorem CanStart.entryAt (h : CanStart s pre post e n ev q) : EntryAt s pre post e :=
  ⟨h.queue, fun e' he' => (h.others e' he').1⟩

/-- The job that a fetch begun leaves in the queue. -/
theorem fetchBegun_job (hact : ∀ e' ∈ pre ++ post, e'.segment ≠ e.segment ∧ e'.state ≠ .active) :
    JobAt (fetchBegun pre post e n ev q s) pre post { e with state := .active, slot := some n, source := some q } :=
  ⟨rfl, rfl, hact⟩

theorem CanStart.freshStart (h : CanStart s pre post e n ev q) :
    freshStart e.segment s = fetchBegun pre post e n ev q s := by
  let started := { e with state := .active, slot := some n }
  let u := setSlot n (some (slotTaken e.segment ev)) s
  let v : State := { u with repair.queue := pre ++ started :: post }
  obtain ⟨hsegs, hroster, hstart, hline⟩ := setSlot_fields (s := s) n (some (slotTaken e.segment ev))
  have hentry : EntryAt u pre post e := ⟨(setSlot_queue s n _).trans h.queue, h.entryAt.others⟩
  have hrec : getRec v e.segment = getRec s e.segment := getRec_congr hsegs _
  have hcount : segCount v = segCount s := by simp only [segCount, v, u, hsegs]
  have hfetching : modifyRec e.segment (fun r => { r with state := .fetching }) v =
      withRec e.segment { getRec s e.segment with state := .fetching } v := by
    rw [modifyRec_eq_withRec (contributed_congr (by simp [hrec, h.ready.known]) rfl rfl), hrec]
  let w := withRec e.segment { getRec s e.segment with state := .fetching } v
  have hjob : JobAt w pre post started := ⟨rfl, rfl, h.others⟩
  have hwrec : getRec w e.segment = { getRec s e.segment with state := .fetching } :=
    getRec_withRec_self (hcount ▸ h.ready.inTable)
  have hev : (getRec w e.segment).evidence = some ev := (congrArg SegRec.evidence hwrec).trans h.ready.evidence
  have hasks : chooseSource none w = asked pre post started q w :=
    hjob.chooseSource hev (h.ready.source.congr hroster hstart) (h.ready.place.congr hline hstart)
  calc Machine.freshStart e.segment s
      = chooseSource none (modifyRec e.segment (fun r => { r with state := .fetching })
          (Machine.setEntry e.segment (fun e => { e with state := .active, slot := some n }) u)) := by
        simp only [Machine.freshStart, h.ready.evidence, h.ready.free]
        rfl
    _ = chooseSource none w := by rw [hentry.setEntry, hfetching]
    _ = asked pre post started q w := hasks
    _ = _ := rfl

theorem CanStart.takeUp (h : CanStart s pre post e n ev q) :
    takeUp e.segment s = fetchBegun pre post e n ev q s := by
  have hfresh : e.slot.isNone = true := by rw [h.fresh]; rfl
  simp only [Machine.takeUp, h.entryAt.findEntry, hfresh, if_true, h.freshStart]

theorem pickLoop_active (n : Nat) (h : activeEntry s = some a) : pickLoop n s = s := by
  cases n with
  | zero => rfl
  | succ n => exact if_pos (.inr (by rw [h]; rfl))

/-- R86: with the stack empty and no active job, the first waiting entry starts. -/
theorem CanStart.pick (h : CanStart s pre post e n ev q) (hstack : s.repair.stack = [])
    (hidle : activeEntry s = none) (hfirst : firstWaiting s = some e) :
    pick s = fetchBegun pre post e n ev q s := by
  have hchoice : pickChoice s = some (e.segment, []) := by simp [pickChoice, hstack, hfirst]
  have hsame : { s with repair.stack := [] } = s := by rw [← hstack]
  have hgo : ¬ (s.start.top ≠ .active ∨ (activeEntry s).isSome = true) := by simp [h.ready.place.active, hidle]
  rw [Machine.pick, Config.pickFuel, pickLoop, if_neg hgo]
  simp only [hchoice, hsame, h.takeUp]
  exact pickLoop_active 2047 (fetchBegun_job h.others).activeEntry

theorem preempt_eq (ha : activeEntry s = some a) : preempt s =
    { s with repair := { s.repair with
      queue := changed a.segment (fun e => { e with state := .suspended }) s.repair.queue
      stack := a.segment :: s.repair.stack, cond := none, patience := none } } := by
  simp only [preempt, ha]
  rfl

/-- R90: an entry above the active job's level preempts it and starts. -/
theorem CanStart.preempts (h : CanStart (preempt s) pre post e n ev q) (ha : activeEntry s = some a)
    (he : findEntry s e.segment = some e) (hlt : levelRank a.level < levelRank e.level) :
    preemptFor e.segment s = fetchBegun pre post e n ev q (preempt s) := by
  simp only [preemptFor, ha, he, if_pos hlt, h.takeUp]
  exact pick_active (fetchBegun_job h.others).activeEntry

/-- R71, R86: with the queue and the stack empty, a segment admitted starts at once. -/
theorem enterQueue_starts (hqueue : s.repair.queue = []) (hstack : s.repair.stack = [])
    (h : CanStart (addEntry level i s) [] [] (freshEntry i level) n ev q) :
    enterQueue level i s = fetchBegun [] [] (freshEntry i level) n ev q (addEntry level i s) := by
  have hidle : activeEntry (addEntry level i s) = none :=
    activeEntry_addEntry.trans (by simp [activeEntry, hqueue])
  have hfirst : firstWaiting (addEntry level i s) = some (freshEntry i level) := by
    rw [firstWaiting, h.queue]
    rfl
  have hafter : afterAdmission i (addEntry level i s) = pick (addEntry level i s) := by
    simp [afterAdmission, hidle, show s.start.top = .active from h.ready.place.active]
  rw [enterQueue_admits (by simp [findEntry, hqueue]) (by simp [hqueue]), hafter, h.pick hstack hidle hfirst]

/-- R71, R90: above the active job's level, it is suspended first. -/
theorem enterQueue_preempts (hnone : findEntry s i = none) (hroom : s.repair.queue.length < 32)
    (ha : activeEntry s = some a) (hlt : levelRank a.level < levelRank level)
    (h : CanStart (preempt (addEntry level i s)) pre post (freshEntry i level) n ev q) :
    enterQueue level i s = fetchBegun pre post (freshEntry i level) n ev q (preempt (addEntry level i s)) := by
  have hactive : activeEntry (addEntry level i s) = some a := activeEntry_addEntry.trans ha
  have htop : s.start.top = .active := by
    have := h.ready.place.active
    rwa [preempt_eq hactive] at this
  have hafter : afterAdmission i (addEntry level i s) = preemptFor i (addEntry level i s) := by
    simp [afterAdmission, hactive, htop]
  rw [enterQueue_admits hnone hroom, hafter]
  exact h.preempts hactive (findEntry_addEntry hnone) hlt

end

end Sys2Proof.Machine
end

section
/-! PROOFS. NOHAVE and BUSY: the holder that refuses, and the source the active job turns to (R66, R95, R96). -/

namespace Sys2Proof.Machine

/- Theorems elaborated side by side pass the memory the check allows (as in Tests/Slice0.lean). -/
set_option Elab.async false

variable {s : State} {p q : Station} {i : Nat} {pre post : List Entry} {e : Entry} {ev : Evidence}

/-! ### The search for a source (R88) -/

theorem isPresent_zero : isPresent s 0 = false := rfl

theorem eligible_iff (hev : (getRec s e.segment).evidence = some ev) : eligible s e q = true ↔
    hasStation ev.holders q = true ∧ hasStation e.tried q = false ∧ isPresent s q = true ∧ q ≠ s.start.station := by
  simp [eligible, hev, and_assoc]

/-- R88: what the search finds is the lowest source. -/
theorem lowestSource_of_bestSource {left : Option Station} (hev : (getRec s e.segment).evidence = some ev)
    (h : bestSource s e left = some q) : LowestSource s ev.holders e.tried left q := by
  obtain ⟨hq, j, hj, hget, hbefore⟩ := List.find?_eq_some_iff_getElem.mp h
  simp only [Bool.and_eq_true, eligible_iff hev, bne_iff_ne] at hq
  obtain ⟨⟨hholds, huntried, hpresent, hself⟩, hleft⟩ := hq
  have h0 : q ≠ 0 := by
    rintro rfl
    rw [isPresent_zero] at hpresent
    cases hpresent
  refine ⟨⟨h0, hholds, huntried, hpresent, hself, hleft⟩, fun q' hlt => ?_⟩
  by_cases hz : q' = 0
  · exact .inr (.inr (.inl (hz ▸ isPresent_zero)))
  · obtain ⟨hplace, hget'⟩ := List.getElem?_eq_some_iff.mp (stations_place q' hz)
    have hnum : q.toNat = j + 1 := by rw [← hget]; exact stations_toNat ⟨j, hj⟩
    have hpos : 0 < q'.toNat := Nat.pos_of_ne_zero fun h => hz (BitVec.eq_of_toNat_eq h)
    have hno := hbefore (q'.toNat - 1) (by omega)
    rw [hget'] at hno
    by_contra hall
    simp only [not_or, Bool.not_eq_false, Bool.not_eq_true] at hall
    obtain ⟨h1, h2, h3, h4, h5⟩ := hall
    simp [(eligible_iff hev).mpr ⟨h1, h2, h3, h4⟩, h5] at hno

/-- R88: with no lowest source there is none. -/
theorem bestSource_none {left : Option Station} (hev : (getRec s e.segment).evidence = some ev)
    (h : ∀ q, ¬ LowestSource s ev.holders e.tried left q) : bestSource s e left = none :=
  Option.eq_none_iff_forall_ne_some.mpr fun q hq => h q (lowestSource_of_bestSource hev hq)

/-- R66, R95: with the refusing source out of the holders and among the tried, the choice is as it was with that source
left out. -/
theorem LowestSource.refused {holders tried : StationSet} (h : LowestSource s holders tried (some p) q) :
    LowestSource s (dropStation holders p) (addStation tried p) none q := by
  obtain ⟨h0, hholds, huntried, hpresent, hself, hleft⟩ := h.qualifies
  have hne : q ≠ p := fun hqp => hleft (congrArg some hqp.symm)
  refine ⟨⟨h0, ?_, ?_, hpresent, hself, by simp⟩, fun q' hlt => ?_⟩
  · simp [hasStation_dropStation, hholds, hne]
  · simp [hasStation_addStation, huntried, hne]
  · rcases h.lowest q' hlt with hno | hno | hno | hno | hno
    · exact .inl (by simp [hasStation_dropStation, hno])
    · exact .inr (.inl (by simp [hasStation_addStation, hno]))
    · exact .inr (.inr (.inl hno))
    · exact .inr (.inr (.inr (.inl hno)))
    · exact .inl (by simp [hasStation_dropStation, Option.some.inj hno])

/-! ### The active job and its source (R95, R96) -/

theorem JobAt.findEntry (h : JobAt s pre post e) : findEntry s e.segment = some e := h.entryAt.findEntry

theorem JobAt.activeFrom {conds : List JobCond} {c : JobCond} (h : JobAt s pre post e) (hsource : e.source = some p)
    (hcond : s.repair.cond = some c) (hc : c ∈ conds) : activeFrom p e.segment conds s = true := by
  simp [Machine.activeFrom, h.activeEntry, hsource, hcond, hc]

/-- R95, R96: a station that is not asked, or a job in another condition. -/
theorem activeFrom_otherwise {conds : List JobCond}
    (h : (∀ e ∈ s.repair.queue, e.state = .active → e.segment ≠ i ∨ e.source ≠ some p) ∨
      ∀ c ∈ conds, s.repair.cond ≠ some c) : activeFrom p i conds s = false := by
  refine Bool.eq_false_iff.mpr fun hfrom => ?_
  simp only [Machine.activeFrom, Option.any_eq_true, Bool.and_eq_true, decide_eq_true_eq, List.contains_iff_mem]
    at hfrom
  obtain ⟨e, he, ⟨hseg, hsource⟩, c, hc, hin⟩ := hfrom
  obtain ⟨hmem, hactive⟩ := activeEntry_some e he
  exact h.elim (fun hother => (hother e hmem hactive).elim (· hseg) (· hsource)) (fun hno => hno c hin hc)

theorem JobAt.countAttempt (h : JobAt s pre post e) : countAttempt e.segment s =
    { s with repair.queue := pre ++ { e with attempts := e.attempts + 1 } :: post } := h.setEntry _

/-- R96: the state in which an attempt of the job `e` has been counted and its timer has stopped. -/
def refusedOnce (pre post : List Entry) (e : Entry) (s : State) : State :=
  { stopPatience s with repair.queue := pre ++ { e with attempts := e.attempts + 1 } :: post }

theorem JobAt.refusedOnce (h : JobAt s pre post e) :
    JobAt (refusedOnce pre post e s) pre post { e with attempts := e.attempts + 1 } := h.changed rfl rfl rfl

/-- R96: below the fourth attempt another source is asked, or the job backs off when the busy one alone qualifies. -/
theorem JobAt.sourceBusy (h : JobAt s pre post e) (hfew : e.attempts < 3) : sourceBusy p e.segment s =
    match bestSource (Machine.refusedOnce pre post e s) { e with attempts := e.attempts + 1 } (some p) with
    | some q => Machine.askSource q e.segment (Machine.refusedOnce pre post e s)
    | none =>
      if eligible (Machine.refusedOnce pre post e s) { e with attempts := e.attempts + 1 } p then
        { Machine.refusedOnce pre post e s with
          repair.cond := some .backoff, repair.patience := some (patienceMs s) }
      else pick (exhaustJob e.segment (Machine.refusedOnce pre post e s)) := by
  have hstopped : JobAt (stopPatience s) pre post e := ⟨h.queue, h.active, h.others⟩
  have hcounted : Machine.countAttempt e.segment (stopPatience s) = Machine.refusedOnce pre post e s :=
    hstopped.countAttempt
  have hbelow : ¬ Config.attemptLimit ≤ e.attempts + 1 := by
    have : Config.attemptLimit = 4 := rfl
    omega
  simp only [Machine.sourceBusy, hcounted, h.refusedOnce.findEntry, if_neg hbelow]
  rfl

/-! ### The two frames -/

theorem holderRefuses_eq : holderRefuses p i s = withRec i (dropHolder p (getRec s i)) s :=
  modifyRec_eq_withRec rfl

theorem exec_nohave {i : SegNum} {t : Stamp} (h : Hears s p s.start.station (.nohave i t))
    (ht : s.start.top = .active) :
    exec (.nohave p s.start.station i t) s = .next (deliverNohave p i.toNat (heard p s)) := by
  calc exec (.nohave p s.start.station i t) s
      = .next (receiveFrame p s.start.station (.nohave i t) (inActive (deliverNohave p i.toNat)) s) := rfl
    _ = .next (deliverNohave p i.toNat (heard p s)) := by
      rw [h.delivered _ (.inr rfl), inActive_active _ (show (heard p s).start.top = .active from ht)]

theorem exec_busy {i : SegNum} (h : Hears s p s.start.station (.busy i)) (ht : s.start.top = .active) :
    exec (.busy p s.start.station i) s = .next (deliverBusy p i.toNat (heard p s)) := by
  calc exec (.busy p s.start.station i) s
      = .next (receiveFrame p s.start.station (.busy i) (inActive (deliverBusy p i.toNat)) s) := rfl
    _ = .next (deliverBusy p i.toNat (heard p s)) := by
      rw [h.delivered _ (.inr rfl), inActive_active _ (show (heard p s).start.top = .active from ht)]

theorem deliverNohave_otherwise (h : activeFrom p i [.asking, .backoff] s = false) :
    deliverNohave p i s = withRec i (dropHolder p (getRec s i)) s := by
  have hother : activeFrom p i [.asking, .backoff] (withRec i (dropHolder p (getRec s i)) s) = false := h
  simp only [deliverNohave, holderRefuses_eq, hother, Bool.false_eq_true, if_false]

/-- R66, R95: the refusing source leaves the holders, and the lowest other one is asked. -/
theorem JobAt.deliverNohave (h : JobAt s pre post e) (hi : e.segment < segCount s) (hsource : e.source = some p)
    (hcond : s.repair.cond = some .asking ∨ s.repair.cond = some .backoff)
    (hev : (getRec s e.segment).evidence = some ev) (hlow : LowestSource s ev.holders e.tried (some p) q)
    (hplace : Takes s (.request q e.segment)) :
    deliverNohave p e.segment s = asked pre post { e with tried := addStation e.tried p } q
      (withRec e.segment (dropHolder p (getRec s e.segment)) s) := by
  let u := withRec e.segment (dropHolder p (getRec s e.segment)) s
  have hjob : JobAt u pre post e := ⟨h.queue, h.active, h.others⟩
  have hfrom : Machine.activeFrom p e.segment [.asking, .backoff] u = true :=
    hcond.elim (fun hc => hjob.activeFrom hsource hc (by simp)) (fun hc => hjob.activeFrom hsource hc (by simp))
  have hholders : (getRec u e.segment).evidence = some { ev with holders := dropStation ev.holders p } := by
    rw [getRec_withRec_self hi, dropHolder, hev]
    rfl
  have hlow' : LowestSource u ev.holders e.tried (some p) q := ⟨hlow.qualifies, hlow.lowest⟩
  rw [Machine.deliverNohave, holderRefuses_eq]
  exact (if_pos hfrom).trans (hjob.giveUpSource hholders hlow'.refused ⟨hplace.active, hplace.place⟩)

/-- Settles O37: a refusal that is not the active job's source's changes the holders at most (`activeFrom_otherwise`);
the source's own sends the job to the lowest other source, or into BACKOFF. -/
theorem refusedSourceMovesOn : Obligations.RefusedSourceMovesOn := by
  refine ⟨fun s p i t h ht => ⟨fun hother => ?_,
      fun pre post e ev q hqueue hseg hactive hsource hothers hcond hev hlow hplace => ?_⟩,
    fun s p i h ht => ⟨fun hother => ?_,
      fun pre post e ev hqueue hseg hactive hsource hothers hcond hev hfew => ⟨fun q hlow hplace => ?_,
        fun hnone hbusy => ?_⟩⟩⟩
  · have hno : activeFrom p i.toNat [.asking, .backoff] (heard p s) = false :=
      activeFrom_otherwise (s := heard p s) (hother.imp_right fun (hready : s.repair.cond = some .ready) => by
        show ∀ c ∈ [JobCond.asking, .backoff], s.repair.cond ≠ some c
        simp [hready])
    rw [exec_nohave h ht, deliverNohave_otherwise hno]
    rfl
  · have hi : i.toNat < segCount s := by simpa [bodyInRange, segmentInRange] using h.good.2
    rw [← hseg] at hi hev hplace hothers ⊢
    have hasks := JobAt.deliverNohave (s := heard p s) ⟨hqueue, hactive, hothers⟩ hi hsource hcond hev hlow
      (takes_heard hplace)
    rw [exec_nohave h ht, ← hseg, hasks]
    rfl
  · have hno : activeFrom p i.toNat [.asking] (heard p s) = false :=
      activeFrom_otherwise (s := heard p s) (hother.imp_right fun (hready : s.repair.cond ≠ some .asking) => by
        show ∀ c ∈ [JobCond.asking], s.repair.cond ≠ some c
        simpa using hready)
    rw [exec_busy h ht, deliverBusy, if_neg (by simp [hno])]
  · rw [← hseg] at hev hplace hothers ⊢
    have hjob : JobAt (heard p s) pre post e := ⟨hqueue, hactive, hothers⟩
    have hbest : bestSource (refusedOnce pre post e (heard p s)) { e with attempts := e.attempts + 1 } (some p) =
        some q :=
      bestSource_lowest hev ⟨hlow.qualifies, hlow.lowest⟩
    have hasks := hjob.refusedOnce.askSource (q := q) ⟨hplace.active, hplace.place⟩
    rw [exec_busy h ht, ← hseg, deliverBusy, if_pos (hjob.activeFrom hsource hcond (by simp)),
      hjob.sourceBusy hfew, hbest]
    exact congrArg _ hasks
  · rw [← hseg] at hev hothers
    have hjob : JobAt (heard p s) pre post e := ⟨hqueue, hactive, hothers⟩
    have hbest : bestSource (refusedOnce pre post e (heard p s)) { e with attempts := e.attempts + 1 } (some p) =
        none :=
      bestSource_none hev fun q hq => hnone q ⟨hq.qualifies, hq.lowest⟩
    have hstill : eligible (refusedOnce pre post e (heard p s)) { e with attempts := e.attempts + 1 } p = true := by
      obtain ⟨_, hholds, huntried, hpresent, hself, _⟩ := hbusy.qualifies
      exact (eligible_iff (s := refusedOnce pre post e (heard p s)) hev).mpr ⟨hholds, huntried, hpresent, hself⟩
    rw [exec_busy h ht, ← hseg, deliverBusy, if_pos (hjob.activeFrom hsource hcond (by simp)),
      hjob.sourceBusy hfew, hbest]
    simp only [hstill]
    rfl

end Sys2Proof.Machine
end

section
/-! PROOFS. A NEWS and what the report table makes of it: the evidence it raises or joins, the offer that follows, the
dispute it drops, the job it resets, and the fetch it starts (R60 to R65, R71, R72, R86 to R90, R99, R133, R161). -/

namespace Sys2Proof.Machine

/- Theorems elaborated side by side pass the memory the check allows (as in Tests/Slice0.lean). -/
set_option Elab.async false

variable {s : State} {p : Station} {i : Nat} {t : Stamp} {x : Signature} {r : SegRec} {ev : Evidence}

/-! ### The report table (R61) -/

theorem newer_self (t : Stamp) : newer t t = false := by simp [newer]

theorem held_iff : held r = true ↔ 2 ≤ r.failures := decide_eq_true_iff

theorem not_held (h : r.failures < 2) : held r = false :=
  Bool.eq_false_iff.mpr fun hh => absurd (held_iff.mp hh) (Nat.not_le.mpr h)

theorem reportMismatches_iff : reportMismatches r t x = true ↔
    r.state = .good ∧ r.usable = true ∧ r.stamp = t ∧ r.signature ≠ x := by
  simp [reportMismatches, goodAt, and_assoc]

theorem not_mismatch (h : r.state ≠ .good ∨ t ≠ r.stamp ∨ x = r.signature) : reportMismatches r t x = false := by
  refine Bool.eq_false_iff.mpr fun hm => ?_
  obtain ⟨hgood, _, hstamp, hsig⟩ := reportMismatches_iff.mp hm
  rcases h with hg | ht | hx
  · exact hg hgood
  · exact ht hstamp.symm
  · exact hsig hx.symm

/-- R61, steps 1 to 3: a report that outdoes the copy is no mismatch and is not ignored for the copy's sake. -/
theorem OutdoesCopy.passes (h : OutdoesCopy r t) : reportMismatches r t x = false ∧
    (r.usable && !newer t r.stamp) = false ∧ (!r.usable && newer r.stamp t) = false := by
  have hmismatch : reportMismatches r t x = false := Bool.eq_false_iff.mpr fun hm => by
    obtain ⟨_, husable, rfl, _⟩ := reportMismatches_iff.mp hm
    rw [OutdoesCopy, if_pos husable, newer_self] at h
    cases h
  refine ⟨hmismatch, ?_⟩
  unfold OutdoesCopy at h
  split at h
  · simp [*]
  · simp [*]

/-- R61, R63: a report newer than what the record knows raises its evidence. -/
theorem report_raises (h : OutdoesCopy (getRec s i) t)
    (hnewer : ∀ ev, (getRec s i).evidence = some ev → newer t ev.stamp = true) (fromNews : Bool) :
    report p i t x fromNews s = raiseEvidence p i t x fromNews s := by
  obtain ⟨hmismatch, husable, hunusable⟩ := h.passes (x := x)
  unfold report
  simp only [hmismatch, husable, hunusable, Bool.false_eq_true, if_false]
  cases hev : (getRec s i).evidence with
  | none => rfl
  | some ev => exact if_pos (hnewer ev hev)

/-- R61, R65: a report equal to the evidence. -/
theorem report_adds (h : OutdoesCopy (getRec s i) ev.stamp) (hev : (getRec s i).evidence = some ev) (fromNews : Bool) :
    report p i ev.stamp ev.signature fromNews s = addHolder p i ev s := by
  obtain ⟨hmismatch, husable, hunusable⟩ := h.passes (x := ev.signature)
  simp [report, hmismatch, husable, hunusable, hev, newer_self]

/-- R61, step 2: a report not newer than a usable copy. -/
theorem report_known (husable : (getRec s i).usable = true) (hold : newer t (getRec s i).stamp = false)
    (hm : reportMismatches (getRec s i) t x = false) (fromNews : Bool) : report p i t x fromNews s = s := by
  simp [report, hm, husable, hold]

/-- R61, step 3: a report older than the local stamp of a record whose copy is unusable. -/
theorem report_older (husable : (getRec s i).usable = false) (hold : newer (getRec s i).stamp t = true)
    (fromNews : Bool) : report p i t x fromNews s = s := by
  have hm : reportMismatches (getRec s i) t x = false :=
    Bool.eq_false_iff.mpr fun hm => by simp [(reportMismatches_iff.mp hm).2.1] at husable
  simp [report, hm, husable, hold]

/-- R61, step 5: a report that tells the evidence nothing. -/
theorem report_stale (hm : reportMismatches (getRec s i) t x = false) (hev : (getRec s i).evidence = some ev)
    (hold : newer t ev.stamp = false) (h : t ≠ ev.stamp ∨ x ≠ ev.signature ∨ hasStation ev.holders p = true)
    (fromNews : Bool) : report p i t x fromNews s = s := by
  have hadd : hasStation ev.holders p = true → addHolder p i ev s = s := fun hp => if_pos hp
  simp only [report, hm, hev, hold, Bool.false_eq_true, if_false]
  split
  · rfl
  · split
    · rfl
    · split
      · rename_i heq
        exact hadd ((h.resolve_left (fun hne => hne heq.1)).resolve_left (fun hne => hne heq.2))
      · rfl

/-! ### Evidence raised (R63, R64) -/

/-- R63: the evidence a NEWS of station `p` brings. -/
def newsEvidence (p : Station) (t : Stamp) (x : Signature) : Evidence :=
  { stamp := t, signature := x, holders := oneStation p, fromNews := true }

theorem withEvidence_record : withEvidence ev r =
    { r with evidence := some ev, exhausted := if 2 ≤ r.failures then r.exhausted else false } := by
  rw [withEvidence_eq]
  by_cases h : 2 ≤ r.failures
  · rw [if_pos h, if_pos (held_iff.mpr h)]
  · rw [if_neg h, if_neg fun hh => h (held_iff.mp hh)]

theorem modifyRec_withEvidence (i : Nat) (ev : Evidence) (s : State) :
    modifyRec i (fun r => clearExhausted { r with evidence := some ev }) s =
      withRec i (withEvidence ev (getRec s i)) s :=
  modifyRec_eq_withRec (withEvidence_contributed ev _)

/-- R64, R65: a record in the table that is not UNKNOWN takes a state directly. -/
theorem setRecState_withRec {st : SegState} (hi : i < segCount s) (hr : r.state ≠ .unknown) (hst : st ≠ .unknown) :
    setRecState i st (withRec i r s) = withRec i { r with state := st } s :=
  modifyRec_withRec hi (contributed_congr (by simp [hr, hst]) rfl rfl)

/-- R64: an UNKNOWN or COMMITTING record keeps its state. -/
theorem raiseEvidence_waits (h : (getRec s i).state = .unknown ∨ (getRec s i).state = .committing) :
    raiseEvidence p i t x true s = withRec i (withEvidence (newsEvidence p t x) (getRec s i)) s := by
  rcases h with h | h <;> simp only [raiseEvidence, h, modifyRec_withEvidence, newsEvidence]

/-- R64: the record of a GOOD, STALE, ORPHAN or DAMAGED segment under newer evidence. -/
def outdated (ev : Evidence) (r : SegRec) : SegRec :=
  { withEvidence ev r with state := if r.state = .damaged then .damaged else .stale }

/-- R64: such a record is offered, unless it is DAMAGED and held. -/
theorem raiseEvidence_offers (hi : i < segCount s)
    (h : (getRec s i).state = .good ∨ (getRec s i).state = .stale ∨ (getRec s i).state = .orphan ∨
      (getRec s i).state = .damaged) :
    raiseEvidence p i t x true s =
      if (getRec s i).state = .damaged ∧ held (getRec s i) = true then
        withRec i (outdated (newsEvidence p t x) (getRec s i)) s
      else offerRepair i (withRec i (outdated (newsEvidence p t x) (getRec s i)) s) := by
  have hstate : (withEvidence (newsEvidence p t x) (getRec s i)).state = (getRec s i).state := by
    rw [withEvidence_eq]
  have hsame (hst : (getRec s i).state = .stale ∨ (getRec s i).state = .damaged) :
      outdated (newsEvidence p t x) (getRec s i) = withEvidence (newsEvidence p t x) (getRec s i) := by
    have hkept : (if (getRec s i).state = .damaged then SegState.damaged else .stale) =
        (withEvidence (newsEvidence p t x) (getRec s i)).state := by
      rcases hst with h | h <;> simp [hstate, h]
    rw [outdated, hkept]
  have hset (hst : (getRec s i).state = .good ∨ (getRec s i).state = .orphan) :
      setRecState i .stale (withRec i (withEvidence (newsEvidence p t x) (getRec s i)) s) =
        withRec i (outdated (newsEvidence p t x) (getRec s i)) s := by
    rw [setRecState_withRec hi (by rcases hst with h | h <;> simp [hstate, h]) (by simp), outdated,
      if_neg (by rcases hst with h | h <;> simp [h])]
  rcases h with h | h | h | h
  · rw [if_neg (by simp [h]), ← hset (.inl h)]
    simp only [raiseEvidence, h, modifyRec_withEvidence, newsEvidence]
  · rw [if_neg (by simp [h]), hsame (.inl h)]
    simp only [raiseEvidence, h, modifyRec_withEvidence, newsEvidence]
  · rw [if_neg (by simp [h]), ← hset (.inr h)]
    simp only [raiseEvidence, h, modifyRec_withEvidence, newsEvidence]
  · rw [hsame (.inr h)]
    simp only [raiseEvidence, h, modifyRec_withEvidence, newsEvidence, true_and]

/-! ### The offer that follows (R71, R72) -/

/-- R71, R72, R90: segment `i` can be offered, with the queue in order, and no entry at NEWS or SWEEP level can preempt
a job or start one. -/
structure Offered (i : Nat) (s : State) : Prop where
  unpinned : i ∉ s.repair.pins
  order : s.repair.queue.Pairwise fun d e => levelRank e.level ≤ levelRank d.level
  open' : s.start.top = .census ∨ s.start.top = .active
  calm : s.start.top ≠ .active ∨ ∃ a, activeEntry s = some a ∧ 2 ≤ levelRank a.level ∧ a.segment ≠ i

theorem Offered.congr {u : State} (h : Offered i s) (hstart : u.start = s.start) (hrepair : u.repair = s.repair) :
    Offered i u := by
  have hactive : activeEntry u = activeEntry s := by rw [activeEntry, hrepair, activeEntry]
  exact ⟨hrepair ▸ h.unpinned, hrepair ▸ h.order, hstart ▸ h.open', by rw [hstart, hactive]; exact h.calm⟩

theorem Offered.unhurried (h : Offered i s) {level : Level} (hl : levelRank level ≤ 2) : Unhurried level i s :=
  h.calm.imp id fun ⟨a, ha, hle, hne⟩ => ⟨a, ha, Nat.le_trans hl hle, hne⟩

theorem Offered.admissible (h : Offered i s) (hf : fetchable (getRec s i) = true) : admissible s i = true :=
  admissible_iff.mpr ⟨h.open', hf, h.unpinned⟩

theorem admissionLevel_rank (r : SegRec) : levelRank (admissionLevel r) ≤ 2 := by
  unfold admissionLevel
  repeat' split
  all_goals decide

theorem admissionLevel_news (hev : r.evidence = some ev) (hnews : ev.fromNews = true) : admissionLevel r = .news := by
  simp [admissionLevel, hev, hnews]

/-- R70: the queue with `e` in place of the entries of segment `i`, the youngest of its level. -/
def joined (i : Nat) (e : Entry) (s : State) : State :=
  { s with repair.queue :=
      (s.repair.queue.filter fun d => d.segment ≠ i).filter (fun d => levelRank e.level ≤ levelRank d.level) ++ e ::
        (s.repair.queue.filter fun d => d.segment ≠ i).filter (fun d => levelRank d.level < levelRank e.level) }

theorem Offered.inserted (h : Offered i s) (e : Entry) :
    { s with repair.queue := insertEntry e (s.repair.queue.filter fun d => d.segment ≠ i) } = joined i e s := by
  rw [insertEntry_eq (h.order.sublist List.filter_sublist)]
  rfl

/-- R71: a fetchable record without an entry, with room in the queue. -/
theorem Offered.joins (h : Offered i s) (hf : fetchable (getRec s i) = true)
    (hnone : ∀ e ∈ s.repair.queue, e.segment ≠ i) (hroom : s.repair.queue.length < 32) :
    offerRepair i s = joined i (freshEntry i (admissionLevel (getRec s i))) s := by
  have hall : (s.repair.queue.filter fun d => d.segment ≠ i) = s.repair.queue :=
    List.filter_eq_self.mpr fun d hd => by simpa using hnone d hd
  rw [offerRepair_passes (h.admissible hf), enterQueue_joins (findEntry_eq_none hnone) hroom
    (h.unhurried (admissionLevel_rank _)), ← h.inserted, hall]
  rfl

/-- R72: a waiting entry at SWEEP whose record is now admitted at NEWS level. -/
theorem Offered.rises {e : Entry} (h : Offered i s) (hf : fetchable (getRec s i) = true)
    (hlevel : admissionLevel (getRec s i) = .news) (he : findEntry s i = some e) (hwait : e.state = .waiting)
    (hsweep : e.level = .sweep) : offerRepair i s = joined i { e with level := .news } s := by
  have hseg : e.segment = i := (findEntry_some i e he).2
  rw [offerRepair_passes (h.admissible hf), hlevel, enterQueue_risesCalmly he hwait (by rw [hsweep]; decide)
    (h.unhurried (by decide)), ← h.inserted, risen, hseg]

/-- R72: an entry at NEWS level or above stays where it is. -/
theorem offerRepair_standing {e : Entry} (he : findEntry s i = some e) (hlevel : e.level ≠ .sweep) :
    offerRepair i s = s := by
  cases ha : admissible s i with
  | false => exact offerRepair_refused ha
  | true =>
    have hrank : 2 ≤ levelRank e.level := by cases hl : e.level <;> simp_all [levelRank]
    rw [offerRepair_passes ha, enterQueue_stays he (Nat.le_trans (admissionLevel_rank _) hrank)]

/-! ### A record of a usable or lost copy under newer evidence (R64) -/

section
variable (hi : i < segCount s) (h : (getRec s i).state = .good ∨ (getRec s i).state = .stale ∨
  (getRec s i).state = .orphan ∨ (getRec s i).state = .damaged)
include hi h

theorem raiseEvidence_pinned (hpin : i ∈ s.repair.pins) :
    raiseEvidence p i t x true s = withRec i (outdated (newsEvidence p t x) (getRec s i)) s := by
  have hpin' : i ∈ (withRec i (outdated (newsEvidence p t x) (getRec s i)) s).repair.pins := hpin
  rw [raiseEvidence_offers hi h, offerRepair_pinned hpin', ite_self]

omit hi h in
theorem fetchable_outdated (hfew : r.failures < 2) : fetchable (outdated ev r) = true := by
  rw [outdated, withEvidence_record]
  by_cases hd : r.state = .damaged <;> simp [fetchable, hd, Nat.not_le.mpr hfew]

omit h in
/-- The record that is offered. -/
theorem getRec_outdated : getRec (withRec i (outdated ev (getRec s i)) s) i = outdated ev (getRec s i) :=
  getRec_withRec_self hi

omit hi h in
theorem admissionLevel_outdated : admissionLevel (outdated (newsEvidence p t x) r) = .news :=
  admissionLevel_news (ev := newsEvidence p t x) (by rw [outdated, withEvidence_eq]) rfl

theorem raiseEvidence_notHeld (hfew : (getRec s i).failures < 2) : raiseEvidence p i t x true s =
    offerRepair i (withRec i (outdated (newsEvidence p t x) (getRec s i)) s) := by
  rw [raiseEvidence_offers hi h, if_neg (by simp [not_held hfew])]

theorem raiseEvidence_joins (hfew : (getRec s i).failures < 2) (ho : Offered i s)
    (hnone : ∀ e ∈ s.repair.queue, e.segment ≠ i) (hroom : s.repair.queue.length < 32) :
    raiseEvidence p i t x true s =
      joined i (freshEntry i .news) (withRec i (outdated (newsEvidence p t x) (getRec s i)) s) := by
  have hoffered : Offered i (withRec i (outdated (newsEvidence p t x) (getRec s i)) s) := ho.congr rfl rfl
  rw [raiseEvidence_notHeld hi h hfew, hoffered.joins (by rw [getRec_outdated hi]; exact fetchable_outdated hfew)
    hnone hroom, getRec_outdated hi, admissionLevel_outdated]

theorem raiseEvidence_rises {e : Entry} (hfew : (getRec s i).failures < 2) (ho : Offered i s)
    (he : findEntry s i = some e) (hwait : e.state = .waiting) (hsweep : e.level = .sweep) :
    raiseEvidence p i t x true s =
      joined i { e with level := .news } (withRec i (outdated (newsEvidence p t x) (getRec s i)) s) := by
  have hoffered : Offered i (withRec i (outdated (newsEvidence p t x) (getRec s i)) s) := ho.congr rfl rfl
  rw [raiseEvidence_notHeld hi h hfew, hoffered.rises (by rw [getRec_outdated hi]; exact fetchable_outdated hfew)
    (by rw [getRec_outdated hi]; exact admissionLevel_outdated) he hwait hsweep]

end

/-! ### A dispute dropped (R64, R133) -/

theorem findDispute_freed {j : Nat} (h : j ≠ i) : findDispute (freeDispute i s) j = findDispute s j := by
  unfold findDispute freeDispute
  rw [List.find?_filter]
  refine congrArg (fun f => s.disputes.find? f) (funext fun d => ?_)
  by_cases hd : d.segment = j <;> simp [hd, h]

/-- R123: with the dispute of segment `i` closed and its record not DISPUTED, no other waiting, none waits. -/
theorem noneWaiting_closed {u : State} {q : SegRec} (hi : i < segCount s) (hrecs : u.segs.recs = s.segs.recs.set i q)
    (hq : q.state ≠ .disputed) (hdisputes : u.disputes = (freeDispute i s).disputes)
    (hothers : ∀ j, j < segCount s → j ≠ i → waitsForEntry s j = false) : NoneWaiting u := by
  intro j hj
  have hrec (j : Nat) : getRec u j = getRec (withRec i q s) j := by rw [getRec, hrecs, getRec, withRec]
  by_cases hji : j = i
  · rw [waitsForEntry, hji, hrec, getRec_withRec_self hi]
    simp [hq]
  · have hcount : segCount u = segCount s := by simp [segCount, hrecs]
    have hfound : findDispute u j = findDispute s j :=
      (congrArg (List.find? fun d : Dispute => decide (d.segment = j)) hdisputes).trans (findDispute_freed hji)
    rw [waitsForEntry, hrec, getRec_withRec_other (Ne.symm hji), hfound]
    exact hothers j (hcount ▸ hj) hji

theorem takeUpIf_noneWaiting (freed : Bool) (h : NoneWaiting s) : takeUpIf freed s = s := by
  have hnext : nextWaiting s = none :=
    List.find?_eq_none.mpr fun j hj => by simp [h j (List.mem_range.mp hj)]
  have hrest : takeUpDisputes s = s := by
    rw [takeUpDisputes, Config.takeUpFuel, takeUpLoop, hnext, ite_self]
  cases freed with
  | false => rfl
  | true => exact hrest

/-- R64, R133: the state in which the dispute of segment `i` has been dropped, its record `r` raised. -/
def disputeDropped (i : Nat) (r : SegRec) (s : State) : State :=
  raise .disputeDropped (some i) none (some r.stamp)
    { withRec i { r with mark := false, rounds := 0, state := .stale } s with
      disputes := s.disputes.filter fun d => d.segment ≠ i }

theorem raiseEvidence_drops (hi : i < segCount s) (h : (getRec s i).state = .disputed) :
    raiseEvidence p i t x true s = takeUpIf (findDispute s i).isSome
      (offerRepair i (disputeDropped i (withEvidence (newsEvidence p t x) (getRec s i)) s)) := by
  let r := withEvidence (newsEvidence p t x) (getRec s i)
  have hstate : r.state = .disputed := (congrArg SegRec.state (withEvidence_eq _ _)).trans h
  have hcleared : modifyRec i clearMark (withRec i r s) = withRec i (clearMark r) s := modifyRec_withRec hi rfl
  let v := raise .disputeDropped (some i) none (some r.stamp) (freeDispute i s)
  have hstale : setRecState i .stale (withRec i (clearMark r) v) = withRec i { clearMark r with state := .stale } v :=
    setRecState_withRec hi (by simp [clearMark, hstate]) (by simp)
  have hstamp : (getRec (withRec i r s) i).stamp = r.stamp := congrArg SegRec.stamp (getRec_withRec_self hi)
  calc raiseEvidence p i t x true s
      = dropDispute i (withRec i r s) := by simp only [raiseEvidence, h, modifyRec_withEvidence]; rfl
    _ = takeUpIf (findDispute s i).isSome (offerRepair i (setRecState i .stale (withRec i (clearMark r) v))) := by
        simp only [dropDispute, hcleared, hstamp]
        rfl
    _ = _ := by
        rw [hstale]
        rfl

theorem raiseEvidence_dropsPinned (hi : i < segCount s) (h : (getRec s i).state = .disputed)
    (hothers : ∀ j, j < segCount s → j ≠ i → waitsForEntry s j = false) (hpin : i ∈ s.repair.pins) :
    raiseEvidence p i t x true s = disputeDropped i (withEvidence (newsEvidence p t x) (getRec s i)) s := by
  let u := disputeDropped i (withEvidence (newsEvidence p t x) (getRec s i)) s
  have hpin' : i ∈ u.repair.pins := hpin
  have hnone : NoneWaiting u := noneWaiting_closed hi rfl (by simp) rfl hothers
  rw [raiseEvidence_drops hi h, offerRepair_pinned hpin', takeUpIf_noneWaiting _ hnone]

theorem raiseEvidence_dropsJoins (hi : i < segCount s) (h : (getRec s i).state = .disputed)
    (hothers : ∀ j, j < segCount s → j ≠ i → waitsForEntry s j = false) (hfew : (getRec s i).failures < 2)
    (ho : Offered i s) (hnone : ∀ e ∈ s.repair.queue, e.segment ≠ i) (hroom : s.repair.queue.length < 32) :
    raiseEvidence p i t x true s = joined i (freshEntry i .news)
      (disputeDropped i (withEvidence (newsEvidence p t x) (getRec s i)) s) := by
  let r := withEvidence (newsEvidence p t x) (getRec s i)
  have hoffered : Offered i (disputeDropped i r s) := ho.congr rfl rfl
  have hrec : getRec (disputeDropped i r s) i = { r with mark := false, rounds := 0, state := .stale } :=
    getRec_withRec_self hi
  have hevidence : (getRec (disputeDropped i r s) i).evidence = some (newsEvidence p t x) := by
    rw [hrec]
    exact congrArg SegRec.evidence (withEvidence_eq _ _)
  have hfetch : fetchable (getRec (disputeDropped i r s) i) = true := by
    have hexhausted : r.exhausted = false :=
      (congrArg SegRec.exhausted withEvidence_record).trans (if_neg (Nat.not_le.mpr hfew))
    rw [hrec]
    simp [fetchable, hexhausted]
  have hrest : NoneWaiting (joined i (freshEntry i .news) (disputeDropped i r s)) :=
    noneWaiting_closed hi rfl (by simp) rfl hothers
  rw [raiseEvidence_drops hi h, hoffered.joins hfetch hnone hroom, admissionLevel_news hevidence rfl,
    takeUpIf_noneWaiting _ hrest]

/-! ### A job reset (R99) -/

/-- R99: the entry of a job reset to a new copy. -/
def resetEntry (e : Entry) : Entry := { e with tried := 0, attempts := 0, source := none, verified := false }

/-- R99: its landing slot. -/
def resetSlot (ev : Evidence) (slot : Slot) : Slot :=
  clearChunks { slot with stamp := ev.stamp, signature := ev.signature }

/-- R99: the state in which the job of the entry `e`, in its place in the queue with slot A, has been reset. -/
def jobReset (pre post : List Entry) (e : Entry) (ev : Evidence) (slot : Slot) (s : State) : State :=
  { s with repair := { s.repair with queue := pre ++ resetEntry e :: post, slotA := some (resetSlot ev slot) } }

section
variable {pre post : List Entry} {e : Entry} {slot : Slot}

theorem EntryAt.resetJob (h : EntryAt s pre post e) (hslot : e.slot = some .a) (ha : s.repair.slotA = some slot) :
    resetJob e.segment ev s =
      if e.state = .active then pick (chooseSource none (stopPatience (jobReset pre post e ev slot s)))
      else jobReset pre post e ev slot s := by
  let u := setSlot .a (some (resetSlot ev slot)) s
  have hmodified : modifySlot e.segment (fun v => clearChunks { v with stamp := ev.stamp, signature := ev.signature })
      s = u := by
    simp only [modifySlot, h.findEntry, hslot, getSlot, RepairUnit.slot, ha]
    rfl
  have hentry : EntryAt u pre post e := ⟨h.queue, h.others⟩
  have hset : Machine.setEntry e.segment resetEntry u = jobReset pre post e ev slot s := hentry.setEntry resetEntry
  unfold resetEntry at hset
  simp only [Machine.resetJob, h.findEntry, hslot, hmodified, hset, Option.isNone_some, Bool.false_eq_true, if_false]

theorem raiseEvidence_resets (h : (getRec s i).state = .fetching) :
    raiseEvidence p i t x true s = offerRepair i
      (resetJob i (newsEvidence p t x) (withRec i (withEvidence (newsEvidence p t x) (getRec s i)) s)) := by
  simp only [raiseEvidence, h, modifyRec_withEvidence]
  rfl

/-- R99: a job set aside is reset and stays where it is. -/
theorem EntryAt.raiseEvidence_resets (h : EntryAt s pre post e) (hseg : e.segment = i)
    (hrec : (getRec s i).state = .fetching) (hlevel : e.level ≠ .sweep) (hslot : e.slot = some .a)
    (ha : s.repair.slotA = some slot) (hidle : e.state ≠ .active) : raiseEvidence p i t x true s =
      jobReset pre post e (newsEvidence p t x) slot
        (withRec i (withEvidence (newsEvidence p t x) (getRec s i)) s) := by
  subst hseg
  let u := withRec e.segment (withEvidence (newsEvidence p t x) (getRec s e.segment)) s
  have hentry : EntryAt u pre post e := ⟨h.queue, h.others⟩
  have hreset : EntryAt (jobReset pre post e (newsEvidence p t x) slot u) pre post (resetEntry e) := ⟨rfl, h.others⟩
  rw [Machine.raiseEvidence_resets hrec, hentry.resetJob hslot ha, if_neg hidle]
  exact offerRepair_standing hreset.findEntry hlevel

/-- R88, R99: the only holder of the evidence is the source. -/
theorem lowestSource_only (hp : p ≠ 0) (hpresent : isPresent s p = true) (hself : p ≠ s.start.station) :
    LowestSource s (oneStation p) 0 none p := by
  refine ⟨⟨hp, by simp [hasStation_oneStation], by simp [hasStation], hpresent, hself, by simp⟩, fun q' hlt => .inl ?_⟩
  have hne : q' ≠ p := fun heq => Nat.ne_of_lt hlt (congrArg BitVec.toNat heq)
  simp [hasStation_oneStation, hne]

/-- R99: an active job asks the sender of the new copy at once. -/
theorem JobAt.raiseEvidence_resets (h : JobAt s pre post e) (hseg : e.segment = i) (hi : i < segCount s)
    (hrec : (getRec s i).state = .fetching) (hlevel : e.level ≠ .sweep) (hslot : e.slot = some .a)
    (ha : s.repair.slotA = some slot) (hp : p ≠ 0) (hpresent : isPresent s p = true) (hself : p ≠ s.start.station)
    (hplace : Takes s (.request p i)) : raiseEvidence p i t x true s =
      asked pre post (resetEntry e) p (jobReset pre post e (newsEvidence p t x) slot
        (withRec i (withEvidence (newsEvidence p t x) (getRec s i)) s)) := by
  subst hseg
  let r := withEvidence (newsEvidence p t x) (getRec s e.segment)
  let u := withRec e.segment r s
  let v := stopPatience (jobReset pre post e (newsEvidence p t x) slot u)
  have hentry : EntryAt u pre post e := ⟨h.queue, h.entryAt.others⟩
  have hjob : JobAt v pre post (resetEntry e) := ⟨rfl, h.active, h.others⟩
  have hev : (getRec v e.segment).evidence = some (newsEvidence p t x) :=
    (congrArg SegRec.evidence (getRec_withRec_self hi)).trans (congrArg SegRec.evidence (withEvidence_eq _ _))
  have hsource : LowestSource v (oneStation p) 0 none p :=
    lowestSource_only (s := v) hp hpresent hself
  have hasks : Machine.chooseSource none v = asked pre post (resetEntry e) p v :=
    hjob.chooseSource hev hsource ⟨hplace.active, hplace.place⟩
  have hafter : JobAt (asked pre post (resetEntry e) p v) pre post { resetEntry e with source := some p } :=
    ⟨rfl, h.active, h.others⟩
  rw [Machine.raiseEvidence_resets hrec, hentry.resetJob hslot ha, if_pos h.active, hasks,
    pick_active hafter.activeEntry]
  exact offerRepair_standing hafter.findEntry hlevel

end

/-! ### A report equal to the evidence (R65) -/

/-- R65: a new holder lets an ORPHAN, or an exhausted DAMAGED, record that is not held be fetched again. -/
def fetchedAgain (r : SegRec) : Bool :=
  !held r && (r.state = .orphan || (r.state = .damaged && r.exhausted))

theorem fetchedAgain_iff : fetchedAgain r = true ↔
    r.failures < 2 ∧ (r.state = .orphan ∨ r.state = .damaged ∧ r.exhausted = true) := by
  have hheld : held r = false ↔ r.failures < 2 := by rw [← Nat.not_le, ← held_iff, Bool.not_eq_true]
  simp [fetchedAgain, hheld]

/-- R65: the record whose evidence has one holder more. -/
def joinedHolder (p : Station) (ev : Evidence) (r : SegRec) : SegRec :=
  { withEvidence { ev with holders := addStation ev.holders p } r with
    state := if fetchedAgain r = true ∧ r.state = .orphan then .stale else r.state }

theorem joinedHolder_record : joinedHolder p ev r =
    { r with
      evidence := some { ev with holders := addStation ev.holders p }
      exhausted := if 2 ≤ r.failures then r.exhausted else false
      state := if (r.failures < 2 ∧ (r.state = .orphan ∨ r.state = .damaged ∧ r.exhausted = true)) ∧
          r.state = .orphan then .stale else r.state } := by
  have hstate := if_congr (and_congr_left' (c := r.state = .orphan) (fetchedAgain_iff (r := r)))
    (rfl : SegState.stale = .stale) (rfl : r.state = r.state)
  rw [joinedHolder, withEvidence_record, hstate]

theorem addHolder_eq (hi : i < segCount s) (hnew : hasStation ev.holders p = false) : addHolder p i ev s =
    if fetchedAgain (getRec s i) then offerRepair i (withRec i (joinedHolder p ev (getRec s i)) s)
    else withRec i (joinedHolder p ev (getRec s i)) s := by
  let ev' : Evidence := { ev with holders := addStation ev.holders p }
  have hstate : (withEvidence ev' (getRec s i)).state = (getRec s i).state := by rw [withEvidence_eq]
  have hkept (h : ¬ (fetchedAgain (getRec s i) = true ∧ (getRec s i).state = .orphan)) :
      joinedHolder p ev (getRec s i) = withEvidence ev' (getRec s i) := by
    rw [joinedHolder, if_neg h, ← hstate]
  have hstale (h : (getRec s i).state = .orphan) (hh : held (getRec s i) = false) :
      setRecState i .stale (withRec i (withEvidence ev' (getRec s i)) s) =
        withRec i (joinedHolder p ev (getRec s i)) s := by
    rw [setRecState_withRec hi (by simp [hstate, h]) (by simp), joinedHolder, if_pos (by simp [fetchedAgain, h, hh])]
  unfold addHolder
  simp only [hnew, Bool.false_eq_true, if_false, modifyRec_withEvidence]
  cases hst : (getRec s i).state with
  | orphan =>
    cases hh : held (getRec s i) with
    | true => simp [hkept, fetchedAgain, hh, ev']
    | false => simp [hstale hst hh, fetchedAgain, hh, hst, ev']
  | damaged =>
    cases hh : held (getRec s i) <;> simp [hkept, fetchedAgain, hh, hst, ev', Bool.and_comm]
  | _ => simp [hkept, fetchedAgain, hst, ev']

theorem addHolder_stays (hi : i < segCount s) (hnew : hasStation ev.holders p = false)
    (h : i ∈ s.repair.pins ∨ fetchedAgain (getRec s i) = false) :
    addHolder p i ev s = withRec i (joinedHolder p ev (getRec s i)) s := by
  rw [addHolder_eq hi hnew]
  rcases h with hpin | hno
  · have hpin' : i ∈ (withRec i (joinedHolder p ev (getRec s i)) s).repair.pins := hpin
    rw [offerRepair_pinned hpin', ite_self]
  · rw [hno]
    rfl

theorem addHolder_joins (hi : i < segCount s) (hnew : hasStation ev.holders p = false)
    (hagain : fetchedAgain (getRec s i) = true) (ho : Offered i s) (hnone : ∀ e ∈ s.repair.queue, e.segment ≠ i)
    (hroom : s.repair.queue.length < 32) : addHolder p i ev s =
      joined i (freshEntry i (if (getRec s i).usable = true ∧ ev.fromNews = false then .sweep else .news))
        (withRec i (joinedHolder p ev (getRec s i)) s) := by
  have hoffered : Offered i (withRec i (joinedHolder p ev (getRec s i)) s) := ho.congr rfl rfl
  have hrec : getRec (withRec i (joinedHolder p ev (getRec s i)) s) i = joinedHolder p ev (getRec s i) :=
    getRec_withRec_self hi
  obtain ⟨hfew, hstate⟩ := fetchedAgain_iff.mp hagain
  have hfetch : fetchable (joinedHolder p ev (getRec s i)) = true := by
    rw [joinedHolder, withEvidence_record]
    rcases hstate with h | ⟨h, _⟩ <;> simp [fetchable, h, hagain, Nat.not_le.mpr hfew]
  have hlevel : admissionLevel (joinedHolder p ev (getRec s i)) =
      if (getRec s i).usable = true ∧ ev.fromNews = false then .sweep else .news := by
    rw [joinedHolder, withEvidence_record]
    cases (getRec s i).usable with
    | false => simp [admissionLevel]
    | true => cases ev.fromNews <;> simp [admissionLevel]
  rw [addHolder_eq hi hnew, if_pos hagain, hoffered.joins (by rw [hrec]; exact hfetch) hnone hroom, hrec, hlevel]

/-! ### NEWS -/

/-- R161: in CENSUS a mismatch marks the record, which waits for ACTIVE. -/
theorem report_marks (hcensus : s.start.top = .census) (hm : reportMismatches (getRec s i) t x = true)
    (fromNews : Bool) : report p i t x fromNews s =
      withRec i { getRec s i with mark := true, rounds := 0, state := .disputed } s := by
  have hgood := (reportMismatches_iff.mp hm).1
  have hmarked : markDisputed i s = withRec i { getRec s i with mark := true, rounds := 0, state := .disputed } s :=
    modifyRec_eq_withRec (contributed_congr (by simp [hgood]) rfl rfl)
  simp [report, hm, mismatch, hcensus, hmarked]

theorem Hears.news_inTable {i : SegNum} (h : Hears s p 0 (.news i t x)) : i.toNat < segCount s := by
  simpa [bodyInRange, segmentInRange] using h.good.2

theorem exec_news {i : SegNum} (h : Hears s p 0 (.news i t x)) (hnull : t ≠ nullStamp) :
    exec (.news p i t x) s = .next (report p i.toNat t x true (heard p s)) := by
  have hreport : deliverNews p i.toNat t x (heard p s) = report p i.toNat t x true (heard p s) := if_neg hnull
  rw [← hreport]
  exact congrArg Host.Outcome.next (h.delivered _ (.inl rfl))

theorem exec_news_null {i : SegNum} (h : Hears s p 0 (.news i nullStamp x)) :
    exec (.news p i nullStamp x) s = .next (heard p s) := by
  have hignored : deliverNews p i.toNat nullStamp x (heard p s) = heard p s := if_pos rfl
  refine Eq.trans ?_ (congrArg Host.Outcome.next hignored)
  exact congrArg Host.Outcome.next (h.delivered _ (.inl rfl))

/-- R42: the sender of a frame is PRESENT when its body is delivered. -/
theorem Hears.sender_present {q : Station} {body : Body} (h : Hears s p q body) (hlen : s.roster.entries.length = 15) :
    isPresent (heard p s) p = true := by
  have hplace : p.toNat - 1 < s.roster.entries.length := by
    have := p.isLt
    omega
  have hp : p ≠ 0#4 := h.sender_ne_zero
  simp [isPresent, rosterEntry, heard, hp, hplace]

/-- Settles O31: each clause is one line of the report table, taken in the state in which the sender has been heard. -/
theorem newsByTable : Obligations.NewsByTable := by
  intro s p i t x h after r u withRec' exhausted raised others joined' entry pinned offered room
  have hi : i.toNat < segCount u := h.news_inTable
  have hraised : raised = withEvidence (newsEvidence p t x) (getRec u i.toNat) := withEvidence_record.symm
  have hoffered : offered → (getRec u i.toNat).failures < 2 ∧ Offered i.toNat u := by
    rintro ⟨hpin, hfew, horder, htop⟩
    refine ⟨hfew, hpin, horder, htop.imp id And.left, ?_⟩
    rcases htop with hcensus | ⟨_, ha⟩
    · exact .inl (show s.start.top ≠ .active by simp [hcensus])
    · exact .inr ha
  have hnews (hnull : t ≠ nullStamp) : after = .next (report p i.toNat t x true u) := exec_news h hnull
  have hignored (hrep : report p i.toNat t x true u = u) : after = .next u := by
    by_cases hnull : t = nullStamp
    · subst hnull
      exact exec_news_null h
    · rw [hnews hnull, hrep]
  refine ⟨?_, fun husable hold hother => ?_, fun husable hold => ?_, fun ev hev hgood hold htold => ?_,
    fun hnull hout hnewer => ?_, fun ev hnull hout hev hstamp hsig hnew => ?_,
    fun hcensus hnull hgood husable hstamp hsig => ?_⟩
  · rintro rfl
    exact exec_news_null h
  · exact hignored (report_known (s := u) (i := i.toNat) husable hold (not_mismatch hother) true)
  · exact hignored (report_older (s := u) (i := i.toNat) husable hold true)
  · exact hignored (report_stale (s := u) (i := i.toNat) (not_mismatch (hgood.imp_right .inl)) hev hold htold true)
  · have hraises : after = .next (raiseEvidence p i.toNat t x true u) := by
      rw [hnews hnull, report_raises (s := u) (i := i.toNat) hout hnewer true]
    refine ⟨fun hst => ?_, fun hst => ⟨fun hpin => ?_, fun ho hr => ?_, fun e ho _ he hwait hsweep => ?_⟩,
      fun hst hothers => ⟨fun hpin => ?_, fun ho hr => ?_⟩,
      fun hst pre post e slot hqueue hseg hothers hlevel hslot ha =>
        ⟨fun hidle => ?_, fun hactive honly hlen hplace => ?_⟩⟩
    · rw [hraises, raiseEvidence_waits (s := u) hst, withEvidence_record]
      rfl
    · rw [hraises, raiseEvidence_pinned hi hst hpin, outdated, withEvidence_record]
      rfl
    · obtain ⟨hfew, ho⟩ := hoffered ho
      rw [hraises, raiseEvidence_joins hi hst hfew ho hr.1 hr.2, outdated, withEvidence_record]
      rfl
    · obtain ⟨hfew, ho⟩ := hoffered ho
      rw [hraises, raiseEvidence_rises hi hst hfew ho he hwait hsweep, outdated, withEvidence_record]
      rfl
    · rw [hraises, raiseEvidence_dropsPinned hi hst hothers hpin, withEvidence_record]
      rfl
    · obtain ⟨hfew, ho⟩ := hoffered ho
      rw [hraises, raiseEvidence_dropsJoins hi hst hothers hfew ho hr.1 hr.2, withEvidence_record]
      rfl
    · have hentry : EntryAt u pre post e := ⟨hqueue, by rw [hseg]; exact hothers⟩
      rw [hraises, hentry.raiseEvidence_resets hseg hst hlevel hslot ha hidle, withEvidence_record]
      rfl
    · have hjob : JobAt u pre post e :=
        ⟨hqueue, hactive, fun e' he' => ⟨by rw [hseg]; exact hothers e' he', honly e' he'⟩⟩
      rw [hraises, hjob.raiseEvidence_resets hseg hi hst hlevel hslot ha h.sender_ne_zero (h.sender_present hlen)
        h.other (takes_heard hplace), withEvidence_record, asked_eq (e := resetEntry e) hseg]
      rfl
  · have hadds : after = .next (addHolder p i.toNat ev u) := by
      rw [hnews hnull, hstamp, hsig, report_adds (s := u) (i := i.toNat) (hstamp ▸ hout) hev true]
    refine ⟨fun hstays => ?_, fun hagain ho hr => ?_⟩
    · have hkept : i.toNat ∈ u.repair.pins ∨ fetchedAgain (getRec u i.toNat) = false :=
        hstays.imp id fun hno => Bool.eq_false_iff.mpr fun hf => hno (fetchedAgain_iff.mp hf)
      rw [hadds, addHolder_stays hi hnew hkept, joinedHolder_record]
      rfl
    · obtain ⟨hfew, ho⟩ := hoffered ho
      rw [hadds, addHolder_joins hi hnew (fetchedAgain_iff.mpr hagain) ho hr.1 hr.2, joinedHolder_record]
      rfl
  · have hmismatch : reportMismatches (getRec u i.toNat) t x = true :=
      reportMismatches_iff.mpr ⟨hgood, husable, hstamp.symm, Ne.symm hsig⟩
    rw [hnews hnull, report_marks (s := u) (i := i.toNat) hcensus hmismatch true]
    rfl

end Sys2Proof.Machine
end

section
/-! PROOFS. A NEWS of a newer copy of a GOOD record starts its fetch: with the fetch engine at rest, and over a SWEEP
job (R61, R63, R64, R71, R83, R86 to R90). -/

namespace Sys2Proof.Machine

/- Theorems elaborated side by side pass the memory the check allows (as in Tests/Slice0.lean). -/
set_option Elab.async false

variable {s : State} {p q : Station} {i : Nat} {t : Stamp} {x : Signature} {r : SegRec} {ev : Evidence}
  {pre post : List Entry} {e : Entry} {n : SlotName}

theorem freeSlot_a (ha : s.repair.slotA = none) : freeSlot s = some .a := by simp [freeSlot, ha]

theorem freeSlot_b (ha : s.repair.slotA.isSome = true) (hb : s.repair.slotB = none) : freeSlot s = some .b := by
  obtain ⟨slot, ha⟩ := Option.isSome_iff_exists.mp ha
  simp [freeSlot, ha, hb]

theorem freeSlot_c (ha : s.repair.slotA.isSome = true) (hb : s.repair.slotB.isSome = true)
    (hc : s.repair.slotC = none) : freeSlot s = some .c := by
  obtain ⟨slot, ha⟩ := Option.isSome_iff_exists.mp ha
  obtain ⟨slot', hb⟩ := Option.isSome_iff_exists.mp hb
  simp [freeSlot, ha, hb, hc]

/-- R87: the record of a segment whose fetch starts. -/
def beingFetched (r : SegRec) : SegRec := { r with state := .fetching }

/-- R87 to R89: a fetch begun for a record just rewritten to `r`, after a change of the Repair Unit alone. -/
theorem fetchBegun_rewritten (hi : i < segCount s) (hseg : e.segment = i) (v : RepairUnit) :
    fetchBegun pre post e n ev q { withRec i r s with repair := v } =
      asked pre post { e with state := .active, slot := some n } q
        (withRec i (beingFetched r) (setSlot n (some (slotTaken i ev)) { s with repair := v })) := by
  subst hseg
  have hrec : getRec { withRec e.segment r s with repair := v } e.segment = r := getRec_withRec_self hi
  have hslot : setSlot n (some (slotTaken e.segment ev)) { withRec e.segment r s with repair := v } =
      withRec e.segment r (setSlot n (some (slotTaken e.segment ev)) { s with repair := v }) := by
    cases n <;> rfl
  rw [fetchBegun, hrec, hslot, withRec_withRec]
  rfl

/-! ### A job preempted (R90) -/

/-- R90: a job set aside. -/
def setAside (a : Entry) : Entry := { a with state := .suspended }

/-- R85, R90: the Repair Unit after the job `a` has been set aside for a new entry of segment `i`. -/
def overtaken (level : Level) (i : Nat) (a : Entry) (rest : List Entry) (v : RepairUnit) : RepairUnit :=
  { v with
    queue := freshEntry i level :: setAside a :: rest
    stack := a.segment :: v.stack
    cond := none
    patience := none }

/-- The active job `a` at the head of the queue, no entry of segment `i` in it and every entry below a level; those
behind are not active, and those of the job's own segment are suspended already. -/
structure Overtakes (s : State) (level : Level) (i : Nat) (a : Entry) (rest : List Entry) : Prop where
  queue : s.repair.queue = a :: rest
  active : a.state = .active
  below : ∀ d ∈ a :: rest, levelRank d.level < levelRank level
  others : ∀ d ∈ a :: rest, d.segment ≠ i
  aside : changed a.segment setAside rest = rest
  idle : ∀ d ∈ rest, d.state ≠ .active

theorem Overtakes.activeEntry {level : Level} {a : Entry} {rest : List Entry} (h : Overtakes s level i a rest) :
    activeEntry s = some a := by
  simp [Machine.activeEntry, h.queue, h.active]

theorem Overtakes.preempt_addEntry {level : Level} {a : Entry} {rest : List Entry} (h : Overtakes s level i a rest) :
    preempt (addEntry level i s) = { s with repair := overtaken level i a rest s.repair } := by
  have hqueue : (addEntry level i s).repair.queue = freshEntry i level :: a :: rest := by
    rw [← insertEntry_first (e := freshEntry i level) h.below, ← h.queue]
    rfl
  have hchanged : changed a.segment setAside (freshEntry i level :: a :: rest) =
      freshEntry i level :: setAside a :: rest := by
    have hne : i ≠ a.segment := Ne.symm (h.others a List.mem_cons_self)
    have haside := h.aside
    unfold changed at haside ⊢
    simp [freshEntry, hne, haside]
  calc preempt (addEntry level i s)
      = { s with repair := { s.repair with
            queue := changed a.segment setAside (addEntry level i s).repair.queue
            stack := a.segment :: s.repair.stack, cond := none, patience := none } } :=
        preempt_eq (activeEntry_addEntry.trans h.activeEntry)
    _ = { s with repair := overtaken level i a rest s.repair } := by
        rw [hqueue, hchanged]
        rfl

/-- R71, R90: a segment admitted above the active job's level suspends it and starts. -/
theorem Overtakes.enterQueue_overtakes {level : Level} {a : Entry} {rest : List Entry} (h : Overtakes s level i a rest)
    (hroom : rest.length < 31) (hi : i < segCount s) (hready : FetchReady (withRec i r s) i n ev 0 q)
    (hfree : freeSlot { s with repair := overtaken level i a rest s.repair } = some n) :
    enterQueue level i (withRec i r s) =
      asked [] (setAside a :: rest) { freshEntry i level with state := .active, slot := some n } q
        (withRec i (beingFetched r) (setSlot n (some (slotTaken i ev))
          { s with repair := overtaken level i a rest s.repair })) := by
  let v := overtaken level i a rest s.repair
  have hover : Overtakes (withRec i r s) level i a rest := ⟨h.queue, h.active, h.below, h.others, h.aside, h.idle⟩
  have hpreempt : preempt (addEntry level i (withRec i r s)) = { withRec i r s with repair := v } :=
    hover.preempt_addEntry
  have hothers : ∀ d ∈ [] ++ setAside a :: rest, d.segment ≠ i ∧ d.state ≠ .active := by
    rintro d (_ | ⟨_, hd⟩)
    · exact ⟨h.others a List.mem_cons_self, by simp [setAside]⟩
    · exact ⟨h.others d (List.mem_cons_of_mem a hd), h.idle d hd⟩
  have hstart : CanStart { withRec i r s with repair := v } [] (setAside a :: rest) (freshEntry i level) n ev q :=
    ⟨rfl, hothers, rfl, hready.congr v hfree⟩
  have hnone : findEntry (withRec i r s) i = none :=
    findEntry_eq_none (by rw [hover.queue]; exact h.others)
  have hlength : (withRec i r s).repair.queue.length < 32 := by
    rw [hover.queue, List.length_cons]
    omega
  rw [enterQueue_preempts (s := withRec i r s) hnone hlength hover.activeEntry (h.below a List.mem_cons_self)
    (by rw [hpreempt]; exact hstart), hpreempt, fetchBegun_rewritten hi rfl]

/-! ### NEWS of a newer copy -/

/-- R64, R71: the GOOD record of a newer copy is offered at NEWS level. -/
theorem report_entersQueue (hi : i < segCount s) (hgood : (getRec s i).state = .good)
    (husable : (getRec s i).usable = true) (hnone : (getRec s i).evidence = none) (hfew : (getRec s i).failures < 2)
    (hnewer : newer t (getRec s i).stamp = true) (hpin : i ∉ s.repair.pins) (ht : s.start.top = .active) :
    report p i t x true s =
      enterQueue .news i (withRec i (outdated (newsEvidence p t x) (getRec s i)) s) := by
  let u := withRec i (outdated (newsEvidence p t x) (getRec s i)) s
  have hout : OutdoesCopy (getRec s i) t := by rw [OutdoesCopy, if_pos husable]; exact hnewer
  have hfetch : fetchable (getRec u i) = true := by rw [getRec_outdated hi]; exact fetchable_outdated hfew
  have hpasses : admissible u i = true := admissible_iff.mpr ⟨.inr ht, hfetch, hpin⟩
  rw [report_raises hout (by simp [hnone]) true, raiseEvidence_notHeld hi (.inl hgood) hfew, offerRepair_passes hpasses,
    getRec_outdated hi, admissionLevel_outdated]

/-- R63, R64, R87: the record of a GOOD segment whose newer copy is being fetched. -/
def newerFetched (p : Station) (t : Stamp) (x : Signature) (r : SegRec) : SegRec :=
  { r with evidence := some (newsEvidence p t x), exhausted := false, state := .fetching }

theorem outdated_fetching {r : SegRec} (hfew : r.failures < 2) :
    beingFetched (outdated (newsEvidence p t x) r) = newerFetched p t x r := by
  rw [beingFetched, outdated, withEvidence_record, if_neg (Nat.not_le.mpr hfew)]
  rfl

/-- R83, R87, R88: a record just rewritten to `r` has what its fetch needs. -/
theorem fetchReady_rewritten (hi : i < segCount s) (hknown : r.state ≠ .unknown) (hev : r.evidence = some ev)
    (hfree : freeSlot s = some n) (hsource : LowestSource s ev.holders 0 none q) (hplace : Takes s (.request q i)) :
    FetchReady (withRec i r s) i n ev 0 q where
  inTable := by rw [segCount_withRec]; exact hi
  known := by rw [getRec_withRec_self hi]; exact hknown
  evidence := by rw [getRec_withRec_self hi]; exact hev
  free := hfree
  source := hsource.congr rfl rfl
  place := hplace.congr rfl rfl

/-- Settles O30: the record offered (`report_entersQueue`) enters an empty queue, or a queue with one SWEEP job, and
starts from the sender (`enterQueue_starts`, `enterQueue_preempts`). -/
theorem newsStartsFetch : Obligations.NewsStartsFetch := by
  intro s p i t x h hlen hplace r hnull hgood husable hnone hfew hnewer hpin hstack entry slot started
  let u := heard p s
  let v := withRec i.toNat (outdated (newsEvidence p t x) (getRec u i.toNat)) u
  let w := addEntry .news i.toNat v
  have hi : i.toNat < segCount u := h.news_inTable
  have hfetched : beingFetched (outdated (newsEvidence p t x) (getRec u i.toNat)) = newerFetched p t x r :=
    outdated_fetching hfew
  have hafter : exec (.news p i t x) s = .next (enterQueue .news i.toNat v) := by
    rw [exec_news h hnull, report_entersQueue (s := u) hi hgood husable hnone hfew hnewer hpin hplace.active]
  have hready {n : SlotName} (hfree : freeSlot u = some n) :
      FetchReady v i.toNat n (newsEvidence p t x) 0 p :=
    fetchReady_rewritten hi (by simp [outdated, show (getRec u i.toNat).state = .good from hgood])
      (by rw [outdated, withEvidence_eq]) hfree
      (lowestSource_only h.sender_ne_zero (h.sender_present hlen) h.other) (takes_heard hplace)
  refine ⟨fun hqueue hslot => ?_, fun a hqueue hactive hsweep hother hslotA hslotB => ?_⟩
  · have hfree : freeSlot u = some .a := freeSlot_a hslot
    have hwqueue : w.repair.queue = [freshEntry i.toNat .news] :=
      congrArg (insertEntry (freshEntry i.toNat .news)) hqueue
    have hstart : CanStart w [] [] (freshEntry i.toNat .news) .a (newsEvidence p t x) p :=
      ⟨hwqueue, by simp, rfl, (hready hfree).congr w.repair hfree⟩
    have hbegun := fetchBegun_rewritten (pre := []) (post := []) (n := .a) (ev := newsEvidence p t x) (q := p)
      (r := outdated (newsEvidence p t x) (getRec u i.toNat)) (e := freshEntry i.toNat .news) hi rfl w.repair
    rw [hafter, enterQueue_starts (s := v) hqueue hstack hstart, show fetchBegun [] [] _ _ _ _ w = _ from hbegun,
      hfetched]
    rfl
  · have hover : Overtakes u .news i.toNat a [] :=
      ⟨hqueue, hactive, by simp [hsweep, levelRank], by simp [hother], rfl, by simp⟩
    have hfree : freeSlot u = some .b := freeSlot_b hslotA hslotB
    rw [hafter, hover.enterQueue_overtakes (by simp) hi (hready hfree) hfree, hfetched]
    have hstack' : [a.segment] = a.segment :: u.repair.stack := by rw [show u.repair.stack = [] from hstack]
    simp only [started, hstack']
    rfl

end Sys2Proof.Machine
end

section
/-! PROOFS. FRESHEN by the lines of its table: the lines that only answer, the peer that is asked, the running job that
rises, the entry that rises or joins at DEMAND, and the NEWS job that is preempted (R71 to R73, R80, R81, R90, R182). -/

namespace Sys2Proof.Machine

/- Theorems elaborated side by side pass the memory the check allows (as in Tests/Slice0.lean). -/
set_option Elab.async false

variable {s : State} {p : Station} {i : Nat} {r : SegRec} {e a : Entry}

/-! ### The checks before a command's rule (R170) -/

theorem takeCommand_rule {taken : TopState → Bool} {argsOk : State → Bool} {rule : State → State}
    (ht : taken s.start.top = true) (ha : argsOk s = true) : takeCommand taken argsOk rule s = rule s := by
  simp [takeCommand, ht, ha]

theorem inRunning_iff {t : TopState} : inRunning t = true ↔ t = .active ∨ t = .detached := by simp [inRunning]

/-- R170: in ACTIVE and DETACHED a command for a segment in the table follows its own rule. -/
theorem takeCommand_segment {i : SegNum} {rule : State → State} (ht : s.start.top = .active ∨ s.start.top = .detached)
    (hi : i.toNat < segCount s) : takeCommand inRunning (segmentArgOk · i) rule s = rule s :=
  takeCommand_rule (inRunning_iff.mpr ht) (decide_eq_true hi)

theorem exec_freshen {i : SegNum} (ht : s.start.top = .active) (hi : i.toNat < segCount s) :
    exec (.freshen i) s = .next (freshenActive i.toNat s) := by
  have hrule : freshenRule i.toNat s = freshenActive i.toNat s := if_neg (by simp [ht])
  exact congrArg Host.Outcome.next ((takeCommand_segment (.inl ht) hi).trans hrule)

theorem exec_freshen_detached {i : SegNum} (ht : s.start.top = .detached) (hi : i.toNat < segCount s) :
    exec (.freshen i) s = .next (answered .refused [] s) := by
  have hrule : freshenRule i.toNat s = answered .refused [] s := if_pos ht
  exact congrArg Host.Outcome.next ((takeCommand_segment (.inr ht) hi).trans hrule)

/-! ### The lines of the table (R80) -/

theorem pinned_iff : pinned s i = true ↔ i ∈ s.repair.pins := List.contains_iff_mem

theorem freshenActive_good (h : (getRec s i).state = .good) : freshenActive i s = answered .done [] s := if_pos h

theorem freshenActive_refused (hgood : (getRec s i).state ≠ .good) (h : i ∈ s.repair.pins ∨
    (getRec s i).state = .disputed ∨ (getRec s i).state = .committing ∨ 2 ≤ (getRec s i).failures) :
    freshenActive i s = answered .refused [] s := by
  rw [← pinned_iff, ← held_iff] at h
  exact (if_neg hgood).trans (if_pos h)

/-- R80: a segment that is not refused at once. -/
structure Freshens (s : State) (i : Nat) : Prop where
  unpinned : i ∉ s.repair.pins
  few : (getRec s i).failures < 2

theorem freshenActive_noEvidence (h : Freshens s i) (hstate : (getRec s i).state = .damaged)
    (hev : (getRec s i).evidence = none) : freshenActive i s = answered .noEvidence [] (askBank i s) := by
  simp [freshenActive, hstate, hev, pinned_iff, h.unpinned, not_held h.few]
  rfl

theorem freshenActive_fetching (h : Freshens s i) (hstate : (getRec s i).state = .fetching) :
    freshenActive i s = answered .accepted [] (enterQueue .demand i s) := by
  simp [freshenActive, hstate, pinned_iff, h.unpinned, not_held h.few]
  rfl

/-- R80: the record is worth a fetch. -/
def Worth (r : SegRec) : Prop := r.state = .stale ∨ r.state = .orphan ∨ r.state = .damaged ∧ r.evidence.isSome = true

theorem freshenable_iff : freshenable r = true ↔ Worth r := by simp [freshenable, Worth, or_assoc]

/-- R80: the record of a FRESHEN that is accepted. -/
def freshened (r : SegRec) : SegRec :=
  { r with exhausted := false, state := if r.state = .orphan then .stale else r.state }

theorem freshenRec_notHeld (hfew : r.failures < 2) : freshenRec r = freshened r := by
  rw [freshenRec_eq, not_held hfew]
  rfl

theorem modifyRec_freshenRec (hfew : (getRec s i).failures < 2) :
    modifyRec i freshenRec s = withRec i (freshened (getRec s i)) s := by
  have hsame : contributed (freshenRec (getRec s i)) = contributed (getRec s i) := by
    rw [freshenRec_notHeld hfew]
    refine contributed_congr ?_ rfl rfl
    by_cases ho : (getRec s i).state = .orphan <;> simp [freshened, ho]
  rw [modifyRec_eq_withRec hsame, freshenRec_notHeld hfew]

/-- R80: the last lines of the table. -/
theorem freshenActive_worth (h : Freshens s i) (hw : Worth (getRec s i)) : freshenActive i s =
    if (findEntry s i).isSome = true ∨ hasPlace .demand s = true then
      answered .accepted [] (enterQueue .demand i (withRec i (freshened (getRec s i)) s))
    else answered .refused [] s := by
  have hable : freshenable (getRec s i) = true := freshenable_iff.mpr hw
  have hknown : ¬ ((getRec s i).state = .damaged ∧ (getRec s i).evidence = none) := by
    rintro ⟨hd, hev⟩
    rcases hw with hs | hs | ⟨_, hs⟩
    · simp [hd] at hs
    · simp [hd] at hs
    · simp [hev] at hs
  have hstate : (getRec s i).state ≠ .good ∧ (getRec s i).state ≠ .disputed ∧ (getRec s i).state ≠ .committing ∧
      (getRec s i).state ≠ .fetching := by
    rcases hw with hs | hs | ⟨hs, _⟩ <;> simp [hs]
  obtain ⟨hgood, hdisputed, hcommitting, hfetching⟩ := hstate
  simp only [freshenActive, hgood, hdisputed, hcommitting, hfetching, pinned_iff, h.unpinned, not_held h.few, hable,
    Option.isNone_iff_eq_none, modifyRec_freshenRec h.few, hknown, or_self, if_false, true_and,
    Bool.false_eq_true]
  rfl

/-- R80: with an entry or a place the segment enters the queue at DEMAND level. -/
theorem freshenActive_enters (h : Freshens s i) (hw : Worth (getRec s i))
    (hplace : (findEntry s i).isSome = true ∨ s.repair.queue.length < 32) : freshenActive i s =
      answered .accepted [] (enterQueue .demand i (withRec i (freshened (getRec s i)) s)) := by
  rw [freshenActive_worth h hw, if_pos]
  exact hplace.imp id fun hroom => by simp [hasPlace, queueRoom, Config.repairCapacity, hroom]

/-- R73, R80: without an entry or a place it is refused. -/
theorem freshenActive_full (h : Freshens s i) (hw : Worth (getRec s i)) (hnone : findEntry s i = none)
    (hfull : s.repair.queue.length = 32) (hkept : ∀ e ∈ s.repair.queue, e.state ≠ .waiting ∨ e.level ≠ .sweep) :
    freshenActive i s = answered .refused [] s := by
  have hroom : queueRoom s = false := by simp [queueRoom, Config.repairCapacity, hfull]
  have hany : s.repair.queue.any waitingSweep = false := by
    refine List.any_eq_false.mpr fun e he hsweep => ?_
    simp only [waitingSweep, Bool.and_eq_true, decide_eq_true_eq] at hsweep
    exact (hkept e he).elim (· hsweep.1) (· hsweep.2)
  rw [freshenActive_worth h hw, if_neg]
  simp [hnone, hasPlace, hroom, hany]

/-! ### The peer that is asked for the bank's list (R81) -/

theorem askBank_alone (h : ∀ p, p ≠ s.start.station → isPresent s p = false) : askBank i s = s := by
  have hnone : lowestPeer s = none := by
    refine List.find?_eq_none.mpr fun p _ => ?_
    by_cases hp : p = s.start.station
    · simp [hp]
    · simp [h p hp]
  rw [askBank, hnone]

theorem askBank_asks (hp : isPresent s p = true) (hself : p ≠ s.start.station)
    (hlow : ∀ q, q.toNat < p.toNat → isPresent s q = false ∨ q = s.start.station)
    (hplace : Takes s (.sigquery p (i / 64))) :
    askBank i s = { s with line.outbox := boxWith (.sigquery p (i / 64)) s.line.outbox } := by
  have h0 : p ≠ 0 := by
    rintro rfl
    rw [isPresent_zero] at hp
    cases hp
  have hlowest : lowestPeer s = some p := by
    refine stations_find _ h0 (by simp [hp, hself]) fun q hlt => ?_
    rcases hlow q hlt with hq | hq <;> simp [hq]
  rw [askBank, hlowest]
  exact offer_takes hplace

/-! ### The queue at DEMAND (R71, R72, R90) -/

theorem risen_demand (he : findEntry s i = some e) : risen .demand e s =
    { s with repair.queue :=
        insertEntry { e with level := .demand } (s.repair.queue.filter fun x => x.segment ≠ i) } := by
  rw [risen, (findEntry_some i e he).2]

theorem levelRank_lt_demand {level : Level} (h : level ≠ .demand) : levelRank level < levelRank .demand := by
  cases level with
  | demand => exact absurd rfl h
  | sweep => decide
  | news => decide

theorem unhurried_demand (ha : activeEntry s = some a) (hlevel : a.level = .demand) (hother : a.segment ≠ i) :
    Unhurried .demand i s := .inr ⟨a, ha, by rw [hlevel], hother⟩

/-- Settles O50: each clause is a line of the table. -/
theorem freshenByTable : Obligations.FreshenByTable := by
  intro s i hi r fresh demand cleared worth
  refine ⟨fun ht => exec_freshen_detached ht hi, fun ht => ?_⟩
  have hfresh : fresh = .next (freshenActive i.toNat s) := exec_freshen ht hi
  refine ⟨fun hgood => by rw [hfresh, freshenActive_good hgood], fun hgood => ⟨fun h => ?_, fun hpin hfew => ?_⟩⟩
  · rw [hfresh, freshenActive_refused hgood h]
  have h : Freshens s i.toNat := ⟨hpin, hfew⟩
  refine ⟨fun hstate hev => ⟨fun halone => ?_, fun p hp hself hlow hplace => ?_⟩,
    fun e hstate he hactive hlevel => ?_,
    fun a hw ha hlevel hother => ⟨fun e he hwait hbelow => ?_, fun hnone hroom => ?_⟩,
    fun a b ev q hw hqueue haactive halevel hbstate hblevel hstack haother hbother hslotA hslotB hslotC hev hsource
      hplace => ?_,
    fun hw hnone hfull hkept => ?_⟩
  · rw [hfresh, freshenActive_noEvidence h hstate hev, askBank_alone halone]
  · rw [hfresh, freshenActive_noEvidence h hstate hev, askBank_asks hp hself hlow hplace]
  · rw [hfresh, freshenActive_fetching h hstate, enterQueue_raisesJob he hactive (levelRank_lt_demand hlevel),
      risen_demand he]
  · rw [hfresh, freshenActive_enters h hw (.inl (by rw [he]; rfl)),
      enterQueue_risesCalmly (s := withRec i.toNat (freshened r) s) he hwait (levelRank_lt_demand hbelow)
        (unhurried_demand ha hlevel hother), risen_demand (s := withRec i.toNat (freshened r) s) he]
    rfl
  · rw [hfresh, freshenActive_enters h hw (.inr hroom),
      enterQueue_joins (s := withRec i.toNat (freshened r) s) hnone hroom (unhurried_demand ha hlevel hother)]
    rfl
  · have haside : changed a.segment setAside [b] = [b] := by
      have hb : setAside b = b := by rw [setAside, ← hbstate]
      simp [changed, hb]
    have hover : Overtakes s .demand i.toNat a [b] :=
      ⟨hqueue, haactive, by simp [halevel, hblevel, levelRank], by simp [haother, hbother], haside, by simp [hbstate]⟩
    have hnone : findEntry s i.toNat = none := findEntry_eq_none (by rw [hqueue]; exact hover.others)
    have hknown : (freshened r).state ≠ .unknown := by
      rcases hw with hs | hs | ⟨hs, _⟩ <;> simp [freshened, hs]
    have hfree : freeSlot s = some .c := freeSlot_c hslotA hslotB hslotC
    rw [hfresh, freshenActive_enters h hw (.inr (by simp [hqueue])), hover.enterQueue_overtakes (by simp) hi
      (fetchReady_rewritten hi hknown hev hfree hsource hplace) hfree, ← hstack]
    rfl
  · rw [hfresh, freshenActive_full h hw hnone hfull hkept]

end Sys2Proof.Machine
end

section
/-! PROOFS. PIN, UNPIN and ACCEPT: the pin list, the waiting entry that leaves with nothing to follow it, the offer that
is refused, and the dispute that is closed (R74, R75, R78, R79, R86, R135, R182). -/

namespace Sys2Proof.Machine

/- Theorems elaborated side by side pass the memory the check allows (as in Tests/Slice0.lean). -/
set_option Elab.async false

variable {s : State} {i : Nat} {r : SegRec} {e a : Entry}

/-! ### The rules of the three commands (R182) -/

section
variable {i : SegNum} (ht : s.start.top = .active ∨ s.start.top = .detached) (hi : i.toNat < segCount s)
include ht hi

theorem exec_pin : exec (.pin i) s = .next (pinRule i.toNat s) := congrArg _ (takeCommand_segment ht hi)

theorem exec_unpin : exec (.unpin i) s = .next (unpinRule i.toNat s) := congrArg _ (takeCommand_segment ht hi)

theorem exec_accept : exec (.accept i) s = .next (acceptRule i.toNat s) := congrArg _ (takeCommand_segment ht hi)

end

theorem pinRule_pinned (h : i ∈ s.repair.pins) : pinRule i s = answered .done [] s := if_pos (pinned_iff.mpr h)

theorem pinRule_full (h : i ∉ s.repair.pins) (hfull : s.repair.pins.length = 8) :
    pinRule i s = answered .refused [] s :=
  (if_neg (mt pinned_iff.mp h)).trans (if_pos hfull.ge)

/-- R78: the state in which segment `i` has joined the pin list. -/
def pinAdded (i : Nat) (s : State) : State := { s with repair.pins := s.repair.pins ++ [i] }

theorem pinRule_adds (h : i ∉ s.repair.pins) (hroom : s.repair.pins.length < 8) :
    pinRule i s = answered .done [] (pinCancel i (pinAdded i s)) :=
  (if_neg (mt pinned_iff.mp h)).trans (if_neg (Nat.not_le.mpr hroom))

theorem unpinRule_unpinned (h : i ∉ s.repair.pins) : unpinRule i s = answered .done [] s :=
  if_neg (mt pinned_iff.mp h)

/-- R79: an UNPIN whose offer is refused takes the segment off the list, and no more. -/
theorem unpinRule_removes (h : i ∈ s.repair.pins)
    (hno : ¬ ((s.start.top = .census ∨ s.start.top = .active) ∧ fetchable (getRec s i) = true)) :
    unpinRule i s = answered .done [] { s with repair.pins := s.repair.pins.filter fun j => j ≠ i } := by
  have hrefused : offerRepair i { s with repair.pins := s.repair.pins.filter fun j => j ≠ i } =
      { s with repair.pins := s.repair.pins.filter fun j => j ≠ i } :=
    offerRepair_refused (Bool.eq_false_iff.mpr fun ha => hno ⟨(admissible_iff.mp ha).1, (admissible_iff.mp ha).2.1⟩)
  exact (if_pos (pinned_iff.mpr h)).trans (congrArg (answered .done []) hrefused)

/-- R71: the records that need no fetch. -/
theorem fetchable_eq_false (h : r.state = .good ∨ r.state = .committing ∨ r.state = .disputed ∨ r.state = .orphan ∨
    r.exhausted = true) : fetchable r = false := by
  rcases h with h | h | h | h | h <;> simp [fetchable, h]

/-! ### A waiting entry leaves (R74, R75, R78) -/

theorem dropEntry_waiting (he : findEntry s i = some e) (hwait : e.state = .waiting) (hslot : e.slot = none)
    (hstack : s.repair.stack = []) :
    dropEntry i s = { s with repair.queue := s.repair.queue.filter fun d => d.segment ≠ i } := by
  simp only [dropEntry, he, hslot, hwait, hstack, List.filter_nil, reduceCtorEq, if_false]

/-- R15: a record that is in the state it settles in stays as it is. -/
theorem settleQuiet_settled (hi : i < segCount s)
    (h : settledState (holdsSlot s i) (getRec s i) = (getRec s i).state) : settleQuiet i s = s := by
  have hsame : { getRec s i with state := settledState (holdsSlot s i) (getRec s i) } = getRec s i := by rw [h]
  calc settleQuiet i s = withRec i { getRec s i with state := settledState (holdsSlot s i) (getRec s i) } s :=
        modifyRec_eq_withRec (congrArg contributed hsame)
    _ = s := by rw [hsame, withRec_getRec hi]

/-- R15, R71: a pinned record that is in the state it settles in makes no offer. -/
theorem settle_pinned (hi : i < segCount s) (h : settledState (holdsSlot s i) (getRec s i) = (getRec s i).state)
    (hpin : i ∈ s.repair.pins) : settle i s = s := by
  rw [settle_eq, settleQuiet_settled hi h, offerRepair_pinned hpin, ite_self]

/-- R75: backfill admits nothing where no segment qualifies. -/
theorem backfill_nothing (h : ∀ j, j < segCount s → qualifies s j = false) : backfill s = s := by
  have hnone (j : Nat) : qualifies s j = false := by
    by_cases hj : j < segCount s
    · exact h j hj
    · have houtside : getRec s j = unknownRec := by
        unfold segCount at hj
        simp [getRec, Nat.not_lt.mp hj]
      simp [qualifies, houtside, backfillable, unknownRec]
  unfold backfill
  split
  · rfl
  · exact List.foldl_fixed' (fun j => by simp [hnone j]) _

/-- R78: the waiting entry of a segment just pinned leaves, and nothing follows while another job is active. -/
theorem pinCancel_waiting (hi : i < segCount s) (he : findEntry s i = some e) (hwait : e.state = .waiting)
    (hslot : e.slot = none) (ha : activeEntry s = some a) (hother : a.segment ≠ i) (hrest : NothingElse s i)
    (hpin : i ∈ s.repair.pins) (hsettled : settledState false (getRec s i) = (getRec s i).state) :
    pinCancel i s = { s with repair.queue := s.repair.queue.filter fun d => d.segment ≠ i } := by
  let u : State := { s with repair.queue := s.repair.queue.filter fun d => d.segment ≠ i }
  have hdropped : cancelEntry i s = u := dropEntry_waiting he hwait hslot hrest.stack
  have hgone : findEntry u i = none := findEntry_eq_none fun d hd => by simpa using (List.mem_filter.mp hd).2
  have hkept : settle i u = u := settle_pinned hi (by rw [holdsSlot, hgone]; exact hsettled) hpin
  have hnone : backfill u = u := by
    refine backfill_nothing fun j hj => ?_
    by_cases hji : j = i
    · simp [qualifies, hji, show pinned u i = true from pinned_iff.mpr hpin]
    · simp [qualifies, show backfillable (getRec u j) = false from hrest.records j hj hji]
  have hactive : activeEntry u = some a := find_filter_of_find ha (by simpa using hother)
  rw [pinCancel, if_pos (by rw [he]; rfl), hdropped, hkept, hnone, pick_active hactive]

theorem pinCancel_absent (h : ∀ e ∈ s.repair.queue, e.segment ≠ i) : pinCancel i s = s := by
  rw [pinCancel, findEntry_eq_none h]
  rfl

/-! ### A dispute closed by ACCEPT (R135) -/

/-- R15, R135: the record of an accepted dispute settles GOOD, without an offer. -/
theorem settle_accepted (hi : i < segCount s) (hstate : (getRec s i).state = .disputed)
    (husable : (getRec s i).usable = true) (hev : (getRec s i).evidence = none)
    (hwrites : (getRec s i).pendingWrites = 0) (hnone : findEntry s i = none) :
    settle i (modifyRec i clearMark s) =
      withRec i { getRec s i with mark := false, rounds := 0, state := .good } s := by
  let q := clearMark (getRec s i)
  let good : SegRec := { getRec s i with mark := false, rounds := 0, state := .good }
  have hcleared : modifyRec i clearMark s = withRec i q s := modifyRec_eq_withRec rfl
  have hslot : holdsSlot (withRec i q s) i = false := by
    rw [holdsSlot, show findEntry (withRec i q s) i = none from hnone]
    rfl
  have hsettled : settledState false q = .good := by simp [settledState, q, clearMark, hstate, hwrites, husable, hev]
  have hknown : settledState false q = .unknown ↔ q.state = .unknown := by
    rw [hsettled, show q.state = .disputed from hstate]
    simp
  have hquiet : settleQuiet i (withRec i q s) = withRec i good s := by
    rw [settleQuiet, hslot, modifyRec_withRec hi (contributed_congr hknown rfl rfl), hsettled]
    rfl
  have hrec : getRec (withRec i good s) i = good := getRec_withRec_self hi
  rw [hcleared, settle_eq, hquiet, hrec]
  rfl

theorem acceptRule_refused (h : (getRec s i).state ≠ .disputed) : acceptRule i s = answered .refused [] s := if_neg h

theorem acceptRule_disputed (h : (getRec s i).state = .disputed) : acceptRule i s = answered .done []
    (takeUpIf (findDispute s i).isSome (settle i (modifyRec i clearMark (freeDispute i s)))) := if_pos h

/-- Settles O51: PIN and UNPIN by the pin list, ACCEPT by the record's state. -/
theorem pinUnpinAccept : Obligations.PinUnpinAccept := by
  refine ⟨fun s i ht hi => ⟨fun hpin => ⟨?_, fun hno => ?_⟩, fun hpin => ⟨?_, fun hfull => ?_, fun hroom =>
    ⟨fun habsent => ?_, fun e a htop he hwait hslot ha hother hrest hstale husable hwrites hev hexhausted => ?_⟩⟩⟩,
    fun s i ht hi => ⟨fun hstate => ?_, fun hstate husable hev hwrites habsent hothers => ?_⟩⟩
  · rw [exec_pin ht hi, pinRule_pinned hpin]
  · have hrefused : ¬ ((s.start.top = .census ∨ s.start.top = .active) ∧ fetchable (getRec s i.toNat) = true) := by
      rintro ⟨htop, hfetch⟩
      rcases hno with hd | hrec
      · simp [hd] at htop
      · simp [fetchable_eq_false hrec] at hfetch
    rw [exec_unpin ht hi, unpinRule_removes hpin hrefused]
  · rw [exec_unpin ht hi, unpinRule_unpinned hpin]
  · rw [exec_pin ht hi, pinRule_full hpin hfull]
  · have hkept : pinCancel i.toNat (pinAdded i.toNat s) = pinAdded i.toNat s := pinCancel_absent habsent
    rw [exec_pin ht hi, pinRule_adds hpin hroom, hkept]
    rfl
  · have hsettled : settledState false (getRec s i.toNat) = (getRec s i.toNat).state := by
      simp [settledState, hstale, husable, hwrites, hev, hexhausted]
    have hleaves := pinCancel_waiting (s := pinAdded i.toNat s) hi he hwait hslot ha hother ⟨hrest.records, hrest.stack⟩
      (List.mem_append_right _ List.mem_cons_self) hsettled
    rw [exec_pin ht hi, pinRule_adds hpin hroom, hleaves]
    rfl
  · rw [exec_accept ht hi, acceptRule_refused hstate]
  · let good : SegRec := { getRec s i.toNat with mark := false, rounds := 0, state := .good }
    have hsettled : settle i.toNat (modifyRec i.toNat clearMark (freeDispute i.toNat s)) =
        withRec i.toNat good (freeDispute i.toNat s) :=
      settle_accepted (s := freeDispute i.toNat s) hi hstate husable hev hwrites (findEntry_eq_none habsent)
    have hnone : NoneWaiting (withRec i.toNat good (freeDispute i.toNat s)) :=
      noneWaiting_closed hi rfl (by simp [good]) rfl hothers
    rw [exec_accept ht hi, acceptRule_disputed hstate, hsettled, takeUpIf_noneWaiting _ hnone]
    rfl

end Sys2Proof.Machine
end

section
/-! PROOFS. A record rewritten twice with one change of its contributed signature, and a settle that makes no offer
(R15 to R18). -/

namespace Sys2Proof.Machine

/- Theorems elaborated side by side pass the memory the check allows (as in Tests/Slice0.lean). -/
set_option Elab.async false

variable {s : State} {i : Nat} {r q : SegRec}

/-! ### Two rewritings of one record (R18, R54) -/

theorem putRec_eq_withRec (h : contributed r = contributed (getRec s i)) : putRec i r s = withRec i r s :=
  modifyRec_eq_withRec (f := fun _ => r) h

/-- R18: the digest changes with the first rewriting alone. -/
theorem withRec_putRec (hi : i < segCount s) (h : contributed r = contributed q) :
    withRec i r (putRec i q s) = putRec i r s := by
  rw [putRec_eq i q s hi, putRec_eq i r s hi, h]
  unfold changeDigest withRec
  split <;> simp

/-- R18: the digest changes with the second rewriting alone. -/
theorem putRec_withRec (hi : i < segCount s) (h : contributed q = contributed (getRec s i)) :
    putRec i r (withRec i q s) = putRec i r s := by
  rw [putRec_eq i r (withRec i q s) (by simpa using hi), putRec_eq i r s hi, getRec_withRec_self hi, h]
  simp [withRec]

/-! ### A settle that makes no offer (R15, R16) -/

theorem settledState_eq_unknown {slotHeld : Bool} : settledState slotHeld r = .unknown ↔ r.state = .unknown := by
  unfold settledState
  split
  · simp [*]
  · repeat' split
    all_goals simp [*]

/-- R15: the record of a segment without a landing slot, settled. -/
def settled (r : SegRec) : SegRec := { r with state := settledState false r }

theorem contributed_settled : contributed (settled r) = contributed r :=
  contributed_congr settledState_eq_unknown rfl rfl

theorem settleQuiet_withRec (hnone : ∀ e ∈ s.repair.queue, e.segment ≠ i) :
    settleQuiet i s = withRec i (settled (getRec s i)) s := by
  have hslot : holdsSlot s i = false := by rw [holdsSlot, findEntry_eq_none hnone]; rfl
  rw [settleQuiet, hslot]
  exact modifyRec_eq_withRec contributed_settled

theorem settle_withRec (hi : i < segCount s) (hnone : ∀ e ∈ s.repair.queue, e.segment ≠ i)
    (hcalm : settleOffers (settled (getRec s i)) = false) : settle i s = withRec i (settled (getRec s i)) s := by
  rw [settle_eq, settleQuiet_withRec hnone, getRec_withRec_self hi, hcalm]
  rfl

end Sys2Proof.Machine
end

section
/-! PROOFS. A job that leaves the queue with nothing to follow it: the entry gone, backfill and pick at rest, the job
that ends exhausted, and the copy handed to the commit buffer with the write it asks for (R74, R75, R86, R98, R102,
R103, R145, R149). -/

namespace Sys2Proof.Machine

/- Theorems elaborated side by side pass the memory the check allows (as in Tests/Slice0.lean). -/
set_option Elab.async false

variable {s : State} {i : Nat} {pre post : List Entry} {e : Entry} {slot : Slot} {b : CommitBuffer}

/-! ### The store (R145, R149) -/

/-- R145: a commit write just begun. -/
def commitWrite (i : Nat) (t : Stamp) (b : CommitBuffer) : WriteOp where
  client := .commit
  segment := i
  stamp := t
  signature := some b.signature
  timer := none

theorem requestWrite_busy (q : WriteReq) (h : s.store.op ≠ .idle) :
    requestWrite q s = { s with store.writes := s.store.writes ++ [q] } := if_pos h

/-- R145, R149: in the free store the commit write begins at once. -/
theorem requestWrite_free (t : Stamp) (h : StoreFree s.store) (hb : s.repair.commit = some b) :
    requestWrite ⟨.commit, i, t⟩ s = { s with store.op := .writing (commitWrite i t b) false } := by
  obtain ⟨hop, hwrites, _⟩ := h
  simp [requestWrite, arbitrate, hop, hwrites, beginWrite, hb, commitWrite]

theorem endOp_rest {v : Store} (hv : s.store = v) (h : NonePending v) :
    endOp s = { s with store := { v with op := .idle, computed := none } } := by
  subst hv
  obtain ⟨hwrites, hserve, hhost, hcensus⟩ := h
  simp [endOp, arbitrate, hwrites, hserve, hhost, hcensus]

/-- R145, R149: the commit write that waits begins when the operation in progress ends. -/
theorem endOp_begins {t : Stamp} (h : s.store.writes = [⟨.commit, i, t⟩]) (hb : s.repair.commit = some b) :
    endOp s = { s with store := { s.store with
      op := .writing (commitWrite i t b) false, computed := none, writes := [] } } := by
  simp [endOp, arbitrate, h, beginWrite, hb, commitWrite]

/-! ### Nothing to follow (R75, R86) -/

theorem backfillable_outside (h : ¬ i < segCount s) : backfillable (getRec s i) = false := by
  rw [getRec_eq s i h]
  rfl

theorem backfillOne_nothing (h : backfillable (getRec s i) = false) : backfillOne i s = s := by
  simp [backfillOne, qualifies, h]

/-- R75: backfill admits nothing where no record asks for it. -/
theorem backfillQuiet_nothing (h : ∀ j, j < segCount s → backfillable (getRec s j) = false) : backfillQuiet s = s := by
  have hone (j : Nat) : backfillOne j s = s :=
    backfillOne_nothing ((Decidable.em (j < segCount s)).elim (h j) backfillable_outside)
  unfold backfillQuiet
  split
  · rfl
  · exact List.foldl_fixed' hone _

/-- R86: with an empty queue and an empty stack the engine stays at rest. -/
theorem pick_nothing (hqueue : s.repair.queue = []) (hstack : s.repair.stack = []) : pick s = s := by
  have hchoice : pickChoice s = none := by simp [pickChoice, firstWaiting, hqueue, hstack]
  rw [pick, Config.pickFuel, pickLoop, hchoice, ite_self]

/-! ### The entry of the active job leaves (R74, R83) -/

/-- R74, R83: the Repair Unit after the active job with slot A has left. -/
def withoutJob (pre post : List Entry) (v : RepairUnit) : RepairUnit :=
  { v with queue := pre ++ post, slotA := none, cond := none, patience := none }

/-- The active job `e`, in its place in the queue, holds slot A. -/
structure SlotJob (s : State) (pre post : List Entry) (e : Entry) (slot : Slot) : Prop extends JobAt s pre post e where
  holds : e.slot = some .a
  slot : s.repair.slotA = some slot

theorem SlotJob.congr {u : State} (h : SlotJob s pre post e slot) (hq : u.repair.queue = s.repair.queue)
    (ha : u.repair.slotA = s.repair.slotA) : SlotJob u pre post e slot :=
  ⟨⟨hq.trans h.queue, h.active, h.others⟩, h.holds, ha.trans h.slot⟩

theorem SlotJob.slotOf (h : SlotJob s pre post e slot) : slotOf s e.segment = some slot := by
  simp [Machine.slotOf, h.toJobAt.findEntry, h.holds, getSlot, RepairUnit.slot, h.slot]

theorem EntryAt.filter_others (h : EntryAt s pre post e) :
    s.repair.queue.filter (fun d => d.segment ≠ e.segment) = pre ++ post := by
  have hall : (pre ++ post).filter (fun d => d.segment ≠ e.segment) = pre ++ post :=
    List.filter_eq_self.mpr fun d hd => by simpa using h.others d hd
  rw [h.queue, List.filter_append, List.filter_cons_of_neg (by simp), ← List.filter_append, hall]

theorem SlotJob.dropEntry (h : SlotJob s pre post e slot) (hstack : e.segment ∉ s.repair.stack) :
    dropEntry e.segment s = { s with repair := withoutJob pre post s.repair } := by
  have hkept : s.repair.stack.filter (fun j => j ≠ e.segment) = s.repair.stack :=
    List.filter_eq_self.mpr fun j hj => by simpa using ne_of_mem_of_not_mem hj hstack
  simp only [Machine.dropEntry, h.toJobAt.findEntry, h.holds, h.active, hkept, h.entryAt.filter_others, if_true]
  rfl

/-- R15, R74: with the job gone the record of its segment settles. -/
theorem SlotJob.leaves (h : SlotJob s pre post e slot) (hstack : e.segment ∉ s.repair.stack) :
    settleQuiet e.segment (Machine.dropEntry e.segment s) =
      { withRec e.segment (settled (getRec s e.segment)) s with repair := withoutJob pre post s.repair } := by
  let u : State := { s with repair := withoutJob pre post s.repair }
  have hgone : ∀ d ∈ u.repair.queue, d.segment ≠ e.segment := fun d hd => (h.others d hd).1
  rw [h.dropEntry hstack]
  exact settleQuiet_withRec hgone

/-- R75: no segment but `i` asks for a fetch. -/
def OthersRest (i : Nat) (s : State) : Prop := ∀ j, j < segCount s → j ≠ i → backfillable (getRec s j) = false

/-- R75: backfill finds nothing when the record of segment `i` has been rewritten to one that asks for no fetch. -/
theorem OthersRest.backfillQuiet {u : State} {r : SegRec} (h : OthersRest i s) (hi : i < segCount s)
    (hu : u.segs = (withRec i r s).segs) (hr : backfillable r = false) : backfillQuiet u = u := by
  have hcount : segCount u = segCount s := by
    rw [← segCount_withRec (s := s) (i := i) (r := r)]
    exact congrArg (fun g : SegTable => g.recs.length) hu
  refine backfillQuiet_nothing fun j hj => ?_
  rw [getRec_congr hu]
  by_cases hji : j = i
  · rw [hji, getRec_withRec_self hi]
    exact hr
  · rw [getRec_withRec_other (Ne.symm hji)]
    exact h j (hcount ▸ hj) hji

/-! ### A job ends exhausted (R98) -/

/-- R98: the record of a job that has ended exhausted. -/
def givenUp (r : SegRec) : SegRec := { r with exhausted := true, state := if r.usable then .orphan else .damaged }

/-- R98: the state in which the job of the entry `e`, with slot A, has ended exhausted. -/
def jobExhausted (pre post : List Entry) (e : Entry) (slot : Slot) (s : State) : State :=
  raise .orphaned (some e.segment) none (some slot.stamp)
    { withRec e.segment (givenUp (getRec s e.segment)) s with repair := withoutJob pre post s.repair }

theorem settled_exhausted {r : SegRec} (hknown : r.state ≠ .unknown) (hwrites : r.pendingWrites = 0)
    (hev : r.evidence.isSome = true) : settled { r with exhausted := true } = givenUp r := by
  cases hu : r.usable <;> simp [settled, givenUp, settledState, hknown, hwrites, hev, hu]

theorem SlotJob.exhaustJob (h : SlotJob s pre post e slot) (hstack : e.segment ∉ s.repair.stack)
    (hi : e.segment < segCount s) (hrest : OthersRest e.segment s) (hknown : (getRec s e.segment).state ≠ .unknown)
    (hwrites : (getRec s e.segment).pendingWrites = 0) (hev : (getRec s e.segment).evidence.isSome = true) :
    exhaustJob e.segment s = jobExhausted pre post e slot s := by
  let r : SegRec := { getRec s e.segment with exhausted := true }
  let u : State := raise .orphaned (some e.segment) none (some slot.stamp) (withRec e.segment r (stopPatience s))
  have hflagged : modifyRec e.segment (fun r => { r with exhausted := true }) (stopPatience s) =
      withRec e.segment r (stopPatience s) := modifyRec_eq_withRec rfl
  have hjob : SlotJob u pre post e slot := h.congr rfl rfl
  have hrec : getRec u e.segment = r := getRec_withRec_self (s := stopPatience s) hi
  have hleft : settleQuiet e.segment (Machine.dropEntry e.segment u) = jobExhausted pre post e slot s := by
    rw [hjob.leaves hstack, hrec, settled_exhausted hknown hwrites hev]
    simp [u, r, jobExhausted, withRec, raise, withoutJob, stopPatience]
  have hquiet : backfillQuiet (jobExhausted pre post e slot s) = jobExhausted pre post e slot s :=
    hrest.backfillQuiet hi rfl (by simp [backfillable, givenUp])
  rw [Machine.exhaustJob, hflagged, h.slotOf]
  exact (congrArg backfillQuiet hleft).trans hquiet

/-! ### The hand-off (R102, R103) -/

/-- R84, R102: the commit buffer with the copy of a landing slot. -/
def landed (i : Nat) (slot : Slot) : CommitBuffer where
  segment := i
  stamp := slot.stamp
  signature := slot.signature
  data := slot.data
  supplier := slot.supplier

/-- R102: the record of a copy handed off. -/
def committing (r : SegRec) : SegRec := { r with pendingWrites := r.pendingWrites + 1, state := .committing }

/-- R102: the state in which the copy of the entry `e`, in slot A, stands in the commit buffer and its write is still to
be requested. -/
def copyHanded (pre post : List Entry) (e : Entry) (slot : Slot) (s : State) : State :=
  { withRec e.segment (committing (getRec s e.segment)) s with
    repair := { withoutJob pre post s.repair with commit := some (landed e.segment slot) } }

theorem settled_committing {r : SegRec} (hknown : r.state ≠ .unknown) :
    settled { r with pendingWrites := r.pendingWrites + 1 } = committing r := by
  simp [settled, committing, settledState, hknown]

theorem SlotJob.handOff (h : SlotJob s pre post e slot) (hstack : e.segment ∉ s.repair.stack)
    (hfree : s.repair.commit = none) (hi : e.segment < segCount s) (hrest : OthersRest e.segment s)
    (hknown : (getRec s e.segment).state ≠ .unknown) :
    handOff e.segment s = requestWrite ⟨.commit, e.segment, slot.stamp⟩ (copyHanded pre post e slot s) := by
  let r : SegRec := { getRec s e.segment with pendingWrites := (getRec s e.segment).pendingWrites + 1 }
  let u : State := { s with repair.commit := some (landed e.segment slot) }
  have hcounted : modifyRec e.segment (fun r => { r with pendingWrites := r.pendingWrites + 1 }) u =
      withRec e.segment r u := modifyRec_eq_withRec rfl
  have hjob : SlotJob (withRec e.segment r u) pre post e slot := h.congr rfl rfl
  have hrec : getRec (withRec e.segment r u) e.segment = r := getRec_withRec_self (s := u) hi
  have hleft : settleQuiet e.segment (Machine.dropEntry e.segment (withRec e.segment r u)) =
      copyHanded pre post e slot s := by
    rw [hjob.leaves hstack, hrec, settled_committing hknown]
    simp [u, copyHanded, withRec, withoutJob]
  have hquiet : backfillQuiet (requestWrite ⟨.commit, e.segment, slot.stamp⟩ (copyHanded pre post e slot s)) =
      requestWrite ⟨.commit, e.segment, slot.stamp⟩ (copyHanded pre post e slot s) :=
    hrest.backfillQuiet hi (arbitrate_segs _) (by simp [backfillable, committing])
  have hhanded : Machine.handOff e.segment s = backfillQuiet (requestWrite ⟨.commit, e.segment, slot.stamp⟩
      (settleQuiet e.segment (Machine.dropEntry e.segment
        (modifyRec e.segment (fun r => { r with pendingWrites := r.pendingWrites + 1 }) u)))) := by
    simp only [Machine.handOff, h.slotOf, hfree, Option.isSome_none, Bool.false_eq_true, if_false]
    rfl
  rw [hhanded, hcounted, hleft, hquiet]

/-- R103: with the commit buffer occupied the job waits. -/
theorem SlotJob.handOff_waits (h : SlotJob s pre post e slot) (hbusy : s.repair.commit.isSome = true) :
    Machine.handOff e.segment s = { s with repair := { s.repair with cond := some .ready, patience := none } } := by
  simp only [Machine.handOff, h.slotOf, hbusy, if_true]

end Sys2Proof.Machine
end

section
/-! PROOFS. The attempts of the active job: a source that failed is marked tried, an attempt is counted, and the lowest
source is asked, or the job ends (R88, R93, R94, R98). -/

namespace Sys2Proof.Machine

/- Theorems elaborated side by side pass the memory the check allows (as in Tests/Slice0.lean). -/
set_option Elab.async false

variable {s : State} {p q : Station} {pre post : List Entry} {e d : Entry} {ev : Evidence}

/-- R93, R94: the entry of a job whose source has failed. -/
def failedOnce (p : Station) (e : Entry) : Entry :=
  { e with tried := addStation e.tried p, attempts := e.attempts + 1 }

/-- The state with another entry in the place of the active job. -/
def withJob (pre post : List Entry) (e : Entry) (s : State) : State := { s with repair.queue := pre ++ e :: post }

theorem JobAt.replaced (h : JobAt s pre post e) (hseg : d.segment = e.segment) (hact : d.state = e.state) :
    JobAt (withJob pre post d s) pre post d := h.changed rfl hseg hact

theorem JobAt.markTried (h : JobAt s pre post e) (p : Station) : markTried p e.segment s =
    withJob pre post { e with tried := addStation e.tried p } s := h.setEntry _

theorem JobAt.countsAttempt (h : JobAt s pre post e) (p : Station) :
    Machine.countAttempt e.segment (Machine.markTried p e.segment s) = withJob pre post (failedOnce p e) s := by
  have hmarked : JobAt (withJob pre post { e with tried := addStation e.tried p } s) pre post
      { e with tried := addStation e.tried p } := h.replaced rfl rfl
  rw [h.markTried]
  exact hmarked.countAttempt

theorem JobAt.atLimit (h : JobAt s pre post e) :
    (Machine.findEntry s e.segment).any (fun e => Config.attemptLimit ≤ e.attempts) = decide (4 ≤ e.attempts) := by
  rw [h.findEntry]
  rfl

/-- R88: below the fourth attempt the lowest source is asked. -/
theorem JobAt.chooseOrEnd_asks (h : JobAt s pre post e) (hfew : e.attempts < 4)
    (hev : (getRec s e.segment).evidence = some ev) (hlow : LowestSource s ev.holders e.tried none q)
    (hplace : Takes s (.request q e.segment)) : chooseOrEnd e.segment s = asked pre post e q s := by
  rw [chooseOrEnd, h.atLimit, decide_eq_false (Nat.not_le.mpr hfew)]
  exact h.chooseSource hev hlow hplace

/-- R93, R94, R98: at the fourth attempt, and with no source left, the job ends. -/
theorem JobAt.chooseOrEnd_ends (h : JobAt s pre post e) (hev : (getRec s e.segment).evidence = some ev)
    (hend : 4 ≤ e.attempts ∨ ∀ q, ¬ LowestSource s ev.holders e.tried none q) :
    chooseOrEnd e.segment s = exhaustJob e.segment s := by
  rw [chooseOrEnd, h.atLimit]
  by_cases hmany : 4 ≤ e.attempts
  · exact if_pos (decide_eq_true hmany)
  · have hnone : bestSource s e none = none := bestSource_none hev (hend.resolve_left hmany)
    rw [decide_eq_false hmany]
    simp only [Machine.chooseSource, h.activeEntry, hnone, Bool.false_eq_true, if_false]

end Sys2Proof.Machine
end

section
/-! PROOFS. A DATA chunk: the slot that wants it, the chunk at its place, and the active job whose slot it completes
(R92, R93, R102, R103). -/

namespace Sys2Proof.Machine

/- Theorems elaborated side by side pass the memory the check allows (as in Tests/Slice0.lean). -/
set_option Elab.async false

variable {s : State} {p q : Station} {i : Nat} {t : Stamp} {c : Chunk} {bytes : List Byte} {n : SlotName}
  {slot : Slot} {pre post : List Entry} {e : Entry} {ev : Evidence}

theorem exec_data {i : SegNum} (h : Hears s p s.start.station (.data i t c bytes)) (ht : s.start.top = .active) :
    exec (.data p s.start.station i t c bytes) s = .next (deliverData p i.toNat t c bytes (heard p s)) := by
  calc exec (.data p s.start.station i t c bytes) s
      = .next (receiveFrame p s.start.station (.data i t c bytes) (inActive (deliverData p i.toNat t c bytes)) s) := rfl
    _ = .next (deliverData p i.toNat t c bytes (heard p s)) := by
      rw [h.delivered _ (.inr rfl), inActive_active _ (show (heard p s).start.top = .active from ht)]

theorem Hears.chunk_length {i : SegNum} (h : Hears s p q (.data i t c bytes)) : bytes.length = 32 := by
  have hgood := h.good.1
  simp only [Frame.wellFormed, Body.wellFormed, Bool.and_eq_true, beq_iff_eq] at hgood
  obtain ⟨_, _, hlength⟩ := hgood
  exact hlength

theorem Hears.data_inTable {i : SegNum} (h : Hears s p q (.data i t c bytes)) : i.toNat < segCount s := by
  simpa [bodyInRange, segmentInRange] using h.good.2

/-! ### The slot that wants a chunk (R92) -/

theorem find_slotName {f : SlotName → Bool} (hn : f n = true) (hothers : ∀ m, m ≠ n → f m = false) :
    [SlotName.a, .b, .c].find? f = some n := by
  cases n with
  | a => simp [hn]
  | b => simp [hn, hothers .a nofun]
  | c => simp [hn, hothers .a nofun, hothers .b nofun]

theorem slotNamed_of_wants (hslot : getSlot s n = some slot) (hseg : slot.segment = i) (hstamp : slot.stamp = t)
    (hothers : ∀ n' slot', n' ≠ n → getSlot s n' = some slot' → slot'.segment ≠ i) : slotNamed s i t = some n := by
  refine find_slotName (by simp [hslot, hseg, hstamp]) fun m hm => Bool.eq_false_iff.mpr fun hwants => ?_
  obtain ⟨other, hother, hmatch⟩ := (Option.any_eq_true _ _).mp hwants
  simp only [Bool.and_eq_true, decide_eq_true_eq] at hmatch
  exact hothers m other hm hother hmatch.1

theorem slotNamed_none (h : ∀ n slot, getSlot s n = some slot → slot.segment ≠ i ∨ slot.stamp ≠ t) :
    slotNamed s i t = none := by
  refine List.find?_eq_none.mpr fun n _ hwants => ?_
  obtain ⟨slot, hslot, hmatch⟩ := (Option.any_eq_true _ _).mp hwants
  simp only [Bool.and_eq_true, decide_eq_true_eq] at hmatch
  exact (h n slot hslot).elim (· hmatch.1) (· hmatch.2)

theorem deliverData_unwanted (h : slotNamed s i t = none) : deliverData p i t c bytes s = s := by
  rw [deliverData, h]

theorem deliverData_held (hn : slotNamed s i t = some n) (hslot : getSlot s n = some slot)
    (hheld : hasChunk slot.mask c = true) : deliverData p i t c bytes s = s := by
  simp only [deliverData, hn, hslot, hheld, if_true]

theorem deliverData_new (hn : slotNamed s i t = some n) (hslot : getSlot s n = some slot)
    (hnew : hasChunk slot.mask c = false) : deliverData p i t c bytes s =
      afterChunk i (addChunk slot.mask c = allChunks) (setSlot n (some (storeChunk p c bytes slot)) s) := by
  simp only [deliverData, hn, hslot, hnew, Bool.false_eq_true, if_false]
  rfl

/-! ### The chunk at its place (R92) -/

/-- The data bytes with a chunk at its place. -/
def withChunk (data : List Byte) (c : Chunk) (bytes : List Byte) : List Byte :=
  data.take (32 * c.toNat) ++ bytes ++ data.drop (32 * c.toNat + 32)

/-- R92: a slot with a chunk stored, of a station. -/
theorem storeChunk_eq (h : bytes.length = 32) : storeChunk p c bytes slot =
    { slot with
      data := withChunk slot.data c bytes
      mask := addChunk slot.mask c
      supplier := some p
      computed :=
        if addChunk slot.mask c = allChunks then some (signatureOf slot.stamp (withChunk slot.data c bytes))
        else slot.computed } := by
  have hdata : overwrite slot.data (32 * c.toNat) bytes = withChunk slot.data c bytes := by
    rw [overwrite, h, withChunk]
  simp only [storeChunk, hdata]

/-- R92: the slot whose last chunk has come. -/
def completed (p : Station) (data : List Byte) (slot : Slot) : Slot :=
  { slot with data := data, mask := allChunks, supplier := some p, computed := some (signatureOf slot.stamp data) }

theorem storeChunk_completes (h : bytes.length = 32) (hlast : addChunk slot.mask c = allChunks) :
    storeChunk p c bytes slot = completed p (withChunk slot.data c bytes) slot := by
  rw [storeChunk_eq h, hlast, if_pos rfl]
  rfl

/-! ### The job of the slot (R92, R93) -/

theorem afterChunk_aside {complete : Bool} (h : ∀ e ∈ s.repair.queue, e.state = .active → e.segment ≠ i) :
    afterChunk i complete s = s := by
  unfold afterChunk
  split
  · rename_i e he
    obtain ⟨hmem, hactive⟩ := activeEntry_some e he
    rw [if_neg fun hjob => h e hmem hactive hjob.1]
  · rfl

/-- R92: the patience timer of the active job starts again. -/
def patient (s : State) : State := { s with repair.patience := some (patienceMs s) }

theorem afterChunk_active {complete : Bool} (he : activeEntry s = some e) (hseg : e.segment = i)
    (hcond : s.repair.cond = some .asking ∨ s.repair.cond = some .backoff) :
    afterChunk i complete s = if complete then pick (verifyJob e (patient s)) else patient s := by
  simp only [afterChunk, he]
  rw [if_pos ⟨hseg, hcond⟩]
  rfl

/-- Settles O38: the slot is found by segment and stamp (`slotNamed_of_wants`), and what follows the chunk turns on the
active job. -/
theorem dataStoresChunk : Obligations.DataStoresChunk := by
  intro s p i t c bytes h ht exec'
  have hexec : exec' = .next (deliverData p i.toNat t c bytes (heard p s)) := exec_data h ht
  refine ⟨fun hunwanted => ?_, fun n slot hslot hseg hstamp hothers => ⟨fun hheld => ?_, fun hnew => ?_⟩⟩
  · have hnone : slotNamed (heard p s) i.toNat t = none := slotNamed_none (s := heard p s) hunwanted
    rw [hexec, deliverData_unwanted hnone]
  · have hn : slotNamed (heard p s) i.toNat t = some n := slotNamed_of_wants (s := heard p s) hslot hseg hstamp hothers
    rw [hexec, deliverData_held (s := heard p s) hn hslot hheld]
  · intro data mask stored
    have hn : slotNamed (heard p s) i.toNat t = some n := slotNamed_of_wants (s := heard p s) hslot hseg hstamp hothers
    have hstored : setSlot n (some (storeChunk p c bytes slot)) (heard p s) = stored := by
      simp only [storeChunk_eq h.chunk_length, stored, ← hstamp]
      rfl
    have hafter : exec' = .next (afterChunk i.toNat (mask = allChunks) stored) := by
      rw [hexec, deliverData_new (s := heard p s) hn hslot hnew, hstored]
      rfl
    have hrepair : stored.repair.queue = s.repair.queue ∧ stored.repair.cond = s.repair.cond :=
      ⟨setSlot_queue _ n _, setSlot_cond _ n _⟩
    obtain ⟨hqueue, hjob⟩ := hrepair
    refine ⟨fun haside => ?_, fun hmore hactive hcond => ?_⟩
    · rw [hafter, afterChunk_aside (by rw [hqueue]; exact haside)]
    · obtain ⟨e, he, heseg⟩ := hactive
      have he' : activeEntry stored = some e := by rw [activeEntry, hqueue]; exact he
      have hpatience : patienceMs stored = patienceMs s := by
        rw [patienceMs, setSlot_start]
        rfl
      have hmore' : decide (mask = allChunks) = false := decide_eq_false hmore
      rw [hafter, afterChunk_active he' heseg (by rw [hjob]; exact hcond), hmore', patient, hpatience]
      rfl

/-! ### A complete slot is verified (R93, R102, R103) -/

/-- R93: the entry of a job whose copy matches. -/
def verified (e : Entry) : Entry := { e with verified := true }

theorem SlotJob.replaced {d : Entry} (h : SlotJob s pre post e slot) (hseg : d.segment = e.segment)
    (hact : d.state = e.state) (hslot : d.slot = e.slot) : SlotJob (withJob pre post d s) pre post d slot :=
  ⟨h.toJobAt.replaced hseg hact, hslot.trans h.holds, h.slot⟩

/-- R93: a matching copy is handed off. -/
theorem SlotJob.verifyJob_matches (h : SlotJob s pre post e slot) (hx : slot.computed = some slot.signature) :
    verifyJob e s = Machine.handOff e.segment (withJob pre post (verified e) (stopPatience s)) := by
  have hstopped : SlotJob (stopPatience s) pre post e slot := h.congr rfl rfl
  have hset : Machine.setEntry e.segment (fun e => { e with verified := true }) (stopPatience s) =
      withJob pre post (verified e) (stopPatience s) := hstopped.toJobAt.setEntry _
  simp only [verifyJob, hstopped.slotOf, if_pos hx, hset]

/-- R93: the chunks of a copy that does not match are discarded, and its source has failed. -/
theorem SlotJob.verifyJob_differs (h : SlotJob s pre post e slot) (hx : slot.computed ≠ some slot.signature)
    (hsource : e.source = some p) : verifyJob e s = chooseOrEnd e.segment
      (setSlot .a (some (clearChunks slot)) (withJob pre post (failedOnce p e) (stopPatience s))) := by
  have hstopped : SlotJob (stopPatience s) pre post e slot := h.congr rfl rfl
  have hfailed : SlotJob (withJob pre post (failedOnce p e) (stopPatience s)) pre post (failedOnce p e) slot :=
    hstopped.replaced rfl rfl rfl
  have hcleared : modifySlot e.segment clearChunks (withJob pre post (failedOnce p e) (stopPatience s)) =
      setSlot .a (some (clearChunks slot)) (withJob pre post (failedOnce p e) (stopPatience s)) := by
    have hfound : findEntry (withJob pre post (failedOnce p e) (stopPatience s)) e.segment = some (failedOnce p e) :=
      hfailed.toJobAt.findEntry
    simp only [modifySlot, hfound, hfailed.holds, getSlot, RepairUnit.slot, hfailed.slot]
    rfl
  simp only [verifyJob, hstopped.slotOf, if_neg hx, hsource, hstopped.toJobAt.countsAttempt, hcleared]

/-- R102: the state in which the copy of the entry `e`, in slot A, has been handed off and its write has begun. -/
def writeBegun (pre post : List Entry) (e : Entry) (slot : Slot) (s : State) : State :=
  { copyHanded pre post e slot s with
    store.op := .writing (commitWrite e.segment slot.stamp (landed e.segment slot)) false }

/-- R102: a job alone in the queue hands its matching copy off, and its write begins in the free store. -/
theorem SlotJob.verifyJob_handsOff (h : SlotJob s [] [] e slot) (hx : slot.computed = some slot.signature)
    (hfree : s.repair.commit = none) (hstore : StoreFree s.store) (hi : e.segment < segCount s)
    (hrest : NothingElse s e.segment) (hknown : (getRec s e.segment).state ≠ .unknown) :
    pick (verifyJob e s) = writeBegun [] [] e slot s := by
  let u : State := withJob [] [] (verified e) (stopPatience s)
  have hjob : SlotJob u [] [] (verified e) slot := SlotJob.replaced (s := stopPatience s) (h.congr rfl rfl) rfl rfl rfl
  have hstack : e.segment ∉ u.repair.stack := by
    show e.segment ∉ s.repair.stack
    rw [hrest.stack]
    exact List.not_mem_nil
  have hhanded : Machine.handOff e.segment u = writeBegun [] [] e slot s :=
    (hjob.handOff hstack hfree hi hrest.records hknown).trans (requestWrite_free slot.stamp hstore rfl)
  rw [h.verifyJob_matches hx, hhanded]
  exact pick_nothing (s := writeBegun [] [] e slot s) rfl hrest.stack

/-- R103: with the commit buffer occupied a matching copy waits in READY. -/
theorem SlotJob.verifyJob_waits (h : SlotJob s pre post e slot) (hx : slot.computed = some slot.signature)
    (hbusy : s.repair.commit.isSome = true) : pick (verifyJob e s) =
      { s with repair := { s.repair with
          queue := pre ++ verified e :: post, cond := some .ready, patience := none } } := by
  let u : State := withJob pre post (verified e) (stopPatience s)
  have hjob : SlotJob u pre post (verified e) slot :=
    SlotJob.replaced (s := stopPatience s) (h.congr rfl rfl) rfl rfl rfl
  let v : State := { u with repair := { u.repair with cond := some .ready, patience := none } }
  have hwaits : Machine.handOff e.segment u = v := hjob.handOff_waits hbusy
  have hagain : JobAt v pre post (verified e) := hjob.toJobAt.changed rfl rfl rfl
  rw [h.verifyJob_matches hx, hwaits, pick_active hagain.activeEntry]
  rfl

/-- R93: below the fourth attempt the lowest source is asked for a copy that was thrown away. -/
theorem SlotJob.verifyJob_asks (h : SlotJob s pre post e slot) (hx : slot.computed ≠ some slot.signature)
    (hsource : e.source = some p) (hfew : e.attempts < 3) (hev : (getRec s e.segment).evidence = some ev)
    (hlow : LowestSource s ev.holders (addStation e.tried p) none q) (hplace : Takes s (.request q e.segment)) :
    pick (verifyJob e s) = asked pre post (failedOnce p e) q (setSlot .a (some (clearChunks slot)) s) := by
  let u : State := setSlot .a (some (clearChunks slot)) (withJob pre post (failedOnce p e) (stopPatience s))
  have hjob : JobAt u pre post (failedOnce p e) := h.toJobAt.changed rfl rfl rfl
  have hasks : chooseOrEnd e.segment u = asked pre post (failedOnce p e) q u :=
    hjob.chooseOrEnd_asks (Nat.succ_lt_succ hfew) hev (hlow.congr rfl rfl) (hplace.congr rfl rfl)
  have hagain : JobAt (asked pre post (failedOnce p e) q u) pre post { failedOnce p e with source := some q } :=
    hjob.changed rfl rfl rfl
  rw [h.verifyJob_differs hx hsource, hasks, pick_active hagain.activeEntry]
  rfl

/-- R92, R93: the last chunk of the active job's slot, the only slot taken. -/
theorem SlotJob.deliverData_completes (h : SlotJob s [] [] e slot) (hseg : slot.segment = e.segment)
    (hB : s.repair.slotB = none) (hC : s.repair.slotC = none)
    (hcond : s.repair.cond = some .asking ∨ s.repair.cond = some .backoff) (hlength : bytes.length = 32)
    (hnew : hasChunk slot.mask c = false) (hlast : addChunk slot.mask c = allChunks) :
    deliverData p e.segment slot.stamp c bytes s = pick (verifyJob e
      (patient (setSlot .a (some (completed p (withChunk slot.data c bytes) slot)) s))) := by
  let full : Slot := completed p (withChunk slot.data c bytes) slot
  have hothers (n' : SlotName) (slot' : Slot) (hn : n' ≠ .a) (hs : s.repair.slot n' = some slot') :
      slot'.segment ≠ e.segment := by
    cases n' with
    | a => exact absurd rfl hn
    | b => simp [RepairUnit.slot, hB] at hs
    | c => simp [RepairUnit.slot, hC] at hs
  have hnamed : slotNamed s e.segment slot.stamp = some .a := slotNamed_of_wants h.slot hseg rfl hothers
  have hfound : activeEntry (setSlot .a (some full) s) = some e := h.toJobAt.activeEntry
  rw [deliverData_new hnamed h.slot hnew, storeChunk_completes hlength hlast,
    afterChunk_active hfound rfl hcond, if_pos (decide_eq_true hlast)]

/-- Settles O39: the chunk completes the slot (`SlotJob.deliverData_completes`), and the verified copy is handed off,
waits, or is thrown away with the attempt that brought it. -/
theorem lastChunkHandsOff : Obligations.LastChunkHandsOff := by
  intro s p i t c bytes e slot h ht hqueue hseg hactive hholds hslot hslotseg hstamp hslotB hslotC hcond hnew hlast
  subst hstamp
  let full : Slot := completed p (withChunk slot.data c bytes) slot
  let u : State := patient (setSlot .a (some full) (heard p s))
  have hi : e.segment < segCount s := by rw [hseg]; exact h.data_inTable
  have hjob : SlotJob u [] [] e full := ⟨⟨hqueue, hactive, by simp⟩, hholds, rfl⟩
  have hbefore : SlotJob (heard p s) [] [] e slot := ⟨⟨hqueue, hactive, by simp⟩, hholds, hslot⟩
  have hafter : exec (.data p s.start.station i slot.stamp c bytes) s = .next (pick (verifyJob e u)) := by
    rw [exec_data h ht, ← hseg, hbefore.deliverData_completes (hslotseg.trans hseg.symm) hslotB hslotC hcond
      h.chunk_length hnew hlast]
  refine ⟨fun hx => ⟨fun hfree hstore hrest hknown => ?_, fun hbusy => ?_⟩,
    fun hx p0 q ev hsource hfew hev hlow hplace => ?_⟩
  · rw [← hseg] at hrest hknown ⊢
    rw [hafter, hjob.verifyJob_handsOff (congrArg some hx) hfree hstore hi ⟨hrest.records, hrest.stack⟩ hknown]
    rfl
  · have hfull : full = { slot with
        data := withChunk slot.data c bytes, mask := 0xFF#8, supplier := some p, computed := some slot.signature } :=
      congrArg (fun x => { full with computed := some x }) hx
    rw [hafter, hjob.verifyJob_waits (congrArg some hx) hbusy]
    simp only [u, hfull]
    rfl
  · rw [← hseg] at hev hplace ⊢
    rw [hafter, hjob.verifyJob_asks (fun hsame => hx (Option.some.inj hsame)) hsource hfew hev (hlow.congr rfl rfl)
      ⟨hplace.active, hplace.place⟩]
    rfl

end Sys2Proof.Machine
end

section
/-! PROOFS. The patience timer runs out: the source is asked again, the next one is tried, or the job ends exhausted and
a suspended job resumes (R85, R86, R88, R89, R91, R94, R98). -/

namespace Sys2Proof.Machine

/- Theorems elaborated side by side pass the memory the check allows (as in Tests/Slice0.lean). -/
set_option Elab.async false

variable {s : State} {p q : Station} {pre post : List Entry} {e d : Entry} {ev : Evidence} {slot : Slot} {m : Nat}
  {n : SlotName}

/-! ### The timer of the active job (R94) -/

theorem JobAt.patience_backoff (h : JobAt s pre post e) (hruns : s.repair.patience = some m)
    (hcond : s.repair.cond = some .backoff) (hsource : e.source = some p) :
    exec .patienceTimerExpiry s = .next (Machine.askSource p e.segment s) := by
  have hasks : patienceExpiry s = Machine.askSource p e.segment s := by
    simp only [patienceExpiry, h.activeEntry, hruns, hcond, hsource]
  exact congrArg _ hasks

/-- R94: in ASKING the source has failed, and another is tried or the job ends. -/
theorem JobAt.patience_asking (h : JobAt s pre post e) (hruns : s.repair.patience = some m)
    (hcond : s.repair.cond = some .asking) (hsource : e.source = some p) : exec .patienceTimerExpiry s =
      .next (pick (chooseOrEnd e.segment (withJob pre post (failedOnce p e) (stopPatience s)))) := by
  have hstopped : JobAt (stopPatience s) pre post e := h.changed h.queue rfl rfl
  have hfails : patienceExpiry s = sourceSilent e (stopPatience s) := by
    simp only [patienceExpiry, h.activeEntry, hruns, hcond]
  have hsilent : sourceSilent e (stopPatience s) =
      pick (chooseOrEnd e.segment (withJob pre post (failedOnce p e) (stopPatience s))) := by
    simp only [sourceSilent, hsource, hstopped.countsAttempt]
  exact congrArg _ (hfails.trans hsilent)

/-- R94: below the fourth attempt the next source is asked. -/
theorem JobAt.patience_tries (h : JobAt s pre post e) (hruns : s.repair.patience = some m)
    (hcond : s.repair.cond = some .asking) (hsource : e.source = some p) (hfew : e.attempts < 3)
    (hev : (getRec s e.segment).evidence = some ev)
    (hlow : LowestSource s ev.holders (addStation e.tried p) none q) (hplace : Takes s (.request q e.segment)) :
    exec .patienceTimerExpiry s = .next (asked pre post (failedOnce p e) q s) := by
  let u : State := withJob pre post (failedOnce p e) (stopPatience s)
  have hjob : JobAt u pre post (failedOnce p e) := h.changed rfl rfl rfl
  have hasks : chooseOrEnd e.segment u = asked pre post (failedOnce p e) q s :=
    hjob.chooseOrEnd_asks (Nat.succ_lt_succ hfew) hev (hlow.congr rfl rfl) (hplace.congr rfl rfl)
  have hagain : JobAt (asked pre post (failedOnce p e) q s) pre post { failedOnce p e with source := some q } :=
    h.changed rfl rfl rfl
  rw [h.patience_asking hruns hcond hsource, hasks, pick_active hagain.activeEntry]

/-- R94, R98: at the fourth attempt, and with no source left, the job ends exhausted. -/
theorem SlotJob.patience_ends (h : SlotJob s pre post e slot) (hruns : s.repair.patience = some m)
    (hcond : s.repair.cond = some .asking) (hsource : e.source = some p)
    (hev : (getRec s e.segment).evidence = some ev)
    (hend : 3 ≤ e.attempts ∨ ∀ q, ¬ LowestSource s ev.holders (addStation e.tried p) none q)
    (hstack : e.segment ∉ s.repair.stack) (hi : e.segment < segCount s) (hrest : OthersRest e.segment s)
    (hknown : (getRec s e.segment).state ≠ .unknown) (hwrites : (getRec s e.segment).pendingWrites = 0) :
    exec .patienceTimerExpiry s = .next (pick (jobExhausted pre post e slot s)) := by
  let u : State := withJob pre post (failedOnce p e) (stopPatience s)
  have hjob : SlotJob u pre post (failedOnce p e) slot := ⟨h.toJobAt.changed rfl rfl rfl, h.holds, h.slot⟩
  have hends : chooseOrEnd e.segment u = Machine.exhaustJob e.segment u :=
    hjob.toJobAt.chooseOrEnd_ends hev (hend.imp Nat.succ_le_succ fun hno q hq => hno q (hq.congr rfl rfl))
  have hexhausted : Machine.exhaustJob e.segment u = jobExhausted pre post e slot s :=
    hjob.exhaustJob hstack hi hrest hknown hwrites (Option.isSome_of_eq_some hev)
  rw [h.toJobAt.patience_asking hruns hcond hsource, hends, hexhausted]

/-! ### A suspended job resumes (R85, R86, R91) -/

/-- R91: a job that resumes. -/
def resumed (d : Entry) : Entry := { d with state := .active }

/-- R86, R91: the suspended job `d`, alone in the queue, can ask the source it had. -/
structure CanResume (s : State) (d : Entry) (n : SlotName) (slot : Slot) (ev : Evidence) (q : Station) : Prop where
  queue : s.repair.queue = [d]
  suspended : d.state = .suspended
  holds : d.slot = some n
  copy : getSlot s n = some slot
  incomplete : slot.mask ≠ allChunks
  unverified : d.verified = false
  source : d.source = some q
  evidence : (getRec s d.segment).evidence = some ev
  qualifies : hasStation ev.holders q = true ∧ hasStation d.tried q = false ∧ isPresent s q = true ∧
    q ≠ s.start.station
  place : Takes s (.request q d.segment)

theorem CanResume.findEntry (h : CanResume s d n slot ev q) : findEntry s d.segment = some d := by
  simp [Machine.findEntry, h.queue]

theorem CanResume.takeUp (h : CanResume s d n slot ev q) : takeUp d.segment s = asked [] [] (resumed d) q s := by
  have hentry : EntryAt s [] [] d := ⟨h.queue, by simp⟩
  have hset : setEntry d.segment (fun e => { e with state := .active }) s = withJob [] [] (resumed d) s :=
    hentry.setEntry _
  have hjob : JobAt (withJob [] [] (resumed d) s) [] [] (resumed d) := ⟨rfl, rfl, by simp⟩
  have hslot : slotOf s d.segment = some slot := by simp only [slotOf, h.findEntry, h.holds, h.copy]
  have hqualifies : eligible s d q = true := (eligible_iff h.evidence).mpr h.qualifies
  have hasks : askSource q d.segment (withJob [] [] (resumed d) s) = asked [] [] (resumed d) q s :=
    hjob.askSource (h.place.congr rfl rfl)
  have hresume : Machine.takeUp d.segment s = resume d s := by
    simp only [Machine.takeUp, h.findEntry, h.holds]
    rfl
  rw [hresume, resume, h.unverified, hslot, h.source, hset, Option.any_some, decide_eq_false h.incomplete]
  exact (if_pos hqualifies).trans hasks

/-- R86, R91: with no active job and no waiting one, the job on the top of the stack asks its source again. -/
theorem CanResume.pick (h : CanResume s d n slot ev q) (hstack : s.repair.stack = [d.segment]) :
    pick s = asked [] [] (resumed d) q { s with repair.stack := [] } := by
  let u : State := { s with repair.stack := [] }
  have hresumes : CanResume u d n slot ev q :=
    { h with copy := h.copy, place := h.place.congr rfl rfl }
  have hidle : activeEntry s = none := by simp [activeEntry, h.queue, h.suspended]
  have hchoice : pickChoice s = some (d.segment, []) := by simp [pickChoice, firstWaiting, hstack, h.queue, h.suspended]
  have hgo : ¬ (s.start.top ≠ .active ∨ (activeEntry s).isSome = true) := by simp [h.place.active, hidle]
  have hjob : JobAt (asked [] [] (resumed d) q u) [] [] { resumed d with source := some q } := ⟨rfl, rfl, by simp⟩
  rw [Machine.pick, Config.pickFuel, pickLoop, if_neg hgo, hchoice]
  show pickLoop 2047 (Machine.takeUp d.segment u) = _
  rw [hresumes.takeUp, pickLoop_active 2047 hjob.activeEntry]

/-- Settles O41: in BACKOFF the source is asked again, in ASKING it has failed (`JobAt.patience_asking`), and a job that
ends exhausted leaves the queue empty or to the suspended one (`CanResume.pick`). -/
theorem patienceTriesOrEnds : Obligations.PatienceTriesOrEnds := by
  intro s n pre post e ev p ht hruns hqueue hactive hsource hothers hev ask
  have hjob : JobAt s pre post e := ⟨hqueue, hactive, hothers⟩
  refine ⟨fun hcond hplace => ?_, fun hcond hfew q hlow hplace => ?_, fun hcond hend slot hholds hslot hrest => ?_⟩
  · rw [hjob.patience_backoff hruns hcond hsource, hjob.askSource hplace]
    rfl
  · exact hjob.patience_tries hruns hcond hsource hfew hev hlow hplace
  · intro r hi hstate hwrites ended
    have hslotJob : SlotJob s pre post e slot := ⟨hjob, hholds, hslot⟩
    have hends (hstack : e.segment ∉ s.repair.stack) :
        exec .patienceTimerExpiry s = .next (pick (jobExhausted pre post e slot s)) :=
      hslotJob.patience_ends hruns hcond hsource hev hend hstack hi hrest (by simp [r, hstate]) hwrites
    refine ⟨fun halone hstack => ?_, fun d slotD evD q honly hsuspended hstack hholdsD hslotD hmask hunverified hsourceD
      hevD h0 hself hholder huntried hpresent hplace => ?_⟩
    · rw [hends (by simp [hstack]), pick_nothing (s := jobExhausted pre post e slot s) halone hstack]
      simp only [jobExhausted, withoutJob, halone]
      rfl
    · have hne : d.segment ≠ e.segment := (hothers d (by simp [honly])).1
      have hrec : getRec (jobExhausted pre post e slot s) d.segment = getRec s d.segment :=
        getRec_withRec_other (Ne.symm hne)
      have hresumes : CanResume (jobExhausted pre post e slot s) d .b slotD evD q := {
        queue := honly
        suspended := hsuspended
        holds := hholdsD
        copy := hslotD
        incomplete := hmask
        unverified := hunverified
        source := hsourceD
        evidence := hrec ▸ hevD
        qualifies := ⟨hholder, huntried, hpresent, hself⟩
        place := hplace.congr rfl rfl }
      have hkept : { resumed d with source := some q } = resumed d := by rw [← hsourceD]; rfl
      rw [hends (by simp [hstack, Ne.symm hne]), hresumes.pick hstack, asked, hkept]
      rfl

end Sys2Proof.Machine
end

section
/-! PROOFS. A slot write that ends with success: the readback that agrees, the record it leaves whole, and the job that
waits for the commit buffer (R9, R15, R102, R103, R105, R147, R148, R180). -/

namespace Sys2Proof.Machine

/- Theorems elaborated side by side pass the memory the check allows (as in Tests/Slice0.lean). -/
set_option Elab.async false

variable {s : State} {i : Nat} {r : SegRec} {t : Stamp} {x : Signature} {w : WriteOp} {b : CommitBuffer} {e : Entry}
  {slot : Slot} {bytes : List Byte}

/-! ### The readback (R147, R148) -/

theorem slotImage_length {data : List Byte} (h : data.length = 256) :
    (slotImage data t x).length = Config.slotBytes := by
  simp [slotImage, trailerBytes, stampBytes, bytes16, bytes32, h, Config.slotBytes]

theorem endWrite_applied (f : Option WriteFailure) (h : s.start.storeWait = false) :
    endWrite w f s = endOp (applyWrite w f s) := if_neg (by simp [h])

theorem applyWrite_commit (f : Option WriteFailure) (h : w.client = .commit) :
    applyWrite w f s = if f.isSome then commitFailed w s else commitSucceeded s := by
  unfold applyWrite
  rw [h]
  cases f <;> rfl

theorem applyWrite_publish (f : Option WriteFailure) (h : w.client = .publish) :
    applyWrite w f s = if f.isSome then publishFailed w s else publishSucceeded w s := by
  unfold applyWrite
  rw [h]
  cases f <;> rfl

theorem readback_judged (hop : s.store.op = .verifying w) (hlength : bytes.length = Config.slotBytes) :
    readback bytes s = endWrite w (if bytes = writeImage w s then none else some .verify) s := by
  simp only [readback, hop, if_pos hlength]

/-- R147, R148: the readback agrees, and the client of the write applies its success. -/
theorem exec_readback_agrees (hop : s.store.op = .verifying w) (hlength : (writeData w s).length = 256)
    (hsig : w.signature = some x) (hwait : s.start.storeWait = false) :
    exec (.readbackEnd (slotImage (writeData w s) w.stamp x)) s = .next (endOp (applyWrite w none s)) := by
  have himage : slotImage (writeData w s) w.stamp x = writeImage w s := by rw [writeImage, hsig, Option.getD_some]
  have hjudged : readback (slotImage (writeData w s) w.stamp x) s = endWrite w none s := by
    rw [readback_judged hop (slotImage_length hlength), if_pos himage]
  exact congrArg _ (hjudged.trans (endWrite_applied none hwait))

/-! ### The record of a copy written (R9, R105, R180) -/

/-- R105: the record of a copy just written, with nothing pending and no evidence. -/
def wholeRec (t : Stamp) (x : Signature) (r : SegRec) : SegRec :=
  { r with
    state := .good, usable := true, stamp := t, signature := x, evidence := none, mark := false, rounds := 0
    pendingWrites := 0, failures := 0 }

/-- R105: the write of stamp `t` is the only one pending for the record, and reaches its evidence. -/
structure LastWrite (t : Stamp) (r : SegRec) : Prop where
  known : r.state ≠ .unknown
  writes : r.pendingWrites = 1
  reaches : ∀ ev, r.evidence = some ev → ev.stamp = t ∨ newer t ev.stamp = true

theorem LastWrite.evidenceAfter (h : LastWrite t r) : evidenceAfter t r.evidence = none := by
  cases hev : r.evidence with
  | none => rfl
  | some ev =>
    have hreached : notOlder t ev.stamp = true := by
      rcases h.reaches ev hev with heq | hnewer
      · simp [notOlder, heq]
      · simp [notOlder, hnewer]
    exact if_pos hreached

theorem LastWrite.settled_writtenRec (h : LastWrite t r) : settled (writtenRec t x r) = wholeRec t x r := by
  simp [settled, writtenRec, clearMark, wholeRec, settledState, h.known, h.writes, h.evidenceAfter]

/-- R15: a record just rewritten settles without an offer. -/
theorem settle_rewritten {u : State} (hi : i < segCount s) (hsegs : u.segs = (putRec i r s).segs)
    (hnone : ∀ e ∈ u.repair.queue, e.segment ≠ i) (hcalm : settleOffers (settled r) = false) :
    settle i u = withRec i (settled r) u := by
  have hrec : getRec u i = r := (getRec_congr hsegs i).trans (getRec_putRec_self s i r hi)
  have hcount : segCount u = segCount s := by rw [segCount, hsegs, putRec_recs_length, segCount]
  rw [settle_withRec (hcount ▸ hi) hnone (by rw [hrec]; exact hcalm), hrec]

/-- R105: the state in which a commit write has left its record whole, its buffer still occupied. -/
def committed (b : CommitBuffer) (s : State) : State :=
  raise .committed (some b.segment) b.supplier (some b.stamp)
    (putRec b.segment (wholeRec b.stamp b.signature (getRec s b.segment)) s)

/-- R105: the same with the commit buffer free. -/
def committedFree (b : CommitBuffer) (s : State) : State := { committed b s with repair.commit := none }

theorem committedFree_repair : (committedFree b s).repair = { s.repair with commit := none } :=
  congrArg (fun v : RepairUnit => { v with commit := none }) (putRec_repair s _ _)

theorem committedFree_store : (committedFree b s).store = s.store := putRec_store s _ _

theorem committedFree_segCount : segCount (committedFree b s) = segCount s := segCount_putRec s _ _

theorem committedFree_getRec_self (h : b.segment < segCount s) :
    getRec (committedFree b s) b.segment = wholeRec b.stamp b.signature (getRec s b.segment) :=
  getRec_putRec_self s _ _ h

theorem committedFree_getRec_other (h : b.segment ≠ i) : getRec (committedFree b s) i = getRec s i :=
  getRec_putRec_other s _ i _ h

theorem commitSucceeded_whole (hb : s.repair.commit = some b) (hi : b.segment < segCount s)
    (hnone : ∀ e ∈ s.repair.queue, e.segment ≠ b.segment) (hlast : LastWrite b.stamp (getRec s b.segment)) :
    commitSucceeded s = readyHandOff (committedFree b s) := by
  let r := writtenRec b.stamp b.signature (getRec s b.segment)
  let u : State := raise .committed (some b.segment) b.supplier (some b.stamp) (putRec b.segment r s)
  have hwhole : settled r = wholeRec b.stamp b.signature (getRec s b.segment) := hlast.settled_writtenRec
  have hqueue : u.repair.queue = s.repair.queue := congrArg RepairUnit.queue (putRec_repair s _ _)
  have hsettles : settle b.segment u = withRec b.segment (settled r) u :=
    settle_rewritten hi rfl (by rw [hqueue]; exact hnone) (by rw [hwhole]; rfl)
  have hrewritten : withRec b.segment (settled r) (putRec b.segment r s) = putRec b.segment (settled r) s :=
    withRec_putRec hi contributed_settled
  have hleft : withRec b.segment (settled r) u =
      raise .committed (some b.segment) b.supplier (some b.stamp) (putRec b.segment (settled r) s) :=
    congrArg (raise .committed (some b.segment) b.supplier (some b.stamp)) hrewritten
  have hsucceeds : commitSucceeded s = freeCommit (settle b.segment u) := by
    simp only [commitSucceeded, hb]
    rfl
  rw [hsucceeds, hsettles, hleft, hwhole]
  rfl

/-! ### The commit buffer is free (R103, R105) -/

theorem readyHandOff_none (h : s.repair.cond ≠ some .ready) : readyHandOff s = s := by
  unfold readyHandOff
  split
  · exact if_neg h
  · rfl

/-- R102, R103: the job that waits, alone in the queue, hands its copy off, and its write begins when the one that has
just ended leaves the store. -/
theorem SlotJob.readyHandOff {v : Store} (h : SlotJob s [] [] e slot) (hready : s.repair.cond = some .ready)
    (hfree : s.repair.commit = none) (hv : s.store = v) (hbusy : v.op ≠ .idle) (hpending : NonePending v)
    (hstack : s.repair.stack = []) (hi : e.segment < segCount s) (hrest : OthersRest e.segment s)
    (hknown : (getRec s e.segment).state ≠ .unknown) : endOp (readyHandOff s) =
      { copyHanded [] [] e slot s with store := { v with
        op := .writing (commitWrite e.segment slot.stamp (landed e.segment slot)) false, computed := none } } := by
  subst hv
  let u : State := { copyHanded [] [] e slot s with store.writes := [⟨.commit, e.segment, slot.stamp⟩] }
  obtain ⟨hnone, _⟩ := hpending
  have hhanded : Machine.handOff e.segment s = u := by
    have hrequested := requestWrite_busy (s := copyHanded [] [] e slot s) ⟨.commit, e.segment, slot.stamp⟩ hbusy
    rw [show (copyHanded [] [] e slot s).store.writes = [] from hnone] at hrequested
    exact (h.handOff (by simp [hstack]) hfree hi hrest hknown).trans hrequested
  have hready' : Machine.readyHandOff s = u := by
    simp only [Machine.readyHandOff, h.toJobAt.activeEntry, if_pos hready, hhanded]
    exact pick_nothing rfl hstack
  rw [hready', endOp_begins (s := u) rfl rfl, ← hnone]
  rfl

/-! ### Success -/

/-- R105: the commit write whose readback agrees. -/
theorem exec_commit_agrees (hop : s.store.op = .verifying w) (hclient : w.client = .commit)
    (hsig : w.signature = some b.signature) (hb : s.repair.commit = some b) (hstamp : b.stamp = w.stamp)
    (hlength : b.data.length = 256) (hwait : s.start.storeWait = false) (hi : b.segment < segCount s)
    (hnone : ∀ e ∈ s.repair.queue, e.segment ≠ b.segment) (hlast : LastWrite b.stamp (getRec s b.segment)) :
    exec (.readbackEnd (slotImage b.data b.stamp b.signature)) s =
      .next (endOp (readyHandOff (committedFree b s))) := by
  have hdata : writeData w s = b.data := by
    simp only [writeData, hclient, hb, Option.map_some, Option.getD_some]
  have hagrees := exec_readback_agrees hop (by rw [hdata]; exact hlength) hsig hwait
  have happly : applyWrite w none s = commitSucceeded s := applyWrite_commit none hclient
  rw [hdata, ← hstamp] at hagrees
  rw [hagrees, happly, commitSucceeded_whole hb hi hnone hlast]

theorem committedFree_rests (hcond : s.repair.cond ≠ some .ready) (hpending : NonePending s.store) :
    endOp (readyHandOff (committedFree b s)) =
      { committedFree b s with store := { s.store with op := .idle, computed := none } } := by
  have hstays : readyHandOff (committedFree b s) = committedFree b s :=
    readyHandOff_none (by rw [committedFree_repair]; exact hcond)
  rw [hstays, endOp_rest committedFree_store hpending]

/-- R102, R103, R105: the copy that waits in READY takes the place of the one written. -/
theorem committedFree_handsOff (hready : s.repair.cond = some .ready) (hqueue : s.repair.queue = [e])
    (hactive : e.state = .active) (hholds : e.slot = some .a) (hslot : s.repair.slotA = some slot)
    (hbusy : s.store.op ≠ .idle) (hpending : NonePending s.store) (hstack : s.repair.stack = [])
    (hb : b.segment < segCount s) (hi : e.segment < segCount s) (hne : b.segment ≠ e.segment)
    (hrest : ∀ j, j < segCount s → j ≠ b.segment → j ≠ e.segment → backfillable (getRec s j) = false)
    (hknown : (getRec s e.segment).state ≠ .unknown) : endOp (readyHandOff (committedFree b s)) =
      { putRec e.segment (committing (getRec s e.segment)) (committed b s) with
        repair := { withoutJob [] [] s.repair with commit := some (landed e.segment slot) }
        store := { s.store with
          op := .writing (commitWrite e.segment slot.stamp (landed e.segment slot)) false, computed := none } } := by
  have hrec : getRec (committedFree b s) e.segment = getRec s e.segment := committedFree_getRec_other hne
  have hjob : SlotJob (committedFree b s) [] [] e slot := by
    refine ⟨⟨?_, hactive, by simp⟩, hholds, ?_⟩
    · rw [committedFree_repair]; exact hqueue
    · rw [committedFree_repair]; exact hslot
  have hothers : OthersRest e.segment (committedFree b s) := by
    intro j hj hje
    by_cases hjb : j = b.segment
    · rw [hjb, committedFree_getRec_self hb]
      rfl
    · rw [committedFree_getRec_other (Ne.symm hjb)]
      exact hrest j (committedFree_segCount ▸ hj) hjb hje
  have hbegins := hjob.readyHandOff (by rw [committedFree_repair]; exact hready) (by rw [committedFree_repair])
    committedFree_store hbusy hpending (by rw [committedFree_repair]; exact hstack)
    (by rw [committedFree_segCount]; exact hi) hothers (by rw [hrec]; exact hknown)
  have hrec' : getRec (committed b s) e.segment = getRec s e.segment := hrec
  have hcounted : putRec e.segment (committing (getRec s e.segment)) (committed b s) =
      withRec e.segment (committing (getRec s e.segment)) (committed b s) :=
    putRec_eq_withRec (by rw [hrec']; exact contributed_congr (by simp [committing, hknown]) rfl rfl)
  rw [hbegins, copyHanded, hrec, committedFree_repair, hcounted]
  rfl

/-- R180: the state in which a publish write has left its record whole. -/
def published (w : WriteOp) (x : Signature) (s : State) : State :=
  { putRec w.segment (wholeRec w.stamp x { getRec s w.segment with exhausted := false }) s with host.locked := false }

theorem publishSucceeded_whole (hsig : w.signature = some x) (hi : w.segment < segCount s)
    (hnone : ∀ e ∈ s.repair.queue, e.segment ≠ w.segment) (hlast : LastWrite w.stamp (getRec s w.segment)) :
    publishSucceeded w s =
      raise .published (some w.segment) none (some w.stamp) (offer (.news w.segment) (published w x s)) := by
  let r : SegRec := { writtenRec w.stamp x (getRec s w.segment) with exhausted := false }
  let u : State := { putRec w.segment r s with host.locked := false }
  have hlast' : LastWrite w.stamp { getRec s w.segment with exhausted := false } :=
    ⟨hlast.known, hlast.writes, hlast.reaches⟩
  have hwhole : settled r = wholeRec w.stamp x { getRec s w.segment with exhausted := false } :=
    hlast'.settled_writtenRec
  have hqueue : u.repair.queue = s.repair.queue := congrArg RepairUnit.queue (putRec_repair s _ _)
  have hsettles : settle w.segment u = withRec w.segment (settled r) u :=
    settle_rewritten hi rfl (by rw [hqueue]; exact hnone) (by rw [hwhole]; rfl)
  have hrewritten : withRec w.segment (settled r) (putRec w.segment r s) = putRec w.segment (settled r) s :=
    withRec_putRec hi contributed_settled
  have hleft : withRec w.segment (settled r) u = { putRec w.segment (settled r) s with host.locked := false } :=
    congrArg (fun v : State => { v with host.locked := false }) hrewritten
  rw [published, ← hwhole, ← hleft, ← hsettles]
  simp only [publishSucceeded, hsig, Option.getD_some]
  rfl

/-- R180: the publish write whose readback agrees. -/
theorem exec_publish_agrees (hop : s.store.op = .verifying w) (hclient : w.client = .publish)
    (hsig : w.signature = some x) (hlength : s.host.staging.length = 256) (hwait : s.start.storeWait = false)
    (hi : w.segment < segCount s) (hnone : ∀ e ∈ s.repair.queue, e.segment ≠ w.segment)
    (hlast : LastWrite w.stamp (getRec s w.segment)) :
    exec (.readbackEnd (slotImage s.host.staging w.stamp x)) s = .next (endOp
      (raise .published (some w.segment) none (some w.stamp) (offer (.news w.segment) (published w x s)))) := by
  have hdata : writeData w s = s.host.staging := by simp only [writeData, hclient]
  have hagrees := exec_readback_agrees hop (by rw [hdata]; exact hlength) hsig hwait
  have happly : applyWrite w none s = publishSucceeded w s := applyWrite_publish none hclient
  rw [hdata] at hagrees
  rw [hagrees, happly, publishSucceeded_whole hsig hi hnone hlast]

/-- R35: outside ACTIVE an offer is dropped. -/
theorem offer_outside {id : FrameId} (ht : s.start.top ≠ .active) (hdata : isData id = false) : offer id s = s := by
  have hraw : offerRaw id none s = (s, none) := by
    rw [offerRaw, if_pos ht, notice, hdata]
    rfl
  rw [offer, offerWith, hraw]

theorem published_start : (published w x s).start = s.start := putRec_start s _ _

theorem published_line : (published w x s).line = s.line := putRec_line s _ _

theorem published_store : (published w x s).store = s.store := putRec_store s _ _

/-- Settles O58: the record is whole (`exec_commit_agrees`, `exec_publish_agrees`), and what waits for the commit buffer
or the outbox follows. -/
theorem writeSuccessSetsRecord : Obligations.WriteSuccessSetsRecord := by
  refine ⟨?_, ?_⟩
  · rintro s ⟨client, segment, stamp, sig, timer⟩ b x hop hclient hsig hb hseg hstamp hx hlength hwait hpending hi hnone
    obtain rfl : client = .commit := hclient
    obtain rfl : sig = some x := hsig
    obtain rfl : b.segment = segment := hseg
    obtain rfl : b.stamp = stamp := hstamp
    obtain rfl : b.signature = x := hx
    intro r after written hknown hwrites hreaches
    have hafter : after = .next (endOp (readyHandOff (committedFree b s))) :=
      exec_commit_agrees hop rfl rfl hb rfl hlength hwait hi hnone ⟨hknown, hwrites, hreaches⟩
    refine ⟨fun hcond => ?_, fun e slot hready hqueue hactive hholds hslot hstack hie hothers => ?_⟩
    · rw [hafter, committedFree_rests hcond hpending]
      rfl
    · intro q hknownE
      have hne : b.segment ≠ e.segment := Ne.symm (hnone e (by simp [hqueue]))
      rw [hafter, committedFree_handsOff hready hqueue hactive hholds hslot (by simp [hop]) hpending hstack hi hie hne
        hothers hknownE]
      rfl
  · intro s w x hop hclient hsig hlength hwait hpending hi hnone r written hknown hwrites hreaches
    have hafter := exec_publish_agrees hop hclient hsig hlength hwait hi hnone ⟨hknown, hwrites, hreaches⟩
    have hrests (u : State) (hu : u.store = s.store) : endOp (raise .published (some w.segment) none (some w.stamp) u) =
        raise .published (some w.segment) none (some w.stamp)
          { u with store := { s.store with op := .idle, computed := none } } :=
      endOp_rest (s := raise .published (some w.segment) none (some w.stamp) u) hu hpending
    refine ⟨fun ht => ?_, fun hplace => ?_⟩
    · have hdropped : offer (.news w.segment) (published w x s) = published w x s :=
        offer_outside (by rw [published_start, ht]; simp) rfl
      rw [hafter, hdropped, hrests _ published_store]
      rfl
    · have htaken := offer_takes (s := published w x s) (hplace.congr published_line published_start)
      have hbox : (published w x s).line.outbox = s.line.outbox := by rw [published_line]
      rw [hbox] at htaken
      have hstore : (offer (.news w.segment) (published w x s)).store = s.store := by rw [htaken]; exact published_store
      rw [hafter, hrests _ hstore, htaken]
      rfl

end Sys2Proof.Machine
end

section
/-! PROOFS. A slot write that ends with a failure: the happenings that end it so, and the copy that is lost (R7, R10,
R106, R146 to R148, R181). -/

namespace Sys2Proof.Machine

/- Theorems elaborated side by side pass the memory the check allows (as in Tests/Slice0.lean). -/
set_option Elab.async false

variable {s : State} {i : Nat} {r : SegRec} {w : WriteOp}

/-! ### The ways to fail (R146, R147) -/

theorem endWrite_failed (f : WriteFailure) (hwait : s.start.storeWait = false) :
    Host.Outcome.next (endWrite w (some f) s) = (.next (endOp (applyWrite w (some f) s)) : Result) :=
  congrArg _ (endWrite_applied (some f) hwait)

theorem statusRead_absent (h : s.store.op = .writing w false) : statusRead 0xFF s = endWrite w (some .error) s := by
  simp only [statusRead, h]
  exact if_pos rfl

theorem statusRead_polling_fails {v : Byte} (h : s.store.op = .polling w)
    (hv : v = 0xFF ∨ (v.getLsbD 5 = true ∧ v.getLsbD 0 = false)) : statusRead v s = endWrite w (some .error) s := by
  simp only [statusRead, h, judgePolling]
  rcases hv with rfl | ⟨herror, hidle⟩
  · exact if_pos rfl
  · have herror' : statusError v = true := herror
    have hidle' : statusBusy v = false := hidle
    simp only [herror', hidle', if_true, Bool.false_eq_true, if_false, ite_self]

theorem statusRead_recovered {v : Byte} {f : WriteFailure} (h : s.store.op = .recovering w f)
    (hv : v.getLsbD 0 = false) : statusRead v s = endWrite w (some f) s := by
  have hidle : statusBusy v = false := hv
  simp only [statusRead, h, hidle, Bool.false_eq_true, if_false]

theorem pollTimeout_writing (h : s.store.op = .writing w false) (ht : w.timer.isSome = true) :
    pollTimeout s = endWrite w (some .timeout) s := by
  simp only [pollTimeout, h, pollTimed, ht, if_true]

theorem pollTimeout_recovering {f : WriteFailure} (h : s.store.op = .recovering w f) (ht : w.timer.isSome = true) :
    pollTimeout s = endWrite w (some f) s := by
  simp only [pollTimeout, h, pollTimed, ht, if_true]

/-- R146, R147: the happenings that end a slot write with a failure. -/
def WriteFails (w : WriteOp) (c : Instr) (s : State) : Prop :=
  s.store.op = .writing w false ∧ (c = .storeStatusReadEnd 0xFF ∨ c = .storePollTimeout ∧ w.timer.isSome = true) ∨
  s.store.op = .polling w ∧ (∃ v : Byte, c = .storeStatusReadEnd v ∧
    (v = 0xFF ∨ (v.getLsbD 5 = true ∧ v.getLsbD 0 = false))) ∨
  (∃ f, s.store.op = .recovering w f) ∧
    (c = .storePollTimeout ∧ w.timer.isSome = true ∨ ∃ v : Byte, c = .storeStatusReadEnd v ∧ v.getLsbD 0 = false) ∨
  s.store.op = .verifying w ∧ (∃ bytes, c = .readbackEnd bytes ∧ bytes.length = 264 ∧ bytes ≠ writeImage w s)

/-- R148: the client of the write applies its failure. -/
theorem WriteFails.exec {c : Instr} (h : WriteFails w c s) (hwait : s.start.storeWait = false) :
    ∃ f, exec c s = .next (endOp (applyWrite w (some f) s)) := by
  rcases h with ⟨hop, rfl | ⟨rfl, htimer⟩⟩ | ⟨hop, v, rfl, hv⟩ | ⟨⟨f, hop⟩, ⟨rfl, htimer⟩ | ⟨v, rfl, hv⟩⟩ |
    ⟨hop, bytes, rfl, hlength, hdiffers⟩
  · exact ⟨.error, (congrArg _ (statusRead_absent hop)).trans (endWrite_failed .error hwait)⟩
  · exact ⟨.timeout, (congrArg _ (pollTimeout_writing hop htimer)).trans (endWrite_failed .timeout hwait)⟩
  · exact ⟨.error, (congrArg _ (statusRead_polling_fails hop hv)).trans (endWrite_failed .error hwait)⟩
  · exact ⟨f, (congrArg _ (pollTimeout_recovering hop htimer)).trans (endWrite_failed f hwait)⟩
  · exact ⟨f, (congrArg _ (statusRead_recovered hop hv)).trans (endWrite_failed f hwait)⟩
  · have hjudged : readback bytes s = endWrite w (some .verify) s := by
      rw [readback_judged hop hlength, if_neg hdiffers]
    exact ⟨.verify, (congrArg _ hjudged).trans (endWrite_failed .verify hwait)⟩

/-! ### The copy lost (R7, R10, R106, R181) -/

/-- R106: the record of a copy lost with the write that failed, the only one pending. -/
def lostRec (r : SegRec) : SegRec :=
  { r with
    state := .damaged, usable := false, mark := if r.usable then false else r.mark
    rounds := if r.usable then 0 else r.rounds
    pendingWrites := 0, failures := min 2 (r.failures + 1)
    exhausted := if 1 ≤ r.failures then true else r.exhausted }

theorem failedRec_exhausted : (failedRec r).exhausted = if 1 ≤ r.failures then true else r.exhausted := by
  have hlimit : min Config.failureLimit (r.failures + 1) = Config.failureLimit ↔ 1 ≤ r.failures := by
    have : Config.failureLimit = 2 := rfl
    omega
  simp only [failedRec, hlimit]

/-- R7: a record whose copy has become unusable, or was so before. -/
def withoutCopy (r : SegRec) : SegRec := if r.usable then clearMark { r with usable := false } else r

theorem settled_withoutCopy (hknown : r.state ≠ .unknown) (hwrites : r.pendingWrites = 1) :
    settled (withoutCopy (failedRec r)) = lostRec r := by
  have hfailed : failedRec r = { r with
      pendingWrites := 0, failures := min 2 (r.failures + 1)
      exhausted := if 1 ≤ r.failures then true else r.exhausted } := by
    rw [← failedRec_exhausted, failedRec, hwrites]
    rfl
  rw [hfailed]
  cases hu : r.usable <;> simp [settled, withoutCopy, clearMark, lostRec, settledState, hknown, hu]

theorem freeDispute_absent (h : ∀ d ∈ s.disputes, d.segment ≠ i) : freeDispute i s = s := by
  have hall : s.disputes.filter (fun d => d.segment ≠ i) = s.disputes :=
    List.filter_eq_self.mpr fun d hd => by simpa using h d hd
  rw [freeDispute, hall]

/-- R7, R11: a copy without a dispute becomes unusable, and its record settles. -/
theorem copyUnusable_undisputed (husable : (getRec s i).usable = true) (hdisputes : ∀ d ∈ s.disputes, d.segment ≠ i) :
    copyUnusable i s = settle i (modifyRec i (fun r => clearMark { r with usable := false }) s) := by
  have hfound : findDispute s i = none := List.find?_eq_none.mpr fun d hd => by simpa using hdisputes d hd
  simp only [copyUnusable, husable, hfound, freeDispute_absent hdisputes, takeUpIf, Option.isSome_none, Bool.not_true,
    Bool.false_eq_true, if_false]

/-- R106: with no entry of its own and no evidence, a record that has just been rewritten loses its copy. -/
theorem loseCopy_rewritten (hi : i < segCount s) (hsame : contributed r = contributed (getRec s i))
    (hnone : ∀ e ∈ s.repair.queue, e.segment ≠ i) (hdisputes : ∀ d ∈ s.disputes, d.segment ≠ i)
    (hcalm : settleOffers (settled (withoutCopy r)) = false) :
    loseCopy i (withRec i r s) = putRec i (settled (withoutCopy r)) s := by
  have hrec : getRec (withRec i r s) i = r := getRec_withRec_self hi
  have hloses : loseCopy i (withRec i r s) = settle i (putRec i (withoutCopy r) s) := by
    cases hu : r.usable with
    | false =>
      have hkept : withoutCopy r = r := if_neg (by simp [hu])
      rw [loseCopy, hrec, hu, hkept, putRec_eq_withRec hsame]
      exact if_neg Bool.false_ne_true
    | true =>
      have hcleared : clearMark { r with usable := false } = withoutCopy r := (if_pos hu).symm
      rw [loseCopy, hrec, if_pos hu, copyUnusable_undisputed (s := withRec i r s) (by rw [hrec]; exact hu) hdisputes,
        modifyRec, hrec, hcleared, putRec_withRec hi hsame]
  rw [hloses, settle_rewritten hi rfl (by rw [putRec_repair]; exact hnone) hcalm, withRec_putRec hi contributed_settled]

/-- R106: the record of a failed write, the only one pending, with no evidence. -/
structure LosesCopy (s : State) (i : Nat) : Prop where
  inTable : i < segCount s
  alone : ∀ e ∈ s.repair.queue, e.segment ≠ i
  undisputed : ∀ d ∈ s.disputes, d.segment ≠ i
  known : (getRec s i).state ≠ .unknown
  writes : (getRec s i).pendingWrites = 1
  evidence : (getRec s i).evidence = none

theorem LosesCopy.loses (h : LosesCopy s i) :
    loseCopy i (modifyRec i failedRec s) = putRec i (lostRec (getRec s i)) s := by
  have hlost : settled (withoutCopy (failedRec (getRec s i))) = lostRec (getRec s i) :=
    settled_withoutCopy h.known h.writes
  have hcalm : settleOffers (lostRec (getRec s i)) = false := by simp [settleOffers, lostRec, h.evidence]
  have hfailed : modifyRec i failedRec s = withRec i (failedRec (getRec s i)) s := modifyRec_eq_withRec rfl
  rw [hfailed, loseCopy_rewritten (r := failedRec (getRec s i)) h.inTable rfl h.alone h.undisputed
    (by rw [hlost]; exact hcalm), hlost]

theorem changeDigest_locked (k : Nat) (delta : Signature) (l : Bool) :
    changeDigest k delta { s with host.locked := l } = { changeDigest k delta s with host.locked := l } := by
  unfold changeDigest
  by_cases hsame : delta = 0
  · rw [if_pos hsame, if_pos hsame]
  · rw [if_neg hsame, if_neg hsame]

theorem putRec_locked (l : Bool) :
    putRec i r { s with host.locked := l } = { putRec i r s with host.locked := l } := by
  by_cases hi : i < segCount s
  · rw [putRec_eq i r s hi, ← changeDigest_locked]
    exact putRec_eq i r _ hi
  · rw [show putRec i r s = s from if_neg hi]
    exact if_neg hi

theorem commitFailed_loses (h : LosesCopy s w.segment) (hcond : s.repair.cond ≠ some .ready) : commitFailed w s =
    raise .damaged (some w.segment) none (some w.stamp)
      { putRec w.segment (lostRec (getRec s w.segment)) s with repair.commit := none } := by
  rw [commitFailed, h.loses, freeCommit]
  refine readyHandOff_none ?_
  show (putRec w.segment (lostRec (getRec s w.segment)) s).repair.cond ≠ some .ready
  rw [putRec_repair]
  exact hcond

theorem publishFailed_loses (h : LosesCopy s w.segment) : publishFailed w s =
    raise .publishFailed (some w.segment) none (some w.stamp)
      { putRec w.segment (lostRec (getRec s w.segment)) s with host.locked := false } := by
  let u : State := { s with host.locked := false }
  have hu : LosesCopy u w.segment := ⟨h.inTable, h.alone, h.undisputed, h.known, h.writes, h.evidence⟩
  have hunlocked : modifyRec w.segment failedRec u = { modifyRec w.segment failedRec s with host.locked := false } :=
    putRec_locked false
  rw [publishFailed, ← putRec_locked, ← hunlocked]
  exact congrArg (raise .publishFailed (some w.segment) none (some w.stamp)) hu.loses

/-- Settles O59: whichever happening ends the write with a failure (`WriteFails.exec`), its client counts it and loses
the copy (`LosesCopy.loses`). -/
theorem writeFailureLosesCopy : Obligations.WriteFailureLosesCopy := by
  intro s w c hwait hpending hi hcond hnone hdisputes hfails r failed hknown hwrites hev
  have hloses : LosesCopy s w.segment := ⟨hi, hnone, hdisputes, hknown, hwrites, hev⟩
  obtain ⟨f, hafter⟩ := WriteFails.exec hfails hwait
  have hstore : (putRec w.segment (lostRec r) s).store = s.store := putRec_store s _ _
  refine ⟨fun hclient => ?_, fun hclient => ?_⟩
  · have happly : applyWrite w (some f) s = commitFailed w s := applyWrite_commit (some f) hclient
    rw [hafter, happly, commitFailed_loses hloses hcond]
    exact congrArg _ (endOp_rest (v := s.store) hstore hpending)
  · have happly : applyWrite w (some f) s = publishFailed w s := applyWrite_publish (some f) hclient
    rw [hafter, happly, publishFailed_loses hloses]
    exact congrArg _ (endOp_rest (v := s.store) hstore hpending)

end Sys2Proof.Machine
end

section
/-! PROOFS. A REQUEST as it is taken (R110, R111, R116): the record's standing, the entries it meets, and the head that
is taken back into service. -/

namespace Sys2Proof.Machine

/- Theorems elaborated side by side pass the memory the check allows (as in Tests/Slice0.lean). -/
set_option Elab.async false

variable {s : State} {p : Station} {i : Nat} {t : Stamp} {m : ChunkMask} {e : ServeEntry} {pre post : List ServeEntry}

/-! ### The standing of the record (R19, R110) -/

theorem servable_of_serves {r : SegRec} (h : serves r t = true) : Servable r t := by
  simp only [serves, Bool.and_eq_true, decide_eq_true_eq] at h
  obtain ⟨hholds, rfl⟩ := h
  by_cases hdisputed : r.state = .disputed
  · rw [standing, if_pos hdisputed] at hholds
    cases hholds
  · rw [standing, if_neg hdisputed, ite_eq_left_iff] at hholds
    have hcopy := not_imp_comm.mp hholds nofun
    simp only [Bool.and_eq_true, bne_iff_ne, Bool.or_eq_true, decide_eq_true_eq] at hcopy
    obtain ⟨⟨husable, hnull⟩, hstate⟩ := hcopy
    refine ⟨hnull, rfl, husable, ?_, hdisputed, ?_⟩ <;>
      · intro hother
        rw [hother] at hstate
        simp at hstate

theorem serves_iff {r : SegRec} : serves r t = true ↔ Servable r t := ⟨servable_of_serves, serves_servable⟩

/-! ### The queue that a REQUEST leaves -/

/-- R108: no entry of the list is for this requester and segment. -/
def NoEntry (p : Station) (i : Nat) (l : List ServeEntry) : Prop := ∀ e ∈ l, e.requester = p → e.segment ≠ i

theorem NoEntry.isEntryOf (h : NoEntry p i pre) (he : e ∈ pre) : isEntryOf p i e = false := by
  simpa [Machine.isEntryOf] using h e he

theorem NoEntry.any (h : NoEntry p i pre) : pre.any (Machine.isEntryOf p i) = false :=
  List.any_eq_false.mpr fun _ he => by simp [h.isEntryOf he]

/-- R108: the entry `e` of requester `p` for segment `i`, in its place in the queue, is the only one. -/
structure ServeEntryAt (s : State) (p : Station) (i : Nat) (pre post : List ServeEntry) (e : ServeEntry) : Prop where
  queue : s.serve.queue = pre ++ e :: post
  requester : e.requester = p
  segment : e.segment = i
  others : NoEntry p i (pre ++ post)

theorem ServeEntryAt.isEntryOf (h : ServeEntryAt s p i pre post e) : isEntryOf p i e = true := by
  simp [Machine.isEntryOf, h.requester, h.segment]

theorem ServeEntryAt.any (h : ServeEntryAt s p i pre post e) : s.serve.queue.any (Machine.isEntryOf p i) = true :=
  List.any_eq_true.mpr ⟨e, by simp [h.queue], h.isEntryOf⟩

/-- R110: the entry alone is changed. -/
theorem ServeEntryAt.map (h : ServeEntryAt s p i pre post e) (f : ServeEntry → ServeEntry) :
    s.serve.queue.map (fun d => if Machine.isEntryOf p i d then f d else d) = pre ++ f e :: post := by
  have hsame (l : List ServeEntry) (hl : ∀ d ∈ l, d ∈ pre ++ post) :
      l.map (fun d => if Machine.isEntryOf p i d then f d else d) = l :=
    (List.map_congr_left (g := id) fun d hd => if_neg (by simp [h.others.isEntryOf (hl d hd)])).trans (List.map_id l)
  rw [h.queue, List.map_append, List.map_cons, hsame pre fun d hd => List.mem_append_left post hd,
    hsame post fun d hd => List.mem_append_right pre hd, if_pos h.isEntryOf]

/-- R110: the chunks are merged for the same stamp, and replaced for another. -/
theorem joinRequest_eq (t : Stamp) (m : ChunkMask) (e : ServeEntry) : joinRequest t m e =
    { e with stamp := t, remaining := if e.stamp = t then e.remaining ||| m else m } := by
  unfold joinRequest
  split
  · rename_i hsame
    rw [hsame]
  · rfl

theorem joinRequest_remaining_ne_zero (hm : m ≠ 0) : (joinRequest t m e).remaining ≠ 0 := by
  rw [joinRequest_eq]
  split
  · exact fun h => hm (BitVec.or_eq_zero_iff.mp h).2
  · exact hm

/-- R111, R113: a queue whose head is the same, or has chunks to send, finds the Serve Unit as occupied as before. -/
theorem Occupied.withQueue {u : ServeUnit} {queue : List ServeEntry} (h : Occupied u)
    (hhead : ∀ e ∈ queue.head?, e ∈ u.queue.head? ∨ e.remaining ≠ 0) : Occupied { u with queue := queue } := by
  rcases h with hread | hwaiting | ⟨hsend, hcount, hremaining⟩
  · exact .inl hread
  · exact .inr (.inl hwaiting)
  · exact .inr (.inr ⟨hsend, hcount, fun e he => (hhead e he).elim (hremaining e) id⟩)

theorem head?_replaced {d : ServeEntry} (h : d ∈ (pre ++ e :: post).head?) {e' : ServeEntry} :
    d ∈ (pre ++ e' :: post).head? ∨ d = e := by
  cases pre with
  | nil => exact .inr (Option.some.inj h).symm
  | cons => exact .inl h

/-! ### The cases of R110 -/

theorem takeRequest_unservable (h : serves (getRec s i) t = false) :
    takeRequest p i t m s = offer (.nohave p i) s := by
  simp only [takeRequest, h, Bool.not_false, if_true]

theorem takeRequest_full (h : serves (getRec s i) t = true) (hnew : NoEntry p i s.serve.queue)
    (hfull : s.serve.queue.length = 4) : takeRequest p i t m s = offer (.busy p i) s := by
  have hplace : ¬ s.serve.queue.length < Config.serveCapacity := by rw [hfull]; decide
  simp only [takeRequest, h, hnew.any, hplace, Bool.not_true, Bool.false_eq_true, if_false]

/-- R110: the state in which a new entry has joined as the youngest. -/
def requestQueued (e : ServeEntry) (s : State) : State :=
  { s with serve := { s.serve with queue := s.serve.queue ++ [e] } }

theorem takeRequest_new (h : serves (getRec s i) t = true) (hnew : NoEntry p i s.serve.queue)
    (hplace : s.serve.queue.length < 4) :
    takeRequest p i t m s = serveWork (requestQueued ⟨p, i, t, m⟩ s) := by
  have hplace' : s.serve.queue.length < Config.serveCapacity := hplace
  simp only [takeRequest, h, hnew.any, hplace', Bool.not_true, Bool.false_eq_true, if_false, if_true]
  rfl

theorem takeRequest_joins (h : serves (getRec s i) t = true) (he : ServeEntryAt s p i pre post e) :
    takeRequest p i t m s = joinEntry p i t m s := by
  simp only [takeRequest, h, he.any, Bool.not_true, Bool.false_eq_true, if_false, if_true]

/-! ### What the Serve Unit makes of it (R111, R116) -/

/-- R110: behind a head that is in service or waits for a read to end, a new entry waits. -/
theorem serveWork_queued (h : Occupied s.serve) (he : e.remaining ≠ 0) :
    serveWork (requestQueued e s) = requestQueued e s := by
  refine serveWork_rest (serveStep_occupied (h.withQueue fun d hd => ?_))
  cases hq : s.serve.queue with
  | nil =>
    rw [hq] at hd
    cases hd
    exact .inr he
  | cons head rest =>
    rw [hq] at hd
    exact .inl hd

/-- R110: the state in which the entry in its place has become `e`. -/
def entryChanged (pre post : List ServeEntry) (e : ServeEntry) (s : State) : State :=
  { s with serve := { s.serve with queue := pre ++ e :: post } }

theorem joinEntry_stays (he : ServeEntryAt s p i pre post e) (hm : m ≠ 0) (h : Occupied s.serve)
    (hhead : s.serve.phase = .send → pre = [] → e.stamp = t) :
    joinEntry p i t m s = entryChanged pre post (joinRequest t m e) s := by
  have hstays : (decide (s.serve.phase = .send) &&
      s.serve.queue.head?.any fun d => isEntryOf p i d && d.stamp != t) = false := by
    rw [Bool.eq_false_iff, Ne, Bool.and_eq_true, decide_eq_true_eq, Option.any_eq_true, he.queue]
    rintro ⟨hsend, d, hd, hreplaced⟩
    rw [Bool.and_eq_true, bne_iff_ne] at hreplaced
    cases pre with
    | nil => exact hreplaced.2 (Option.some.inj hd ▸ hhead hsend rfl)
    | cons head rest =>
      cases hd
      rw [he.others.isEntryOf (List.mem_cons_self ..)] at hreplaced
      cases hreplaced.1
  have hrest : serveStep (entryChanged pre post (joinRequest t m e) s) = none := by
    refine serveStep_occupied (h.withQueue fun d hd => ?_)
    rw [he.queue]
    refine (head?_replaced hd).imp_right ?_
    rintro rfl
    exact joinRequest_remaining_ne_zero hm
  simp only [joinEntry, hstays, he.map]
  exact serveWork_rest hrest

/-- R116: the state in which the head in SEND asks for another stamp and waits again. -/
def headReplaced (post : List ServeEntry) (e : ServeEntry) (s : State) : State :=
  { s with serve := { s.serve with queue := e :: post, phase := .waiting, outstanding := 0 } }

theorem joinEntry_replacesHead (he : ServeEntryAt s p i [] post e) (hsend : s.serve.phase = .send) (ht : e.stamp ≠ t) :
    joinEntry p i t m s = serveWork (headReplaced post (joinRequest t m e) s) := by
  have hleaves : (decide (s.serve.phase = .send) &&
      s.serve.queue.head?.any fun d => isEntryOf p i d && d.stamp != t) = true := by
    simp [he.queue, hsend, he.isEntryOf, ht]
  simp only [joinEntry, hleaves, he.map]
  rfl

theorem exec_request {i : SegNum} (h : Hears s p s.start.station (.request i t m)) (ht : s.start.top = .active) :
    exec (.request p s.start.station i t m) s = .next (takeRequest p i.toNat t m (heard p s)) := by
  calc exec (.request p s.start.station i t m) s
      = .next (receiveFrame p s.start.station (.request i t m) (inActive (takeRequest p i.toNat t m)) s) := rfl
    _ = .next (takeRequest p i.toNat t m (heard p s)) := by
      rw [h.delivered _ (.inr rfl), inActive_active _ (show (heard p s).start.top = .active from ht)]

/-- R31: a REQUEST asks for one chunk at least. -/
theorem Hears.request_mask {q : Station} {i : SegNum} (h : Hears s p q (.request i t m)) : m ≠ 0 := by
  have hwf := h.good.1
  simp only [Frame.wellFormed, Body.wellFormed, Bool.and_eq_true, bne_iff_ne] at hwf
  exact hwf.2.2

/-- Settles O35: the cases of `takeRequest`, and what the Serve Unit then does: nothing (`Occupied`), or its head is
taken into service (`serveWork_takesHead`). -/
theorem requestByTable : Obligations.RequestByTable := by
  intro s p i t m h ht exec' u boxed servable fresh asked
  have hexec : exec' = .next (takeRequest p i.toNat t m u) := exec_request h ht
  have hm := h.request_mask
  have hserves : servable → serves (getRec u i.toNat) t = true := serves_servable
  refine ⟨fun hunservable htakes => ?_, fun hservable hfull hnew htakes => ?_,
    fun hservable hempty hphase hreading hstore => ?_, fun hservable hoccupied hplace hnew => ?_,
    fun pre post e hservable hqueue hp hi hothers => ?_⟩
  · have hrefused : serves (getRec u i.toNat) t = false :=
      Bool.eq_false_iff.mpr fun hs => hunservable (serves_iff.mp hs)
    rw [hexec, takeRequest_unservable hrefused, offer_takes (takes_heard htakes)]
    rfl
  · rw [hexec, takeRequest_full (hserves hservable) hnew hfull, offer_takes (takes_heard htakes)]
    rfl
  · have hqueue : (requestQueued fresh u).serve.queue = fresh :: [] := congrArg (· ++ [fresh]) hempty
    rw [hexec, takeRequest_new (hserves hservable) (by simp [NoEntry, u, heard, hempty]) (by simp [u, heard, hempty]),
      serveWork_takesHead hqueue hphase hreading ht (hserves hservable),
      requestServeRead_free (s := { requestQueued fresh u with serve.phase := .read }) _ hstore]
    exact congrArg (fun queue => Host.Outcome.next { u with
      serve := { s.serve with queue := queue, phase := .read, reading := true }
      store := { s.store with op := .reading .serve i.toNat } }) hqueue
  · rw [hexec, takeRequest_new (hserves hservable) hnew hplace, serveWork_queued (s := u) hoccupied hm]
    rfl
  · have hentry : ServeEntryAt u p i.toNat pre post e := ⟨hqueue, hp, hi, hothers⟩
    have hasked : joinRequest t m e = asked e := joinRequest_eq t m e
    have hjoins := takeRequest_joins (m := m) (hserves hservable) hentry
    refine ⟨fun hoccupied hhead => ?_, fun hsend hpre ht' hreading => ?_⟩
    · rw [hexec, hjoins, joinEntry_stays hentry hm hoccupied hhead, hasked]
      rfl
    · subst hpre
      have htaken := serveWork_takesHead (s := headReplaced post (asked e) u) rfl rfl hreading ht
        (show serves (getRec u e.segment) t = true from hi ▸ hserves hservable)
      have hsegment : (asked e).segment = i.toNat := hi
      rw [hsegment] at htaken
      have hagain : exec' = .next (requestServeRead i.toNat
          { headReplaced post (asked e) u with serve.phase := .read }) := by
        rw [hexec, hjoins, joinEntry_replacesHead hentry hsend ht', hasked, htaken]
      refine ⟨fun hstore => ?_, fun hbusy => ?_⟩
      · rw [hagain, requestServeRead_free (s := { headReplaced post (asked e) u with serve.phase := .read }) _ hstore]
        rfl
      · rw [hagain, requestServeRead_busy (s := { headReplaced post (asked e) u with serve.phase := .read }) _ hbusy]
        rfl

end Sys2Proof.Machine
end

section
/-! PROOFS. The end of a serve read (R111 to R113, R144): the chunks of a copy that matches, the head that is refused,
the copy found damaged (R7, R11), and the next head taken into service as the store becomes free (R149). -/

namespace Sys2Proof.Machine

/- Theorems elaborated side by side pass the memory the check allows (as in Tests/Slice0.lean). -/
set_option Elab.async false

variable {s : State} {i : Nat} {r : SegRec} {t : Stamp} {x y : Signature} {c d : Chunk} {bytes data : List Byte}
  {head : ServeEntry} {rest : List ServeEntry} {result : SlotResult}

/-! ### The read and its client (R144) -/

theorem exec_serveReadEnd (hop : s.store.op = .reading .serve i) (hwait : s.start.storeWait = false)
    (hlength : bytes.length = 264) : exec (.slotReadEnd bytes) s =
      .next (endOp (serveReadEnd i (classSlot bytes) (bytes.take 256) (fillTransfer bytes s))) := by
  have hread : slotRead bytes s = endOp (handRead .serve i (fillTransfer bytes s)) := by
    simp only [slotRead, hop, if_pos (show bytes.length = Config.slotBytes from hlength), hwait, Bool.false_eq_true,
      if_false]
  exact congrArg _ hread

/-- R112: the read for the head in READ. -/
theorem serveReadEnd_inService (hq : s.serve.queue = head :: rest) (hp : s.serve.phase = .read) :
    serveReadEnd i result data s =
      serveWork (serveReadForHead head result data { s with serve.reading := false }) := by
  unfold serveReadEnd
  dsimp only
  split
  · rename_i hq' _
    cases hq.symm.trans hq'
    rfl
  · rename_i hother
    exact (hother head rest hq hp).elim

/-- R112: the read whose head is gone. -/
theorem serveReadEnd_leftOver (hp : s.serve.phase = .waiting) : serveReadEnd i result data s =
    serveWork (serveReadWithoutEntry i result { s with serve.reading := false }) := by
  unfold serveReadEnd
  dsimp only
  split
  · rename_i hp'
    cases hp.symm.trans hp'
  · rfl

/-! ### What follows when the operation ends (R111, R149) -/

theorem endOp_serveWork_empty (hq : s.serve.queue = []) (hpending : NonePending s.store) :
    endOp (serveWork s) = { s with store := { s.store with op := .idle, computed := none } } := by
  rw [serveWork_rest (serveStep_empty hq)]
  exact endOp_rest rfl hpending

/-- R111, R149: a waiting head that self can serve is taken into service, and its read begins as the operation in
progress ends. -/
theorem endOp_serveWork_next (hq : s.serve.queue = head :: rest) (hp : s.serve.phase = .waiting)
    (hr : s.serve.reading = false) (ht : s.start.top = .active) (hs : Servable (getRec s head.segment) head.stamp)
    (hbusy : s.store.op ≠ .idle) (hpending : NonePending s.store) : endOp (serveWork s) = { s with
      serve := { s.serve with phase := .read, reading := true }
      store := { s.store with op := .reading .serve head.segment, computed := none } } := by
  obtain ⟨hwrites, hserve, hhost, hcensus⟩ := hpending
  rw [serveWork_takesHead hq hp hr ht (serves_servable hs),
    requestServeRead_busy (s := { s with serve.phase := .read }) _ hbusy]
  simp [endOp, arbitrate, hwrites, hserve]

/-! ### A copy that matches (R112, R113) -/

/-- R112: the head in SEND, with the copy read in the serve buffer and the chunks `out` outstanding. -/
def sendingCopy (head : ServeEntry) (data : List Byte) (out : ChunkMask) (s : State) : State :=
  { s with serve := { s.serve with
      phase := .send, outstanding := out
      buffer := some { segment := head.segment, stamp := head.stamp, data := data } } }

theorem serveReadForHead_matches :
    serveReadForHead head (.written head.stamp x x) data s = sendingCopy head data 0 s := by
  simp only [serveReadForHead, ne_eq, not_true, if_false]
  rfl

theorem addChunk_zero (c : Chunk) : addChunk 0 c = oneChunk c := BitVec.zero_or

theorem chunkCount_oneChunk (c : Chunk) : chunkCount (oneChunk c) = 1 := by
  revert c
  decide

/-- R113: with every remaining chunk outstanding the head waits for one to end. -/
theorem serveStep_allOutstanding (hq : s.serve.queue = head :: rest) (hp : s.serve.phase = .send)
    (hr : head.remaining ≠ 0) (hnone : nextChunk head.remaining s.serve.outstanding = none) : serveStep s = none := by
  simp only [serveStep, hq, hp, if_neg hr, hnone, Option.map_none, ite_self]

/-- R113: of a copy just read, the lowest chunk is offered first. -/
theorem serveWork_offersFirst (hq : s.serve.queue = head :: rest) (ht : s.start.top = .active)
    (hc : nextChunk head.remaining 0 = some c) (hroom : s.line.outbox.length < Config.outboxCapacity) :
    serveWork (sendingCopy head data 0 s) = serveRun 511 none { sendingCopy head data (oneChunk c) s with
      line.outbox := boxWith (.data head.requester head.segment c) s.line.outbox } := by
  have hpaced := serveStep_paced (s := sendingCopy head data 0 s) hq rfl (by decide : chunkCount 0 < 2) hc ht hroom
  rw [serveWork, Config.serveFuel, serveRun_step 511 hpaced]
  exact congrArg (fun out => serveRun 511 none { sendingCopy head data out s with
    line.outbox := boxWith (.data head.requester head.segment c) s.line.outbox }) (addChunk_zero c)

/-- R113: the two lowest chunks are offered. -/
theorem serveWork_offersTwo (hq : s.serve.queue = head :: rest) (ht : s.start.top = .active)
    (hc : nextChunk head.remaining 0 = some c) (hd : nextChunk head.remaining (oneChunk c) = some d)
    (hroom : s.line.outbox.length ≤ 10) :
    serveWork (sendingCopy head data 0 s) = { sendingCopy head data (oneChunk c ||| oneChunk d) s with
      line.outbox := boxWith (.data head.requester head.segment d)
        (boxWith (.data head.requester head.segment c) s.line.outbox) } := by
  have hfirst : s.line.outbox.length < Config.outboxCapacity := Nat.lt_of_le_of_lt hroom (by decide)
  have hsecond : (boxWith (.data head.requester head.segment c) s.line.outbox).length < Config.outboxCapacity :=
    Nat.lt_of_le_of_lt ((boxWith_length_le hfirst).trans (Nat.succ_le_succ hroom)) (by decide)
  obtain ⟨hremaining, hother⟩ := nextChunk_some hd
  have htwo : chunkCount (oneChunk c ||| oneChunk d) = 2 := by
    have hadded : chunkCount (oneChunk c ||| oneChunk d) = chunkCount (oneChunk c) + 1 := chunkCount_addChunk hother
    rw [hadded, chunkCount_oneChunk]
  have hpaced := serveStep_paced (s := { sendingCopy head data (oneChunk c) s with
    line.outbox := boxWith (.data head.requester head.segment c) s.line.outbox }) hq rfl
    ((chunkCount_oneChunk c).trans_lt (by decide)) hd ht hsecond
  rw [serveWork_offersFirst hq ht hc hfirst, serveRun_step 510 hpaced]
  exact serveRun_rest 510 (serveStep_full hq rfl (ne_zero_of_hasChunk hremaining) htwo)

/-- R113: the one chunk there is is offered. -/
theorem serveWork_offersOne (hq : s.serve.queue = head :: rest) (ht : s.start.top = .active)
    (hc : nextChunk head.remaining 0 = some c) (hnone : nextChunk head.remaining (oneChunk c) = none)
    (hroom : s.line.outbox.length ≤ 11) :
    serveWork (sendingCopy head data 0 s) = { sendingCopy head data (oneChunk c) s with
      line.outbox := boxWith (.data head.requester head.segment c) s.line.outbox } := by
  rw [serveWork_offersFirst hq ht hc (Nat.lt_of_le_of_lt hroom (by decide))]
  exact serveRun_rest 511
    (serveStep_allOutstanding hq rfl (ne_zero_of_hasChunk (nextChunk_some hc).1) hnone)

/-! ### A copy found damaged (R7, R11, R112) -/

/-- R7, R11: the record of a GOOD copy that is found damaged. -/
def foundDamaged (r : SegRec) : SegRec := { r with usable := false, mark := false, rounds := 0, state := .damaged }

/-- R112: the record of segment `i` is GOOD with a copy to lose, and nothing else turns on the segment. -/
structure GoodAlone (s : State) (i : Nat) : Prop where
  inTable : i < segCount s
  usable : (getRec s i).usable = true
  good : (getRec s i).state = .good
  writes : (getRec s i).pendingWrites = 0
  evidence : (getRec s i).evidence = none
  alone : ∀ e ∈ s.repair.queue, e.segment ≠ i
  undisputed : ∀ d ∈ s.disputes, d.segment ≠ i

theorem settled_foundDamaged (hgood : r.state = .good) (hwrites : r.pendingWrites = 0) :
    settled (clearMark { r with usable := false }) = foundDamaged r := by
  simp [settled, settledState, clearMark, foundDamaged, hgood, hwrites]

/-- R112: the state in which the copy of segment `i` is lost, and DAMAGED is raised. -/
def copyLost (i : Nat) (s : State) : State :=
  raise .damaged (some i) none (some (getRec s i).stamp) (putRec i (foundDamaged (getRec s i)) s)

theorem copyLost_line : (copyLost i s).line = s.line := putRec_line s _ _

theorem copyLost_start : (copyLost i s).start = s.start := putRec_start s _ _

theorem GoodAlone.signatureFailure (h : GoodAlone s i) : signatureFailure i s = copyLost i s := by
  let lost := clearMark { getRec s i with usable := false }
  have hsettled : settled lost = foundDamaged (getRec s i) := settled_foundDamaged h.good h.writes
  have hcalm : settleOffers (settled lost) = false := by
    rw [hsettled]
    simp [settleOffers, foundDamaged, h.evidence]
  have hsettles : settle i (putRec i lost s) = putRec i (foundDamaged (getRec s i)) s := by
    rw [settle_rewritten h.inTable rfl (by rw [putRec_repair]; exact h.alone) hcalm,
      withRec_putRec h.inTable contributed_settled, hsettled]
  rw [Machine.signatureFailure, if_pos h.usable, copyUnusable_undisputed h.usable h.undisputed]
  exact congrArg (raise .damaged (some i) none (some (getRec s i).stamp)) hsettles

theorem changeDigest_serve_store (k : Nat) (delta : Signature) (v : ServeUnit) (w : Store) :
    changeDigest k delta { s with serve := v, store := w } =
      { changeDigest k delta s with serve := v, store := w } := by
  unfold changeDigest
  by_cases hsame : delta = 0
  · rw [if_pos hsame, if_pos hsame]
  · rw [if_neg hsame, if_neg hsame]

theorem putRec_serve_store (v : ServeUnit) (w : Store) :
    putRec i r { s with serve := v, store := w } = { putRec i r s with serve := v, store := w } := by
  by_cases hi : i < segCount s
  · rw [putRec_eq i r s hi, ← changeDigest_serve_store]
    exact putRec_eq i r _ hi
  · rw [show putRec i r s = s from if_neg hi]
    exact if_neg hi

/-- The loss of the copy concerns neither the Serve Unit nor the store. -/
theorem copyLost_serve_store (v : ServeUnit) (w : Store) :
    copyLost i { s with serve := v, store := w } = { copyLost i s with serve := v, store := w } :=
  congrArg (raise .damaged (some i) none (some (getRec s i).stamp)) (putRec_serve_store v w)

/-! ### A head that is refused (R112, R115) -/

/-- R112: the slot has no copy of the stamp the head asks for, and bears no failure. -/
def OtherCopy (head : ServeEntry) (result : SlotResult) : Prop :=
  result = .vacant ∨ ∃ t x y, result = .written t x y ∧ t ≠ head.stamp

/-- R112: the slot is damaged, or its copy of the stamp the head asks for fails its signature. -/
def FailsHead (head : ServeEntry) (result : SlotResult) : Prop :=
  result = .damaged ∨ ∃ x y, result = .written head.stamp x y ∧ y ≠ x

theorem serveReadForHead_otherCopy (h : OtherCopy head result) :
    serveReadForHead head result data s = refuseHead head s := by
  rcases h with rfl | ⟨t, x, y, rfl, ht⟩
  · rfl
  · exact if_pos ht

theorem serveReadForHead_fails (h : FailsHead head result) :
    serveReadForHead head result data s = refuseHead head (signatureFailure head.segment s) := by
  rcases h with rfl | ⟨x, y, rfl, hxy⟩
  · rfl
  · exact (if_neg (not_not_intro rfl)).trans (if_pos hxy)

/-- R112, R115: the state in which the head has been answered NOHAVE and has left. -/
def headRefused (head : ServeEntry) (rest : List ServeEntry) (s : State) : State :=
  { s with
    line.outbox := boxWith (.nohave head.requester head.segment) s.line.outbox
    serve := { s.serve with queue := rest, phase := .waiting, outstanding := 0 } }

theorem refuseHead_takes (hq : s.serve.queue = head :: rest) (h : Takes s (.nohave head.requester head.segment)) :
    refuseHead head s = headRefused head rest s := by
  rw [refuseHead, offer_takes h]
  simp only [leaveHead, hq]
  rfl

/-! ### A read whose head is gone, and the whole (R112, R144) -/

theorem serveReadWithoutEntry_sound
    (h : result = .vacant ∨ ∃ t x y, result = .written t x y ∧ (t = (getRec s i).stamp → y = x)) :
    serveReadWithoutEntry i result s = s := by
  rcases h with rfl | ⟨t, x, y, rfl, hsound⟩
  · rfl
  · exact if_neg fun ⟨ht, hxy⟩ => hxy (hsound ht)

/-- R144: the state in which the bytes of a serve read stand in the transfer buffer, and it is outstanding no more. -/
def serveReadDone (bytes : List Byte) (s : State) : State := { fillTransfer bytes s with serve.reading := false }

/-- Settles O36: the read is handed to the Serve Unit (`serveReadEnd_inService`, `serveReadEnd_leftOver`), which offers
the chunks of the copy, refuses the head, or takes the next (`endOp_serveWork_next`). -/
theorem serveReadSendsChunks : Obligations.ServeReadSendsChunks := by
  intro s bytes i hop hwait hpending hlength ht after ended
  let u := serveReadDone bytes s
  have hread : after = _ := exec_serveReadEnd hop hwait hlength
  have hbusy : u.store.op ≠ .idle := fun hidle => StoreOp.noConfusion (hop.symm.trans hidle)
  refine ⟨?_, fun hphase hsound => ?_⟩
  · rintro head rest hq hphase rfl
    have hfor : after = .next (endOp (serveWork (serveReadForHead head (classSlot bytes) (bytes.take 256) u))) := by
      rw [hread, serveReadEnd_inService (s := fillTransfer bytes s) hq hphase]
      rfl
    refine ⟨fun x c hclass hc => ?_, fun htakes => ⟨fun hother => ?_, ?_⟩⟩
    · have hsends : after = .next (endOp (serveWork (sendingCopy head (bytes.take 256) 0 u))) := by
        rw [hfor, hclass, serveReadForHead_matches]
      refine ⟨fun d hd hroom => ?_, fun hnone hroom => ?_⟩
      · rw [hsends, serveWork_offersTwo (s := u) hq ht hc hd hroom]
        exact congrArg _ (endOp_rest (v := u.store) rfl hpending)
      · rw [hsends, serveWork_offersOne (s := u) hq ht hc hnone hroom]
        exact congrArg _ (endOp_rest (v := u.store) rfl hpending)
    · have hrefused : after = .next (endOp (serveWork (headRefused head rest u))) := by
        rw [hfor, serveReadForHead_otherCopy hother,
          refuseHead_takes (s := u) hq ⟨htakes.active, htakes.place⟩]
      refine ⟨fun hempty => ?_, fun next others hnext hservable => ?_⟩
      · rw [hrefused, endOp_serveWork_empty (s := headRefused head rest u) hempty hpending]
        rfl
      · rw [hrefused, endOp_serveWork_next (s := headRefused head rest u) hnext rfl rfl ht hservable hbusy hpending]
        rfl
    · intro hfails hempty r hi husable hgood hwrites hev hnone hdisputes
      have halone : GoodAlone u head.segment := ⟨hi, husable, hgood, hwrites, hev, hnone, hdisputes⟩
      let lost : State := { copyLost head.segment s with serve := u.serve, store := u.store }
      have hlost : signatureFailure head.segment u = lost :=
        halone.signatureFailure.trans (copyLost_serve_store (s := s) u.serve u.store)
      have hrefused : after = .next (endOp (serveWork (headRefused head rest lost))) := by
        rw [hfor, serveReadForHead_fails hfails, hlost,
          refuseHead_takes (s := lost) hq (htakes.congr copyLost_line copyLost_start)]
      have hbox : lost.line.outbox = s.line.outbox := congrArg Line.outbox copyLost_line
      rw [hrefused, endOp_serveWork_empty (s := headRefused head rest lost) hempty hpending, headRefused, hbox]
      rfl
  · have hrests : after = .next (endOp (serveWork u)) := by
      have hsame : serveReadWithoutEntry i (classSlot bytes) u = u := serveReadWithoutEntry_sound hsound
      rw [hread, serveReadEnd_leftOver (s := fillTransfer bytes s) hphase]
      exact congrArg (fun v => Host.Outcome.next (endOp (serveWork v))) hsame
    refine ⟨fun hempty => ?_, fun next others hnext hservable => ?_⟩
    · rw [hrests, endOp_serveWork_empty (s := u) hempty hpending]
      rfl
    · rw [hrests, endOp_serveWork_next (s := u) hnext hphase rfl ht hservable hbusy hpending]
      rfl

end Sys2Proof.Machine
end

section
/-! PROOFS. The dispute table: an entry in its place, the signature that wins a vote, and the disputes that wait for an
entry (R120, R121, R123, R128). -/

namespace Sys2Proof.Machine

/- Theorems elaborated side by side pass the memory the check allows (as in Tests/Slice0.lean). -/
set_option Elab.async false

variable {s : State} {i : Nat} {w : Signature} {n : Nat} {d : Dispute} {pre post : List Dispute}
  {votes : List (Station × Signature)}

/-! ### An entry in its place (R120) -/

/-- A record that is not UNKNOWN stands in the table. -/
theorem inTable_of_known (h : (getRec s i).state ≠ .unknown) : i < segCount s := by
  by_contra hi
  exact h (congrArg SegRec.state (getRec_eq s i hi))

theorem findDispute_absent (h : ∀ d ∈ s.disputes, d.segment ≠ i) : findDispute s i = none :=
  List.find?_eq_none.mpr fun d hd => by simpa using h d hd

/-- The entry `d` of segment `i` in its place in the dispute table, the only one for the segment. -/
structure DisputeAt (s : State) (i : Nat) (pre post : List Dispute) (d : Dispute) : Prop where
  table : s.disputes = pre ++ d :: post
  segment : d.segment = i
  others : ∀ e ∈ pre ++ post, e.segment ≠ i

theorem DisputeAt.findDispute (h : DisputeAt s i pre post d) : findDispute s i = some d := by
  have hnone : pre.find? (fun e => e.segment = i) = none :=
    List.find?_eq_none.mpr fun e he => by simpa using h.others e (List.mem_append_left post he)
  simp [Machine.findDispute, h.table, List.find?_append, hnone, h.segment]

theorem DisputeAt.setDispute (h : DisputeAt s i pre post d) (f : Dispute → Dispute) :
    setDispute i f s = { s with disputes := pre ++ f d :: post } := by
  have hkept {l : List Dispute} (hl : ∀ e ∈ l, e.segment ≠ i) :
      l.map (fun e => if e.segment = i then f e else e) = l :=
    (List.map_congr_left fun e he => if_neg (hl e he)).trans (List.map_id' l)
  rw [Machine.setDispute, h.table, List.map_append, List.map_cons,
    hkept fun e he => h.others e (List.mem_append_left post he),
    hkept fun e he => h.others e (List.mem_append_right pre he), if_pos h.segment]

theorem DisputeAt.freeDispute (h : DisputeAt s i pre post d) :
    freeDispute i s = { s with disputes := pre ++ post } := by
  have hall : (pre ++ post).filter (fun e => e.segment ≠ i) = pre ++ post :=
    List.filter_eq_self.mpr fun e he => by simpa using h.others e he
  rw [Machine.freeDispute, h.table, List.filter_append, List.filter_cons_of_neg (by simp [h.segment]),
    ← List.filter_append, hall]

/-- R120: tables that differ in the entry of one segment hold the same entries for the others. -/
theorem DisputeAt.findDispute_other {u : State} {e : Dispute} {j : Nat} (h : DisputeAt s i pre post d)
    (hu : DisputeAt u i pre post e) (hji : j ≠ i) : Machine.findDispute s j = Machine.findDispute u j := by
  rw [← findDispute_freed (s := s) hji, ← findDispute_freed (s := u) hji, h.freeDispute, hu.freeDispute]
  rfl

/-! ### The vote (R128) -/

theorem winner_none (h : ∀ b ∈ votes, (ballotsFor b.2 votes).length < n) : winner n votes = none :=
  Option.map_eq_none_iff.mpr (List.find?_eq_none.mpr fun b hb => by simpa using h b hb)

/-- R128: the one signature with the ballots it needs wins, wherever its ballots stand. -/
theorem winner_only (hw : ∃ b ∈ votes, b.2 = w) (hmany : n ≤ (ballotsFor w votes).length)
    (hfew : ∀ b ∈ votes, b.2 ≠ w → (ballotsFor b.2 votes).length < n) : winner n votes = some w := by
  unfold winner
  cases hfound : votes.find? (fun b => n ≤ (ballotsFor b.2 votes).length) with
  | none =>
    obtain ⟨b, hb, rfl⟩ := hw
    exact absurd hmany (by simpa using List.find?_eq_none.mp hfound b hb)
  | some b =>
    have hreaches : n ≤ (ballotsFor b.2 votes).length := by simpa using List.find?_some hfound
    have hsame : b.2 = w := by
      by_contra hne
      exact absurd hreaches (Nat.not_le.mpr (hfew b (List.mem_of_find?_eq_some hfound) hne))
    exact congrArg some hsame

theorem evaluate_waits (hd : findDispute s i = some d) (h : winner (threshold s) d.ballots = none) :
    evaluate i s = s := by
  simp only [evaluate, hd, h]

theorem evaluate_keeps (hd : findDispute s i = some d) (h : winner (threshold s) d.ballots = some w)
    (hown : w = (getRec s i).signature) : evaluate i s = takeUpDisputes (keepDispute d s) := by
  simp only [evaluate, hd, h, if_pos hown]

theorem evaluate_loses (hd : findDispute s i = some d) (h : winner (threshold s) d.ballots = some w)
    (hother : w ≠ (getRec s i).signature) : evaluate i s = loseDispute d w s := by
  simp only [evaluate, hd, h, if_neg hother]

/-! ### The disputes that wait (R123) -/

theorem takeUpDisputes_rest (h : NoneWaiting s) : takeUpDisputes s = s := takeUpIf_noneWaiting true h

theorem waitsForEntry_congr {u : State} (hrec : getRec u i = getRec s i)
    (hfound : findDispute u i = findDispute s i) : waitsForEntry u i = waitsForEntry s i := by
  rw [waitsForEntry, waitsForEntry, hrec, hfound]

end Sys2Proof.Machine
end

section
/-! PROOFS. A report of another signature at the own stamp opens a dispute or leaves it waiting, and POLL and BALLOT
bodies without an open entry are answered or ignored (R121, R122, R124 to R126). -/

namespace Sys2Proof.Machine

/- Theorems elaborated side by side pass the memory the check allows (as in Tests/Slice0.lean). -/
set_option Elab.async false

variable {s : State} {p q : Station} {i : Nat} {t : Stamp} {x y : Signature} {d : Dispute}

/-! ### Ballots of two stations (R121) -/

theorem setBallot_single (h : q ≠ p) : setBallot p x [(q, y)] =
    if p.toNat < q.toNat then [(p, x), (q, y)] else [(q, y), (p, x)] := by
  simp [setBallot, h]

/-- R121: a ballot cast twice is the ballot cast once. -/
theorem setBallot_again (votes : List (Station × Signature)) :
    setBallot p x (setBallot p x votes) = setBallot p x votes := by
  induction votes with
  | nil => simp [setBallot]
  | cons b rest ih =>
    obtain ⟨q, y⟩ := b
    by_cases hq : q = p
    · simp [setBallot, hq]
    · by_cases hlt : p.toNat < q.toNat
      · simp [setBallot, hq, hlt]
      · simp [setBallot, hq, hlt, ih]

/-- R128: two ballots for two signatures decide nothing while two of one are needed. -/
theorem winner_two {n : Nat} (hxy : x ≠ y) (hpq : q ≠ p) (hn : 2 ≤ n) :
    winner n (setBallot p x [(q, y)]) = none := by
  have hone : 1 < n := hn
  rw [setBallot_single hpq]
  split
  · exact winner_none (by simp [ballotsFor, hxy, hxy.symm, hone])
  · exact winner_none (by simp [ballotsFor, hxy, hxy.symm, hone])

/-! ### A dispute opened or left waiting (R122, R123) -/

/-- R122, R123: the record of a dispute that is open or waits. -/
def disputedRec (r : SegRec) : SegRec := { r with mark := true, rounds := 0, state := .disputed }

/-- R123: the state in which segment `i` is in dispute and has no entry yet. -/
def leftWaiting (i : Nat) (s : State) : State := withRec i (disputedRec (getRec s i)) s

theorem markDisputed_known (h : (getRec s i).state ≠ .unknown) : markDisputed i s = leftWaiting i s :=
  modifyRec_eq_withRec (contributed_congr (by simp [h]) rfl rfl)

/-- R122: the entry of a dispute that a ballot of station `p` for `x` opens. -/
def openEntry (p : Station) (i : Nat) (x : Signature) (s : State) : Dispute where
  segment := i
  stamp := (getRec s i).stamp
  ballots := setBallot p x [ownBallot i s]
  round := 1
  deadline := roundMs s

/-- R122: the state in which station `p` has opened the dispute of segment `i` with a ballot for `x`. -/
def opened (p : Station) (i : Nat) (x : Signature) (s : State) : State :=
  raise .disputeOpened (some i) (some p) (some (getRec s i).stamp)
    { leftWaiting i s with
      disputes := s.disputes ++ [openEntry p i x s]
      line.outbox := boxWith (.poll i) s.line.outbox }

theorem openEntry_eq (h : p ≠ s.start.station) : openEntry p i x s = {
    segment := i, stamp := (getRec s i).stamp
    ballots :=
      if p.toNat < s.start.station.toNat then [(p, x), (s.start.station, (getRec s i).signature)]
      else [(s.start.station, (getRec s i).signature), (p, x)]
    round := 1, deadline := 3 * beaconMs s } :=
  congrArg (fun votes => Dispute.mk i (getRec s i).stamp votes 1 (3 * beaconMs s)) (setBallot_single h.symm)

theorem opened_disputeAt (h : ∀ d ∈ s.disputes, d.segment ≠ i) :
    DisputeAt (opened p i x s) i s.disputes [] (openEntry p i x s) :=
  ⟨rfl, rfl, by simpa using h⟩

/-- R60, R122: what a report must say, and the record it must meet, to be a mismatch. -/
structure Mismatch (s : State) (p : Station) (i : Nat) (t : Stamp) (x : Signature) : Prop where
  active : s.start.top = .active
  other : p ≠ s.start.station
  stampSet : t ≠ nullStamp
  good : (getRec s i).state = .good
  usable : (getRec s i).usable = true
  stamp : (getRec s i).stamp = t
  signature : (getRec s i).signature ≠ x
  undisputed : ∀ d ∈ s.disputes, d.segment ≠ i

theorem Mismatch.found (h : Mismatch s p i t x) : reportMismatches (getRec s i) t x = true :=
  reportMismatches_iff.mpr ⟨h.good, h.usable, h.stamp, h.signature⟩

theorem Mismatch.known (h : Mismatch s p i t x) : (getRec s i).state ≠ .unknown := by simp [h.good]

theorem Mismatch.getRec_leftWaiting (h : Mismatch s p i t x) : getRec (leftWaiting i s) i = disputedRec (getRec s i) :=
  getRec_withRec_self (inTable_of_known h.known)

/-- R122: room in the dispute table and in the outbox, and a vote that two ballots do not decide. -/
structure CanOpen (s : State) : Prop where
  entry : s.disputes.length < 4
  vote : 2 ≤ threshold s
  outbox : s.line.outbox.length < 11

/-- R128: the two ballots of a dispute just opened decide nothing. -/
theorem Mismatch.winner_opened {n : Nat} (h : Mismatch s p i t x) (hn : 2 ≤ n) :
    winner n (openEntry p i x s).ballots = none :=
  winner_two h.signature.symm h.other.symm hn

theorem Mismatch.evaluate_opened (h : Mismatch s p i t x) (hn : 2 ≤ threshold s) :
    evaluate i (opened p i x s) = opened p i x s :=
  evaluate_waits (opened_disputeAt h.undisputed).findDispute (h.winner_opened hn)

theorem Mismatch.openDispute (h : Mismatch s p i t x) (hopen : CanOpen s) :
    openDispute p i x s = opened p i x s := by
  let entered := makeEntry i (setBallot p x [ownBallot i s]) s
  have hmarked : markDisputed i entered = leftWaiting i entered := markDisputed_known (s := entered) h.known
  have hoffered : offer (.poll i) (leftWaiting i entered) =
      { leftWaiting i entered with line.outbox := boxWith (.poll i) s.line.outbox } :=
    offer_takes ⟨h.active, .inr (Nat.lt_succ_of_lt hopen.outbox)⟩
  have hroom : disputeRoom s = true := decide_eq_true hopen.entry
  calc Machine.openDispute p i x s
      = evaluate i (raise .disputeOpened (some i) (some p) (some (getRec s i).stamp)
          (offer (.poll i) (markDisputed i entered))) := if_pos hroom
    _ = evaluate i (opened p i x s) := by rw [hmarked, hoffered]; rfl
    _ = opened p i x s := h.evaluate_opened hopen.vote

theorem Mismatch.openDispute_full (h : Mismatch s p i t x) (hfull : s.disputes.length = 4) :
    Machine.openDispute p i x s = leftWaiting i s := by
  have hroom : ¬ disputeRoom s = true := by simp [disputeRoom, hfull, Config.disputeCapacity]
  rw [Machine.openDispute, if_neg hroom, markDisputed_known h.known]

/-! ### The two blocks that take POLL and BALLOT (R60, R124, R125) -/

theorem Mismatch.tablePath (h : Mismatch s p i t x) : disputePathReport p i t x s = Machine.openDispute p i x s := by
  rw [disputePathReport, if_pos ⟨h.stampSet, h.found⟩, mismatch, if_pos h.active]

/-- R60 to R62: a NEWS that is a mismatch. -/
theorem Mismatch.reported (h : Mismatch s p i t x) (fromNews : Bool) :
    report p i t x fromNews s = Machine.openDispute p i x s := by
  rw [report, if_pos h.found, mismatch, if_pos h.active]

theorem disputePathReport_ignored (h : t = nullStamp ∨ reportMismatches (getRec s i) t x = false) :
    disputePathReport p i t x s = s :=
  if_neg fun ⟨ht, hm⟩ => h.elim ht fun hno => by simp [hno] at hm

theorem disputePathReport_disputed (h : (getRec s i).state = .disputed) : disputePathReport p i t x s = s :=
  disputePathReport_ignored (.inr (not_mismatch (.inl (by simp [h]))))

theorem disputePoll_entry (hd : findDispute s i = some d) (hstamp : d.stamp = t) (ht : t ≠ nullStamp) :
    disputePoll p i t x s = evaluate i (offerWith (.ballot i) (some t) (recordBallot p i x s)) := by
  simp [disputePoll, ht, hd, hstamp]

theorem disputeBallot_entry (hd : findDispute s i = some d) (hstamp : d.stamp = t) (ht : t ≠ nullStamp) :
    disputeBallot p i t x s = evaluate i (recordBallot p i x s) := by
  simp [disputeBallot, ht, hd, hstamp]

/-- R124: without an entry, a POLL that agrees with a GOOD record, or meets a DISPUTED one at its stamp, is answered. -/
theorem disputePoll_answers (hnone : findDispute s i = none) (ht : t ≠ nullStamp) (hstamp : (getRec s i).stamp = t)
    (h : (getRec s i).state = .good ∧ (getRec s i).usable = true ∧ (getRec s i).signature = x ∨
      (getRec s i).state = .disputed) : disputePoll p i t x s = offerWith (.ballot i) (some t) s := by
  rcases h with ⟨hgood, husable, hsig⟩ | hdisputed
  · simp [disputePoll, ht, hnone, goodAt, hgood, husable, hstamp, hsig]
  · simp [disputePoll, ht, hnone, goodAt, hdisputed, hstamp]

theorem disputePoll_ignored (hnone : findDispute s i = none)
    (h : t = nullStamp ∨ (getRec s i).stamp ≠ t ∨ (getRec s i).state ≠ .good ∧ (getRec s i).state ≠ .disputed) :
    disputePoll p i t x s = s := by
  rcases h with ht | hstamp | ⟨hgood, hdisputed⟩
  · exact if_pos ht
  · simp [disputePoll, hnone, goodAt, hstamp]
  · simp [disputePoll, hnone, goodAt, hgood, hdisputed]

theorem disputeBallot_ignored (hnone : findDispute s i = none)
    (h : t = nullStamp ∨ reportMismatches (getRec s i) t x = false) : disputeBallot p i t x s = s := by
  rcases h with ht | hm
  · exact if_pos ht
  · have hagrees : (goodAt (getRec s i) t && (getRec s i).signature ≠ x) = false := hm
    simp only [disputeBallot, hnone, Option.any_none, hagrees, Bool.false_eq_true, if_false, ite_self]

theorem Mismatch.disputePoll (h : Mismatch s p i t x) :
    disputePoll p i t x s = Machine.openDispute p i x s := by
  simp [Machine.disputePoll, h.stampSet, findDispute_absent h.undisputed, goodAt, h.good, h.usable, h.stamp,
    h.signature]

/-! ### The bodies delivered (R126) -/

/-- R124: the state in which a BALLOT for stamp `t` has been offered. -/
def ballotOffered (i : Nat) (t : Stamp) (s : State) : State :=
  { s with line.outbox := (offerBox (.ballot i) (some t) s.line.outbox).1 }

/-- R126: the state in which a POLL that is a mismatch has been taken; the BALLOT is offered when the Segment Table
comes first (log 18). -/
def pollTaken (i : Nat) (t : Stamp) (s : State) : State :=
  { s with
    freeOrders := s.freeOrders + 1
    line.outbox :=
      if Config.tableFirst s.freeOrders then (offerBox (.ballot i) (some t) s.line.outbox).1 else s.line.outbox }

/-- R126: the Segment Table and the Dispute Unit make the same state `v` of the mismatch, whichever comes first, and the
Dispute Unit answers the POLL when it comes second. -/
theorem Mismatch.deliverPoll {v : State} (h : Mismatch s p i t x) (hopens : Machine.openDispute p i x s = v)
    (horder : v.freeOrders = s.freeOrders) (hanswers : Machine.disputePoll p i t x v = ballotOffered i t v)
    (hstays : disputePathReport p i t x v = v) : deliverPoll p i t x s = pollTaken i t v := by
  simp only [Machine.deliverPoll, if_pos (And.intro h.stampSet h.found), h.tablePath, h.disputePoll, hopens, hanswers,
    hstays, pollTaken, ← horder]
  cases Config.tableFirst v.freeOrders <;> rfl

theorem deliverPoll_agrees (h : t = nullStamp ∨ reportMismatches (getRec s i) t x = false) :
    deliverPoll p i t x s = disputePoll p i t x s := by
  have hno : ¬ (t ≠ nullStamp ∧ reportMismatches (getRec s i) t x = true) :=
    fun ⟨ht, hm⟩ => h.elim ht fun hno => by simp [hno] at hm
  calc deliverPoll p i t x s = disputePoll p i t x (disputePathReport p i t x s) := if_neg hno
    _ = disputePoll p i t x s := by rw [disputePathReport_ignored h]

theorem exec_poll {i : SegNum} (h : Hears s p 0 (.poll i t x)) (ht : s.start.top = .active) :
    exec (.poll p i t x) s = .next (deliverPoll p i.toNat t x (heard p s)) := by
  calc exec (.poll p i t x) s
      = .next (receiveFrame p 0 (.poll i t x) (inActive (deliverPoll p i.toNat t x)) s) := rfl
    _ = .next (deliverPoll p i.toNat t x (heard p s)) := by
      rw [h.delivered _ (.inl rfl), inActive_active _ (show (heard p s).start.top = .active from ht)]

theorem exec_ballot {i : SegNum} (h : Hears s p 0 (.ballot i t x)) (ht : s.start.top = .active) :
    exec (.ballot p i t x) s = .next (deliverBallot p i.toNat t x (heard p s)) := by
  calc exec (.ballot p i t x) s
      = .next (receiveFrame p 0 (.ballot i t x) (inActive (deliverBallot p i.toNat t x)) s) := rfl
    _ = .next (deliverBallot p i.toNat t x (heard p s)) := by
      rw [h.delivered _ (.inl rfl), inActive_active _ (show (heard p s).start.top = .active from ht)]

/-! ### The dispute opened, by POLL and BALLOT -/

theorem Mismatch.recordBallot_opened (h : Mismatch s p i t x) :
    recordBallot p i x (opened p i x s) = opened p i x s := by
  have hagain : { openEntry p i x s with ballots := setBallot p x (openEntry p i x s).ballots } = openEntry p i x s :=
    congrArg (fun votes => { openEntry p i x s with ballots := votes }) (setBallot_again _)
  rw [recordBallot, (opened_disputeAt h.undisputed).setDispute, hagain]
  rfl

theorem Mismatch.deliverBallot_opens (h : Mismatch s p i t x) (hopen : CanOpen s) :
    deliverBallot p i t x s = opened p i x s := by
  rw [deliverBallot, h.tablePath, h.openDispute hopen,
    disputeBallot_entry (opened_disputeAt h.undisputed).findDispute h.stamp h.stampSet, h.recordBallot_opened,
    h.evaluate_opened hopen.vote]

theorem Mismatch.disputePoll_opened (h : Mismatch s p i t x) (hopen : CanOpen s) :
    Machine.disputePoll p i t x (opened p i x s) = ballotOffered i t (opened p i x s) := by
  have hroom : (opened p i x s).line.outbox.length < Config.outboxCapacity :=
    Nat.lt_of_le_of_lt (boxWith_length_le (Nat.lt_succ_of_lt hopen.outbox)) (Nat.succ_lt_succ hopen.outbox)
  have hanswered : offerWith (.ballot i) (some t) (opened p i x s) = ballotOffered i t (opened p i x s) :=
    offerWith_takes (s := opened p i x s) _ ⟨h.active, .inr hroom⟩
  have hentry : DisputeAt (ballotOffered i t (opened p i x s)) i s.disputes [] (openEntry p i x s) :=
    ⟨rfl, rfl, by simpa using h.undisputed⟩
  rw [disputePoll_entry (opened_disputeAt h.undisputed).findDispute h.stamp h.stampSet, h.recordBallot_opened,
    hanswered]
  exact evaluate_waits hentry.findDispute (h.winner_opened hopen.vote)

theorem Mismatch.deliverPoll_opens (h : Mismatch s p i t x) (hopen : CanOpen s) :
    Machine.deliverPoll p i t x s = pollTaken i t (opened p i x s) :=
  h.deliverPoll (h.openDispute hopen) rfl (h.disputePoll_opened hopen)
    (disputePathReport_disputed (congrArg SegRec.state h.getRec_leftWaiting))

/-! ### The dispute left waiting, by POLL and BALLOT -/

theorem Mismatch.leftWaiting_disputed (h : Mismatch s p i t x) : (getRec (leftWaiting i s) i).state = .disputed :=
  congrArg SegRec.state h.getRec_leftWaiting

theorem Mismatch.deliverBallot_waits (h : Mismatch s p i t x) (hfull : s.disputes.length = 4) :
    deliverBallot p i t x s = leftWaiting i s := by
  have hnone : findDispute (leftWaiting i s) i = none := findDispute_absent (s := leftWaiting i s) h.undisputed
  have hmarked : (getRec (leftWaiting i s) i).state ≠ .good := by simp [h.leftWaiting_disputed]
  rw [deliverBallot, h.tablePath, h.openDispute_full hfull]
  exact disputeBallot_ignored hnone (.inr (not_mismatch (.inl hmarked)))

theorem Mismatch.deliverPoll_waits (h : Mismatch s p i t x) (hfull : s.disputes.length = 4)
    (hplace : Takes s (.ballot i)) : Machine.deliverPoll p i t x s = pollTaken i t (leftWaiting i s) := by
  have hnone : findDispute (leftWaiting i s) i = none := findDispute_absent (s := leftWaiting i s) h.undisputed
  have hstamp : (getRec (leftWaiting i s) i).stamp = t := (congrArg SegRec.stamp h.getRec_leftWaiting).trans h.stamp
  have hanswers : Machine.disputePoll p i t x (leftWaiting i s) = ballotOffered i t (leftWaiting i s) := by
    rw [disputePoll_answers hnone h.stampSet hstamp (.inr h.leftWaiting_disputed)]
    exact offerWith_takes (s := leftWaiting i s) _ ⟨h.active, hplace.place⟩
  exact h.deliverPoll (h.openDispute_full hfull) rfl hanswers (disputePathReport_disputed h.leftWaiting_disputed)

/-! ### The statement -/

/-- Settles O33: a mismatch heard as NEWS, BALLOT or POLL opens a dispute or leaves it waiting; any other POLL or BALLOT
without an entry is answered or ignored by the record it meets. -/
theorem mismatchAndPoll : Obligations.MismatchAndPoll := by
  constructor
  · intro s p i x ht r t marked opened' hnull hgood husable hsig hnone
    have hm (hp : p ≠ s.start.station) : Mismatch (heard p s) p i.toNat t x :=
      ⟨ht, hp, hnull, hgood, husable, rfl, hsig.symm, hnone⟩
    refine ⟨fun hlen hvote hbox => ?_, fun hfull => ⟨fun h => ?_, fun h => ?_, fun h hplace => ?_⟩⟩
    · have hopen : CanOpen (heard p s) := ⟨hlen, hvote, hbox⟩
      have hopened (hp : p ≠ s.start.station) : opened p i.toNat x (heard p s) = opened' := by
        rw [opened, openEntry_eq (s := heard p s) hp]
        rfl
      refine ⟨fun h => ?_, fun h => ?_, fun h => ?_⟩
      · rw [exec_news h hnull, (hm h.other).reported true, (hm h.other).openDispute hopen, hopened h.other]
      · rw [exec_ballot h ht, (hm h.other).deliverBallot_opens hopen, hopened h.other]
      · rw [exec_poll h ht, (hm h.other).deliverPoll_opens hopen, hopened h.other]
        rfl
    · rw [exec_news h hnull, (hm h.other).reported true, (hm h.other).openDispute_full hfull]
      rfl
    · rw [exec_ballot h ht, (hm h.other).deliverBallot_waits hfull]
      rfl
    · rw [exec_poll h ht, (hm h.other).deliverPoll_waits hfull (takes_heard hplace)]
      rfl
  · intro s p i t x ht r hnone
    have hfree : findDispute (heard p s) i.toNat = none := findDispute_absent (s := heard p s) hnone
    refine ⟨fun h husable hstamp hnull hrec hplace => ?_, fun h hother => ?_, fun h hother => ?_⟩
    · have hagrees : reportMismatches r t x = false :=
        not_mismatch (hrec.elim (fun hr => .inr (.inr hr.2.symm)) fun hr => .inl (by simp [hr]))
      have hanswered : r.state = .good ∧ r.usable = true ∧ r.signature = x ∨ r.state = .disputed :=
        hrec.imp_left fun hr => ⟨hr.1, husable, hr.2⟩
      rw [exec_poll h ht, deliverPoll_agrees (s := heard p s) (.inr hagrees),
        disputePoll_answers (s := heard p s) hfree hnull hstamp hanswered, offerWith_takes _ (takes_heard hplace)]
      rfl
    · have hagrees : t = nullStamp ∨ reportMismatches r t x = false := hother.imp_right fun hr =>
        not_mismatch (hr.elim (fun hs => .inr (.inl hs.symm)) fun hs => .inl hs.1)
      rw [exec_poll h ht, deliverPoll_agrees (s := heard p s) hagrees,
        disputePoll_ignored (s := heard p s) hfree hother]
    · have hagrees : t = nullStamp ∨ reportMismatches r t x = false := hother.imp_right fun hr =>
        not_mismatch (hr.elim (fun hs => .inr (.inl hs.symm)) (Or.imp_right fun hs => .inr hs.symm))
      rw [exec_ballot h ht, deliverBallot, disputePathReport_ignored (s := heard p s) hagrees,
        disputeBallot_ignored (s := heard p s) hfree hagrees]

end Sys2Proof.Machine
end

section
/-! PROOFS. A BALLOT for an open dispute: the ballot is recorded, and once one signature has the ballots it needs the
dispute is kept or lost (R121, R125, R128 to R130). -/

namespace Sys2Proof.Machine

/- Theorems elaborated side by side pass the memory the check allows (as in Tests/Slice0.lean). -/
set_option Elab.async false

variable {s : State} {p : Station} {i : Nat} {x w : Signature} {d : Dispute} {pre post : List Dispute} {a : Entry}

/-! ### The ballot recorded (R121, R125) -/

/-- R121: the entry in which station `p` has cast a ballot for `x`. -/
def withVote (p : Station) (x : Signature) (d : Dispute) : Dispute := { d with ballots := setBallot p x d.ballots }

theorem DisputeAt.recordBallot (h : DisputeAt s i pre post d) :
    recordBallot p i x s = { s with disputes := pre ++ withVote p x d :: post } := h.setDispute _

theorem DisputeAt.voted (h : DisputeAt s i pre post d) :
    DisputeAt { s with disputes := pre ++ withVote p x d :: post } i pre post (withVote p x d) :=
  ⟨rfl, h.segment, h.others⟩

/-- R125: a BALLOT for an open entry at its stamp is recorded, and the vote is evaluated. -/
theorem DisputeAt.deliverBallot (h : DisputeAt s i pre post d) (hstamp : d.stamp ≠ nullStamp)
    (hrec : (getRec s i).state = .disputed) :
    deliverBallot p i d.stamp x s = evaluate i { s with disputes := pre ++ withVote p x d :: post } := by
  rw [Machine.deliverBallot, disputePathReport_disputed hrec, disputeBallot_entry h.findDispute rfl hstamp,
    h.recordBallot]

/-! ### A dispute decided (R129, R130) -/

/-- R14, R122: a DISPUTED record with no write pending and no repair entry, and no other dispute that waits. -/
structure Contested (s : State) (i : Nat) : Prop where
  inTable : i < segCount s
  state : (getRec s i).state = .disputed
  usable : (getRec s i).usable = true
  evidence : (getRec s i).evidence = none
  writes : (getRec s i).pendingWrites = 0
  alone : ∀ e ∈ s.repair.queue, e.segment ≠ i
  othersRest : ∀ j, j < segCount s → j ≠ i → waitsForEntry s j = false

/-- R129: the state in which the dispute `d` has been decided for self's own signature. -/
def disputeKept (i : Nat) (pre post : List Dispute) (d : Dispute) (s : State) : State :=
  raise .disputeKept (some i) none (some d.stamp)
    { withRec i { getRec s i with mark := false, rounds := 0, state := .good } s with disputes := pre ++ post }

theorem Contested.keeps (h : Contested s i) (hd : DisputeAt s i pre post d) :
    takeUpDisputes (keepDispute d s) = disputeKept i pre post d s := by
  have hsettles := settle_accepted (s := freeDispute i s) h.inTable h.state h.usable h.evidence h.writes
    (findEntry_eq_none h.alone)
  have hkept : keepDispute d s = disputeKept i pre post d s := by
    rw [keepDispute, hd.segment, hsettles, hd.freeDispute]
    rfl
  have hdisputes : (disputeKept i pre post d s).disputes = (freeDispute i s).disputes := by
    rw [hd.freeDispute]
    rfl
  rw [hkept]
  exact takeUpDisputes_rest (noneWaiting_closed h.inTable rfl (by simp) hdisputes h.othersRest)

/-- R130: the evidence that a dispute lost to `w` leaves: its voters hold the copy. -/
def voteEvidence (w : Signature) (d : Dispute) : Evidence := ⟨d.stamp, w, votersFor w d.ballots, true⟩

/-- R7, R130: the record of a copy lost in a dispute. -/
def outvoted (ev : Evidence) (r : SegRec) : SegRec :=
  { r with
    usable := false, mark := false, rounds := 0, exhausted := false, state := .damaged, evidence := some ev }

/-- R130: the state in which the dispute `d` has been lost to `w`, before the record is offered for repair. -/
def disputeLost (i : Nat) (w : Signature) (pre post : List Dispute) (d : Dispute) (s : State) : State :=
  putRec i (outvoted (voteEvidence w d) (getRec s i))
    (raise .disputeLost (some i) none (some d.stamp) { s with disputes := pre ++ post })

theorem settled_outvoted {r : SegRec} {ev : Evidence} (hstate : r.state = .disputed) (hwrites : r.pendingWrites = 0)
    (hfew : r.failures < 2) :
    settled (clearMark { withEvidence ev r with usable := false }) = outvoted ev r := by
  rw [withEvidence_record, if_neg (Nat.not_le.mpr hfew)]
  simp [settled, settledState, clearMark, outvoted, hstate, hwrites]

/-- R16: a settle that makes an offer. -/
theorem settle_offers {r : SegRec} (hi : i < segCount s) (hnone : ∀ e ∈ s.repair.queue, e.segment ≠ i)
    (hrec : settled (getRec s i) = r) (hoffers : settleOffers r = true) :
    settle i s = offerRepair i (withRec i r s) := by
  rw [settle_eq, settleQuiet_withRec hnone, getRec_withRec_self hi, hrec, if_pos hoffers]

/-- R7, R130: the outvoted copy becomes unusable, and its record is offered with the voters' copy as evidence. -/
theorem Contested.losesCopy (h : Contested s i) (hd : DisputeAt s i pre post d) (hfew : (getRec s i).failures < 2) :
    copyUnusable i (withRec i (withEvidence (voteEvidence w d) (getRec s i))
        (raise .disputeLost (some i) none (some d.stamp) { s with disputes := pre ++ post })) =
      offerRepair i (disputeLost i w pre post d s) := by
  let r := withEvidence (voteEvidence w d) (getRec s i)
  let q := clearMark { r with usable := false }
  let v := raise .disputeLost (some i) none (some d.stamp) { s with disputes := pre ++ post }
  have hi : i < segCount v := h.inTable
  have hr : getRec (withRec i r v) i = r := getRec_withRec_self hi
  have husable : r.usable = true := (congrArg SegRec.usable (withEvidence_eq _ _)).trans h.usable
  have hlost : settled q = outvoted (voteEvidence w d) (getRec s i) := settled_outvoted h.state h.writes hfew
  have hq : modifyRec i (fun r => clearMark { r with usable := false }) (withRec i r v) = putRec i q v := by
    rw [modifyRec, hr]
    exact putRec_withRec hi (withEvidence_contributed _ _)
  have hsettles : settle i (putRec i q v) = offerRepair i (withRec i (settled q) (putRec i q v)) :=
    settle_offers (by simpa using hi) (by rw [putRec_repair]; exact h.alone)
      (congrArg settled (getRec_putRec_self v i q hi)) (by rw [hlost]; simp [settleOffers, outvoted])
  calc copyUnusable i (withRec i r v)
      = settle i (putRec i q v) := by rw [copyUnusable_undisputed (by rw [hr]; exact husable) hd.others, hq]
    _ = offerRepair i (disputeLost i w pre post d s) := by
      rw [hsettles, withRec_putRec hi contributed_settled, hlost]
      rfl

/-- R71, R130: the engine runs a job of NEWS level or above, the queue has room, and the segment is not pinned. -/
structure JoinsCalmly (s : State) (i : Nat) (a : Entry) : Prop where
  active : s.start.top = .active
  job : activeEntry s = some a
  level : 2 ≤ levelRank a.level
  room : s.repair.queue.length < 32
  unpinned : i ∉ s.repair.pins

theorem Contested.loses (h : Contested s i) (hd : DisputeAt s i pre post d) (hfew : (getRec s i).failures < 2)
    (hjoins : JoinsCalmly s i a) :
    loseDispute d w s = { disputeLost i w pre post d s with
      repair.queue := insertEntry (freshEntry i .news) s.repair.queue } := by
  let u := disputeLost i w pre post d s
  have hrepair : u.repair = s.repair := putRec_repair _ _ _
  have hrec : getRec u i = outvoted (voteEvidence w d) (getRec s i) := getRec_putRec_self _ _ _ h.inTable
  have hadmissible : admissible u i = true :=
    admissible_iff.mpr ⟨.inr ((congrArg StartUp.top (putRec_start _ _ _)).trans hjoins.active),
      by rw [hrec]; simp [fetchable, outvoted], by rw [hrepair]; exact hjoins.unpinned⟩
  have hlevel : admissionLevel (getRec u i) = .news := by rw [hrec]; rfl
  have hjob : activeEntry u = some a := by rw [activeEntry, hrepair]; exact hjoins.job
  have hother : a.segment ≠ i := h.alone a (List.mem_of_find?_eq_some hjoins.job)
  have hoffered : offerRepair i u = addEntry .news i u := by
    rw [offerRepair_passes hadmissible, hlevel]
    exact enterQueue_joins (findEntry_eq_none (by rw [hrepair]; exact h.alone)) (by rw [hrepair]; exact hjoins.room)
      (.inr ⟨a, hjob, hjoins.level, hother⟩)
  have hrests : takeUpDisputes (addEntry .news i u) = addEntry .news i u :=
    takeUpDisputes_rest (noneWaiting_closed h.inTable (putRec_recs _ i _) (by simp [outvoted])
      (by rw [hd.freeDispute]; exact putRec_disputes _ _ _) h.othersRest)
  calc loseDispute d w s
      = takeUpDisputes (copyUnusable i (modifyRec i
          (fun r => clearExhausted { r with evidence := some (voteEvidence w d) })
          (raise .disputeLost (some i) none (some d.stamp) { s with disputes := pre ++ post }))) := by
        rw [loseDispute, hd.segment, hd.freeDispute]
        rfl
    _ = takeUpDisputes (offerRepair i u) := by
        rw [modifyRec_withEvidence]
        exact congrArg takeUpDisputes (h.losesCopy hd hfew)
    _ = addEntry .news i u := by rw [hoffered, hrests]
    _ = { u with repair.queue := insertEntry (freshEntry i .news) s.repair.queue } := by rw [addEntry, hrepair]

/-! ### The statement -/

/-- Settles O34: the ballot recorded, the vote is evaluated. With no signature at T that is all; the one signature at T
keeps the dispute (`Contested.keeps`) or loses it (`Contested.loses`). -/
theorem ballotDecidesVote : Obligations.BallotDecidesVote := by
  intro s p i x pre post d ht h hdisputes hseg hstamp hothers r votes count enough hstate husable hev hwrites hfew
  let u : State := { heard p s with disputes := pre ++ withVote p x d :: post }
  have hd : DisputeAt (heard p s) i.toNat pre post d := ⟨hdisputes, hseg, hothers⟩
  have hvoted : DisputeAt u i.toNat pre post (withVote p x d) := hd.voted
  have hexec : exec (.ballot p i d.stamp x) s = .next (evaluate i.toNat u) := by
    rw [exec_ballot h ht, hd.deliverBallot hstamp hstate]
  refine ⟨fun hundecided => ?_, fun hrest w hw hmany honly halone => ?_⟩
  · have hnone : winner (threshold u) (withVote p x d).ballots = none := winner_none hundecided
    rw [hexec, evaluate_waits hvoted.findDispute hnone]
    rfl
  · have hwins : winner (threshold u) (withVote p x d).ballots = some w := winner_only hw hmany honly
    have hothersRest (j : Nat) (hj : j < segCount u) (hji : j ≠ i.toNat) : waitsForEntry u j = false := by
      have hfound : findDispute u j = findDispute (heard p s) j := hvoted.findDispute_other hd hji
      exact (waitsForEntry_congr (s := heard p s) (u := u) rfl hfound).trans (hrest j hj hji)
    have hcontested : Contested u i.toNat :=
      ⟨inTable_of_known (by rw [show (getRec u i.toNat).state = .disputed from hstate]; simp), hstate, husable, hev,
        hwrites, halone, hothersRest⟩
    refine ⟨fun hkept => ?_, fun hlost a ha hlevel hroom hpin => ?_⟩
    · rw [hexec, evaluate_keeps hvoted.findDispute hwins hkept, hcontested.keeps hvoted]
      rfl
    · rw [hexec, evaluate_loses hvoted.findDispute hwins hlost,
        hcontested.loses hvoted hfew ⟨ht, ha, hlevel, hroom, hpin⟩]
      rfl

end Sys2Proof.Machine
end

section
/-! PROOFS. The deadline of a dispute runs out: the next round begins, or the dispute is abandoned and one that waits is
taken up (R123, R131, R132). -/

namespace Sys2Proof.Machine

/- Theorems elaborated side by side pass the memory the check allows (as in Tests/Slice0.lean). -/
set_option Elab.async false

variable {s : State} {i j : Nat} {d : Dispute} {pre post : List Dispute}

/-! ### The next round (R131) -/

/-- R131: a deadline in round 1 or 2. -/
theorem DisputeAt.deadline_raises (h : DisputeAt s i pre post d) (hround : d.round < 3) (hplace : Takes s (.poll i)) :
    deadlineExpiry i s = { s with
      disputes := pre ++ { d with round := d.round + 1, deadline := 3 * beaconMs s } :: post
      line.outbox := boxWith (.poll i) s.line.outbox } := by
  let next : Dispute := { d with round := d.round + 1 }
  let polled : State := { s with disputes := pre ++ next :: post, line.outbox := boxWith (.poll i) s.line.outbox }
  have hraised : Machine.setDispute i (fun e => { e with round := d.round + 1 }) s =
      { s with disputes := pre ++ next :: post } := h.setDispute _
  have hoffered : offer (.poll i) { s with disputes := pre ++ next :: post } = polled :=
    offer_takes ⟨hplace.active, hplace.place⟩
  have hentry : DisputeAt polled i pre post next := ⟨rfl, h.segment, h.others⟩
  simp only [deadlineExpiry, h.findDispute, if_pos (show d.round < Config.lastRound from hround), hraised, hoffered,
    hentry.setDispute]
  rfl

/-! ### A dispute abandoned (R132) -/

/-- R132: the state in which the dispute `d` has been abandoned. -/
def abandoned (i : Nat) (pre post : List Dispute) (d : Dispute) (s : State) : State :=
  raise .disputeAbandoned (some i) none (some d.stamp)
    { withRec i { getRec s i with rounds := 3 } s with disputes := pre ++ post }

theorem DisputeAt.deadline_abandons (h : DisputeAt s i pre post d) (hround : d.round = 3) :
    deadlineExpiry i s = takeUpDisputes (abandoned i pre post d s) := by
  have hlast : ¬ d.round < Config.lastRound := by simp [hround, Config.lastRound]
  have hrec : modifyRec i (fun r => { r with rounds := 3 }) { s with disputes := pre ++ post } =
      withRec i { getRec s i with rounds := 3 } { s with disputes := pre ++ post } := modifyRec_eq_withRec rfl
  simp only [deadlineExpiry, h.findDispute, if_neg hlast, h.freeDispute, hrec]
  rfl

/-- R123, R132: an abandoned dispute does not wait. -/
theorem waitsForEntry_abandoned_self (hi : i < segCount s) : waitsForEntry (abandoned i pre post d s) i = false := by
  have hrec : getRec (abandoned i pre post d s) i = { getRec s i with rounds := 3 } := getRec_withRec_self hi
  simp [waitsForEntry, hrec]

theorem DisputeAt.waitsForEntry_abandoned (h : DisputeAt s i pre post d) (hji : j ≠ i) :
    waitsForEntry (abandoned i pre post d s) j = waitsForEntry s j := by
  have hfound : Machine.findDispute (abandoned i pre post d s) j = Machine.findDispute s j := by
    rw [← findDispute_freed (s := s) hji, h.freeDispute]
    rfl
  exact waitsForEntry_congr (getRec_withRec_other hji.symm) hfound

/-! ### A dispute that waits is taken up (R123) -/

/-- R123: the state in which the dispute of segment `j` has been taken up with the own ballot. -/
def takenUp (j : Nat) (s : State) : State :=
  raise .disputeOpened (some j) none (some (getRec s j).stamp) { s with
    disputes := s.disputes ++ [{
      segment := j, stamp := (getRec s j).stamp, ballots := [ownBallot j s], round := 1, deadline := 3 * beaconMs s }]
    line.outbox := boxWith (.poll j) s.line.outbox }

/-- R123: the own ballot alone decides nothing while two are needed. -/
theorem takeUpOne_opens (hvote : 2 ≤ threshold s) (hplace : Takes s (.poll j)) :
    takeUpOne j s = takenUp j s := by
  have hoffered : offer (.poll j) (makeEntry j [ownBallot j s] s) =
      { makeEntry j [ownBallot j s] s with line.outbox := boxWith (.poll j) s.line.outbox } :=
    offer_takes ⟨hplace.active, hplace.place⟩
  have hopen : ¬ threshold (takenUp j s) ≤ 1 := Nat.not_le.mpr hvote
  have htaken : raise .disputeOpened (some j) none (some (getRec s j).stamp)
      (offer (.poll j) (makeEntry j [ownBallot j s] s)) = takenUp j s := by
    rw [hoffered]
    rfl
  simp only [takeUpOne, htaken, if_neg hopen]
  split <;> rfl

theorem takeUpLoop_rest (n : Nat) (h : NoneWaiting s) : takeUpLoop n s = s := by
  have hnext : nextWaiting s = none :=
    List.find?_eq_none.mpr fun j hj => by simp [h j (List.mem_range.mp hj)]
  cases n with
  | zero => rfl
  | succ n => rw [takeUpLoop, hnext, ite_self]

theorem takeUpLoop_takes (n : Nat) (ht : s.start.top = .active) (hroom : s.disputes.length < 4)
    (hnext : nextWaiting s = some j) : takeUpLoop (n + 1) s = takeUpLoop n (takeUpOne j s) := by
  have hgoes : ¬ (s.start.top ≠ .active ∨ (!disputeRoom s) = true) := by
    simp [ht, disputeRoom, Config.disputeCapacity, hroom]
  rw [takeUpLoop, if_neg hgoes, hnext]

/-- R123: segment `j` alone waits for a dispute entry. -/
structure OnlyWaiting (s : State) (j : Nat) : Prop where
  inTable : j < segCount s
  waits : waitsForEntry s j = true
  others : ∀ k, k < segCount s → k ≠ j → waitsForEntry s k = false

theorem OnlyWaiting.nextWaiting (h : OnlyWaiting s j) : nextWaiting s = some j := by
  cases hfound : Machine.nextWaiting s with
  | none => simpa [h.waits] using List.find?_eq_none.mp hfound j (List.mem_range.mpr h.inTable)
  | some k =>
    have hk : k < segCount s := List.mem_range.mp (List.mem_of_find?_eq_some hfound)
    have hwaits : waitsForEntry s k = true := List.find?_some hfound
    by_contra hne
    have hidle := h.others k hk fun heq => hne (congrArg some heq)
    simp [hwaits] at hidle

theorem OnlyWaiting.noDispute (h : OnlyWaiting s j) : findDispute s j = none := by
  have hwaits := h.waits
  simp only [waitsForEntry, Bool.and_eq_true, Option.isNone_iff_eq_none] at hwaits
  exact hwaits.2

theorem OnlyWaiting.noneWaiting_takenUp (h : OnlyWaiting s j) : NoneWaiting (takenUp j s) := by
  intro k hk
  by_cases hkj : k = j
  · subst hkj
    have hentry : DisputeAt (takenUp k s) k s.disputes [] _ :=
      ⟨rfl, rfl, by simpa using findDispute_none h.noDispute⟩
    simp [waitsForEntry, hentry.findDispute]
  · have hfound : findDispute (takenUp j s) k = findDispute s k := by
      simp [findDispute, takenUp, raise, List.find?_append, Ne.symm hkj]
    exact (waitsForEntry_congr (s := s) (u := takenUp j s) rfl hfound).trans (h.others k hk hkj)

theorem OnlyWaiting.taken (h : OnlyWaiting s j) (ht : s.start.top = .active) (hroom : s.disputes.length < 4)
    (hvote : 2 ≤ threshold s) (hplace : Takes s (.poll j)) : takeUpDisputes s = takenUp j s := by
  rw [takeUpDisputes, Config.takeUpFuel, takeUpLoop_takes _ ht hroom h.nextWaiting,
    takeUpOne_opens hvote hplace, takeUpLoop_rest _ h.noneWaiting_takenUp]

/-! ### The statement -/

/-- Settles O44: before round 3 the round rises; in round 3 the dispute is abandoned, and the one dispute that waits, if
any, is taken up. -/
theorem deadlineRaisesRoundOrAbandons : Obligations.DeadlineRaisesRoundOrAbandons := by
  constructor
  · intro s i pre post d hdisputes hseg hothers hround hplace
    have hd : DisputeAt s i.toNat pre post d := ⟨hdisputes, hseg, hothers⟩
    exact congrArg _ (hd.deadline_raises (by omega) hplace)
  · intro s i pre post d ht hdisputes hlen hseg hi hothers hround hstate u
    have hd : DisputeAt s i.toNat pre post d := ⟨hdisputes, hseg, hothers⟩
    have hexec : exec (.disputeDeadlineExpiry i) s = .next (takeUpDisputes u) :=
      congrArg _ (hd.deadline_abandons hround)
    have hcount : segCount u = segCount s := segCount_withRec
    have hself : waitsForEntry u i.toNat = false := waitsForEntry_abandoned_self hi
    have hsame (k : Nat) (hki : k ≠ i.toNat) : waitsForEntry u k = waitsForEntry s k := hd.waitsForEntry_abandoned hki
    refine ⟨fun hrest => ?_, fun j hj hji hwaits hrest hvote hplace => ?_⟩
    · have hnone : NoneWaiting u := by
        intro k hk
        by_cases hki : k = i.toNat
        · rw [hki, hself]
        · rw [hsame k hki, hrest k (hcount ▸ hk) hki]
      rw [hexec, takeUpDisputes_rest hnone]
    · have honly : OnlyWaiting u j := by
        refine ⟨hcount ▸ hj, (hsame j hji).trans hwaits, fun k hk hkj => ?_⟩
        by_cases hki : k = i.toNat
        · rw [hki, hself]
        · rw [hsame k hki, hrest k (hcount ▸ hk) hki hkj]
      have hroom : (pre ++ post).length < 4 := by
        rw [hdisputes] at hlen
        simp only [List.length_append, List.length_cons] at hlen ⊢
        omega
      have hrec : getRec u j = getRec s j := getRec_withRec_other hji.symm
      rw [hexec, honly.taken ht hroom hvote ⟨hplace.active, hplace.place⟩, takenUp, ownBallot, hrec]
      rfl

end Sys2Proof.Machine
end

section
/-! PROOFS. What the bytes of the store say: the header, judged field by field in the order of its table (R139, R143),
and the slot, classed by its trailer (R140). -/

namespace Sys2Proof.Machine

/- Theorems elaborated side by side pass the memory the check allows (as in Tests/Slice0.lean). -/
set_option Elab.async false

/-! ### The header (R139) -/

theorem be16_inj {a b c d : Byte} : be16 a b = be16 c d ↔ a = c ∧ b = d := by
  refine ⟨fun h => ⟨?_, ?_⟩, fun ⟨ha, hb⟩ => ha ▸ hb ▸ rfl⟩
  · exact (extract_upper a b).symm.trans ((congrArg _ h).trans (extract_upper c d))
  · exact (extract_lower a b).symm.trans ((congrArg _ h).trans (extract_lower c d))

theorem be32_inj {a b c d a' b' c' d' : Byte} :
    be32 a b c d = be32 a' b' c' d' ↔ a = a' ∧ b = b' ∧ c = c' ∧ d = d' := by
  have hhalves : be32 a b c d = be32 a' b' c' d' ↔ be16 a b = be16 a' b' ∧ be16 c d = be16 c' d' := by
    refine ⟨fun h => ⟨?_, ?_⟩, fun ⟨hupper, hlower⟩ => by rw [be32, hupper, hlower, be32]⟩
    · exact (extract_upper (be16 a b) (be16 c d)).symm.trans ((congrArg _ h).trans (extract_upper _ _))
    · exact (extract_lower (be16 a b) (be16 c d)).symm.trans ((congrArg _ h).trans (extract_lower _ _))
  rw [hhalves, be16_inj, be16_inj, and_assoc]

/-- R139: the magic number, byte by byte. -/
theorem magic_iff {a b c d : Byte} : be32 a b c d = Config.magic ↔ a = 0xC3 ∧ b = 0xA5 ∧ c = 0x5A ∧ d = 0x3C :=
  be32_inj (a' := 0xC3) (b' := 0xA5) (c' := 0x5A) (d' := 0x3C)

theorem countOk_iff {n : BitVec 16} : countOk n = true ↔ 64 ≤ n.toNat ∧ n.toNat ≤ 1024 ∧ n.toNat % 64 = 0 := by
  simp [countOk, and_assoc]

theorem one_le_toNat_iff {n : Nat} {x : BitVec n} : 1 ≤ x.toNat ↔ x ≠ 0 := by
  rw [Nat.one_le_iff_ne_zero, ne_eq, ne_eq, BitVec.toNat_eq, BitVec.ofNat_eq_ofNat, BitVec.toNat_ofNat, Nat.zero_mod]

/-- R137, R139: a byte of the header; one that did not arrive is read as 0xFF. -/
def headerByte (bytes : List Byte) (k : Nat) : Byte := bytes.getD k Config.absentByte

/-- R139: N as the header spells it. -/
def headerCount (bytes : List Byte) : BitVec 16 := be16 (headerByte bytes 6) (headerByte bytes 7)

/-- R139: the four fields a valid header gives. -/
def headerFields (bytes : List Byte) : Header where
  tag := headerByte bytes 5
  count := (headerCount bytes).toNat
  beacon := headerByte bytes 8
  patience := headerByte bytes 9

/-- R139: the fields in the order of the table. -/
def judgedFields : List HeaderField := [.magic, .layout, .tag, .count, .beacon, .patience, .check]

/-- R139: a field fails its line of the table. -/
def fieldFails (bytes : List Byte) : HeaderField → Bool
  | .magic => be32 (headerByte bytes 0) (headerByte bytes 1) (headerByte bytes 2) (headerByte bytes 3) ≠ Config.magic
  | .layout => headerByte bytes 4 ≠ Config.layout
  | .tag => headerByte bytes 5 = 0
  | .count => !countOk (headerCount bytes)
  | .beacon => (headerByte bytes 8).toNat < 2
  | .patience => (headerByte bytes 9).toNat < 5
  | .check => be16 (headerByte bytes 10) (headerByte bytes 11) ≠ checkOf (bytes.take 10)

theorem elim_find?_cons {α β : Type} (p : α → Bool) (x : α) (xs : List α) (b : β) (g : α → β) :
    ((x :: xs).find? p).elim b g = if p x then g x else (xs.find? p).elim b g := by
  rw [List.find?_cons]
  cases p x <;> rfl

/-- R139, R143: the judgement is the first field of the table that fails, or the four fields. -/
theorem judgeHeader_eq_firstFailing (bytes : List Byte) :
    judgeHeader bytes = (judgedFields.find? (fieldFails bytes)).elim (.ok (headerFields bytes)) .error := by
  simp only [judgedFields, elim_find?_cons, fieldFails, decide_eq_true_eq]
  rfl

theorem judgeHeader_ok {bytes : List Byte} {h : Header} :
    judgeHeader bytes = .ok h ↔ (∀ f ∈ judgedFields, fieldFails bytes f = false) ∧ h = headerFields bytes := by
  have hnone : judgedFields.find? (fieldFails bytes) = none ↔ ∀ f ∈ judgedFields, fieldFails bytes f = false := by
    simp only [List.find?_eq_none, Bool.not_eq_true]
  rw [judgeHeader_eq_firstFailing, ← hnone]
  cases judgedFields.find? (fieldFails bytes) <;> simp [eq_comm (a := h)]

theorem judgeHeader_error {bytes : List Byte} {f : HeaderField} :
    judgeHeader bytes = .error f ↔ ∃ before after, judgedFields = before ++ f :: after ∧
      (∀ g ∈ before, fieldFails bytes g = false) ∧ ¬ fieldFails bytes f = false := by
  have hsome : judgeHeader bytes = .error f ↔ judgedFields.find? (fieldFails bytes) = some f := by
    rw [judgeHeader_eq_firstFailing]
    cases judgedFields.find? (fieldFails bytes) <;> simp
  simp only [hsome, List.find?_eq_some_iff_append, Bool.not_eq_false, Bool.not_eq_true', ← exists_and_left, and_comm,
    and_left_comm]

/-- Settles O17 by `judgeHeader_ok` and `judgeHeader_error`: each line of the table is `fieldFails`, read off the 12
bytes. -/
theorem headerByTable : Obligations.HeaderByTable := by
  intro bytes hlen b n good order
  have hbyte (k : Nat) (hk : k < 12) : headerByte bytes k = b k := by
    simp [headerByte, b, hlen, hk]
  have hcount : headerCount bytes = n := by rw [headerCount, hbyte 6 (by decide), hbyte 7 (by decide)]; rfl
  have hgood (f : HeaderField) : fieldFails bytes f = false ↔ good f := by
    cases f with
    | magic => simp [fieldFails, good, hbyte, magic_iff]
    | layout => simp [fieldFails, good, hbyte, Config.layout]
    | tag => simp [fieldFails, good, hbyte, one_le_toNat_iff]
    | count => simp [fieldFails, good, hcount, countOk_iff]
    | beacon => simp [fieldFails, good, hbyte, Nat.succ_le_iff]
    | patience => simp [fieldFails, good, hbyte]
    | check => simp [fieldFails, good, hbyte, be16]
  have hfields : headerFields bytes = { tag := b 5, count := n.toNat, beacon := b 8, patience := b 9 } := by
    simp [headerFields, hcount, hbyte]
  constructor
  · intro h
    rw [judgeHeader_ok, hfields]
    simp only [hgood]
    rfl
  · intro f
    rw [judgeHeader_error]
    simp only [hgood]
    rfl

/-! ### The slot (R140) -/

theorem writtenStamp_iff {t : Stamp} :
    stampOk t = true ∧ t ≠ nullStamp ↔ 1 ≤ t.version.toNat ∧ 1 ≤ t.origin.toNat ∧ t.origin.toNat ≤ 15 := by
  obtain ⟨v, o⟩ := t
  by_cases hnull : (⟨v, o⟩ : Stamp) = nullStamp
  · obtain ⟨rfl, rfl⟩ := Stamp.mk.inj hnull
    decide
  · simp [stampOk, hnull, one_le_toNat_iff, and_assoc]

theorem be32_eq_append (a b c d : Byte) : be32 a b c d = a ++ b ++ c ++ d :=
  (BitVec.append_assoc (x₁ := be16 a b) (x₂ := c) (x₃ := d)).symm

/-- R140: the class of a slot, read off its data and its trailer. -/
theorem classSlot_append {data : List Byte} (v1 v0 o m x3 x2 x1 x0 : Byte) (h : data.length = Config.segmentBytes) :
    classSlot (data ++ [v1, v0, o, m, x3, x2, x1, x0]) =
      if [v1, v0, o, m, x3, x2, x1, x0].all (· = Config.absentByte) then .vacant
      else if m = Config.marker ∧ stampOk ⟨be16 v1 v0, o⟩ ∧ (⟨be16 v1 v0, o⟩ : Stamp) ≠ nullStamp then
        .written ⟨be16 v1 v0, o⟩ (be32 x3 x2 x1 x0) (signatureOf ⟨be16 v1 v0, o⟩ data)
      else .damaged := by
  rw [classSlot, List.drop_left' h, List.take_left' h]
  rfl

/-- Settles O18: the tests of `classSlot_append` are the two hypotheses of the statement. -/
theorem slotByTrailer : Obligations.SlotByTrailer := by
  intro data v1 v0 o m x3 x2 x1 x0 hlen bytes t vacant written
  have hvacant : [v1, v0, o, m, x3, x2, x1, x0].all (· = Config.absentByte) = true ↔ vacant := by
    simp only [List.all_eq_true, decide_eq_true_eq]
    rfl
  have hwritten : m = Config.marker ∧ stampOk ⟨be16 v1 v0, o⟩ = true ∧ (⟨be16 v1 v0, o⟩ : Stamp) ≠ nullStamp ↔
      written := and_congr_right' writtenStamp_iff
  have hclass : classSlot bytes = _ := classSlot_append v1 v0 o m x3 x2 x1 x0 hlen
  simp only [hvacant, hwritten, be32_eq_append] at hclass
  refine ⟨fun hv => ?_, fun hv hw => ?_, fun hv hw => ?_⟩
  · rw [hclass, if_pos hv]
  · rw [hclass, if_neg hv, if_pos hw]
    rfl
  · rw [hclass, if_neg hv, if_neg hw]

end Sys2Proof.Machine
end

section
/-! PROOFS. What the part does by the status values of the store: the probe and the header read (R142, R143, R156 to
R158), and the slot write up to its readback (R145, R146, R190). -/

namespace Sys2Proof.Machine

/- Theorems elaborated side by side pass the memory the check allows (as in Tests/Slice0.lean). -/
set_option Elab.async false

variable {s : State} {v : Byte} {w : WriteOp} {bytes : List Byte}

/-! ### The probe (R142) -/

theorem statusRead_noStore (hop : s.store.op = .probing none) :
    statusRead 0xFF s = halt .noStore { s with store.op := .idle } := by
  simp only [statusRead, hop]
  exact if_pos ⟨rfl, rfl⟩

/-- R142: a value that shows a store; after the first one 0xFF is judged by its busy bit (log 6). -/
theorem statusRead_probing (h : s.store.op = .probing none ∧ v ≠ 0xFF ∨ ∃ n, s.store.op = .probing (some n)) :
    statusRead v s =
      if statusBusy v then { s with store.op := .probing (some Config.pollMs) }
      else { s with store.op := .header } := by
  rcases h with ⟨hop, hv⟩ | ⟨n, hop⟩
  · simp only [statusRead, hop]
    exact if_neg fun h => hv h.2
  · simp only [statusRead, hop]
    exact if_neg fun h => Bool.false_ne_true h.1

theorem pollTimeout_probing {n : Nat} (hop : s.store.op = .probing (some n)) :
    pollTimeout s = { s with store.op := .header } := by
  simp only [pollTimeout, hop, pollTimed, Option.isSome_some, if_true]

/-! ### The header read (R143, R156 to R158) -/

theorem headerRead_bad {f : HeaderField} (hop : s.store.op = .header) (hlen : bytes.length = 12)
    (hjudged : judgeHeader bytes = .error f) : headerRead bytes s = halt .badHeader { s with store.op := .idle } := by
  rw [headerRead, if_pos ⟨hop, hlen⟩, hjudged]

theorem headerRead_valid {h : Header} (hop : s.store.op = .header) (hlen : bytes.length = 12)
    (hjudged : judgeHeader bytes = .ok h) : headerRead bytes s = enterCensus h { s with store.op := .idle } := by
  rw [headerRead, if_pos ⟨hop, hlen⟩, hjudged]

theorem receiverOn_quiet (h : isSending s.line.engine = false) :
    receiverOn s = { s with line := { s.line with receiver := true, engine := .quiet } } := by
  unfold receiverOn
  cases hengine : s.line.engine with
  | sending f id flight => simp [hengine, isSending] at h
  | _ => rfl

/-- R149, R158: with nothing else pending the census read begins at once in the free store. -/
theorem requestCensusRead_free (i : Nat) (h : StoreFree s.store) :
    requestCensusRead i s = { s with store.op := .reading .census i } := by
  obtain ⟨hop, hwrites, hserve, hhost, hcensus⟩ := h
  simp [requestCensusRead, arbitrate, hop, hwrites, hserve, hhost, hcensus]

/-- R156 to R158: the entry to CENSUS with the store free and no frame on its way. -/
theorem enterCensus_reads (h : Header) (hstore : StoreFree s.store) (hengine : isSending s.line.engine = false) :
    enterCensus h s = { s with
      start := { s.start with top := .census, reason := .none, header := some h, cursor := 0 }
      line := { s.line with receiver := true, engine := .quiet }
      segs := {
        recs := List.replicate h.count unknownRec, digests := List.replicate (h.count / Config.bankSize) 0 }
      roster.banks := List.replicate (h.count / Config.bankSize) ⟨none, none⟩
      store.op := .reading .census 0 } := by
  refine (congrArg (requestCensusRead 0) (receiverOn_quiet ?_)).trans (requestCensusRead_free 0 ?_)
  · exact hengine
  · exact hstore

/-- Settles O55: the probe by its status values and its time-out, the header read by the judgement of its bytes
(`headerRead_bad`, `headerRead_valid`), and the state of CENSUS by `enterCensus_reads`. -/
theorem probeAndHeader : Obligations.ProbeAndHeader := by
  refine ⟨fun s => ⟨fun hop => congrArg _ (statusRead_noStore hop), fun v h => ⟨fun hbusy => ?_, fun hfree => ?_⟩,
    fun n hop => congrArg _ (pollTimeout_probing hop),
    fun bytes f hop hlen hjudged => congrArg _ (headerRead_bad hop hlen hjudged)⟩, ?_⟩
  · exact congrArg _ ((statusRead_probing h).trans (if_pos hbusy))
  · exact congrArg _ ((statusRead_probing h).trans (if_neg (Bool.not_eq_true _ ▸ hfree)))
  · intro s bytes h hop hlen hjudged hwrites hserve hhost hcensus hengine
    exact congrArg _ ((headerRead_valid hop hlen hjudged).trans
      (enterCensus_reads h ⟨rfl, hwrites, hserve, hhost, hcensus⟩ hengine))

/-! ### The slot write up to its readback (R145, R146) -/

theorem statusRead_beforeWrite (hop : s.store.op = .writing w false) (hv : v ≠ 0xFF) : statusRead v s =
    if statusBusy v then { s with store.op := .writing (timed w) false }
    else { s with store.op := .writing { w with timer := none } true } := by
  simp only [statusRead, hop]
  exact if_neg hv

theorem writeSequenceEnd_commit {b : CommitBuffer} (hop : s.store.op = .writing w true) (hclient : w.client = .commit)
    (hb : s.repair.commit = some b) :
    writeSequenceEnd s = { s with store.op := .polling (timed { w with signature := some b.signature }) } := by
  have hx : writeSignature w s = b.signature := by simp [writeSignature, hclient, hb]
  simp only [writeSequenceEnd, hop, hx, hclient]

theorem writeSequenceEnd_publish (hop : s.store.op = .writing w true) (hclient : w.client = .publish) :
    writeSequenceEnd s = { s with store := { s.store with
      op := .polling (timed { w with signature := some (signatureOf w.stamp s.host.staging) })
      computed := some (signatureOf w.stamp s.host.staging) } } := by
  have hx : writeSignature w s = signatureOf w.stamp s.host.staging := by simp [writeSignature, hclient]
  simp only [writeSequenceEnd, hop, hx, hclient]

theorem statusRead_polling_recovers (hop : s.store.op = .polling w) (hv : v ≠ 0xFF) (herror : statusError v = true)
    (hbusy : statusBusy v = true) : statusRead v s = { s with store.op := .recovering (timed w) .error } := by
  have hpresent : v ≠ Config.absentByte := hv
  simp only [statusRead, hop, judgePolling, hpresent, herror, hbusy, if_true, if_false]

theorem statusRead_polling_verifies (hop : s.store.op = .polling w) (hv : v ≠ 0xFF) (herror : statusError v = false)
    (hbusy : statusBusy v = false) : statusRead v s = { s with store.op := .verifying { w with timer := none } } := by
  have hpresent : v ≠ Config.absentByte := hv
  simp only [statusRead, hop, judgePolling, hpresent, herror, hbusy, Bool.false_eq_true, if_false]

theorem statusRead_polling_waits (hop : s.store.op = .polling w) (hv : v ≠ 0xFF) (herror : statusError v = false)
    (hbusy : statusBusy v = true) : statusRead v s = s := by
  have hpresent : v ≠ Config.absentByte := hv
  simp only [statusRead, hop, judgePolling, hpresent, herror, hbusy, Bool.false_eq_true, if_true, if_false]

theorem pollTimeout_polling (hop : s.store.op = .polling w) (htimer : w.timer.isSome = true) :
    pollTimeout s = { s with store.op := .recovering (timed w) .timeout } := by
  simp only [pollTimeout, hop, pollTimed, htimer, if_true]

theorem pollTimeout_untimed (h : pollTimed s.store.op = false) : pollTimeout s = s := if_neg (by simp [h])

/-- R145, R146: the polls of a write are timed by the 20 ms its operation holds (log 5). -/
theorem pollTimed_write (hop : s.store.op = .writing w false ∨ s.store.op = .polling w ∨
    ∃ f, s.store.op = .recovering w f) : pollTimed s.store.op = w.timer.isSome := by
  rcases hop with hop | hop | ⟨f, hop⟩ <;> rw [hop] <;> rfl

theorem statusRead_recovering {f : WriteFailure} (hop : s.store.op = .recovering w f) (hbusy : statusBusy v = true) :
    statusRead v s = s := by
  simp only [statusRead, hop, hbusy, if_true]

/-- Settles O57, by the operation in progress: the wait before the sequence, its end, POLLING and RECOVERING. -/
theorem writeFollowsStatus : Obligations.WriteFollowsStatus := by
  intro s w v _ timed20
  refine ⟨fun hop hv => congrArg _ (statusRead_beforeWrite hop hv),
    fun b hop hclient hb => congrArg _ (writeSequenceEnd_commit hop hclient hb),
    fun hop hclient => congrArg _ (writeSequenceEnd_publish hop hclient), fun hop hv => ?_,
    fun hop htimer => congrArg _ (pollTimeout_polling hop htimer), fun hop htimer => ?_,
    fun f hop hbusy => congrArg _ (statusRead_recovering hop hbusy)⟩
  · exact ⟨fun herror hbusy => congrArg _ (statusRead_polling_recovers hop hv herror hbusy),
      fun herror hbusy => congrArg _ (statusRead_polling_verifies hop hv herror hbusy),
      fun herror hbusy => congrArg _ (statusRead_polling_waits hop hv herror hbusy)⟩
  · exact congrArg _ (pollTimeout_untimed ((pollTimed_write hop).trans (by rw [htimer]; rfl)))

end Sys2Proof.Machine
end

section
/-! PROOFS. The starts (R151, R155, R167): the straps sampled once, the warm restart with the store idle and with an
operation in progress, and the halt for station number 0. -/

namespace Sys2Proof.Machine

/- Theorems elaborated side by side pass the memory the check allows (as in Tests/Slice0.lean). -/
set_option Elab.async false

variable {s : State}

/-- Settles O3: the state right after reset is what a cold start leaves. -/
theorem resetMeetsInvariant : Obligations.ResetMeetsInvariant := coldStart_inv (s := State.reset)

/-! ### What follows the straps (R155) -/

theorem afterStraps_halts (hstation : s.start.station = 0) : afterStraps s = halt .badStation s := if_pos hstation

theorem afterStraps_probes (hstation : s.start.station ≠ 0) : afterStraps s = probe s := if_neg hstation

theorem sampleStraps_due (stn : BitVec 4) (rate : BitVec 2) (hdue : s.start.strapsDue = true) :
    sampleStraps stn rate s =
      afterStraps { s with start.strapsDue := false, start.station := stn, start.rate := rateOf rate } := if_pos hdue

theorem sampleStraps_past (stn : BitVec 4) (rate : BitVec 2) (hpast : s.start.strapsDue = false) :
    sampleStraps stn rate s = s := if_neg (by simp [hpast])

/-- R194: the RATE straps. -/
theorem rateOf_eq (rate : BitVec 2) : rateOf rate =
    if rate = 0 then .kbit125 else if rate = 1 then .kbit250 else if rate = 2 then .kbit500 else .kbit1000 := by
  revert rate
  decide

/-- Settles O54: the straps are due after a cold start, and what follows them goes by the number they spell. -/
theorem coldStartSamplesStraps : Obligations.ColdStartSamplesStraps := by
  intro s stn rate reset kbit sampled
  have hdue : sampleStraps stn rate reset = afterStraps sampled := by
    rw [sampleStraps_due stn rate rfl, rateOf_eq]
  refine ⟨rfl, fun hstation => ?_, fun hstation => ?_, fun hpast => congrArg _ (sampleStraps_past stn rate hpast)⟩
  · exact congrArg _ (hdue.trans (afterStraps_probes hstation))
  · exact congrArg _ (hdue.trans (afterStraps_halts hstation))

/-! ### The warm restart (R151, R167) -/

/-- R167: the buffers are freed and the wait, if there was one, is over. -/
def restartFreed (s : State) : State := { freeBuffers s with start.storeWait := false }

theorem restartGoesOn_probes (hstation : s.start.station ≠ 0) : restartGoesOn s = probe (restartFreed s) :=
  afterStraps_probes hstation

theorem restartGoesOn_halts (hstation : s.start.station = 0) :
    restartGoesOn s = halt .badStation (restartFreed s) := afterStraps_halts hstation

/-- R151: the operation in progress ends first. -/
theorem restartSequence_waits (hop : s.store.op ≠ .idle) :
    restartSequence s = { restartClears s with start.storeWait := true } := if_pos hop

/-- R183: the halt for number 0 is not part of the RESTART (log 34). -/
theorem restartSequence_rests (hop : s.store.op = .idle) (hstation : s.start.station = 0) :
    restartSequence s = restartFreed (restartClears s) :=
  (if_neg (not_not.mpr hop)).trans (if_pos hstation)

theorem restartSequence_probes (hop : s.store.op = .idle) (hstation : s.start.station ≠ 0) :
    restartSequence s = probe (restartFreed (restartClears s)) :=
  (if_neg (not_not.mpr hop)).trans ((if_neg hstation).trans (restartGoesOn_probes (s := restartClears s) hstation))

/-- R167: when the part halts of its own accord. -/
theorem haltsNext_iff : haltsNext s = true ↔ s.start.top = .starting ∧ s.start.station = 0 ∧
    s.start.strapsDue = false ∧ s.start.storeWait = false ∧ s.store.op = .idle := by
  simp [haltsNext, and_assoc]

theorem startGoesOn_halts (h : haltsNext s = true) : startGoesOn s = halt .badStation s := if_pos h

/-- R183: RESTART is taken outside STARTING. -/
theorem exec_restart (ht : s.start.top ≠ .starting) :
    exec .restart s = .next (answered .done [] (restartSequence s)) := by
  have htaken : inHaltedOn s.start.top = true := by
    revert ht
    cases s.start.top with
    | starting => exact absurd rfl
    | _ => exact fun _ => rfl
  exact congrArg _ (takeCommand_rule htaken rfl)

theorem exec_restartStoreWaitEnd_waiting (h : s.start.storeWait = true) :
    exec .restartStoreWaitEnd s = .next (restartGoesOn s) := congrArg _ (if_pos h)

theorem exec_restartStoreWaitEnd_idle (h : s.start.storeWait = false) :
    exec .restartStoreWaitEnd s = .next (startGoesOn s) := congrArg _ (if_neg (by simp [h]))

/-- Settles O53: the RESTART by the operation in progress and the station number (`restartSequence_waits`,
`restartSequence_rests`, `restartSequence_probes`), and what ends the wait. -/
theorem restartClearsAndWaits : Obligations.RestartClearsAndWaits := by
  intro s ht line cleared probing halted holding
  have taken {u : State} (h : restartSequence s = u) : exec .restart s = .next (answered .done [] u) := by
    rw [exec_restart ht, h]
  refine ⟨fun hop hstation => ?_, fun hop hstation => ⟨?_, fun hpast => ?_⟩, fun hop => ⟨?_, fun hstation => ?_,
    fun hstation => ?_⟩⟩
  · exact taken (restartSequence_probes hop hstation)
  · exact taken (restartSequence_rests hop hstation)
  · have hcleared : haltsNext cleared = true := haltsNext_iff.mpr ⟨rfl, hstation, hpast, rfl, rfl⟩
    have hempty : haltsNext { cleared with pending := [] } = true := hcleared
    exact ⟨congrArg _ (startGoesOn_halts hempty),
      (exec_restartStoreWaitEnd_idle rfl).trans (congrArg _ (startGoesOn_halts hcleared))⟩
  · exact taken (restartSequence_waits hop)
  · exact (exec_restartStoreWaitEnd_waiting rfl).trans (congrArg _ (restartGoesOn_probes hstation))
  · exact (exec_restartStoreWaitEnd_waiting rfl).trans (congrArg _ (restartGoesOn_halts hstation))

end Sys2Proof.Machine
end

section
/-! PROOFS. The moves of the top state (R154): every operation either leaves what the Start-up Controller holds of them,
or makes a move of the table. -/

namespace Sys2Proof.Machine

/- Theorems elaborated side by side pass the memory the check allows (as in Tests/Slice0.lean). -/
set_option Elab.async false

variable {s t u : State} {moves : List (TopState × TopState × Reason)}

/-- R154: from `s` to `t` the top state and its reason stay, or make one of these moves. -/
def TopMoves (moves : List (TopState × TopState × Reason)) (s t : State) : Prop :=
  (t.start.top = s.start.top ∧ t.start.reason = s.start.reason) ∨ (s.start.top, t.start.top, t.start.reason) ∈ moves

namespace TopMoves

theorem of_start (h : t.start = s.start) : TopMoves moves s t := .inl ⟨by rw [h], by rw [h]⟩

theorem of_inner (h : Inner s t) : TopMoves moves s t := of_start h.start

theorem refl (s : State) : TopMoves moves s s := of_start rfl

/-- What comes before the move leaves the Start-up Controller alone. -/
theorem after (hs : u.start = s.start) (h : TopMoves moves u t) : TopMoves moves s t := by
  rw [TopMoves, ← hs]
  exact h

/-- What comes after it does. -/
theorem before (h : TopMoves moves s u) (ht : t.start = u.start) : TopMoves moves s t := by
  rw [TopMoves, ht]
  exact h

end TopMoves

open TopMoves

/-! ### Operations that leave the Start-up Controller alone -/

theorem finishedFrame_start (s : State) : (finishedFrame s).start = s.start := rfl

theorem startTransmission_start (s : State) : (startTransmission s).start = s.start := by
  unfold startTransmission
  repeat' split
  all_goals rfl

theorem loseArbitration_start (s : State) : (loseArbitration s).start = s.start := by
  unfold loseArbitration
  split <;> rfl

theorem endedCleanly_start (s : State) : (endedCleanly s).start = s.start := by
  unfold endedCleanly
  split
  · exact (tellEnd_inner _).start
  · rfl
  · rfl
  · rfl

theorem lineChange_start (b : Prop) [Decidable b] (l : Line) (s : State) :
    (if b then { s with line := l } else s).start = s.start := by
  split <;> rfl

theorem deliverPoll_start (p : Station) (i : Nat) (t : Stamp) (x : Signature) (ht : s.start.top = .active)
    (hp : p ≠ s.start.station) : (deliverPoll p i t x s).start = s.start := by
  obtain ⟨u, n, hu, heq⟩ := deliverPoll_inner (s := s) p i t x ht hp
  rw [heq]
  exact hu.start

theorem deliverDigest_start (p : Station) (b : Nat) (x : Signature) (s : State) :
    (deliverDigest p b x s).start = s.start := by
  unfold deliverDigest
  repeat' split
  · rfl
  · rfl
  · exact offer_start _ s

theorem inActive_start (f : State → State) (hf : s.start.top = .active → (f s).start = s.start) :
    (inActive f s).start = s.start := by
  unfold inActive
  split
  · rename_i h
    exact hf h
  · rfl

theorem disputeStationLost_start (p : Station) (s : State) : (disputeStationLost p s).start = s.start :=
  (foldAny_inner _ (fun u i => evaluate_inner (s := u) i) _ _).start

theorem silenceExpiry_start (p : Station) (s : State) : (silenceExpiry p s).start = s.start := by
  have told (u : State) : (stationLost p u).start = u.start :=
    (disputeStationLost_start p _).trans ((engineStationLost_inner p).trans (serveStationLost_inner p)).start
  unfold silenceExpiry
  split
  · exact (told _).trans (setRoster_start _ p _)
  · rfl

theorem beaconExpiry_start (s : State) : (beaconExpiry s).start = s.start := by
  unfold beaconExpiry
  split
  · exact offer_start _ s
  · rfl

theorem holdoffExpiry_start (b : Nat) (s : State) : (holdoffExpiry b s).start = s.start := by
  unfold holdoffExpiry
  repeat' split
  all_goals rfl

theorem writeSequenceEnd_start (s : State) : (writeSequenceEnd s).start = s.start := by
  unfold writeSequenceEnd
  split <;> rfl

theorem endOp_start (s : State) : (endOp s).start = s.start := arbitrate_start _

theorem joinLine_start (s : State) : (joinLine s).start = s.start := by
  obtain ⟨_, hself, offered, worked⟩ := joinLine_moves s
  exact worked.start.trans (offered.start.trans hself)

/-! ### Host commands -/

theorem takeCommand_start (f : TopState → Bool) (g : State → Bool) (rule : State → State)
    (hr : f s.start.top = true → (rule s).start = s.start) : (takeCommand f g rule s).start = s.start := by
  unfold takeCommand
  repeat' split
  · rfl
  · rfl
  · rename_i h _
    exact hr (by simpa using h)

theorem readRule_start (i : Nat) (s : State) : (readRule i s).start = s.start := by
  unfold readRule
  repeat' split
  · rfl
  · rfl
  · exact arbitrate_start _

theorem takeRule_start (s : State) : (takeRule s).start = s.start := by
  unfold takeRule
  split <;> rfl

theorem stageRule_start (o : Nat) (b : List Byte) (s : State) : (stageRule o b s).start = s.start := by
  unfold stageRule
  split <;> rfl

theorem publishRule_start (i : Nat) (s : State) : (publishRule i s).start = s.start := by
  unfold publishRule
  split
  · rfl
  · exact (requestWrite_moves _ _).start.trans (publish_moves i s).start

theorem freshenActive_start (i : Nat) (ht : listening s.start.top = true) : (freshenActive i s).start = s.start := by
  unfold freshenActive
  dsimp only
  split
  · rfl
  · split
    · rfl
    · rename_i hrefuse
      have hpin : pinned s i = false := by simpa using (not_or.mp hrefuse).1
      split
      · exact (askBank_inner i).start
      · split
        · rename_i hf
          exact (enterQueue_inner .demand i hpin (.inr (.inl hf)) ht).start
        · split
          · rename_i hf
            exact (freshenEnter_inner i ht hpin hf.1).start
          · rfl

theorem freshenRule_start (i : Nat) (ht : inRunning s.start.top = true) : (freshenRule i s).start = s.start := by
  unfold freshenRule
  split
  · rfl
  · rename_i hd
    have hactive : s.start.top = .active := (inRunning_iff.mp ht).resolve_right hd
    exact freshenActive_start i (listening_active hactive)

theorem pinRule_start (i : Nat) (s : State) : (pinRule i s).start = s.start := by
  have cancelled (u : State) : (pinCancel i u).start = u.start := by
    unfold pinCancel cancelEntry
    split
    · exact ((dropEntry_inner i).trans ((settle_inner i).trans (backfill_inner.trans pick_inner))).start
    · rfl
  unfold pinRule
  repeat' split
  · rfl
  · rfl
  · exact cancelled _

theorem unpinRule_start (i : Nat) (s : State) : (unpinRule i s).start = s.start := by
  unfold unpinRule
  split
  · exact (offerRepair_inner i).start
  · rfl

theorem acceptRule_start (i : Nat) (s : State) : (acceptRule i s).start = s.start := by
  unfold acceptRule
  split
  · exact ((closeSettle_inner i).trans (takeUpIf_inner _)).start
  · rfl

/-! ### ACTIVE and DETACHED (R29, R162, R163, R166) -/

theorem countClash_top (hm : (.active, .detached, .clash) ∈ moves) (s : State) : TopMoves moves s (countClash s) := by
  unfold countClash
  dsimp only
  split
  · rename_i h
    refine .inr ?_
    rw [(detachSequence_leaves .clash _).start, show s.start.top = .active from h.2]
    exact hm
  · exact refl s

theorem ownNumber_top (hm : (.active, .detached, .clash) ∈ moves) (s : State) : TopMoves moves s (ownNumber s) := by
  unfold ownNumber
  split
  · exact countClash_top hm s
  · exact refl s

theorem clashed_top (hm : (.active, .detached, .clash) ∈ moves) (s : State) : TopMoves moves s (clashed s) := by
  unfold clashed
  split
  · refine TopMoves.after ?_ (countClash_top hm _)
    exact (tellEnd_inner _).start
  · exact TopMoves.after (finishedFrame_start s) (countClash_top hm _)
  · exact of_start (finishedFrame_start s)
  · exact refl s

/-- R32: a received frame moves the top state as an own-number frame at the limit, whatever its body does. -/
theorem receiveFrame_top (hm : (.active, .detached, .clash) ∈ moves) (p q : Station) (b : Body) (f : State → State)
    (hf : ∀ u : State, p ≠ u.start.station → (f u).start = u.start) (s : State) :
    TopMoves moves s (receiveFrame p q b f s) := by
  unfold receiveFrame
  split
  · exact refl s
  · dsimp only
    split
    · exact of_start rfl
    · split
      · exact TopMoves.after (u := endReception s) rfl (ownNumber_top hm _)
      · rename_i hp
        have noted : (presence p (endReception s)).start = s.start := presence_start p
        split
        · exact of_start ((hf _ (by rw [noted]; exact hp)).trans noted)
        · exact of_start noted

theorem detachRule_top (hm : (.active, .detached, .host) ∈ moves) (s : State) : TopMoves moves s (detachRule s) := by
  unfold detachRule
  split
  · rename_i ht
    refine .inr ?_
    rw [answer_start, (detachSequence_leaves .host s).start, ht]
    exact hm
  · exact of_start rfl

theorem attachRule_top (hm : (.detached, .active, .none) ∈ moves) (s : State) : TopMoves moves s (attachRule s) := by
  unfold attachRule
  split
  · rename_i ht
    refine .inr ?_
    rw [answer_start, attachSequence, joinLine_start, ht]
    exact hm
  · exact of_start rfl

/-! ### The starts (R155, R156, R167) -/

theorem halt_top {r : Reason} (ht : s.start.top = .starting) (hm : (.starting, .halted, r) ∈ moves) :
    TopMoves moves s (halt r s) := by
  refine .inr ?_
  rw [ht]
  exact hm

theorem afterStraps_top (ht : s.start.top = .starting) (hm : (.starting, .halted, .badStation) ∈ moves) :
    TopMoves moves s (afterStraps s) := by
  by_cases hstation : s.start.station = 0
  · rw [afterStraps_halts hstation]
    exact halt_top ht hm
  · rw [afterStraps_probes hstation]
    exact of_start rfl

/-- R155: the straps are due in STARTING alone. -/
theorem sampleStraps_top (stn : BitVec 4) (rate : BitVec 2) (c : Inv s)
    (hm : (.starting, .halted, .badStation) ∈ moves) : TopMoves moves s (sampleStraps stn rate s) := by
  unfold sampleStraps
  split
  · rename_i hdue
    exact afterStraps_top (c.governed.straps hdue).1 hm
  · exact refl s

theorem restartGoesOn_top (ht : s.start.top = .starting) (hm : (.starting, .halted, .badStation) ∈ moves) :
    TopMoves moves s (restartGoesOn s) :=
  afterStraps_top (s := restartFreed s) ht hm

theorem startGoesOn_top (hm : (.starting, .halted, .badStation) ∈ moves) (s : State) :
    TopMoves moves s (startGoesOn s) := by
  unfold startGoesOn
  split
  · rename_i h
    exact halt_top (haltsNext_iff.mp h).1 hm
  · exact refl s

/-- R167: a RESTART leaves the part in STARTING, before any halt. -/
theorem restartSequence_starting (s : State) :
    (restartSequence s).start.top = .starting ∧ (restartSequence s).start.reason = .none := by
  by_cases hop : s.store.op = .idle
  · by_cases hstation : s.start.station = 0
    · rw [restartSequence_rests hop hstation]
      exact ⟨rfl, rfl⟩
    · rw [restartSequence_probes hop hstation]
      exact ⟨rfl, rfl⟩
  · rw [restartSequence_waits hop]
    exact ⟨rfl, rfl⟩

/-- R156: the header read belongs to STARTING. -/
theorem headerRead_top (l : List Byte) (c : Inv s) (hvalid : (.starting, .census, .none) ∈ moves)
    (hbad : (.starting, .halted, .badHeader) ∈ moves) : TopMoves moves s (headerRead l s) := by
  unfold headerRead
  split
  · rename_i h
    have ht : s.start.top = .starting := (c.governed.probing (.inr h.1)).1
    split
    · refine .inr ?_
      rw [enterCensus, requestCensusRead, arbitrate_start, ht]
      exact hvalid
    · exact halt_top ht hbad
  · exact refl s

/-! ### Ends of store operations (R148, R151) -/

/-- R148, R151: the end of a write changes no top state, but for the warm restart that waits for it. -/
theorem endWrite_top (w : WriteOp) (f : Option WriteFailure) (hop : s.store.op ≠ .idle) (c : Inv s)
    (hm : (.starting, .halted, .badStation) ∈ moves) : TopMoves moves s (endWrite w f s) := by
  unfold endWrite
  split
  · rename_i hw
    exact restartGoesOn_top (c.governed.waiting hw) hm
  · exact of_start ((endOp_start _).trans (applyWrite_quiet w f hop).1)

theorem judgePolling_top (w : WriteOp) (v : Byte) (hop : s.store.op ≠ .idle) (c : Inv s)
    (hm : (.starting, .halted, .badStation) ∈ moves) : TopMoves moves s (judgePolling w v s) := by
  unfold judgePolling
  repeat' split
  · exact endWrite_top w _ hop c hm
  · exact of_start rfl
  · exact endWrite_top w _ hop c hm
  · exact refl s
  · exact of_start rfl

theorem statusRead_top (v : Byte) (c : Inv s) (hstore : (.starting, .halted, .noStore) ∈ moves)
    (hm : (.starting, .halted, .badStation) ∈ moves) : TopMoves moves s (statusRead v s) := by
  unfold statusRead
  split
  · rename_i p hop
    repeat' split
    · exact halt_top (c.governed.probing (.inl ⟨p, hop⟩)).1 hstore
    · exact of_start rfl
    · exact of_start rfl
  · rename_i hop
    repeat' split
    · exact endWrite_top _ _ (by simp [hop]) c hm
    · exact of_start rfl
    · exact of_start rfl
  · rename_i hop
    exact judgePolling_top _ v (by simp [hop]) c hm
  · rename_i hop
    split
    · exact refl s
    · exact endWrite_top _ _ (by simp [hop]) c hm
  · exact refl s

theorem pollTimeout_top (c : Inv s) (hm : (.starting, .halted, .badStation) ∈ moves) :
    TopMoves moves s (pollTimeout s) := by
  unfold pollTimeout
  split
  · split
    · exact of_start rfl
    · rename_i hop
      exact endWrite_top _ _ (by simp [hop]) c hm
    · exact of_start rfl
    · rename_i hop
      exact endWrite_top _ _ (by simp [hop]) c hm
    · exact refl s
  · exact refl s

theorem readback_top (l : List Byte) (c : Inv s) (hm : (.starting, .halted, .badStation) ∈ moves) :
    TopMoves moves s (readback l s) := by
  unfold readback
  split
  · rename_i hop
    split
    · exact endWrite_top _ _ (by simp [hop]) c hm
    · exact refl s
  · exact refl s

theorem hostReadEnd_start (i : Nat) (r : SlotResult) (data : List Byte) (s : State) :
    (hostReadEnd i r data s).start = s.start := by
  have judged : (if (hostVerdict r).1 then s else signatureFailure i s).start = s.start := by
    split
    · rfl
    · exact (signatureFailure_inner i).start
  exact judged

/-- R158, R162: the last read of the census enters ACTIVE. -/
theorem censusReadEnd_top (i : Nat) (r : SlotResult) (hop : s.store.op ≠ .idle) (ht : s.start.top = .census)
    (hm : (.census, .active, .none) ∈ moves) : TopMoves moves s (censusReadEnd i r s) := by
  have applied : (applyCensus i r s).start = s.start := (applyCensus_quiet i r hop).1
  unfold censusReadEnd requestCensusRead
  dsimp only
  split
  · refine .inl ?_
    rw [arbitrate_start, applied]
    exact ⟨rfl, rfl⟩
  · refine .inr ?_
    rw [enterActive, joinLine_start, ht]
    exact hm

theorem handRead_top (client : ReadClient) (i : Nat) (hop : s.store.op ≠ .idle)
    (ht : client = .census → s.start.top = .census) (hm : (.census, .active, .none) ∈ moves) :
    TopMoves moves s (handRead client i s) := by
  unfold handRead
  cases client with
  | serve => exact of_inner (serveReadEnd_inner i _ _)
  | host => exact of_start (hostReadEnd_start i _ _ s)
  | census => exact censusReadEnd_top i _ hop (ht rfl) hm

/-- R144, R151, R158: a census read ends in CENSUS, or under the warm restart that waits for it. -/
theorem slotRead_top (l : List Byte) (c : Inv s) (hcensus : (.census, .active, .none) ∈ moves)
    (hm : (.starting, .halted, .badStation) ∈ moves) : TopMoves moves s (slotRead l s) := by
  unfold slotRead
  split
  · rename_i client i hop
    split
    · have filled : (fillTransfer l s).start = s.start := rfl
      dsimp only
      split
      · rename_i hw
        exact TopMoves.after filled (restartGoesOn_top (c.governed.waiting hw) hm)
      · rename_i hw
        refine TopMoves.after filled (TopMoves.before (handRead_top client i ?_ ?_ hcensus) (endOp_start _))
        · exact fun hidle => by cases hop.symm.trans hidle
        · rintro rfl
          exact (c.governed.census i hop).1.resolve_right hw
    · exact refl s
  · exact refl s

/-! ### Every command -/

theorem takeCommand_top (f : TopState → Bool) (g : State → Bool) (rule : State → State)
    (hr : f s.start.top = true → TopMoves moves s (rule s)) : TopMoves moves s (takeCommand f g rule s) := by
  unfold takeCommand
  repeat' split
  · exact of_start rfl
  · exact of_start rfl
  · rename_i h _
    exact hr (by simpa using h)

theorem restart_top (s : State) : TopMoves (topMoves .restart) s
    (takeCommand inHaltedOn noArgs (fun s => answer .done [] (restartSequence s)) s) := by
  refine takeCommand_top _ _ _ fun ht => .inr ?_
  obtain ⟨htop, hreason⟩ := restartSequence_starting s
  have htaken := restart_taken ht
  rw [answer_start, htop, hreason]
  cases hold : s.start.top <;> simp_all [topMoves]

/-- R154: every command, in the order of the opcode table. -/
theorem exec_topMoves (c : Instr) (s : State) (hs : Inv s) : ∀ t, exec c s = .next t → TopMoves (topMoves c) s t := by
  cases c with
  | coldStart =>
    refine of_next (.inr ?_)
    show (s.start.top, TopState.starting, Reason.none) ∈ _
    cases s.start.top <;> simp [topMoves]
  | strapSampling stn rate => exact of_next (sampleStraps_top stn rate hs (.head _))
  | storeStatusReadEnd v => exact of_next (statusRead_top v hs (.head _) (.tail _ (.head _)))
  | storePollTimeout => exact of_next (pollTimeout_top hs (.head _))
  | headerReadEnd l => exact of_next (headerRead_top l hs (.head _) (.tail _ (.head _)))
  | writeSequenceEnd => exact of_next (of_start (writeSequenceEnd_start s))
  | readbackEnd l => exact of_next (readback_top l hs (.head _))
  | slotReadEnd l => exact of_next (slotRead_top l hs (.head _) (.tail _ (.head _)))
  | restartStoreWaitEnd =>
    refine of_next ?_
    split
    · rename_i hw
      exact restartGoesOn_top (hs.governed.waiting hw) (.head _)
    · exact startGoesOn_top (.head _) s
  | lineIdle => exact of_next (of_start (lineChange_start _ _ s))
  | startBit => exact of_next (of_start (lineChange_start _ _ s))
  | transmissionStart => exact of_next (of_start (startTransmission_start s))
  | arbitrationLoss => exact of_next (of_start (loseArbitration_start s))
  | clash => exact of_next (clashed_top (.head _) s)
  | cleanEnd => exact of_next (of_start (endedCleanly_start s))
  | frameDiscarded _ => exact of_next (of_start (lineChange_start _ _ s))
  | ownNumberFrame =>
    refine of_next ?_
    split
    · exact TopMoves.after (u := endReception s) rfl (ownNumber_top (.head _) _)
    · exact refl s
  | news p i t x =>
    exact of_next (receiveFrame_top (.head _) _ _ _ _ (fun u hp => (deliverNews_inner p _ t x hp).start) s)
  | poll p i t x =>
    exact of_next (receiveFrame_top (.head _) _ _ _ _
      (fun u hp => inActive_start _ fun ht => deliverPoll_start p _ t x ht hp) s)
  | ballot p i t x =>
    exact of_next (receiveFrame_top (.head _) _ _ _ _
      (fun u hp => inActive_start _ fun ht => (deliverBallot_inner p _ t x ht hp).start) s)
  | request p q i t m =>
    exact of_next (receiveFrame_top (.head _) _ _ _ _
      (fun u _ => inActive_start _ fun ht => (takeRequest_inner p _ t m ht).start) s)
  | nohave p q i t =>
    exact of_next (receiveFrame_top (.head _) _ _ _ _
      (fun u _ => inActive_start _ fun _ => (deliverNohave_inner p _).start) s)
  | busy p q i =>
    exact of_next (receiveFrame_top (.head _) _ _ _ _
      (fun u _ => inActive_start _ fun ht => (deliverBusy_inner p _ ht).start) s)
  | data p q i t ch bytes =>
    exact of_next (receiveFrame_top (.head _) _ _ _ _
      (fun u _ => inActive_start _ fun ht => (deliverData_inner p _ t ch bytes ht).start) s)
  | sigquery p q b =>
    exact of_next (receiveFrame_top (.head _) _ _ _ _
      (fun u _ => inActive_start _ fun _ => (deliverSigquery_inner _).start) s)
  | siglist p b k entries =>
    exact of_next (receiveFrame_top (.head _) _ _ _ _
      (fun u hp => (listEntries_inner p entries _ u hp).start) s)
  | digest p b x =>
    exact of_next (receiveFrame_top (.head _) _ _ _ _
      (fun u _ => inActive_start _ fun _ => deliverDigest_start p _ x u) s)
  | silenceTimerExpiry p => exact of_next (of_start (silenceExpiry_start p s))
  | beaconTimerExpiry => exact of_next (of_start (beaconExpiry_start s))
  | queryHoldoffExpiry b => exact of_next (of_start (holdoffExpiry_start b.toNat s))
  | patienceTimerExpiry => exact of_next (of_inner patienceExpiry_inner)
  | disputeDeadlineExpiry i => exact of_next (of_inner (deadlineExpiry_inner i.toNat))
  | transactionCutShort => exact of_next (refl s)
  | unknownCommand code =>
    refine of_next (of_start ?_)
    split <;> rfl
  | status => exact of_next (of_start (takeCommand_start _ _ _ fun _ => rfl))
  | seginfo i => exact of_next (of_start (takeCommand_start _ _ _ fun _ => rfl))
  | roster => exact of_next (of_start (takeCommand_start _ _ _ fun _ => rfl))
  | read i => exact of_next (of_start (takeCommand_start _ _ _ fun _ => readRule_start _ s))
  | take => exact of_next (of_start (takeCommand_start _ _ _ fun _ => takeRule_start s))
  | stage o n bytes =>
    refine of_next (of_start ?_)
    split
    · rfl
    · exact takeCommand_start _ _ _ fun _ => stageRule_start _ _ s
  | publish i => exact of_next (of_start (takeCommand_start _ _ _ fun _ => publishRule_start _ s))
  | freshen i => exact of_next (of_start (takeCommand_start _ _ _ fun ht => freshenRule_start _ ht))
  | pin i => exact of_next (of_start (takeCommand_start _ _ _ fun _ => pinRule_start _ s))
  | unpin i => exact of_next (of_start (takeCommand_start _ _ _ fun _ => unpinRule_start _ s))
  | accept i => exact of_next (of_start (takeCommand_start _ _ _ fun _ => acceptRule_start _ s))
  | events n => exact of_next (of_start (takeCommand_start _ _ _ fun _ => rfl))
  | detach => exact of_next (takeCommand_top _ _ _ fun _ => detachRule_top (.head _) s)
  | attach => exact of_next (takeCommand_top _ _ _ fun _ => attachRule_top (.head _) s)
  | restart => exact of_next (restart_top s)

/-- Settles O7: the command at hand moves the top state by its row (`exec_topMoves`); with none waiting there is the
halt of a warm restart alone. -/
theorem topStateMovesByTable : Obligations.TopStateMovesByTable := by
  refine ⟨fun c s t hs h => exec_topMoves c s hs t h, fun s t _ hp h => ?_⟩
  have hstep : step s = .next (startGoesOn s) := by simp only [step, hp]
  have moved : ∀ v, (Host.Outcome.next (startGoesOn s) : Result) = .next v →
      TopMoves [(.starting, .halted, .badStation)] s v := of_next (startGoesOn_top (by simp) s)
  exact (moved t (hstep ▸ h)).imp id fun hmem => by simpa using hmem

end Sys2Proof.Machine
end
section
/-! PROOFS. The entry to ACTIVE with nothing for backfill and no dispute that waits (R162, R166): the station joins the
line, and a pick follows; ATTACH, where the pick finds nothing. -/

namespace Sys2Proof.Machine

/- Theorems elaborated side by side pass the memory the check allows (as in Tests/Slice0.lean). -/
set_option Elab.async false

variable {s : State}

/-- R34: the DIGEST of bank 0 alone in the outbox. -/
def firstDigest : List Desc := [{ ident := .digest 0, ballotStamp := none, inTransmission := false, renewed := false }]

/-- R45, R48: the state in which self is PRESENT and the beacon has started, the DIGEST of bank 0 alone in the
outbox. -/
def beaconStarted (s : State) : State :=
  { s with
    line.outbox := firstDigest
    roster := { s.roster with
      entries := s.roster.entries.set (s.start.station.toNat - 1) ⟨true, none⟩
      pointer := 1 % s.roster.banks.length
      beacon := some (beaconMs s) } }

/-- R162, R166: what the entry to ACTIVE finds: an own number, an empty outbox, no record for backfill, and no dispute
that waits. -/
structure JoinsQuietly (s : State) : Prop where
  active : s.start.top = .active
  station : s.start.station ≠ 0
  outbox : s.line.outbox = []
  records : ∀ j, j < segCount s → qualifies s j = false
  disputes : NoneWaiting s

theorem JoinsQuietly.startBeacon (h : JoinsQuietly s) :
    startBeacon (setRoster s.start.station ⟨true, none⟩ s) = beaconStarted s := by
  let u : State := { s with roster.entries := s.roster.entries.set (s.start.station.toNat - 1) ⟨true, none⟩ }
  have htakes : Takes u (.digest 0) := ⟨h.active, .inr (show s.line.outbox.length < _ by rw [h.outbox]; decide)⟩
  have hbox : boxWith (.digest 0) u.line.outbox = firstDigest := by
    rw [show u.line.outbox = [] from h.outbox]
    rfl
  rw [setRoster_station _ h.station, Machine.startBeacon, offer_takes htakes, hbox]
  rfl

theorem JoinsQuietly.joinLine (h : JoinsQuietly s) : joinLine s = pick (beaconStarted s) := by
  have hbackfill : backfill (beaconStarted s) = beaconStarted s := backfill_nothing h.records
  have hdisputes : takeUpDisputes (beaconStarted s) = beaconStarted s := takeUpDisputes_rest h.disputes
  rw [Machine.joinLine, h.startBeacon, hbackfill, hdisputes]

/-! ### ATTACH (R166) -/

theorem exec_attach (ht : s.start.top = .active ∨ s.start.top = .detached) : exec .attach s = .next (attachRule s) :=
  congrArg _ (takeCommand_rule (inRunning_iff.mpr ht) rfl)

theorem exec_detach_detached (ht : s.start.top = .detached) : exec .detach s = .next (answered .done [] s) := by
  have hrule : detachRule s = answered .done [] s := congrArg _ (if_neg (by simp [ht]))
  exact congrArg _ ((takeCommand_rule (inRunning_iff.mpr (.inr ht)) rfl).trans hrule)

/-- R166: the state in which ATTACH has turned the Line Interface on. -/
def attachedLine (s : State) : State :=
  { s with
    start := { s.start with top := .active, reason := .none }
    line := { s.line with receiver := true, transmitter := true, engine := .quiet, clashes := 0 } }

theorem attachSequence_eq (hengine : isSending s.line.engine = false) :
    attachSequence s = joinLine (attachedLine s) := by
  let u : State := { s with start.top := .active, start.reason := .none, line.clashes := 0 }
  have hon : receiverOn u = { u with line := { u.line with receiver := true, engine := .quiet } } :=
    receiverOn_quiet hengine
  rw [attachSequence, hon]
  rfl

/-- Settles O52: ATTACH joins the line, and with an empty queue nothing is picked. -/
theorem attachReturnsToActive : Obligations.AttachReturnsToActive := by
  refine fun s => ⟨fun ht => ?_, fun ht => ⟨exec_detach_detached ht, ?_⟩⟩
  · have hrule : attachRule s = answered .done [] s := congrArg _ (if_neg (by simp [ht]))
    exact (exec_attach (.inl ht)).trans (congrArg _ hrule)
  · intro hstation houtbox hengine hqueue hstack hrecords hdisputes
    have hquiet : JoinsQuietly (attachedLine s) := by
      refine ⟨rfl, hstation, houtbox, fun j hj => ?_, hdisputes⟩
      have hnot : backfillable (getRec (attachedLine s) j) = false := hrecords j hj
      simp [qualifies, hnot]
    have hattached : attachSequence s = beaconStarted (attachedLine s) := by
      rw [attachSequence_eq hengine, hquiet.joinLine]
      exact pick_nothing hqueue hstack
    have hrule : attachRule s = answered .done [] (attachSequence s) := congrArg _ (if_pos ht)
    rw [exec_attach (.inr ht), hrule, hattached]
    rfl

end Sys2Proof.Machine
end

section
/-! PROOFS. The census (R158 to R160, R162): the record that a slot read sets, the repair entry that follows evidence
left, the next read, and the entry to ACTIVE after the last. -/

namespace Sys2Proof.Machine

/- Theorems elaborated side by side pass the memory the check allows (as in Tests/Slice0.lean). -/
set_option Elab.async false

variable {s u : State} {i : Nat} {bytes : List Byte} {known : Option Evidence} {ev : Evidence} {result : SlotResult}
  {copy : Option (Stamp × Signature)} {e : Entry} {rest : List Entry} {q : Station}

/-! ### The record found (R159) -/

/-- R159, step 1: the copy a slot is found to hold, stamp and signature; none when it is not to be trusted. -/
def slotCopy : SlotResult → Option (Stamp × Signature)
  | .vacant => some (nullStamp, 0)
  | .written t recorded computed => if computed = recorded then some (t, recorded) else none
  | .damaged => none

/-- R159, step 3: the evidence that is newer than the stamp found. -/
def newerEvidence (t : Stamp) (known : Option Evidence) : Option Evidence :=
  known.filter fun ev => ev.stamp ≠ t ∧ newer t ev.stamp = false

/-- R159: an UNKNOWN record with this evidence after its census read. -/
def censusRec (known : Option Evidence) : Option (Stamp × Signature) → SegRec
  | some (t, x) => { unknownRec with
      state := if (newerEvidence t known).isSome then .stale else .good
      usable := true, stamp := t, signature := x, evidence := newerEvidence t known }
  | none => { unknownRec with state := .damaged, evidence := known }

theorem evidenceAfter_eq (t : Stamp) (known : Option Evidence) : evidenceAfter t known = newerEvidence t known := by
  cases known with
  | none => rfl
  | some ev =>
    by_cases heq : ev.stamp = t
    · simp [evidenceAfter, notOlder, newerEvidence, Option.filter, heq]
    · cases hnewer : newer t ev.stamp <;>
        simp [evidenceAfter, notOlder, newerEvidence, Option.filter, heq, Ne.symm heq, hnewer]

/-- R15, R159: a usable copy found. -/
theorem settled_found (t : Stamp) (x : Signature) (known : Option Evidence) :
    settled (keepNewer { unknownRec with
      usable := true, stamp := t, signature := x, evidence := known, state := .damaged }) =
      censusRec known (some (t, x)) := by
  simp only [settled, keepNewer, settledState, censusRec, unknownRec, evidenceAfter_eq, if_true]
  cases newerEvidence t known <;> rfl

theorem settled_foundRec (result : SlotResult) (known : Option Evidence) :
    settled (keepNewer (foundRec result { unknownRec with evidence := known })) =
      censusRec known (slotCopy result) := by
  cases result with
  | vacant => exact settled_found nullStamp 0 known
  | damaged => rfl
  | written t recorded computed =>
    by_cases hagree : computed = recorded
    · rw [foundRec, if_pos hagree, slotCopy, if_pos hagree]
      exact settled_found t recorded known
    · rw [foundRec, if_neg hagree, slotCopy, if_neg hagree]
      rfl

/-- R16: the settle offers a record found exactly when evidence is left. -/
theorem settleOffers_censusRec : settleOffers (censusRec known copy) = (censusRec known copy).evidence.isSome := by
  rcases copy with _ | ⟨t, x⟩
  · simp [settleOffers, censusRec, unknownRec]
  · cases hleft : newerEvidence t known <;> simp [settleOffers, censusRec, unknownRec, hleft]

theorem fetchable_censusRec : fetchable (censusRec known copy) = (censusRec known copy).evidence.isSome := by
  rcases copy with _ | ⟨t, x⟩
  · simp [fetchable, censusRec, unknownRec]
  · cases hleft : newerEvidence t known <;> simp [fetchable, censusRec, unknownRec, hleft]

/-- R75, R159: without evidence a record found is no matter for backfill or for a dispute. -/
theorem censusRec_nothingKnown : (censusRec none copy).evidence = none ∧ backfillable (censusRec none copy) = false ∧
    (censusRec none copy).state ≠ .disputed := by
  rcases copy with _ | ⟨t, x⟩ <;> simp [backfillable, censusRec, unknownRec, newerEvidence]

theorem admissionLevel_of_evidence {r : SegRec} (hev : r.evidence = some ev) :
    admissionLevel r = if r.usable = true ∧ ev.fromNews = false then .sweep else .news := by
  cases husable : r.usable with
  | false => simp [admissionLevel, husable]
  | true => cases hnews : ev.fromNews <;> simp [admissionLevel, husable, hev, hnews]

/-! ### The state with the record set -/

/-- R159: the record found stands in the table, the digest follows, and an untrusted slot has its event. -/
def censusSet (i : Nat) (known : Option Evidence) (result : SlotResult) (s : State) : State :=
  putRec i (censusRec known (slotCopy result)) (censusEvent i result s)

/-- From `s` to `u` nothing has changed but records, digests, holdoffs and events. -/
def RecordsChanged (s u : State) : Prop :=
  ∃ segs banks events, banks.length = s.roster.banks.length ∧
    u = { s with segs := segs, roster.banks := banks, host.events := events }

theorem RecordsChanged.trans {v : State} (h : RecordsChanged s u) (h' : RecordsChanged u v) : RecordsChanged s v := by
  obtain ⟨_, _, _, hlen, rfl⟩ := h
  obtain ⟨segs, banks, events, hlen', rfl⟩ := h'
  exact ⟨segs, banks, events, hlen'.trans hlen, rfl⟩

theorem putRec_changes (i : Nat) (r : SegRec) (s : State) : RecordsChanged s (putRec i r s) := by
  refine ⟨(putRec i r s).segs, (putRec i r s).roster.banks, s.host.events, putRec_banks_length s i r, ?_⟩
  by_cases hi : i < segCount s
  · rw [putRec_eq i r s hi]
    exact changeDigest_frame _ _ _
  · rw [show putRec i r s = s from if_neg hi]

theorem censusEvent_changes : RecordsChanged s (censusEvent i result s) := by
  rcases censusEvent_cases i result s with h | ⟨stamp, h⟩
  · exact ⟨s.segs, s.roster.banks, s.host.events, rfl, h⟩
  · exact ⟨s.segs, s.roster.banks, _, rfl, h⟩

theorem censusSet_changes : RecordsChanged s (censusSet i known result s) :=
  censusEvent_changes.trans (putRec_changes _ _ _)

theorem censusSet_repair : (censusSet i known result s).repair = s.repair := by
  obtain ⟨_, _, _, _, hset⟩ := censusSet_changes (s := s) (i := i) (known := known) (result := result)
  rw [hset]

theorem censusSet_start : (censusSet i known result s).start = s.start := by
  obtain ⟨_, _, _, _, hset⟩ := censusSet_changes (s := s) (i := i) (known := known) (result := result)
  rw [hset]

/-- R159: how the record is set is no matter of the store. -/
theorem censusSet_store (v : Store) :
    censusSet i known result { s with store := v } = { censusSet i known result s with store := v } := by
  have hevent : censusEvent i result { s with store := v } = { censusEvent i result s with store := v } := by
    cases result with
    | written t x y => by_cases hagree : y = x <;> simp [censusEvent, raise, hagree]
    | _ => rfl
  rw [censusSet, hevent]
  refine (putRec_serve_store (s := censusEvent i result s) (censusEvent i result s).serve v).trans ?_
  simp only [censusSet, putRec_serve]

theorem getRec_censusEvent (j : Nat) : getRec (censusEvent i result s) j = getRec s j :=
  getRec_congr (censusEvent_segs i result s) j

theorem segCount_censusEvent : segCount (censusEvent i result s) = segCount s := by simp [segCount]

theorem segCount_censusSet : segCount (censusSet i known result s) = segCount s :=
  (putRec_recs_length _ i _).trans segCount_censusEvent

theorem getRec_censusSet_self (hi : i < segCount s) :
    getRec (censusSet i known result s) i = censusRec known (slotCopy result) :=
  getRec_putRec_self _ i _ (segCount_censusEvent.symm ▸ hi)

theorem getRec_censusSet_other {j : Nat} (hj : i ≠ j) : getRec (censusSet i known result s) j = getRec s j :=
  (getRec_putRec_other _ i j _ hj).trans (getRec_censusEvent j)

/-! ### The record settled, and its offer (R159, R160) -/

/-- R158: segment `i` before its census read: its record UNKNOWN, with what evidence was heard, and no repair entry. -/
structure Uncounted (s : State) (i : Nat) (known : Option Evidence) : Prop where
  inTable : i < segCount s
  unknown : getRec s i = { unknownRec with evidence := known }
  absent : ∀ e ∈ s.repair.queue, e.segment ≠ i

/-- R16: the settle offers the segment exactly when evidence is left. -/
theorem Uncounted.applyCensus (h : Uncounted s i known) : applyCensus i result s =
    if (censusRec known (slotCopy result)).evidence.isSome then offerRepair i (censusSet i known result s)
    else censusSet i known result s := by
  let noted := censusEvent i result s
  let found := keepNewer (foundRec result { unknownRec with evidence := known })
  have hi : i < segCount noted := segCount_censusEvent.symm ▸ h.inTable
  have hmodify : modifyRec i (fun r => keepNewer (foundRec result r)) noted = putRec i found noted := by
    rw [modifyRec, getRec_censusEvent, h.unknown]
  have hqueue : (putRec i found noted).repair = s.repair := by
    rw [putRec_repair]
    obtain ⟨_, _, _, _, hnoted⟩ := censusEvent_changes (s := s) (i := i) (result := result)
    rw [show noted = _ from hnoted]
  have hquiet : settleQuiet i (putRec i found noted) = censusSet i known result s := by
    rw [settleQuiet_withRec (hqueue ▸ h.absent), getRec_putRec_self _ i _ hi,
      withRec_putRec hi contributed_settled, settled_foundRec, censusSet]
  rw [Machine.applyCensus, hmodify, settle_eq, hquiet, getRec_censusSet_self h.inTable, settleOffers_censusRec]

/-- R71, R160: without evidence left, or pinned, the segment does not join the queue. -/
theorem Uncounted.applyCensus_sets (h : Uncounted s i known)
    (hcalm : (censusRec known (slotCopy result)).evidence = none ∨ i ∈ s.repair.pins) :
    Machine.applyCensus i result s = censusSet i known result s := by
  rw [h.applyCensus]
  rcases hcalm with hnone | hpin
  · simp [hnone]
  · rw [offerRepair_pinned (by rwa [censusSet_repair]), ite_self]

/-- R71, R160: the segment has joined the queue, for the evidence `ev` that is left. -/
def censusJoined (i : Nat) (known : Option Evidence) (result : SlotResult) (ev : Evidence) (s : State) : State :=
  { censusSet i known result s with
    repair.queue := insertEntry (freshEntry i
      (if (censusRec known (slotCopy result)).usable = true ∧ ev.fromNews = false then .sweep else .news))
      s.repair.queue }

/-- R71, R160: with evidence left the segment joins the queue at its admission level. -/
theorem Uncounted.applyCensus_joins (h : Uncounted s i known) (htop : s.start.top = .census)
    (hev : (censusRec known (slotCopy result)).evidence = some ev) (hpin : i ∉ s.repair.pins)
    (hroom : s.repair.queue.length < 32) : Machine.applyCensus i result s = censusJoined i known result ev s := by
  have hrec := getRec_censusSet_self (known := known) (result := result) h.inTable
  have hadmissible : admissible (censusSet i known result s) i = true :=
    admissible_iff.mpr ⟨.inl (by rw [censusSet_start, htop]), by rw [hrec, fetchable_censusRec, hev]; rfl,
      by rwa [censusSet_repair]⟩
  have hnone : findEntry (censusSet i known result s) i = none :=
    findEntry_eq_none (by rw [censusSet_repair]; exact h.absent)
  have hcalm (level : Level) : Unhurried level i (censusSet i known result s) :=
    .inl (by rw [censusSet_start, htop]; decide)
  rw [h.applyCensus, hev, Option.isSome_some, if_pos rfl, offerRepair_passes hadmissible, hrec,
    admissionLevel_of_evidence hev, enterQueue_joins hnone (by rwa [censusSet_repair]) (hcalm _), addEntry, censusJoined]
  simp only [censusSet_repair]

/-! ### The end of the read (R144, R158) -/

/-- R144, R149: the census read of segment `i` ends with these bytes, nothing waits for the store, and no warm restart
waits for the read. -/
structure CensusReadEnds (s : State) (i : Nat) (bytes : List Byte) : Prop where
  op : s.store.op = .reading .census i
  noWait : s.start.storeWait = false
  pending : NonePending s.store
  length : bytes.length = 264

theorem CensusReadEnds.exec (h : CensusReadEnds s i bytes) : exec (.slotReadEnd bytes) s =
    .next (endOp (censusReadEnd i (classSlot bytes) (fillTransfer bytes s))) := by
  have hread : slotRead bytes s = endOp (handRead .census i (fillTransfer bytes s)) := by
    simp only [slotRead, h.op, if_pos (show bytes.length = Config.slotBytes from h.length), h.noWait,
      Bool.false_eq_true, if_false]
  exact congrArg _ hread

/-- R149, R158: a census read asked for while the last one ends begins at once. -/
theorem endOp_requestCensusRead (hbusy : s.store.op ≠ .idle) (hpending : NonePending s.store) :
    endOp (requestCensusRead i s) = { s with store := { s.store with op := .reading .census i, computed := none } } := by
  obtain ⟨hwrites, hserve, hhost, hcensus⟩ := hpending
  simp [requestCensusRead, endOp, arbitrate, hbusy, hwrites, hserve, hhost, hcensus]

/-- R158: with a slot left, the read of the next one begins. -/
theorem CensusReadEnds.readsOn (h : CensusReadEnds s i bytes) (hmore : i + 1 < segCount u) (hstart : u.start = s.start)
    (hcounted : applyCensus i (classSlot bytes) (fillTransfer bytes s) =
      { u with store := (fillTransfer bytes s).store }) :
    Machine.exec (.slotReadEnd bytes) s = .next { u with
      start := { s.start with cursor := i + 1 }
      store := { s.store with op := .reading .census (i + 1), transfer := bytes, computed := none } } := by
  have hbusy : (fillTransfer bytes s).store.op ≠ .idle := by simp [fillTransfer, h.op]
  have hpending : NonePending (fillTransfer bytes s).store := h.pending
  have hnext : censusReadEnd i (classSlot bytes) (fillTransfer bytes s) = requestCensusRead (i + 1)
      { u with store := (fillTransfer bytes s).store, start.cursor := i + 1 } := by
    rw [censusReadEnd, hcounted]
    exact if_pos hmore
  rw [h.exec, hnext, ← hstart]
  exact congrArg _ (endOp_requestCensusRead hbusy hpending)

/-! ### The entry to ACTIVE after the last read (R162) -/

/-- R162: the state in which the census is done and the transmitter on. -/
def onLine (s : State) : State :=
  raise .censusDone none none none
    { s with start := { s.start with top := .active, reason := .none }, line.transmitter := true }

theorem enterActive_eq : enterActive s = joinLine (onLine s) := rfl

/-- R162: after the last slot the station enters ACTIVE. -/
theorem CensusReadEnds.entersActive (h : CensusReadEnds s i bytes) (hlast : i + 1 = segCount u)
    (hcounted : applyCensus i (classSlot bytes) (fillTransfer bytes s) =
      { u with store := (fillTransfer bytes s).store }) :
    Machine.exec (.slotReadEnd bytes) s = .next (endOp (joinLine (onLine
      { u with store := (fillTransfer bytes s).store, start.cursor := i + 1 }))) := by
  have hdone : censusReadEnd i (classSlot bytes) (fillTransfer bytes s) = enterActive
      { u with store := (fillTransfer bytes s).store, start.cursor := segCount u } := by
    rw [censusReadEnd, hcounted]
    exact if_neg (Nat.not_lt.mpr hlast.ge)
  rw [h.exec, hdone, enterActive_eq, hlast]

theorem qualifies_queued {j : Nat} (h : ∃ e ∈ s.repair.queue, e.segment = j) : qualifies s j = false := by
  obtain ⟨e, he, hseg⟩ := h
  have hfound : (findEntry s j).isSome = true := List.find?_isSome.mpr ⟨e, he, by simpa using hseg⟩
  have hnot : (findEntry s j).isNone = false := by rw [← Option.not_isSome, hfound]; rfl
  simp [qualifies, hnot]

/-- R41: self becoming PRESENT changes no other station's entry. -/
theorem isPresent_beaconStarted {p : Station} (hstation : s.start.station ≠ 0) (hp : p ≠ s.start.station) :
    isPresent (beaconStarted s) p = isPresent s p := by
  by_cases h0 : p = 0
  · subst h0
    rfl
  · have hplace : s.start.station.toNat - 1 ≠ p.toNat - 1 := by
      bv_omega
    simp [isPresent, rosterEntry, beaconStarted, List.getD_eq_getElem?_getD, List.getElem?_set_ne hplace]

/-- R88: a source is a matter of the roster entries and the own number. -/
theorem LowestSource.of_entries {holders tried : StationSet} (h : LowestSource s holders tried none q)
    (hentries : u.roster.entries = s.roster.entries) (hstation : u.start.station = s.start.station) :
    LowestSource u holders tried none q := by
  have hpresent (p : Station) : isPresent u p = isPresent s p := by simp only [isPresent, rosterEntry, hentries]
  exact ⟨by rw [hpresent, hstation]; exact h.qualifies, fun p hp => by rw [hpresent, hstation]; exact h.lowest p hp⟩

theorem lowestSource_beaconStarted {holders tried : StationSet} (hstation : s.start.station ≠ 0)
    (h : LowestSource s holders tried none q) : LowestSource (beaconStarted s) holders tried none q := by
  obtain ⟨h0, hholds, huntried, hpresent, hself, hleft⟩ := h.qualifies
  refine ⟨⟨h0, hholds, huntried, (isPresent_beaconStarted hstation hself).trans hpresent, hself, hleft⟩, fun p hp => ?_⟩
  by_cases hp' : p = s.start.station
  · exact .inr (.inr (.inr (.inl hp')))
  · rw [isPresent_beaconStarted hstation hp']
    exact h.lowest p hp

/-! ### The record and the entry, after any slot and after the last (R159 to R162) -/

/-- R158, R162: nothing was heard of the last segment; of the others none waits for a dispute entry, and those for
backfill have repair entries; the station has its number, an empty outbox and an empty stack. -/
structure LastSlot (s : State) (i : Nat) : Prop where
  uncounted : Uncounted s i none
  last : i + 1 = segCount s
  station : s.start.station ≠ 0
  outbox : s.line.outbox = []
  stack : s.repair.stack = []
  others : ∀ j, j < segCount s → j ≠ i → waitsForEntry s j = false ∧
    (backfillable (getRec s j) = false ∨ ∃ e ∈ s.repair.queue, e.segment = j)

/-- R162: the state after the last census read in which the station goes on the line. -/
def countedOnLine (s : State) (i : Nat) (result : SlotResult) (v : Store) : State :=
  onLine { censusSet i none result s with store := v, start.cursor := i + 1 }

variable {v : Store}

theorem LastSlot.joinsQuietly (h : LastSlot s i) : JoinsQuietly (countedOnLine s i result v) := by
  have hcount : segCount (countedOnLine s i result v) = segCount s := segCount_censusSet (s := s)
  have hself : getRec (countedOnLine s i result v) i = censusRec none (slotCopy result) :=
    getRec_censusSet_self (s := s) h.uncounted.inTable
  have hother {j : Nat} (hj : j ≠ i) : getRec (countedOnLine s i result v) j = getRec s j :=
    getRec_censusSet_other (s := s) hj.symm
  obtain ⟨_, hnotBackfill, hnotDisputed⟩ := censusRec_nothingKnown (copy := slotCopy result)
  obtain ⟨_, _, _, _, hset⟩ := censusSet_changes (s := s) (i := i) (known := none) (result := result)
  have hqueue : (countedOnLine s i result v).repair.queue = s.repair.queue := congrArg (·.queue) censusSet_repair
  refine ⟨rfl, ?_, ?_, fun j hj => ?_, fun j hj => ?_⟩
  · exact (congrArg (·.station) (censusSet_start (s := s))).trans_ne h.station
  · exact (congrArg (·.line.outbox) hset).trans h.outbox
  · by_cases hji : j = i
    · simp [qualifies, hji, hself, hnotBackfill]
    · rcases (h.others j (hcount ▸ hj) hji).2 with hnot | hqueued
      · simp [qualifies, hother hji, hnot]
      · exact qualifies_queued (hqueue ▸ hqueued)
  · by_cases hji : j = i
    · simp [waitsForEntry, hji, hself, hnotDisputed]
    · refine (waitsForEntry_congr (hother hji) ?_).trans (h.others j (hcount ▸ hj) hji).1
      simp [findDispute, show (countedOnLine s i result v).disputes = s.disputes from congrArg (·.disputes) hset]

/-- R71, R159: without evidence left, or pinned, the record alone is set; the transfer buffer plays no part. -/
theorem Uncounted.applyCensus_filled (h : Uncounted s i known)
    (hcalm : (censusRec known (slotCopy result)).evidence = none ∨ i ∈ s.repair.pins) :
    Machine.applyCensus i result (fillTransfer bytes s) =
      { censusSet i known result s with store := (fillTransfer bytes s).store } :=
  (Uncounted.applyCensus_sets (s := fillTransfer bytes s) ⟨h.inTable, h.unknown, h.absent⟩ hcalm).trans
    (censusSet_store _)

/-- R71, R160: the segment left with evidence joins the queue; the transfer buffer plays no part. -/
theorem Uncounted.applyCensus_filled_joins (h : Uncounted s i known) (htop : s.start.top = .census)
    (hev : (censusRec known (slotCopy result)).evidence = some ev) (hpin : i ∉ s.repair.pins)
    (hroom : s.repair.queue.length < 32) : Machine.applyCensus i result (fillTransfer bytes s) =
      { censusJoined i known result ev s with store := (fillTransfer bytes s).store } := by
  rw [Uncounted.applyCensus_joins (s := fillTransfer bytes s) ⟨h.inTable, h.unknown, h.absent⟩ htop hev hpin hroom,
    censusJoined, show censusSet i known result (fillTransfer bytes s) = _ from censusSet_store _]
  rfl

/-- R162: what the last read leads to before the operation ends. -/
theorem LastSlot.exec (h : LastSlot s i) (hread : CensusReadEnds s i bytes) : exec (.slotReadEnd bytes) s = .next
    (endOp (pick (beaconStarted (countedOnLine s i (classSlot bytes) (fillTransfer bytes s).store)))) := by
  have hcounted := h.uncounted.applyCensus_filled (bytes := bytes) (result := classSlot bytes)
    (.inl censusRec_nothingKnown.1)
  have hlast : i + 1 = segCount (censusSet i none (classSlot bytes) s) := segCount_censusSet.symm ▸ h.last
  rw [hread.entersActive hlast hcounted]
  exact congrArg (fun w => Host.Outcome.next (endOp w)) h.joinsQuietly.joinLine

/-- R162: the state in which the station has entered ACTIVE after a census that left the records of `u`, with what the
pick leaves of the Repair Unit, the records and the outbox. -/
def entered (s u : State) (i : Nat) (bytes : List Byte) (repair : RepairUnit) (segs : SegTable) (box : List Desc) :
    State :=
  raise .censusDone none none none { u with
    start := { s.start with top := .active, reason := .none, cursor := i + 1 }
    line := { s.line with transmitter := true, outbox := box }
    roster := { u.roster with
      entries := s.roster.entries.set (s.start.station.toNat - 1) ⟨true, none⟩
      pointer := 1 % s.roster.banks.length
      beacon := some (beaconMs s) }
    segs := segs
    repair := repair
    store := { s.store with op := .idle, transfer := bytes, computed := none } }

theorem RecordsChanged.entered (h : RecordsChanged s u) :
    { beaconStarted (onLine { u with store := (fillTransfer bytes s).store, start.cursor := i + 1 }) with
      store := { (fillTransfer bytes s).store with op := .idle, computed := none } } =
    entered s u i bytes s.repair u.segs firstDigest := by
  obtain ⟨segs, banks, events, hlen, rfl⟩ := h
  rw [Machine.entered, ← hlen]
  rfl

theorem RecordsChanged.enteredFetching (h : RecordsChanged s u) (r : SegRec) :
    { asked [] rest { e with state := .active, slot := some .a } q
        (withRec e.segment r (setSlot .a (some (slotTaken e.segment ev))
          (beaconStarted (onLine { u with store := (fillTransfer bytes s).store, start.cursor := i + 1 })))) with
      store := { (fillTransfer bytes s).store with op := .idle, computed := none } } =
    Machine.entered s u i bytes
      { s.repair with
        queue := { e with state := .active, slot := some .a, source := some q } :: rest
        slotA := some (slotTaken e.segment ev)
        cond := some .asking, patience := some (patienceMs s) }
      { u.segs with recs := u.segs.recs.set e.segment r } (boxWith (.request q e.segment) firstDigest) := by
  obtain ⟨segs, banks, events, hlen, rfl⟩ := h
  rw [Machine.entered, ← hlen]
  rfl

/-- R86, R162: with an empty queue the pick takes nothing. -/
theorem LastSlot.entersIdle (h : LastSlot s i) (hread : CensusReadEnds s i bytes) (hqueue : s.repair.queue = []) :
    Machine.exec (.slotReadEnd bytes) s = .next (entered s (censusSet i none (classSlot bytes) s) i bytes s.repair
      (censusSet i none (classSlot bytes) s).segs firstDigest) := by
  let b := beaconStarted (countedOnLine s i (classSlot bytes) (fillTransfer bytes s).store)
  have hrepair : b.repair = s.repair := censusSet_repair (s := s)
  have hpick : pick b = b := pick_nothing (by rw [hrepair, hqueue]) (by rw [hrepair, h.stack])
  have hends : endOp b = { b with store := { (fillTransfer bytes s).store with op := .idle, computed := none } } :=
    endOp_rest rfl hread.pending
  rw [h.exec hread, hpick, hends]
  exact congrArg _ censusSet_changes.entered

/-- R86 to R89, R162: the first entry of the queue, with its evidence and its lowest source, with slot A free. -/
structure FirstEntry (s : State) (e : Entry) (rest : List Entry) (ev : Evidence) (q : Station) : Prop where
  queue : s.repair.queue = e :: rest
  others : ∀ d ∈ rest, d.segment ≠ e.segment
  waiting : ∀ d ∈ e :: rest, d.state = .waiting
  fresh : e.slot = none
  slotA : s.repair.slotA = none
  known : (getRec s e.segment).state ≠ .unknown
  evidence : (getRec s e.segment).evidence = some ev
  source : LowestSource s ev.holders e.tried none q

theorem LastSlot.getRec_first (h : LastSlot s i) (hfirst : FirstEntry s e rest ev q) :
    getRec (beaconStarted (countedOnLine s i result v)) e.segment = getRec s e.segment := by
  have hne : i ≠ e.segment := fun heq => h.uncounted.absent e (by simp [hfirst.queue]) heq.symm
  exact getRec_censusSet_other (s := s) hne

theorem LastSlot.canStart (h : LastSlot s i) (hfirst : FirstEntry s e rest ev q) :
    CanStart (beaconStarted (countedOnLine s i result v)) [] rest e .a ev q := by
  have hrec := h.getRec_first (result := result) (v := v) hfirst
  have hrepair : (beaconStarted (countedOnLine s i result v)).repair = s.repair := censusSet_repair (s := s)
  obtain ⟨_, _, _, _, hset⟩ := censusSet_changes (s := s) (i := i) (known := none) (result := result)
  have hstart : (countedOnLine s i result v).start.station = s.start.station :=
    congrArg (·.station) (censusSet_start (s := s))
  have hentries : (countedOnLine s i result v).roster.entries = s.roster.entries := congrArg (·.roster.entries) hset
  have hsource : LowestSource (countedOnLine s i result v) ev.holders e.tried none q :=
    hfirst.source.of_entries hentries hstart
  refine ⟨by rw [hrepair, hfirst.queue]; rfl, fun d hd => ⟨hfirst.others d hd, ?_⟩, hfirst.fresh, ?_⟩
  · simp [hfirst.waiting d (List.mem_cons_of_mem e hd)]
  · have hknown := hrec.symm ▸ hfirst.known
    exact ⟨inTable_of_known hknown, hknown, hrec.symm ▸ hfirst.evidence,
      freeSlot_a ((congrArg (·.slotA) hrepair).trans hfirst.slotA),
      lowestSource_beaconStarted (hstart ▸ h.station) hsource, ⟨rfl, .inr (by decide : 1 < Config.outboxCapacity)⟩⟩

/-- R86 to R89, R162: the pick takes the first entry into slot A and asks its lowest source. -/
theorem LastSlot.entersFetching (h : LastSlot s i) (hread : CensusReadEnds s i bytes)
    (hfirst : FirstEntry s e rest ev q) :
    Machine.exec (.slotReadEnd bytes) s = .next (entered s (censusSet i none (classSlot bytes) s) i bytes
      { s.repair with
        queue := { e with state := .active, slot := some .a, source := some q } :: rest
        slotA := some (slotTaken e.segment ev)
        cond := some .asking, patience := some (patienceMs s) }
      { (censusSet i none (classSlot bytes) s).segs with
        recs := (censusSet i none (classSlot bytes) s).segs.recs.set e.segment
          { getRec s e.segment with state := .fetching } }
      (boxWith (.request q e.segment) firstDigest)) := by
  let b := beaconStarted (countedOnLine s i (classSlot bytes) (fillTransfer bytes s).store)
  have hrepair : b.repair = s.repair := censusSet_repair (s := s)
  have hqueue : b.repair.queue = e :: rest := by rw [hrepair, hfirst.queue]
  have hidle : activeEntry b = none := by
    rw [activeEntry, hqueue]
    exact List.find?_eq_none.mpr fun d hd => by simp [hfirst.waiting d hd]
  have hnext : firstWaiting b = some e := by
    rw [firstWaiting, hqueue]
    exact List.find?_cons_of_pos (decide_eq_true (hfirst.waiting e List.mem_cons_self))
  have hpick : pick b = fetchBegun [] rest e .a ev q b :=
    (h.canStart hfirst).pick (by rw [hrepair, h.stack]) hidle hnext
  have hends : endOp (fetchBegun [] rest e .a ev q b) = { fetchBegun [] rest e .a ev q b with
      store := { (fillTransfer bytes s).store with op := .idle, computed := none } } :=
    endOp_rest rfl hread.pending
  rw [h.exec hread, hpick, hends, fetchBegun, h.getRec_first hfirst]
  exact congrArg _ (censusSet_changes.enteredFetching _)

/-- Settles O56: the record set by the read, with or without a repair entry, and the entry to ACTIVE after the last
slot, with or without a fetch. -/
theorem censusSetsRecord : Obligations.CensusSetsRecord := by
  intro s bytes i known hop hwait hpending hlength htop hi hrec habsent
  have hread : CensusReadEnds s i bytes := ⟨hop, hwait, hpending, hlength⟩
  have huncounted : Uncounted s i known := ⟨hi, hrec, habsent⟩
  refine ⟨fun hmore => ?_, fun hlast hnone hstation houtbox hstack hothers => ?_⟩
  · have hleft : i + 1 < segCount (censusSet i known (classSlot bytes) s) := segCount_censusSet.symm ▸ hmore
    refine ⟨fun hcalm => ?_, fun ev hev hpin hroom => ?_⟩
    · exact hread.readsOn hleft censusSet_start (huncounted.applyCensus_filled hcalm)
    · have hjoins := huncounted.applyCensus_filled_joins (bytes := bytes) htop hev hpin hroom
      exact hread.readsOn (u := censusJoined i known (classSlot bytes) ev s) hleft censusSet_start hjoins
  · subst hnone
    have hslot : LastSlot s i := ⟨huncounted, hlast, hstation, houtbox, hstack, hothers⟩
    refine ⟨hslot.entersIdle hread, fun e rest ev q hqueue hdistinct hwaiting hfresh hslotA hknown hev hsource => ?_⟩
    exact hslot.entersFetching hread ⟨hqueue, hdistinct, hwaiting, hfresh, hslotA, hknown, hev, hsource⟩

end Sys2Proof.Machine
end

section
/-! PROOFS. How a host command is taken: the checks before its rule, the rule that answers it, and what the part clocks
out (R169 to R171). -/

namespace Sys2Proof.Machine

/- Theorems elaborated side by side pass the memory the check allows (as in Tests/Slice0.lean). -/
set_option Elab.async false

variable {s : State} {c : Instr} {l : List TopState}

/-! ### The checks (R170, R171) -/

section
variable {taken : TopState → Bool} {argsOk : State → Bool} {rule : State → State}

theorem takeCommand_notReady (ht : taken s.start.top = false) :
    takeCommand taken argsOk rule s = answered .notReady [] s := if_pos (by simp [ht])

theorem takeCommand_badArg (ht : taken s.start.top = true) (ha : argsOk s = false) :
    takeCommand taken argsOk rule s = answered .badArg [] s :=
  (if_neg (by simp [ht])).trans (if_pos (by simp [ha]))

end

theorem inEvery_iff (t : TopState) : inEvery t = true ↔ t ∈ [.starting, .census, .active, .detached, .halted] := by
  cases t <;> decide

theorem inHaltedOn_iff (t : TopState) : inHaltedOn t = true ↔ t ∈ [.census, .active, .detached, .halted] := by
  cases t <;> decide

theorem inCensusOn_iff (t : TopState) : inCensusOn t = true ↔ t ∈ [.census, .active, .detached] := by
  cases t <;> decide

theorem inRunning_iff_mem (t : TopState) : inRunning t = true ↔ t ∈ [.active, .detached] := by
  cases t <;> decide

theorem inHaltedOn_of_started (ht : s.start.top ≠ .starting) : inHaltedOn s.start.top = true := by
  revert ht
  cases s.start.top with
  | starting => exact absurd rfl
  | _ => exact fun _ => rfl

/-- R170: the judgement of a command's arguments. -/
def argumentsOk (c : Instr) (s : State) : Bool :=
  match c with
  | .seginfo i | .read i | .publish i | .freshen i | .pin i | .unpin i | .accept i => segmentArgOk s i
  | .stage offset length _ => stageArgsOk offset length
  | .events n => eventCountOk n
  | _ => true

theorem argumentsOk_segment {i : SegNum} (h : segmentArgument? c = some i) :
    argumentsOk c s = decide (i.toNat < segCount s) := by
  cases c with
  | seginfo | read | publish | freshen | pin | unpin | accept => cases h; rfl
  | _ => nomatch h

/-! ### Every rule answers (R169) -/

/-- R169: an answer other than NOT_READY is fixed. -/
def Answers (t : State) : Prop := ∃ a, t.host.answer = some a ∧ a.result ≠ .notReady

theorem answers_answer {code : ResultCode} (data : List Byte) (h : code ≠ .notReady) : Answers (answer code data s) :=
  ⟨⟨code, data⟩, rfl, h⟩

theorem readRule_answers (i : Nat) (s : State) : Answers (readRule i s) := by
  unfold readRule
  split
  · exact answers_answer _ (by decide)
  · split <;> exact answers_answer _ (by decide)

theorem takeRule_answers (s : State) : Answers (takeRule s) := by
  unfold takeRule
  split <;> exact answers_answer _ (by decide)

theorem stageRule_answers (o : Nat) (bytes : List Byte) (s : State) : Answers (stageRule o bytes s) := by
  unfold stageRule
  split <;> exact answers_answer _ (by decide)

theorem publishRule_answers (i : Nat) (s : State) : Answers (publishRule i s) := by
  unfold publishRule
  split
  · exact answers_answer _ (by decide)
  · exact answers_answer (code := .accepted) _ (by decide)

theorem freshenActive_answers (i : Nat) (s : State) : Answers (freshenActive i s) := by
  simp only [freshenActive]
  repeat' split
  all_goals exact answers_answer _ (by decide)

theorem freshenRule_answers (i : Nat) (s : State) : Answers (freshenRule i s) := by
  unfold freshenRule
  split
  · exact answers_answer _ (by decide)
  · exact freshenActive_answers i s

theorem pinRule_answers (i : Nat) (s : State) : Answers (pinRule i s) := by
  unfold pinRule
  split
  · exact answers_answer _ (by decide)
  · split <;> exact answers_answer _ (by decide)

theorem unpinRule_answers (i : Nat) (s : State) : Answers (unpinRule i s) := by
  unfold unpinRule
  split <;> exact answers_answer _ (by decide)

theorem acceptRule_answers (i : Nat) (s : State) : Answers (acceptRule i s) := by
  unfold acceptRule
  split <;> exact answers_answer _ (by decide)

/-! ### Every host command (R170, R171) -/

/-- R170: in this state the command is checked against the top states `l` and its arguments, and then follows a rule
that answers it. -/
def CheckedIn (c : Instr) (l : List TopState) (s : State) : Prop :=
  ∃ taken rule, exec c s = .next (takeCommand taken (argumentsOk c) rule s) ∧
    (∀ t, taken t = true ↔ t ∈ l) ∧ ∀ u, Answers (rule u)

namespace CheckedIn

theorem notReady (h : CheckedIn c l s) (ht : s.start.top ∉ l) : exec c s = .next (answered .notReady [] s) := by
  obtain ⟨taken, rule, hexec, htaken, _⟩ := h
  rw [hexec, takeCommand_notReady (Bool.eq_false_iff.mpr (mt (htaken _).mp ht))]

theorem badArg (h : CheckedIn c l s) (ht : s.start.top ∈ l) (ha : argumentsOk c s = false) :
    exec c s = .next (answered .badArg [] s) := by
  obtain ⟨taken, rule, hexec, htaken, _⟩ := h
  rw [hexec, takeCommand_badArg ((htaken _).mpr ht) ha]

theorem answers (h : CheckedIn c l s) (ht : s.start.top ∈ l) : ∃ t, exec c s = .next t ∧ Answers t := by
  cases ha : argumentsOk c s with
  | false => exact ⟨_, h.badArg ht ha, answers_answer [] (by decide)⟩
  | true =>
    obtain ⟨taken, rule, hexec, htaken, hrule⟩ := h
    exact ⟨rule s, by rw [hexec, takeCommand_rule ((htaken _).mpr ht) ha], hrule s⟩

end CheckedIn

/-- R170, R171: every host command is checked so, but for a STAGE that is cut short (R169). -/
theorem exec_checkedIn (hl : takenIn c = some l)
    (hcut : ∀ o n bytes, c = .stage o n bytes → stageCut n bytes s = false) : CheckedIn c l s := by
  cases c with
  | status => cases hl; exact ⟨_, _, rfl, inEvery_iff, fun _ => answers_answer _ (by decide)⟩
  | seginfo | roster => cases hl; exact ⟨_, _, rfl, inCensusOn_iff, fun _ => answers_answer _ (by decide)⟩
  | stage o n bytes =>
    cases hl
    exact ⟨_, _, congrArg _ (if_neg (by simp [hcut o n bytes rfl])), inCensusOn_iff, stageRule_answers _ _⟩
  | events => cases hl; exact ⟨_, _, rfl, inHaltedOn_iff, fun _ => answers_answer _ (by decide)⟩
  | restart => cases hl; exact ⟨_, _, rfl, inHaltedOn_iff, fun _ => answers_answer _ (by decide)⟩
  | read i => cases hl; exact ⟨_, _, rfl, inRunning_iff_mem, readRule_answers _⟩
  | take => cases hl; exact ⟨_, _, rfl, inRunning_iff_mem, takeRule_answers⟩
  | publish i => cases hl; exact ⟨_, _, rfl, inRunning_iff_mem, publishRule_answers _⟩
  | freshen i => cases hl; exact ⟨_, _, rfl, inRunning_iff_mem, freshenRule_answers _⟩
  | pin i => cases hl; exact ⟨_, _, rfl, inRunning_iff_mem, pinRule_answers _⟩
  | unpin i => cases hl; exact ⟨_, _, rfl, inRunning_iff_mem, unpinRule_answers _⟩
  | accept i => cases hl; exact ⟨_, _, rfl, inRunning_iff_mem, acceptRule_answers _⟩
  | detach | attach => cases hl; exact ⟨_, _, rfl, inRunning_iff_mem, fun _ => answers_answer _ (by decide)⟩
  | _ => nomatch hl

/-! ### A STAGE cut short (R169) -/

theorem stageLengthOk_iff {n : Byte} : stageLengthOk n = true ↔ 1 ≤ n.toNat ∧ n.toNat ≤ 32 := by simp [stageLengthOk]

theorem stageCut_outside {n : Byte} (bytes : List Byte) (ht : s.start.top ∉ [.census, .active, .detached]) :
    stageCut n bytes s = false := by
  have houtside : inCensusOn s.start.top = false := Bool.eq_false_iff.mpr (mt (inCensusOn_iff _).mp ht)
  simp [stageCut, houtside]

theorem stageCut_whole {n : Byte} {bytes : List Byte} (h : stageLengthOk n = true → bytes.length = n.toNat) :
    stageCut n bytes s = false := by
  cases hn : stageLengthOk n with
  | false => simp [stageCut, hn]
  | true => simp [stageCut, h hn]

/-- R177: a well-formed STAGE carries the bytes it waits for. -/
theorem stage_whole {o n : Byte} {bytes : List Byte} (h : (Instr.stage o n bytes).wellFormed = true) :
    stageLengthOk n = true → bytes.length = n.toNat := fun hn => by simpa [Instr.wellFormed, hn] using h

/-- R191: the codes of the results. -/
theorem resultByte_mem (code : ResultCode) : (code, resultByte code) ∈ [(ResultCode.done, 0x00#8), (.accepted, 0x01#8),
    (.busy, 0x02#8), (.refused, 0x03#8), (.noEvidence, 0x04#8), (.badArg, 0x05#8), (.notReady, 0x06#8),
    (.noData, 0x07#8)] := by
  cases code <;> decide

/-- Settles O45: a host command is checked against its top states and its arguments, and then answered
(`exec_checkedIn`); the rest is single commands. -/
theorem commandChecks : Obligations.CommandChecks := by
  refine ⟨fun c l s hl => ⟨fun ht => ?_, fun ht hwell => ?_⟩, fun a k => ⟨?_, fun v hv => ?_, fun hk => ?_⟩,
    fun s => ⟨fun c i l hi hcount hl ht => ?_, fun n hn ht => ?_, fun code hcode => ?_, rfl,
      fun o n bytes hlow hhigh hshort ht => ?_⟩,
    fun s => ⟨fun ht => ?_, fun ht => ⟨exec_detach_detached ht, fun i => exec_freshen_detached ht⟩⟩⟩
  · refine (exec_checkedIn hl fun o n bytes hc => ?_).notReady ht
    subst hc
    cases hl
    exact stageCut_outside bytes ht
  · have hchecked : CheckedIn c l s := exec_checkedIn hl fun o n bytes hc => by
      subst hc
      exact stageCut_whole (stage_whole hwell)
    obtain ⟨t, hexec, a, ha, hready⟩ := hchecked.answers ht
    exact ⟨t, a, hexec, ha, hready⟩
  · exact ⟨resultByte a.result, rfl, resultByte_mem a.result⟩
  · simp [clockedOut, answerBytes, hv]
  · simp [clockedOut, answerBytes, hk]
  · have hchecked : CheckedIn c l s := exec_checkedIn hl fun o n bytes hc => by
      subst hc
      nomatch hi
    exact hchecked.badArg ht (by simp [argumentsOk_segment hi, hcount])
  · have hcount : eventCountOk n = false := by
      rcases hn with rfl | hn
      · rfl
      · simp [eventCountOk, hn]
    exact congrArg _ (takeCommand_badArg (inHaltedOn_of_started ht) hcount)
  · exact congrArg _ (if_neg (by simpa using hcode))
  · have hcut : stageCut n bytes s = true := by
      simp [stageCut, stageLengthOk_iff.mpr ⟨hlow, hhigh⟩, hshort, (inCensusOn_iff _).mpr (by simpa using ht)]
    exact congrArg _ (if_pos hcut)
  · have hrule : attachRule s = answered .done [] s := congrArg _ (if_neg (by simp [ht]))
    exact (exec_attach (.inl ht)).trans (congrArg _ hrule)

end Sys2Proof.Machine
end

section
/-! PROOFS. The event queue: a record offered, and the records EVENTS pops with their eight bytes (R184 to R186, R192,
R193). -/

namespace Sys2Proof.Machine

/- Theorems elaborated side by side pass the memory the check allows (as in Tests/Slice0.lean). -/
set_option Elab.async false

variable {s : State} {e : Event} {q : List Event}

theorem holdsLost_iff : holdsLost q = true ↔ ∃ l ∈ q, l.kind = .lost := by simp [holdsLost]

theorem holdsLost_eq_false (h : ∀ l ∈ q, l.kind ≠ .lost) : holdsLost q = false := by simpa [holdsLost] using h

theorem offerEvent_lost (h : holdsLost q = true) : offerEvent e q = q := if_pos h

theorem offerEvent_room (h : holdsLost q = false) (hroom : q.length < 15) : offerEvent e q = q ++ [e] :=
  (if_neg (by simp [h])).trans (if_pos hroom)

theorem offerEvent_full (h : holdsLost q = false) (hfull : q.length = 15) : offerEvent e q = q ++ [lostEvent] :=
  (if_neg (by simp [h])).trans ((if_neg (Nat.not_lt.mpr hfull.ge)).trans (if_pos hfull))

theorem attnLow_iff : attnLow s = true ↔ s.host.events ≠ [] := by simp [attnLow]

/-- R192: a station number in a byte. -/
theorem stationByte_eq (p : Station) : p.setWidth 8 = 0#4 ++ p := by
  revert p
  decide

theorem eventFlags_eq (a b c : Bool) : flag a 0 ||| flag b 1 ||| flag c 2 =
    (if a then 1#8 else 0#8) + (if b then 2#8 else 0#8) + (if c then 4#8 else 0#8) := by
  revert a b c
  decide

/-- R193: the eight bytes of a record. -/
theorem eventBytes_eq (e : Event) : eventBytes e =
    [eventByte e.kind,
      (if e.segment.isSome then 1#8 else 0#8) + (if e.station.isSome then 2#8 else 0#8) +
        (if e.stamp.isSome then 4#8 else 0#8)] ++
    bytes16 (.ofNat 16 (e.segment.getD 0)) ++ [0#4 ++ e.station.getD 0] ++ stampBytes (e.stamp.getD nullStamp) := by
  rw [eventBytes, eventFlags_eq, stationByte_eq]
  rfl

/-- R185: EVENTS with a count of 1 to 4, taken outside STARTING. -/
theorem exec_events {n : Byte} (ht : s.start.top ≠ .starting) (hlow : 1 ≤ n.toNat) (hhigh : n.toNat ≤ 4) :
    exec (.events n) s = .next (eventsRule n.toNat s) :=
  congrArg _ (takeCommand_rule (inHaltedOn_of_started ht) (by simp [eventCountOk, hlow, hhigh]))

/-- Up to `n` records from the head, and the rest. -/
theorem take_drop_popped {n : Nat} {popped rest : List Event}
    (h : popped.length = n ∨ (popped.length < n ∧ rest = [])) :
    (popped ++ rest).take n = popped ∧ (popped ++ rest).drop n = rest := by
  rcases h with h | ⟨hfew, rfl⟩
  · exact ⟨List.take_left' h, List.drop_left' h⟩
  · rw [List.append_nil]
    exact ⟨List.take_of_length_le hfew.le, List.drop_of_length_le hfew.le⟩

/-- Settles O21: the lines of R184 in turn, and the records popped (`take_drop_popped`) with their bytes
(`eventBytes_eq`). -/
theorem eventQueueFillsAndEmpties : Obligations.EventQueueFillsAndEmpties := by
  refine ⟨fun e q => ⟨fun h => offerEvent_lost (holdsLost_iff.mpr h), fun h => ⟨?_, ?_⟩, fun s => attnLow_iff⟩, ?_⟩
  · exact offerEvent_room (holdsLost_eq_false h)
  · exact offerEvent_full (holdsLost_eq_false h)
  · intro s n popped rest ht hlow hhigh hevents hcount
    obtain ⟨htake, hdrop⟩ := take_drop_popped hcount
    rw [exec_events ht hlow hhigh, eventsRule, hevents, htake, hdrop, eventsData, funext eventBytes_eq]
    rfl

end Sys2Proof.Machine
end

section
/-! PROOFS. STATUS, ROSTER and SEGINFO: what they report of the state, byte by byte (R172, R173, R192). -/

namespace Sys2Proof.Machine

/- Theorems elaborated side by side pass the memory the check allows (as in Tests/Slice0.lean). -/
set_option Elab.async false

variable {s : State} {i : Nat}

theorem exec_status : exec .status s = .next (answered .done (statusData s) s) := rfl

section
variable (ht : s.start.top = .census ∨ s.start.top = .active ∨ s.start.top = .detached)
include ht

theorem inCensusOn_of : inCensusOn s.start.top = true := (inCensusOn_iff _).mpr (by simpa using ht)

theorem exec_roster : exec .roster s = .next (answered .done (bytes16 (rosterSet s)) s) :=
  congrArg _ (takeCommand_rule (inCensusOn_of ht) rfl)

theorem exec_seginfo {i : SegNum} (hi : i.toNat < segCount s) :
    exec (.seginfo i) s = .next (answered .done (segInfoData s i.toNat) s) :=
  congrArg _ (takeCommand_rule (inCensusOn_of ht) (decide_eq_true hi))

end

/-! ### STATUS and ROSTER (R172) -/

/-- R172: the field of the active segment, 0xFFFF for none. -/
theorem activeField_eq (a : Option Entry) :
    (match a with
      | some e => segmentField e.segment
      | none => [0xFF#8, 0xFF#8]) = bytes16 ((a.map fun e => .ofNat 16 e.segment).getD 0xFFFF#16) := by
  cases a <;> rfl

theorem statusData_eq (s : State) : statusData s =
    [topByte s.start.top, reasonByte s.start.reason, 0#4 ++ s.start.station, imageTag s] ++
      bytes16 (.ofNat 16 ((s.start.header.map (·.count)).getD 0)) ++ [.ofNat 8 s.repair.queue.length] ++
      bytes16 (((s.repair.queue.find? (fun e => e.state = .active)).map fun e => .ofNat 16 e.segment).getD
        0xFFFF#16) ++
      [.ofNat 8 s.disputes.length, .ofNat 8 s.host.events.length, .ofNat 8 s.line.clashes] := by
  rw [← stationByte_eq, ← activeField_eq]
  rfl

/-- The stations of a list that meet `f`, added to a set one by one. -/
theorem hasStation_foldl_add (f : Station → Bool) (p : Station) (l : List Station) :
    ∀ set : StationSet, hasStation (l.foldl (fun set q => if f q then addStation set q else set) set) p =
      (hasStation set p || (f p && decide (p ∈ l))) := by
  induction l with
  | nil => simp
  | cons q rest ih =>
    intro set
    rw [List.foldl_cons, ih]
    by_cases hpq : p = q
    · subst hpq
      cases hf : f p <;> simp [hasStation_addStation]
    · cases hf : f q <;> simp [hasStation_addStation, hpq]

theorem mem_stations {p : Station} : p ∈ stations ↔ p ≠ 0 := by
  revert p
  decide

theorem rosterSet_getLsbD (p : Station) : (rosterSet s).getLsbD p.toNat = isPresent s p := by
  have hset : hasStation (rosterSet s) p = (hasStation 0 p || (isPresent s p && decide (p ∈ stations))) :=
    hasStation_foldl_add (isPresent s) p stations 0
  rw [← hasStation, hset]
  by_cases hp : p = 0
  · subst hp
    rfl
  · rw [decide_eq_true (mem_stations.mpr hp), Bool.and_true]
    simp [hasStation]

/-! ### SEGINFO (R173) -/

theorem getLsbD_flag (b : Bool) {k j : Nat} (hk : k < 8) (hj : j < 8) :
    (flag b k).getLsbD j = (b && decide (j = k)) := by
  have hall : ∀ (b : Bool) (k j : Fin 8), (flag b k).getLsbD j = (b && decide (j.val = k.val)) := by decide
  exact hall b ⟨k, hk⟩ ⟨j, hj⟩

theorem infoEvidence_length (ev : Option Evidence) : (infoEvidence ev).length = 9 := by cases ev <;> rfl

theorem infoEntry_length (e : Option Entry) : (infoEntry e).length = 5 := by cases e <;> rfl

theorem infoDispute_length (d : Option Dispute) : (infoDispute d).length = 2 := by cases d <;> rfl

/-- R173: the part of SEGINFO after the fields of the record. -/
def infoTail (s : State) (i : Nat) : List Byte :=
  infoEvidence (getRec s i).evidence ++ infoEntry (findEntry s i) ++ infoDispute (findDispute s i)

theorem segInfoData_drop : (segInfoData s i).drop 13 = infoTail s i := rfl

theorem infoTail_take : (infoTail s i).take 9 = infoEvidence (getRec s i).evidence := by
  rw [infoTail, List.append_assoc]
  exact List.take_left' (infoEvidence_length _)

theorem infoTail_drop : (infoTail s i).drop 9 = infoEntry (findEntry s i) ++ infoDispute (findDispute s i) := by
  rw [infoTail, List.append_assoc]
  exact List.drop_left' (infoEvidence_length _)

theorem segInfoData_length : (segInfoData s i).length = 29 := by
  have htail : (infoTail s i).length = 16 := by
    simp [infoTail, infoEvidence_length, infoEntry_length, infoDispute_length]
  have hhead : ((segInfoData s i).take 13).length = 13 := rfl
  rw [← List.take_append_drop 13 (segInfoData s i), List.length_append, hhead, segInfoData_drop, htail]

theorem segInfoData_evidence : ((segInfoData s i).drop 13).take 9 = infoEvidence (getRec s i).evidence := infoTail_take

theorem segInfoData_entry : ((segInfoData s i).drop 22).take 5 = infoEntry (findEntry s i) := by
  have hdrop : (segInfoData s i).drop 22 = infoEntry (findEntry s i) ++ infoDispute (findDispute s i) := infoTail_drop
  rw [hdrop]
  exact List.take_left' (infoEntry_length _)

theorem segInfoData_dispute : (segInfoData s i).drop 27 = infoDispute (findDispute s i) := by
  have hdrop : (segInfoData s i).drop 27 = ((infoTail s i).drop 9).drop 5 := by
    rw [← segInfoData_drop, List.drop_drop, List.drop_drop]
  rw [hdrop, infoTail_drop]
  exact List.drop_left' (infoEntry_length _)

/-- R192: bits 0 to 6 of the flags byte. -/
theorem infoFlags_getLsbD {j : Nat} (hj : j < 7) : (infoFlags s i).getLsbD j =
    ([(getRec s i).exhausted, (getRec s i).mark, (getRec s i).evidence.isSome,
      (getRec s i).evidence.any (·.fromNews), pinned s i, (findEntry s i).isSome, (findDispute s i).isSome][j]'hj) := by
  have hbit (b : Bool) {k : Nat} (hk : k < 8) := getLsbD_flag b hk (Nat.lt_succ_of_lt hj)
  simp only [infoFlags, BitVec.getLsbD_or, hbit, Nat.reduceLT]
  interval_cases j <;> simp

/-- Settles O46: the bytes of STATUS (`statusData_eq`), the set of ROSTER (`rosterSet_getLsbD`), and the parts of the
29 bytes of SEGINFO. -/
theorem queriesReport : Obligations.QueriesReport := by
  refine fun s => ⟨by rw [exec_status, statusData_eq], fun ht =>
    ⟨⟨rosterSet s, exec_roster ht, rosterSet_getLsbD⟩, fun i hi => ?_⟩⟩
  refine ⟨segInfoData s i.toNat, exec_seginfo ht hi, segInfoData_length, rfl, ⟨infoFlags s i.toNat, rfl, ?_⟩,
    rfl, rfl, rfl, ?_, ?_, ?_⟩
  · refine ⟨infoFlags_getLsbD (by decide), infoFlags_getLsbD (by decide), infoFlags_getLsbD (by decide),
      infoFlags_getLsbD (by decide), ?_, infoFlags_getLsbD (by decide), infoFlags_getLsbD (by decide)⟩
    rw [infoFlags_getLsbD (by decide)]
    exact pinned_iff
  · rw [segInfoData_evidence]
    cases (getRec s i.toNat).evidence <;> rfl
  · rw [segInfoData_entry]
    cases findEntry s i.toNat <;> rfl
  · rw [segInfoData_dispute]
    cases findDispute s i.toNat <;> rfl

end Sys2Proof.Machine
end

section
/-! PROOFS. READ and TAKE by the read buffer, and STAGE byte by byte (R174, R176, R177). -/

namespace Sys2Proof.Machine

/- Theorems elaborated side by side pass the memory the check allows (as in Tests/Slice0.lean). -/
set_option Elab.async false

variable {s : State} {i : Nat}

/-! ### READ (R149, R174) -/

theorem exec_read {i : SegNum} (ht : s.start.top = .active ∨ s.start.top = .detached) (hi : i.toNat < segCount s) :
    exec (.read i) s = .next (readRule i.toNat s) := congrArg _ (takeCommand_segment ht hi)

theorem readRule_refused (h : (getRec s i).usable = false) : readRule i s = answered .refused [] s :=
  if_pos (by simp [h])

theorem readRule_busy (h : (getRec s i).usable = true) (hbuffer : s.host.readBuffer ≠ .empty) :
    readRule i s = answered .busy [] s :=
  (if_neg (by simp [h])).trans (if_pos hbuffer)

/-- R174: the state in which the read buffer awaits the bytes of segment `i`. -/
def bufferReading (i : Nat) (s : State) : State := { s with host.readBuffer := .reading i }

theorem readRule_accepted (h : (getRec s i).usable = true) (hbuffer : s.host.readBuffer = .empty) :
    readRule i s = answered .accepted [] (requestHostRead i (bufferReading i s)) :=
  (if_neg (by simp [h])).trans (if_neg (not_not_intro hbuffer))

/-- R149: behind an operation in progress the host read waits. -/
theorem requestHostRead_busy (i : Nat) (h : s.store.op ≠ .idle) :
    requestHostRead i s = { s with store.hostReq := some i } := if_pos h

/-- R149: with the store free and nothing pending the host read begins at once. -/
theorem requestHostRead_free (i : Nat) (h : StoreFree s.store) :
    requestHostRead i s = { s with store.op := .reading .host i } := by
  obtain ⟨hop, hwrites, hserve, hhost, _⟩ := h
  simp [requestHostRead, arbitrate, hop, hwrites, hserve, hhost]

/-! ### TAKE (R176) -/

theorem exec_take (ht : s.start.top = .active ∨ s.start.top = .detached) : exec .take s = .next (takeRule s) :=
  congrArg _ (takeCommand_rule (inRunning_iff.mpr ht) rfl)

theorem takeRule_complete {ok : Bool} {t : Stamp} {st : SegState} {data : List Byte}
    (h : s.host.readBuffer = .complete i ok t st data) :
    takeRule s = answered .done (takeData i ok t st data) { s with host.readBuffer := .empty } := by
  simp only [takeRule, h]
  rfl

theorem takeRule_noData (h : s.host.readBuffer = .empty ∨ ∃ i, s.host.readBuffer = .reading i) :
    takeRule s = answered .noData [] s := by
  rcases h with h | ⟨_, h⟩ <;> (simp only [takeRule, h]; rfl)

/-- Settles O47: READ by the copy, the read buffer and the store, TAKE by the read buffer. -/
theorem readAndTake : Obligations.ReadAndTake := by
  refine ⟨fun s i ht hi => ⟨fun hcopy => ?_, fun hcopy hbuffer => ?_, fun hcopy hbuffer => ⟨fun hfree => ?_,
    fun hbusy => ?_⟩⟩, fun s ht => ⟨fun i ok t st data hbuffer => ?_, fun hbuffer => ?_⟩⟩
  · rw [exec_read ht hi, readRule_refused hcopy]
  · rw [exec_read ht hi, readRule_busy hcopy hbuffer]
  · rw [exec_read ht hi, readRule_accepted hcopy hbuffer, requestHostRead_free (s := bufferReading i.toNat s) _ hfree]
    rfl
  · rw [exec_read ht hi, readRule_accepted hcopy hbuffer, requestHostRead_busy (s := bufferReading i.toNat s) _ hbusy]
    rfl
  · rw [exec_take ht, takeRule_complete hbuffer]
    rfl
  · rw [exec_take ht, takeRule_noData hbuffer]

/-! ### STAGE (R177) -/

theorem overwrite_length {l bytes : List Byte} {o : Nat} (h : o + bytes.length ≤ l.length) :
    (overwrite l o bytes).length = l.length := by
  simp only [overwrite, List.length_append, List.length_take, List.length_drop]
  omega

/-- R177: the bytes written stand from the offset on, and the others where they stood. -/
theorem overwrite_getElem? {l bytes : List Byte} {o : Nat} (h : o + bytes.length ≤ l.length) (k : Nat) :
    (overwrite l o bytes)[k]? = if o ≤ k ∧ k < o + bytes.length then bytes[k - o]? else l[k]? := by
  have hbefore : (l.take o).length = o := List.length_take_of_le (by omega)
  have hwritten : (l.take o ++ bytes).length = o + bytes.length := by rw [List.length_append, hbefore]
  rw [overwrite]
  rcases Nat.lt_or_ge k o with hk | hk
  · rw [if_neg (by omega), List.getElem?_append_left (by omega), List.getElem?_append_left (by omega),
      List.getElem?_take_of_lt hk]
  · rcases Nat.lt_or_ge k (o + bytes.length) with hin | hpast
    · rw [if_pos ⟨hk, hin⟩, List.getElem?_append_left (by omega), List.getElem?_append_right (by omega), hbefore]
    · rw [if_neg (by omega), List.getElem?_append_right (by omega), hwritten, List.getElem?_drop,
        Nat.add_sub_cancel' hpast]

section
variable {o n : Byte} {bytes : List Byte}
  (ht : s.start.top = .census ∨ s.start.top = .active ∨ s.start.top = .detached)
include ht

/-- R177: a STAGE whose offset or length is out of range. -/
theorem exec_stage_badArg (hwhole : stageLengthOk n = true → bytes.length = n.toNat)
    (hargs : stageArgsOk o n = false) : exec (.stage o n bytes) s = .next (answered .badArg [] s) :=
  congrArg _ ((if_neg (by simp [stageCut_whole hwhole])).trans (takeCommand_badArg (inCensusOn_of ht) hargs))

/-- R177: a STAGE in range, with its data bytes. -/
theorem exec_stage (hargs : stageArgsOk o n = true) (hlength : bytes.length = n.toNat) :
    exec (.stage o n bytes) s = .next (stageRule o.toNat bytes s) := by
  have hall : bytes.take n.toNat = bytes := List.take_of_length_le hlength.le
  have hrule := takeCommand_rule (argsOk := fun _ => stageArgsOk o n) (rule := stageRule o.toNat (bytes.take n.toNat))
    (inCensusOn_of ht) hargs
  rw [hall] at hrule
  rw [exec, execStage, if_neg (by simp [stageCut_whole fun _ => hlength]), hall, hrule]

end

theorem stageArgsOk_iff {o n : Byte} :
    stageArgsOk o n = true ↔ (1 ≤ n.toNat ∧ n.toNat ≤ 32) ∧ o.toNat + n.toNat ≤ 256 := by
  simp [stageArgsOk, stageLengthOk_iff]

/-- Settles O48: the lines of R177 in turn, and the place of each byte (`overwrite_getElem?`). -/
theorem stageWritesBytes : Obligations.StageWritesBytes := by
  refine fun s o n bytes ht => ⟨fun hn => ?_, fun hlow hhigh hlength => ⟨fun hend => ?_, fun hend => ?_⟩⟩
  · have hno : stageLengthOk n = false := by
      rcases hn with rfl | hn
      · rfl
      · simp [stageLengthOk, hn]
    exact exec_stage_badArg ht (by simp [hno]) (by simp [stageArgsOk, hno])
  · exact exec_stage_badArg ht (fun _ => hlength) (by simp [stageArgsOk, hend])
  · have hruled := exec_stage ht (stageArgsOk_iff.mpr ⟨⟨hlow, hhigh⟩, hend⟩) hlength
    refine ⟨fun hlocked => hruled.trans (congrArg _ (if_pos hlocked)), fun hfree hbuffer => ?_⟩
    have hfits : o.toNat + bytes.length ≤ s.host.staging.length := by omega
    refine ⟨overwrite s.host.staging o.toNat bytes, hruled.trans (congrArg _ (if_neg (by simp [hfree]))),
      (overwrite_length hfits).trans hbuffer, fun k => ?_⟩
    rw [overwrite_getElem? hfits, hlength]

end Sys2Proof.Machine
end

section
/-! PROOFS. PUBLISH: the new stamp, the record that awaits its write, the dispute closed with it, and the write that
begins or waits (R1, R3, R133, R145, R149, R178). -/

namespace Sys2Proof.Machine

/- Theorems elaborated side by side pass the memory the check allows (as in Tests/Slice0.lean). -/
set_option Elab.async false

variable {s : State} {i : Nat}

theorem exec_publish {i : SegNum} (ht : s.start.top = .active ∨ s.start.top = .detached) (hi : i.toNat < segCount s) :
    exec (.publish i) s = .next (publishRule i.toNat s) := congrArg _ (takeCommand_segment ht hi)

theorem publishRule_busy (h : s.host.locked = true ∨ 2 ≤ (getRec s i).pendingWrites) :
    publishRule i s = answered .busy [] s := if_pos h

theorem publishRule_accepts (hfree : s.host.locked = false) (hfew : (getRec s i).pendingWrites < 2) :
    publishRule i s = publishAccept i s := if_neg (by simp [hfree, hfew])

/-- R1: the stamp built on the newest one known. -/
theorem publishStamp_eq (i : Nat) (s : State) : publishStamp i s =
    ⟨if (newest (publishList i s)).version = 65535#16 then 1#16 else (newest (publishList i s)).version + 1#16,
      0#4 ++ s.start.station⟩ := by
  rw [publishStamp, nextStamp, stationByte_eq]

/-- R145: a publish write just begun. -/
def publishWrite (i : Nat) (t : Stamp) : WriteOp where
  client := .publish
  segment := i
  stamp := t
  signature := none
  timer := none

/-- R145, R149: in the free store the publish write begins at once. -/
theorem requestWrite_publish_free (t : Stamp) (h : StoreFree s.store) :
    requestWrite ⟨.publish, i, t⟩ s = { s with store.op := .writing (publishWrite i t) false } := by
  obtain ⟨hop, hwrites, _⟩ := h
  simp [requestWrite, arbitrate, hop, hwrites, beginWrite, publishWrite]

theorem publishCancel_absent (h : ∀ e ∈ s.repair.queue, e.segment ≠ i) : publishCancel i s = s := by
  rw [publishCancel, findEntry_eq_none h]
  rfl

/-- R178: the record of a publish accepted, its dispute mark clear. -/
def awaitingWrite (r : SegRec) : SegRec := clearMark (committing r)

/-- R178: the state in which the record awaits its write and its dispute is closed. -/
def publishReady (i : Nat) (s : State) : State := withRec i (awaitingWrite (getRec s i)) (freeDispute i s)

/-- R178: the same with the staging buffer locked. -/
def publishLocked (i : Nat) (s : State) : State := { publishReady i s with host.locked := true }

/-- R133, R178: with no entry of its own and no other dispute waiting, nothing else follows from the acceptance. -/
theorem publishAccept_alone (hi : i < segCount s) (hknown : (getRec s i).state ≠ .unknown)
    (hnone : ∀ e ∈ s.repair.queue, e.segment ≠ i)
    (hothers : ∀ j, j < segCount s → j ≠ i → waitsForEntry s j = false) :
    publishAccept i s = answered .accepted (stampBytes (publishStamp i s))
      (requestWrite ⟨.publish, i, publishStamp i s⟩ (publishLocked i s)) := by
  let q := committing (getRec s i)
  have hcounted : modifyRec i committing s = withRec i q s :=
    modifyRec_eq_withRec (contributed_congr (by simp [committing, hknown]) rfl rfl)
  have hkept : publishCancel i (withRec i q s) = withRec i q s := publishCancel_absent hnone
  have hcleared : modifyRec i clearMark (freeDispute i (withRec i q s)) = publishReady i s :=
    modifyRec_withRec (s := freeDispute i s) hi rfl
  have hwaiting : NoneWaiting (publishReady i s) :=
    noneWaiting_closed hi rfl (by simp [awaitingWrite, committing, clearMark]) rfl hothers
  have hready : publishClose i (publishCancel i (modifyRec i committing s)) = publishReady i s := by
    rw [hcounted, hkept, publishClose, hcleared, takeUpIf_noneWaiting _ hwaiting]
  rw [publishLocked, ← hready]
  rfl

/-- Settles O49: the stamp is `publishStamp_eq`, the rest `publishAccept_alone` with the write requested. -/
theorem publishChoosesStamp : Obligations.PublishChoosesStamp := by
  intro s i ht hi r known t
  have hstamp : publishStamp i.toNat s = t := publishStamp_eq i.toNat s
  refine ⟨fun hbusy => ?_, ?_⟩
  · rw [exec_publish ht hi, publishRule_busy hbusy]
  · intro hfree hfew hknown hnone hothers u
    have haccepted : exec (.publish i) s = .next (answered .accepted (stampBytes t)
        (requestWrite ⟨.publish, i.toNat, t⟩ (publishLocked i.toNat s))) := by
      rw [exec_publish ht hi, publishRule_accepts hfree hfew, publishAccept_alone hi hknown hnone hothers, hstamp]
    refine ⟨fun hstore => ?_, fun hop => ?_⟩
    · rw [haccepted, requestWrite_publish_free (s := publishLocked i.toNat s) t hstore]
      rfl
    · rw [haccepted, requestWrite_busy (s := publishLocked i.toNat s) _ hop]
      rfl

end Sys2Proof.Machine
end

section
/-! PROOFS. The end of a host read: the read buffer filled, and the copy lost where its slot fails the check (R7, R144,
R175). -/

namespace Sys2Proof.Machine

/- Theorems elaborated side by side pass the memory the check allows (as in Tests/Slice0.lean). -/
set_option Elab.async false

variable {s : State} {i : Nat} {bytes : List Byte} {result : SlotResult} {t : Stamp}

/-- R144, R175: the state in which the read buffer has been filled from `u` and the store is free again. -/
def hostFilled (i : Nat) (bytes : List Byte) (ok : Bool) (t : Stamp) (v : Store) (u : State) : State :=
  raise .readDone (some i) none (if ok then some t else none) { u with
    host := { u.host with readBuffer := .complete i ok t (getRec u i).state (bytes.take 256) }
    store := { v with op := .idle, transfer := bytes, computed := none } }

theorem hostVerdict_agrees (t : Stamp) (x : Signature) : hostVerdict (.written t x x) = (true, t) := by
  simp [hostVerdict]

theorem hostVerdict_differs (t : Stamp) {x y : Signature} (h : y ≠ x) : hostVerdict (.written t x y) = (false, t) := by
  simp [hostVerdict, h]

theorem exec_hostReadEnd (hop : s.store.op = .reading .host i) (hwait : s.start.storeWait = false)
    (hlength : bytes.length = 264) : exec (.slotReadEnd bytes) s =
      .next (endOp (hostReadEnd i (classSlot bytes) (bytes.take 256) (fillTransfer bytes s))) := by
  have hread : slotRead bytes s = endOp (handRead .host i (fillTransfer bytes s)) := by
    simp only [slotRead, hop, if_pos (show bytes.length = Config.slotBytes from hlength), hwait, Bool.false_eq_true,
      if_false]
  exact congrArg _ hread

/-- R175: the state that a host read found sound leaves as it is, or that the loss of a copy makes `u`, is the one the
buffer is filled from. -/
theorem hostReadEnd_fills {ok : Bool} {u : State} (hverdict : hostVerdict result = (ok, t))
    (hjudged : (if ok then fillTransfer bytes s else signatureFailure i (fillTransfer bytes s)) =
      { u with store := (fillTransfer bytes s).store })
    (hpending : NonePending s.store) :
    endOp (hostReadEnd i result (bytes.take 256) (fillTransfer bytes s)) = hostFilled i bytes ok t s.store u := by
  simp only [hostReadEnd, hverdict, hjudged]
  exact endOp_rest rfl hpending

theorem signatureFailure_unusable (h : (getRec s i).usable = false) : signatureFailure i s = s := if_neg (by simp [h])

/-- The loss of the copy does not concern the store. -/
theorem copyLost_store (v : Store) : copyLost i { s with store := v } = { copyLost i s with store := v } := by
  have hserve : (copyLost i s).serve = s.serve := putRec_serve s _ _
  exact (copyLost_serve_store (s := s) s.serve v).trans
    (congrArg (fun w : ServeUnit => { copyLost i s with serve := w, store := v }) hserve.symm)

/-- Settles O60: the buffer is filled (`hostReadEnd_fills`) from the state as it is, or from the one in which the copy
is lost (`GoodAlone.signatureFailure`). -/
theorem hostReadFillsBuffer : Obligations.HostReadFillsBuffer := by
  intro s bytes i hop hwait hpending hlength r filled damagedState
  have ends {ok : Bool} {t : Stamp} {u : State} (hverdict : hostVerdict (classSlot bytes) = (ok, t))
      (hjudged : (if ok then fillTransfer bytes s else signatureFailure i (fillTransfer bytes s)) =
        { u with store := (fillTransfer bytes s).store }) :
      exec (.slotReadEnd bytes) s = .next (filled ok t u) := by
    rw [exec_hostReadEnd hop hwait hlength, hostReadEnd_fills hverdict hjudged hpending]
    rfl
  have fails {t : Stamp} (hverdict : hostVerdict (classSlot bytes) = (false, t)) (husable : r.usable = false) :
      exec (.slotReadEnd bytes) s = .next (filled false t s) :=
    ends hverdict (signatureFailure_unusable (s := fillTransfer bytes s) husable)
  refine ⟨fun hclass => ends (by rw [hclass]; rfl) rfl,
    fun t x hclass => ends (by rw [hclass, hostVerdict_agrees]) rfl,
    fun husable => ⟨fun hclass => fails (by rw [hclass]; rfl) husable,
      fun t x y hclass hne => fails (by rw [hclass, hostVerdict_differs t hne]) husable⟩,
    fun hi husable hgood hwrites hev hnone hdisputes => ?_⟩
  have halone : GoodAlone (fillTransfer bytes s) i := ⟨hi, husable, hgood, hwrites, hev, hnone, hdisputes⟩
  have loses {t : Stamp} (hverdict : hostVerdict (classSlot bytes) = (false, t)) :
      exec (.slotReadEnd bytes) s = .next (filled false t damagedState) :=
    ends hverdict (halone.signatureFailure.trans (copyLost_store _))
  exact ⟨fun hclass => loses (by rw [hclass]; rfl),
    fun t x y hclass hne => loses (by rw [hclass, hostVerdict_differs t hne])⟩

end Sys2Proof.Machine
end

section
/-! PROOFS. A step runs the command at the front of the queue, every command completes, and the commands that wait stay
as they are: no unit touches the queue (`Moves.pending`), and the starts carry it over. -/

namespace Sys2Proof.Machine

variable {s t : State}

/-! ### The front of the queue -/

theorem step_pending_nil (h : s.pending = []) : step s = .next (startGoesOn s) := by
  simp only [step, h]

theorem startGoesOn_idles (h : ¬ haltsNext s = true) : startGoesOn s = s := if_neg h

/-- Settles O1: with a command at the front `step` is `exec` by definition; with none it is `startGoesOn`, whose
condition is `haltsNext_iff`. -/
theorem stepRunsFrontCommand : Obligations.StepRunsFrontCommand := by
  refine ⟨fun _ _ => rfl, fun s hempty => ⟨fun hhalts => ?_, fun hnot => ?_⟩⟩
  · rw [step_pending_nil hempty, startGoesOn_halts (haltsNext_iff.mpr hhalts)]
    rfl
  · rw [step_pending_nil hempty, startGoesOn_idles (mt haltsNext_iff.mp hnot)]

/-! ### Units at work leave the queue -/

theorem Inner.pending (h : Inner s t) : t.pending = s.pending := h.moves.pending

@[simp] theorem offer_pending (id : FrameId) (s : State) : (offer id s).pending = s.pending := (offer_inner id).pending

@[simp] theorem settle_pending (i : Nat) (s : State) : (settle i s).pending = s.pending := (settle_inner i).pending

@[simp] theorem tellEnd_pending (id : FrameId) (s : State) : (tellEnd id s).pending = s.pending :=
  (tellEnd_inner id).pending

@[simp] theorem readyHandOff_pending (s : State) : (readyHandOff s).pending = s.pending := readyHandOff_inner.pending

@[simp] theorem loseCopy_pending (i : Nat) (s : State) : (loseCopy i s).pending = s.pending :=
  (loseCopy_moves i s).pending

@[simp] theorem signatureFailure_pending (i : Nat) (s : State) : (signatureFailure i s).pending = s.pending :=
  (signatureFailure_inner i).pending

@[simp] theorem endOp_pending (s : State) : (endOp s).pending = s.pending := arbitrate_pending _

@[simp] theorem requestCensusRead_pending (i : Nat) (s : State) : (requestCensusRead i s).pending = s.pending :=
  arbitrate_pending _

@[simp] theorem requestHostRead_pending (i : Nat) (s : State) : (requestHostRead i s).pending = s.pending :=
  arbitrate_pending _

@[simp] theorem requestWrite_pending (q : WriteReq) (s : State) : (requestWrite q s).pending = s.pending :=
  arbitrate_pending _

/-! ### The life of the station -/

@[simp] theorem detachSequence_pending (r : Reason) (s : State) : (detachSequence r s).pending = s.pending :=
  (detachSequence_leaves r s).pending

@[simp] theorem countClash_pending (s : State) : (countClash s).pending = s.pending := by
  unfold countClash
  dsimp only
  split
  · exact detachSequence_pending _ _
  · rfl

@[simp] theorem ownNumber_pending (s : State) : (ownNumber s).pending = s.pending := by
  unfold ownNumber
  split
  · exact countClash_pending s
  · rfl

/-- R162, R166: the joining of the line makes inner moves between two changes of the roster. -/
@[simp] theorem joinLine_pending (s : State) : (joinLine s).pending = s.pending := by
  obtain ⟨_, _, offered, worked⟩ := joinLine_moves s
  calc (joinLine s).pending
      = (startBeacon (setRoster s.start.station ⟨true, none⟩ s)).pending := worked.pending
    _ = (setRoster s.start.station ⟨true, none⟩ s).pending := offered.pending
    _ = s.pending := setRoster_pending s _ _

@[simp] theorem enterActive_pending (s : State) : (enterActive s).pending = s.pending := joinLine_pending _

@[simp] theorem attachSequence_pending (s : State) : (attachSequence s).pending = s.pending := joinLine_pending _

@[simp] theorem halt_pending (r : Reason) (s : State) : (halt r s).pending = s.pending := rfl

@[simp] theorem afterStraps_pending (s : State) : (afterStraps s).pending = s.pending := by
  unfold afterStraps
  split <;> rfl

@[simp] theorem startGoesOn_pending (s : State) : (startGoesOn s).pending = s.pending := by
  unfold startGoesOn
  split <;> rfl

@[simp] theorem restartGoesOn_pending (s : State) : (restartGoesOn s).pending = s.pending := afterStraps_pending _

@[simp] theorem restartSequence_pending (s : State) : (restartSequence s).pending = s.pending := by
  unfold restartSequence
  dsimp only
  repeat' split
  · rfl
  · rfl
  · exact restartGoesOn_pending _

theorem sampleStraps_pending (stn : BitVec 4) (rate : BitVec 2) (s : State) :
    (sampleStraps stn rate s).pending = s.pending := by
  unfold sampleStraps
  split
  · exact afterStraps_pending _
  · rfl

/-- R156: the header read builds the tables and leaves the queue. -/
theorem headerRead_pending (l : List Byte) (s : State) : (headerRead l s).pending = s.pending := by
  unfold headerRead
  split
  · split
    · exact requestCensusRead_pending _ _
    · rfl
  · rfl

/-! ### The line -/

/-- A meaning that changes the Line Interface alone, or nothing. -/
theorem lineChange_pending (b : Prop) [Decidable b] (l : Line) (s : State) :
    (if b then { s with line := l } else s).pending = s.pending := by
  split <;> rfl

theorem startTransmission_pending (s : State) : (startTransmission s).pending = s.pending := by
  unfold startTransmission
  repeat' split
  all_goals rfl

theorem loseArbitration_pending (s : State) : (loseArbitration s).pending = s.pending := by
  unfold loseArbitration
  split <;> rfl

theorem clashed_pending (s : State) : (clashed s).pending = s.pending := by
  unfold clashed
  split
  · exact (countClash_pending _).trans (tellEnd_pending _ _)
  · exact countClash_pending _
  · rfl
  · rfl

theorem endedCleanly_pending (s : State) : (endedCleanly s).pending = s.pending := by
  unfold endedCleanly
  split
  · exact tellEnd_pending _ _
  · rfl
  · rfl
  · rfl

/-! ### Frames received -/

theorem presence_pending (p : Station) (s : State) : (presence p s).pending = s.pending := by
  unfold presence
  dsimp only
  split <;> simp

theorem receiveFrame_pending (p q : Station) (b : Body) (f : State → State)
    (hf : ∀ u, p ≠ u.start.station → (f u).pending = u.pending) (s : State) :
    (receiveFrame p q b f s).pending = s.pending := by
  unfold receiveFrame
  split
  · rfl
  · dsimp only
    split
    · rfl
    · split
      · exact ownNumber_pending _
      · rename_i hp
        have noted : (presence p (endReception s)).pending = s.pending := presence_pending p _
        split
        · exact (hf _ (by rw [presence_start]; exact hp)).trans noted
        · exact noted

/-- A frame acted on in ACTIVE alone leaves the queue when what its body does there leaves it (R32). -/
theorem receiveActive_pending (p q : Station) (b : Body) (f : State → State)
    (hf : ∀ u, u.start.top = .active → p ≠ u.start.station → (f u).pending = u.pending) (s : State) :
    (receiveFrame p q b (inActive f) s).pending = s.pending := by
  refine receiveFrame_pending p q b (inActive f) (fun u hp => ?_) s
  unfold inActive
  split
  · rename_i ht
    exact hf u ht hp
  · rfl

theorem deliverPoll_pending (p : Station) (i : Nat) (t : Stamp) (x : Signature) (ht : s.start.top = .active)
    (hp : p ≠ s.start.station) : (deliverPoll p i t x s).pending = s.pending := by
  obtain ⟨u, n, hu, heq⟩ := deliverPoll_inner (s := s) p i t x ht hp
  rw [heq]
  exact hu.pending

theorem deliverDigest_pending (p : Station) (b : Nat) (x : Signature) (s : State) :
    (deliverDigest p b x s).pending = s.pending := by
  unfold deliverDigest
  repeat' split
  · rfl
  · rfl
  · exact offer_pending _ s

/-! ### Timers -/

theorem disputeStationLost_pending (p : Station) (s : State) : (disputeStationLost p s).pending = s.pending := by
  unfold disputeStationLost
  exact (foldAny_inner _ (fun u i => evaluate_inner (s := u) i) _ _).pending

theorem silenceExpiry_pending (p : Station) (s : State) : (silenceExpiry p s).pending = s.pending := by
  unfold silenceExpiry
  split
  · have engines (u : State) : (serveStationLost p (engineStationLost p u)).pending = u.pending :=
      ((engineStationLost_inner p).trans (serveStationLost_inner p)).pending
    simp [stationLost, disputeStationLost_pending, engines]
  · rfl

theorem beaconExpiry_pending (s : State) : (beaconExpiry s).pending = s.pending := by
  unfold beaconExpiry
  split
  · exact offer_pending _ s
  · rfl

theorem holdoffExpiry_pending (b : Nat) (s : State) : (holdoffExpiry b s).pending = s.pending := by
  unfold holdoffExpiry
  repeat' split
  all_goals rfl

/-! ### Host commands -/

theorem takeCommand_pending (f : TopState → Bool) (g : State → Bool) (rule : State → State)
    (hr : f s.start.top = true → (rule s).pending = s.pending) : (takeCommand f g rule s).pending = s.pending := by
  unfold takeCommand
  repeat' split
  · rfl
  · rfl
  · rename_i h _
    exact hr (by simpa using h)

theorem readRule_pending (i : Nat) (s : State) : (readRule i s).pending = s.pending := by
  unfold readRule
  repeat' split
  · rfl
  · rfl
  · exact requestHostRead_pending _ _

theorem takeRule_pending (s : State) : (takeRule s).pending = s.pending := by
  unfold takeRule
  split <;> rfl

theorem stageRule_pending (o : Nat) (b : List Byte) (s : State) : (stageRule o b s).pending = s.pending := by
  unfold stageRule
  split <;> rfl

theorem publishRule_pending (i : Nat) (s : State) : (publishRule i s).pending = s.pending := by
  unfold publishRule
  split
  · rfl
  · rw [publishAccept, answer_pending, requestWrite_pending]
    exact (publish_moves i s).pending

theorem freshenActive_pending (i : Nat) (ht : listening s.start.top = true) :
    (freshenActive i s).pending = s.pending := by
  unfold freshenActive
  dsimp only
  split
  · rfl
  · split
    · rfl
    · rename_i hrefuse
      have hpin : pinned s i = false := by simpa using (not_or.mp hrefuse).1
      split
      · exact (askBank_inner i).pending
      · split
        · rename_i hf
          exact (enterQueue_inner .demand i hpin (.inr (.inl hf)) ht).pending
        · split
          · rename_i hf
            exact (freshenEnter_inner i ht hpin hf.1).pending
          · rfl

theorem freshenRule_pending (i : Nat) (ht : inRunning s.start.top = true) :
    (freshenRule i s).pending = s.pending := by
  unfold freshenRule
  split
  · rfl
  · rename_i hd
    refine freshenActive_pending i ?_
    revert ht hd
    cases s.start.top <;> simp [inRunning, listening]

theorem pinCancel_pending (i : Nat) (s : State) : (pinCancel i s).pending = s.pending := by
  unfold pinCancel cancelEntry
  split
  · exact ((dropEntry_inner i).trans ((settle_inner i).trans (backfill_inner.trans pick_inner))).pending
  · rfl

theorem pinRule_pending (i : Nat) (s : State) : (pinRule i s).pending = s.pending := by
  unfold pinRule
  repeat' split
  · rfl
  · rfl
  · exact pinCancel_pending i _

theorem unpinRule_pending (i : Nat) (s : State) : (unpinRule i s).pending = s.pending := by
  unfold unpinRule
  split
  · exact (offerRepair_inner i).pending
  · rfl

theorem acceptRule_pending (i : Nat) (s : State) : (acceptRule i s).pending = s.pending := by
  unfold acceptRule
  split
  · exact ((closeSettle_inner i).trans (takeUpIf_inner _)).pending
  · rfl

theorem detachRule_pending (s : State) : (detachRule s).pending = s.pending := by
  unfold detachRule
  rw [answer_pending]
  split
  · exact detachSequence_pending _ s
  · rfl

theorem attachRule_pending (s : State) : (attachRule s).pending = s.pending := by
  unfold attachRule
  rw [answer_pending]
  split
  · exact attachSequence_pending s
  · rfl

/-! ### Ends of store operations -/

theorem freeCommit_pending (s : State) : (freeCommit s).pending = s.pending := readyHandOff_pending _

/-- R105, R106, R180, R181: the client of a write applies its result by moves of the units, and frees its buffer. -/
theorem applyWrite_pending (w : WriteOp) (f : Option WriteFailure) (s : State) :
    (applyWrite w f s).pending = s.pending := by
  unfold applyWrite
  split
  · unfold commitSucceeded
    split
    · rfl
    · simp [freeCommit_pending]
  · simp [commitFailed, freeCommit_pending]
  · simp [publishSucceeded]
  · simp [publishFailed]

theorem endWrite_pending (w : WriteOp) (f : Option WriteFailure) (s : State) :
    (endWrite w f s).pending = s.pending := by
  unfold endWrite
  split
  · exact restartGoesOn_pending s
  · exact (endOp_pending _).trans (applyWrite_pending w f s)

theorem judgePolling_pending (w : WriteOp) (v : Byte) (s : State) : (judgePolling w v s).pending = s.pending := by
  unfold judgePolling
  repeat' split
  · exact endWrite_pending w _ s
  · rfl
  · exact endWrite_pending w _ s
  · rfl
  · rfl

theorem statusRead_pending (v : Byte) (s : State) : (statusRead v s).pending = s.pending := by
  unfold statusRead
  split
  · repeat' split
    all_goals rfl
  · repeat' split
    · exact endWrite_pending _ _ s
    · rfl
    · rfl
  · exact judgePolling_pending _ v s
  · split
    · rfl
    · exact endWrite_pending _ _ s
  · rfl

theorem pollTimeout_pending (s : State) : (pollTimeout s).pending = s.pending := by
  unfold pollTimeout
  repeat' split
  · rfl
  · exact endWrite_pending _ _ s
  · rfl
  · exact endWrite_pending _ _ s
  · rfl
  · rfl

theorem writeSequenceEnd_pending (s : State) : (writeSequenceEnd s).pending = s.pending := by
  unfold writeSequenceEnd
  split <;> rfl

theorem readback_pending (l : List Byte) (s : State) : (readback l s).pending = s.pending := by
  unfold readback
  split
  · split
    · exact endWrite_pending _ _ s
    · rfl
  · rfl

theorem applyCensus_pending (i : Nat) (r : SlotResult) (s : State) : (applyCensus i r s).pending = s.pending := by
  have told : (censusEvent i r s).pending = s.pending := by
    rcases censusEvent_cases i r s with h | ⟨_, h⟩ <;> rw [h]
    rfl
  simp [applyCensus, told]

theorem censusReadEnd_pending (i : Nat) (r : SlotResult) (s : State) : (censusReadEnd i r s).pending = s.pending := by
  unfold censusReadEnd
  dsimp only
  split
  · rw [requestCensusRead_pending]
    exact applyCensus_pending i r s
  · rw [enterActive_pending]
    exact applyCensus_pending i r s

theorem hostReadEnd_pending (i : Nat) (r : SlotResult) (data : List Byte) (s : State) :
    (hostReadEnd i r data s).pending = s.pending := by
  unfold hostReadEnd
  dsimp only [raise_pending]
  split
  · rfl
  · exact signatureFailure_pending i s

theorem handRead_pending (k : ReadClient) (i : Nat) (s : State) : (handRead k i s).pending = s.pending := by
  unfold handRead
  cases k with
  | serve => exact (serveReadEnd_inner i _ _).pending
  | host => exact hostReadEnd_pending i _ _ s
  | census => exact censusReadEnd_pending i _ s

theorem slotRead_pending (l : List Byte) (s : State) : (slotRead l s).pending = s.pending := by
  unfold slotRead
  split
  · split
    · dsimp only
      split
      · exact restartGoesOn_pending _
      · exact (endOp_pending _).trans (handRead_pending _ _ _)
    · rfl
  · rfl

/-! ### Every command -/

/-- Every command answers a next state with the queue as it was, in the order of the opcode table. -/
theorem exec_completes (c : Instr) (s : State) : ∃ t, exec c s = .next t ∧ t.pending = s.pending := by
  cases c with
  | coldStart => exact ⟨_, rfl, rfl⟩
  | strapSampling stn rate => exact ⟨_, rfl, sampleStraps_pending stn rate s⟩
  | storeStatusReadEnd v => exact ⟨_, rfl, statusRead_pending v s⟩
  | storePollTimeout => exact ⟨_, rfl, pollTimeout_pending s⟩
  | headerReadEnd l => exact ⟨_, rfl, headerRead_pending l s⟩
  | writeSequenceEnd => exact ⟨_, rfl, writeSequenceEnd_pending s⟩
  | readbackEnd l => exact ⟨_, rfl, readback_pending l s⟩
  | slotReadEnd l => exact ⟨_, rfl, slotRead_pending l s⟩
  | restartStoreWaitEnd =>
    refine ⟨_, rfl, ?_⟩
    split
    · exact restartGoesOn_pending s
    · exact startGoesOn_pending s
  | lineIdle => exact ⟨_, rfl, lineChange_pending _ _ s⟩
  | startBit => exact ⟨_, rfl, lineChange_pending _ _ s⟩
  | transmissionStart => exact ⟨_, rfl, startTransmission_pending s⟩
  | arbitrationLoss => exact ⟨_, rfl, loseArbitration_pending s⟩
  | clash => exact ⟨_, rfl, clashed_pending s⟩
  | cleanEnd => exact ⟨_, rfl, endedCleanly_pending s⟩
  | frameDiscarded _ => exact ⟨_, rfl, lineChange_pending _ _ s⟩
  | ownNumberFrame =>
    refine ⟨_, rfl, ?_⟩
    split
    · exact ownNumber_pending _
    · rfl
  | news p i t x =>
    exact ⟨_, rfl, receiveFrame_pending _ _ _ _ (fun _ hp => (deliverNews_inner p _ t x hp).pending) s⟩
  | poll p i t x =>
    exact ⟨_, rfl, receiveActive_pending _ _ _ _ (fun _ ht hp => deliverPoll_pending p _ t x ht hp) s⟩
  | ballot p i t x =>
    exact ⟨_, rfl, receiveActive_pending _ _ _ _ (fun _ ht hp => (deliverBallot_inner p _ t x ht hp).pending) s⟩
  | request p q i t m =>
    exact ⟨_, rfl, receiveActive_pending _ _ _ _ (fun _ ht _ => (takeRequest_inner p _ t m ht).pending) s⟩
  | nohave p q i t =>
    exact ⟨_, rfl, receiveActive_pending _ _ _ _ (fun _ _ _ => (deliverNohave_inner p _).pending) s⟩
  | busy p q i =>
    exact ⟨_, rfl, receiveActive_pending _ _ _ _ (fun _ ht _ => (deliverBusy_inner p _ ht).pending) s⟩
  | data p q i t ch bytes =>
    exact ⟨_, rfl, receiveActive_pending _ _ _ _ (fun _ ht _ => (deliverData_inner p _ t ch bytes ht).pending) s⟩
  | sigquery p q b =>
    exact ⟨_, rfl, receiveActive_pending _ _ _ _ (fun _ _ _ => (deliverSigquery_inner _).pending) s⟩
  | siglist p b k entries =>
    exact ⟨_, rfl, receiveFrame_pending _ _ _ _ (fun u hp => (listEntries_inner p entries _ u hp).pending) s⟩
  | digest p b x =>
    exact ⟨_, rfl, receiveActive_pending _ _ _ _ (fun u _ _ => deliverDigest_pending p _ x u) s⟩
  | silenceTimerExpiry p => exact ⟨_, rfl, silenceExpiry_pending p s⟩
  | beaconTimerExpiry => exact ⟨_, rfl, beaconExpiry_pending s⟩
  | queryHoldoffExpiry b => exact ⟨_, rfl, holdoffExpiry_pending b.toNat s⟩
  | patienceTimerExpiry => exact ⟨_, rfl, patienceExpiry_inner.pending⟩
  | disputeDeadlineExpiry i => exact ⟨_, rfl, (deadlineExpiry_inner i.toNat).pending⟩
  | transactionCutShort => exact ⟨_, rfl, rfl⟩
  | unknownCommand code =>
    refine ⟨_, rfl, ?_⟩
    split <;> rfl
  | status => exact ⟨_, rfl, takeCommand_pending _ _ _ fun _ => rfl⟩
  | seginfo i => exact ⟨_, rfl, takeCommand_pending _ _ _ fun _ => rfl⟩
  | roster => exact ⟨_, rfl, takeCommand_pending _ _ _ fun _ => rfl⟩
  | read i => exact ⟨_, rfl, takeCommand_pending _ _ _ fun _ => readRule_pending _ s⟩
  | take => exact ⟨_, rfl, takeCommand_pending _ _ _ fun _ => takeRule_pending s⟩
  | stage o n bytes =>
    refine ⟨_, rfl, ?_⟩
    split
    · rfl
    · exact takeCommand_pending _ _ _ fun _ => stageRule_pending _ _ s
  | publish i => exact ⟨_, rfl, takeCommand_pending _ _ _ fun _ => publishRule_pending _ s⟩
  | freshen i => exact ⟨_, rfl, takeCommand_pending _ _ _ fun ht => freshenRule_pending _ ht⟩
  | pin i => exact ⟨_, rfl, takeCommand_pending _ _ _ fun _ => pinRule_pending _ s⟩
  | unpin i => exact ⟨_, rfl, takeCommand_pending _ _ _ fun _ => unpinRule_pending _ s⟩
  | accept i => exact ⟨_, rfl, takeCommand_pending _ _ _ fun _ => acceptRule_pending _ s⟩
  | events n => exact ⟨_, rfl, takeCommand_pending _ _ _ fun _ => rfl⟩
  | detach => exact ⟨_, rfl, takeCommand_pending _ _ _ fun _ => detachRule_pending s⟩
  | attach => exact ⟨_, rfl, takeCommand_pending _ _ _ fun _ => attachRule_pending s⟩
  | restart => exact ⟨_, rfl, takeCommand_pending _ _ _ fun _ => restartSequence_pending s⟩

/-- Settles O2: each command of the opcode table by its own meaning (`exec_completes`). -/
theorem everyCommandCompletes : Obligations.EveryCommandCompletes := exec_completes

end Sys2Proof.Machine
end
